-- ==== Sys2Proof/Word.lean ====
section
/-! DEFINITION. The words of the model and the fixed-size tables that hold its records. -/

namespace Sys2Proof

/-- One octet of a link frame (R160). -/
abbrev Octet := BitVec 8

/-- A reading of the uptime, or the uptime of a timer's expiry: 32 bits that wrap (R26). -/
abbrev Uptime := BitVec 32

/-- A table of `n` records, numbered from 0 as R2 numbers portals, bores, zones, slots, lines and meters. -/
structure Tab (n : Nat) (α : Type) where
  /-- The records in ascending number. -/
  rows : List α
  /-- There is one record for each number. -/
  size : rows.length = n
deriving DecidableEq, Repr

/-- The record of number `i`. -/
def Tab.get {n : Nat} {α : Type} (t : Tab n α) (i : Fin n) : α :=
  t.rows[i.val]'(by rw [t.size]; exact i.isLt)

/-- The table with the record of number `i` replaced. -/
def Tab.put {n : Nat} {α : Type} (t : Tab n α) (i : Fin n) (a : α) : Tab n α :=
  ⟨t.rows.set i.val a, by rw [List.length_set]; exact t.size⟩

/-- The table whose every record is `a`. -/
def Tab.fill (n : Nat) {α : Type} (a : α) : Tab n α :=
  ⟨List.replicate n a, List.length_replicate⟩

/-- The table with every record changed by `f`, which also sees the record's number. -/
def Tab.mapWith {n : Nat} {α β : Type} (f : Fin n → α → β) (t : Tab n α) : Tab n β :=
  ⟨List.zipWith f (List.finRange n) t.rows, by simp [t.size]⟩

@[simp] theorem Tab.get_put_self {n : Nat} {α : Type} (t : Tab n α) (i : Fin n) (a : α) :
    (t.put i a).get i = a := by
  simp [Tab.get, Tab.put]

theorem Tab.get_put_ne {n : Nat} {α : Type} (t : Tab n α) {i j : Fin n} (h : j ≠ i) (a : α) :
    (t.put i a).get j = t.get j := by
  have h' : i.val ≠ j.val := fun e => h (Fin.ext e.symm)
  simp [Tab.get, Tab.put, h']

theorem Tab.get_put {n : Nat} {α : Type} (t : Tab n α) (i j : Fin n) (a : α) :
    (t.put i a).get j = if j = i then a else t.get j := by
  split
  · next h => subst h; exact t.get_put_self j a
  · next h => exact t.get_put_ne h a

@[simp] theorem Tab.get_fill {n : Nat} {α : Type} (a : α) (i : Fin n) : (Tab.fill n a).get i = a := by
  simp [Tab.get, Tab.fill]

@[simp] theorem Tab.get_mapWith {n : Nat} {α β : Type} (f : Fin n → α → β) (t : Tab n α) (i : Fin n) :
    (t.mapWith f).get i = f i (t.get i) := by
  simp [Tab.get, Tab.mapWith]

/-- Two tables with equal records are equal. -/
theorem Tab.ext_get {n : Nat} {α : Type} {t u : Tab n α} (h : ∀ i, t.get i = u.get i) : t = u := by
  obtain ⟨r, hr⟩ := t
  obtain ⟨q, hq⟩ := u
  have : r = q := by
    apply List.ext_getElem (by rw [hr, hq])
    intro k hk _
    exact h ⟨k, hr ▸ hk⟩
  subst this
  rfl

/-- Putting back the record a table holds changes nothing. -/
@[simp] theorem Tab.put_get {n : Nat} {α : Type} (t : Tab n α) (i : Fin n) : t.put i (t.get i) = t :=
  Tab.ext_get fun j => by
    rw [Tab.get_put]
    split
    · next h => rw [h]
    · rfl

end Sys2Proof
end

