-- ==== Sys2Proof/Syntax.lean ====
section
/-! DEFINITION. The commands of the block: one constructor for each row of the table of operations and
events (spec/opcode_table.json). A take by a request engine names its link alone: the request itself is
the one at the head of that link's request queue (R167). -/

namespace Sys2Proof

/-- The three links (R159): operations, traffic, and fire and emergency. -/
inductive Link where
  | o | t | s
deriving DecidableEq, Repr

/-- The pin of a line read at one level at some consecutive crystal periods (R154; log 18). -/
structure PinReading where
  line : Fin 192
  level : Bool
  periods : Nat
deriving DecidableEq, Repr

/-- A command: one event of the block, whole and indivisible. -/
inductive Instr where
  /-- Power becomes good (R158). -/
  | powerOn
  /-- The RESET pin has been low for `lowMicros` microseconds (R158: at least 10 is a reset). -/
  | resetPin (lowMicros : Nat)
  /-- The receiver of a link delivers one octet, with or without a framing error (R162). -/
  | rxOctet (l : Link) (octet : Octet) (framingError : Bool)
  /-- The gap timer of a link's framer expires (R163). -/
  | gapTimerExpiry (l : Link)
  /-- The receive line of a link has been at space for 20 ms (R165). -/
  | linkRestart (l : Link)
  /-- The receive line of a link returns to mark (R165). -/
  | lineReturnsToMark (l : Link)
  /-- The last octet of the frame being sent has been sent (R173). -/
  | transmissionEnd (l : Link)
  /-- The engine takes a request whose code names no request (R168). -/
  | unknownCode (l : Link)
  | echo (l : Link)
  | setNoticeMask (l : Link)
  | readPortal (l : Link)
  | readBore (l : Link)
  | readZone (l : Link)
  | readCircuit (l : Link)
  | readMeter (l : Link)
  | readLine (l : Link)
  | readPlan (l : Link)
  | readSchedule (l : Link)
  | readClock (l : Link)
  | writeLine (l : Link)
  | writeMeterSetup (l : Link)
  | writePortalSetup (l : Link)
  | writeZone (l : Link)
  | writePlan (l : Link)
  | writeSchedule (l : Link)
  | writeBoreSetup (l : Link)
  | setClock (l : Link)
  | commission (l : Link)
  | hold (l : Link)
  | release (l : Link)
  /-- A STOP whose body is not the immediate one (R192). -/
  | stopOrderly (l : Link)
  /-- A STOP whose body is the immediate one (R192). -/
  | stopImmediate (l : Link)
  | overrideSet (l : Link)
  | overrideClear (l : Link)
  | dryRunStart (l : Link)
  | dryRunInput (l : Link)
  | dryRunStop (l : Link)
  | lockoutModify (l : Link)
  | burnReset (l : Link)
  | speedReport (l : Link)
  | directionSet (l : Link)
  | emergencySet (l : Link)
  | emergencyClear (l : Link)
  /-- A portal's evaluation timer expires (R107). -/
  | portalEvaluation (p : Fin 4)
  /-- A bore's evaluation timer expires (R143). -/
  | boreEvaluation (b : Fin 2)
  /-- A meter's gate ends (R5). -/
  | gateExpiry (m : Fin 4)
  /-- The pin of a line is read, and a rising edge may be taken (R154; log 18). -/
  | meterEdge (reading : PinReading)
  /-- The 20th consecutive disagreeing sample of a line (R152). -/
  | feedbackChange (line : Fin 192)
  /-- The settle timer of a circuit expires (R91, R92). -/
  | settleExpiry (z : Fin 14) (k : Fin 8)
  /-- The loss timer of a circuit expires (R94, R95). -/
  | lossExpiry (z : Fin 14) (k : Fin 8)
  /-- The burn tick expires (R100). -/
  | burnTick
  /-- The timer of a portal's override expires (R121). -/
  | overrideExpiry (p : Fin 4)
  /-- The stale timer of a bore expires (R134). -/
  | staleExpiry (b : Fin 2)
  /-- The clock of day advances by a minute (R27). -/
  | minuteAdvance
  /-- The RESET pin returns high (R158). -/
  | resetPinRelease
  /-- A whole millisecond: every feedback line is sampled; bit i of `pins` is the level of line i's pin (R152). -/
  | feedbackSample (pins : BitVec 192)
  /-- A whole millisecond: a new PWM period begins (R151). -/
  | pwmPeriodStart
deriving DecidableEq, Repr

end Sys2Proof
end

