-- ==== Sys2Proof/WellFormed.lean ====
section
/-! DEFINITION. Which commands are well formed. The types of the operands carry every other bound: a
portal, bore, meter, zone, slot and line number is a `Fin`, an octet has 8 bits. -/

namespace Sys2Proof

/-- A command is well formed. A low on the RESET pin has a length, and a pin is read at one crystal period at least:
of no length neither is an event (R154, R158). -/
def Instr.wellFormed : Instr → Bool
  | .resetPin lowMicros => decide (0 < lowMicros)
  | .meterEdge reading => decide (0 < reading.periods)
  | .powerOn | .rxOctet .. | .gapTimerExpiry _ | .linkRestart _ | .lineReturnsToMark _ | .transmissionEnd _
  | .unknownCode _ | .echo _ | .setNoticeMask _ | .readPortal _ | .readBore _ | .readZone _ | .readCircuit _
  | .readMeter _ | .readLine _ | .readPlan _ | .readSchedule _ | .readClock _ | .writeLine _
  | .writeMeterSetup _ | .writePortalSetup _ | .writeZone _ | .writePlan _ | .writeSchedule _
  | .writeBoreSetup _ | .setClock _ | .commission _ | .hold _ | .release _ | .stopOrderly _
  | .stopImmediate _ | .overrideSet _ | .overrideClear _ | .dryRunStart _ | .dryRunInput _ | .dryRunStop _
  | .lockoutModify _ | .burnReset _ | .speedReport _ | .directionSet _ | .emergencySet _
  | .emergencyClear _ | .portalEvaluation _ | .boreEvaluation _ | .gateExpiry _
  | .feedbackChange _ | .settleExpiry .. | .lossExpiry .. | .burnTick | .overrideExpiry _ | .staleExpiry _
  | .minuteAdvance | .resetPinRelease | .feedbackSample _ | .pwmPeriodStart => true

end Sys2Proof
end

