-- ==== Sys2Proof/Decode.lean ====
section
/-! DEFINITION. What a word spells. No row of spec/opcode_table.json gives bits (its rows are events and
takes, not words), so no word spells a command. How a REQUEST is read from the octets of a frame is the
framer's and the request engine's work: Machine/Framing.lean and Machine/Engine.lean. -/

namespace Sys2Proof

/-- The command that a word of `nbits` bits spells by the table's bits: none, since the table gives no row bits. -/
def decodeTableWord (_nbits _w : Nat) : Option Instr :=
  none

end Sys2Proof
end

