-- ==== Sys2Proof/Config.lean ====
section
/-! DEFINITION. The free values: what the spec leaves open and the part nevertheless has a value for.
Each is an opaque constant, so no proof can see what it is. -/

namespace Sys2Proof

/-- Free value (log 8): the level, high or not, that a read of a DIM_OUT pin in the middle of a pulse
period finds (R157 "may read either level"), for each draw and line. -/
opaque Config.pulseLevel : Nat → Fin 192 → Bool

/-- Free value (log 9): whether a RESET low of 2 to 10 microseconds is taken as a reset (R158 "may or may
not be taken as a reset"), for each draw. -/
opaque Config.shortLowTaken : Nat → Bool

/-- Free value (log 10): the target octet of a COLD_START notice, whose subject is the part (R176). -/
opaque Config.coldStartTarget : Octet

end Sys2Proof
end

