-- ==== Sys2Proof/Machine/State.lean ====
section
/-! DEFINITION. The state of the block, as plain data, and the state right after reset. Quantities the manual
counts in are `Nat` (their ranges are the invariants of Safety.lean); octets and the uptime are bit vectors. -/

namespace Sys2Proof.Machine

/-! ### The line bank (R147) -/

/-- The five functions of a line (R148). -/
inductive LineFn where
  | released | switchOut | dimOut | feedbackIn | meterIn
deriving DecidableEq, Repr

/-- Whether a line's output buffer drives its pin (R147). -/
inductive Drive where
  | driven | floating
deriving DecidableEq, Repr

/-- The output value of a line (R147). -/
inductive OutputValue where
  | none
  | level (active : Bool)
  | duty (perMille : Nat)
deriving DecidableEq, Repr

/-- The edge detector of a METER_IN line (R154; log 18). -/
structure EdgeDetector where
  /-- The value seen, present or absent: the last raw value that stood for 20 consecutive crystal periods. -/
  seen : Bool
  /-- The consecutive crystal periods at which the raw value has differed from the value seen, 0 to 19. -/
  run : Nat
deriving DecidableEq, Repr

/-- Edge detection as it begins: no edge is taken until the raw value has been absent for 20 crystal periods and
present again, so a pin already present is none (R154). -/
def EdgeDetector.start : EdgeDetector where
  seen := true
  run := 0

/-- A line record (R147). -/
structure Line where
  fn : LineFn
  invert : Bool
  drive : Drive
  output : OutputValue
  /-- Debounced value: present, absent, or none where the line is no FEEDBACK_IN line. -/
  debounced : Option Bool
  /-- Debounce count, 0 to 19, or none. -/
  count : Option Nat
  /-- The edge detector of a METER_IN line (R154), or none. -/
  edge : Option EdgeDetector
  /-- Duty of the PWM period in progress (R151), or none. -/
  period : Option Nat
deriving DecidableEq, Repr

/-- The cold-start line record (R147). -/
def Line.cold : Line where
  fn := .released
  invert := false
  drive := .floating
  output := .none
  debounced := none
  count := none
  edge := none
  period := none

/-! ### The meter inputs (R3) -/

inductive MeterStatus where
  | unconfigured | starting | valid | faulty
deriving DecidableEq, Repr

/-- The five flags of a sample (R6). -/
inductive SampleFlag where
  | invalidLow | underZero | valid | over | invalidHigh
deriving DecidableEq, Repr

/-- A sample record of the ring (R8). -/
structure Sample where
  stamp : Uptime
  count : Nat
  flag : SampleFlag
deriving DecidableEq, Repr

/-- A meter record (R3). -/
structure Meter where
  line : Option (Fin 192)
  gate : Nat
  span : Nat
  weight : Nat
  status : MeterStatus
  invalidCount : Nat
  validCount : Nat
  filtered : Option Nat
  gateCount : Nat
  /-- Oldest first, at most 16 (R8). -/
  ring : List Sample
  /-- The expiry of the gate in progress (R5), or no gate. -/
  gateEnd : Option Uptime
deriving DecidableEq, Repr

/-- The cold-start meter record (R3). -/
def Meter.cold : Meter where
  line := none
  gate := 1000
  span := 9999
  weight := 4
  status := .unconfigured
  invalidCount := 0
  validCount := 0
  filtered := none
  gateCount := 0
  ring := []
  gateEnd := none

/-- A window of the schedule (R23). -/
structure Window where
  start : Nat
  width : Nat
  access : Nat
deriving DecidableEq, Repr

/-- The clock of day once set (R27), with the uptime of its next minute advance. -/
structure Clock where
  minute : Nat
  day : Nat
  next : Uptime
deriving DecidableEq, Repr

/-! ### Level plans (R28) -/

inductive PlanSlot where
  | a | b
deriving DecidableEq, Repr

/-- A point of a plan's curve (R28). -/
structure Point where
  access : Nat
  threshold : Nat
deriving DecidableEq, Repr

/-- A level plan (R28). -/
structure Plan where
  curve : List Point
  /-- Speed factors, classes 0 to 4. -/
  factors : Tab 5 Nat
  r1 : Nat
  r2 : Nat
  interiorDay : Nat
  interiorNight : Nat
  nightThreshold : Nat
  dayThreshold : Nat
  /-- Minutes. -/
  nightHold : Nat
  riseStep : Nat
  fallStep : Nat
deriving DecidableEq, Repr

/-! ### The portal channels (R104) -/

inductive PortalState where
  | offline | held | dryRun | auto | emergency
deriving DecidableEq, Repr

inductive Source where
  | own | partner | schedule | blind
deriving DecidableEq, Repr

inductive Role where
  | entry | exit
deriving DecidableEq, Repr

/-- What an override does (R119). -/
inductive OverrideKind where
  | level (lum : Nat)
  | freeze
deriving DecidableEq, Repr

/-- An override record (R119). -/
structure Override where
  kind : OverrideKind
  /-- Duration as set, minutes; 0 means until cleared. -/
  duration : Nat
  /-- The override timer's expiry, for a duration above 0. -/
  expiry : Option Uptime
deriving DecidableEq, Repr

inductive ActionKind where
  | hold | release | stopOrderly
deriving DecidableEq, Repr

/-- A pending-action record (R109). -/
structure PendingAction where
  kind : ActionKind
  link : Link
  tag : Octet
  ackWanted : Bool
  answerOwed : Bool
deriving DecidableEq, Repr

/-- A dry-run input record (R123). -/
structure DryRunInput where
  access : Nat
  speedClass : Option (Fin 5)
  plan : Option PlanSlot
deriving DecidableEq, Repr

/-- A portal record (R104). -/
structure Portal where
  state : PortalState
  meter : Option (Fin 4)
  partner : Option (Fin 4)
  /-- Partner factor Q, per-mille. -/
  factor : Nat
  planA : Option Plan
  planB : Option Plan
  source : Option Source
  access : Option Nat
  planInUse : Option PlanSlot
  night : Bool
  lowCount : Nat
  role : Option Role
  override : Option Override
  action : Option PendingAction
  dryRun : Option DryRunInput
  /-- The next expiry of the evaluation timer, or stopped. -/
  timer : Option Uptime
deriving DecidableEq, Repr

/-- The cold-start portal record (R104, R15). -/
def Portal.cold : Portal where
  state := .offline
  meter := none
  partner := none
  factor := 1000
  planA := none
  planB := none
  source := none
  access := none
  planInUse := none
  night := false
  lowCount := 0
  role := none
  override := none
  action := none
  dryRun := none
  timer := none

/-! ### The bore units (R129) -/

inductive DirectionMode where
  | forward | reverse | bidirectional | closed
deriving DecidableEq, Repr

inductive Condition where
  | driven | held | released
deriving DecidableEq, Repr

/-- A bore record (R129, R40). -/
structure Bore where
  mode : DirectionMode
  speedClass : Fin 5
  congested : Bool
  stale : Bool
  /-- Seconds. -/
  staleTimeout : Nat
  staleTimer : Option Uptime
  emergency : Bool
  /-- The interior demand I. -/
  demand : Nat
  /-- The base interior demand Ib. -/
  base : Nat
  supplier : Option (Fin 4 × PlanSlot)
  interiorNight : Bool
  condition : Condition
  /-- The next expiry of the evaluation timer. -/
  timer : Uptime
deriving DecidableEq, Repr

/-- The cold-start bore record (R129). -/
def Bore.cold : Bore where
  mode := .forward
  speedClass := 4
  congested := false
  stale := true
  staleTimeout := 120
  staleTimer := none
  emergency := false
  demand := 0
  base := 0
  supplier := none
  interiorNight := false
  condition := .released
  timer := 1000

/-! ### Zones and circuits (R62, R63) -/

inductive CircuitKind where
  | switched | dimmed
deriving DecidableEq, Repr

/-- The seven circuit states (R87). -/
inductive CircuitState where
  | off | switchingOn | on | switchingOff | failedDark | stuckOn | lockedOut
deriving DecidableEq, Repr

inductive TimerKind where
  | settle | loss
deriving DecidableEq, Repr

/-- A circuit's timer (R89). -/
structure CircuitTimer where
  kind : TimerKind
  expiry : Uptime
deriving DecidableEq, Repr

/-- A circuit record (R63). -/
structure Circuit where
  kind : CircuitKind
  rating : Nat
  output : Fin 192
  feedback : Option (Fin 192)
  state : CircuitState
  /-- Commanded level of a DIMMED circuit; 0 in a SWITCHED one. -/
  level : Nat
  timer : Option CircuitTimer
  burn : Nat
deriving DecidableEq, Repr

inductive OrderMode where
  | sequential | interleaved
deriving DecidableEq, Repr

/-- A preview record (R83). -/
structure Preview where
  demand : Nat
  /-- The slots that would be on, in rotation order. -/
  slots : List (Fin 8)
  dim : Option Nat
  shortfall : Bool
deriving DecidableEq, Repr

/-- A zone record (R62). -/
structure Zone where
  slots : Tab 8 (Option Circuit)
  order : OrderMode
  /-- Rotation start s. -/
  rotation : Fin 8
  settle : Nat
  hysteresis : Nat
  minDim : Nat
  demand : Nat
  ramped : Nat
  dim : Option Nat
  shortfall : Bool
  preview : Option Preview
deriving DecidableEq, Repr

/-- The cold-start zone record (R62). -/
def Zone.cold : Zone where
  slots := Tab.fill 8 none
  order := .sequential
  rotation := 0
  settle := 1000
  hysteresis := 100
  minDim := 100
  demand := 0
  ramped := 0
  dim := none
  shortfall := false
  preview := none

/-! ### The links (R159) -/

/-- The dispositions of R169. -/
inductive Disposition where
  | done | adjusted | partialDone | busy | wrongState | isProtected | notPermitted | unknown | badLength | badValue
  | abandoned | incomplete
deriving DecidableEq, Repr

/-- A request as the framer gives it to the queue (R164): the fields of its frame. -/
structure Request where
  tag : Octet
  urgent : Bool
  ackWanted : Bool
  code : Octet
  target : Octet
  body : List Octet
deriving DecidableEq, Repr

/-- A response (R170): what it echoes, its dispositions and the data it carries. -/
structure Response where
  tag : Octet
  code : Octet
  target : Octet
  frame : Disposition
  each : List Disposition
  data : List Octet
deriving DecidableEq, Repr

/-- The eight notice kinds (R174). -/
inductive NoticeKind where
  | portalState | source | meterState | circuitFault | shortfall | trafficState | overrideEnded | coldStart
deriving DecidableEq, Repr

/-- A notice with its subject and content (R174; the content by R126, R20, R12, R97, R78, R146, R121, R176). -/
inductive Notice where
  | portalState (p : Fin 4) (state : PortalState) (role : Option Role) (action : Option ActionKind)
  | source (p : Fin 4) (source : Option Source) (access : Option Nat)
  | meterState (m : Fin 4) (status : MeterStatus) (filtered : Option Nat) (invalidCount validCount : Nat)
      (flag : Option SampleFlag)
  | circuitFault (z : Fin 14) (failed stuck : List (Fin 8))
  | shortfall (z : Fin 14) (flag : Bool) (ramped capacity : Nat)
  | trafficState (b : Fin 2) (mode : DirectionMode) (speedClass : Fin 5) (congested stale emergency : Bool)
  | overrideEnded (p : Fin 4) (kind : OverrideKind)
  | coldStart
deriving DecidableEq, Repr

/-- The frame a transmitter is sending. -/
inductive TxFrame where
  | response (r : Response)
  | notice (n : Notice)
deriving DecidableEq, Repr

/-- A framer's state (R162), with the octets collected after the start octet and the gap timer's expiry (R163). -/
inductive Framer where
  | hunt
  | collect (octets : List Octet) (gap : Uptime)
  | brk
deriving DecidableEq, Repr

/-- A transmitter's state (R173). `ends` is the uptime by which the frame has been sent (log 6). -/
inductive Transmitter where
  | idle
  | sending (frame : TxFrame) (ends : Uptime)
  | silent
deriving DecidableEq, Repr

/-- A link record (R159). -/
structure LinkRec where
  framer : Framer
  /-- In queue order, head first. -/
  requests : List Request
  /-- In the order placed. -/
  responses : List Response
  transmitter : Transmitter
  /-- In queue order, head first. -/
  notices : List Notice
  /-- The maskable kinds in the link's notice mask. -/
  mask : List NoticeKind
deriving DecidableEq, Repr

/-- The cold-start link record, but for the mask (R159). -/
def LinkRec.cold (mask : List NoticeKind) : LinkRec where
  framer := .hunt
  requests := []
  responses := []
  transmitter := .idle
  notices := [.coldStart]
  mask := mask

/-- The notice mask of a link at cold start (R177). -/
def coldMask : Link → List NoticeKind
  | .o => [.portalState, .source, .meterState, .circuitFault, .shortfall, .trafficState, .overrideEnded]
  | .t => [.portalState, .trafficState]
  | .s => [.portalState]

/-- The number under which a link's record is held (the link codes of the layout tables). -/
def Link.index : Link → Fin 3
  | .o => 0
  | .t => 1
  | .s => 2

/-! ### The machine -/

/-- The state of the block: everything the spec gives it, the queue of waiting commands, and the count of
free values drawn. -/
structure State where
  /-- The commands that wait, first in first out. -/
  pending : List Instr
  /-- The RESET pin holds the part in reset (R158). -/
  inReset : Bool
  /-- R26. -/
  uptime : Uptime
  /-- Unset, or the clock of day (R27). -/
  clock : Option Clock
  /-- Next expiry of the burn tick (R100). -/
  burnDue : Uptime
  /-- The next whole millisecond at which the feedback lines are sampled (R152). -/
  sampleDue : Uptime
  /-- The next whole millisecond at which a PWM period begins (R151). -/
  periodDue : Uptime
  lines : Tab 192 Line
  /-- The level of each pin as the cabinet wiring gives it, bit i for line i (log 7). -/
  pins : BitVec 192
  meters : Tab 4 Meter
  /-- In ascending start order (R24). -/
  schedule : List Window
  portals : Tab 4 Portal
  bores : Tab 2 Bore
  zones : Tab 14 Zone
  links : Tab 3 LinkRec
  /-- The model's own (log 8): how many free values have been drawn. -/
  draws : Nat
deriving DecidableEq, Repr

/-- The three link records at cold start (R159, R177), at the numbers of `Link.index`. -/
def coldLinks : Tab 3 LinkRec :=
  ⟨[LinkRec.cold (coldMask .o), LinkRec.cold (coldMask .t), LinkRec.cold (coldMask .s)], rfl⟩

/-- The machine right after reset: every record at its cold-start value (R197), at the instant the part has
left reset and before its transmitters have begun their COLD_START notices (log 1). -/
def State.reset : State where
  pending := []
  inReset := false
  uptime := 0
  clock := none
  burnDue := 1000
  sampleDue := 1
  periodDue := 1
  lines := Tab.fill 192 Line.cold
  pins := 0
  meters := Tab.fill 4 Meter.cold
  schedule := []
  portals := Tab.fill 4 Portal.cold
  bores := Tab.fill 2 Bore.cold
  zones := Tab.fill 14 Zone.cold
  links := coldLinks
  draws := 0

/-- Faults: none. No rule of the spec stops the machine: a failed circuit is a circuit state (R87), a request
that cannot be carried out is answered with a disposition (R169). -/
inductive Fault where
deriving DecidableEq, Repr

/-- Refusals. -/
inductive Refusal where
  /-- Raised by `exec` alone, for a command that has no meaning yet; safe. No arm gives it. -/
  | notModelled (mnemonic : String)
deriving DecidableEq, Repr

end Sys2Proof.Machine
end

