-- ==== Sys2Proof/Machine/Operands.lean ====
section
/-! DEFINITION. The arithmetic of the part, the reading and writing of octets, the value codes of the layout
tables, and the computations on one record: samples, plans, curves, ramps, dim levels, rotation orders. -/

namespace Sys2Proof.Machine

/-! ### Conventions (R2) and time (R26) -/

/-- "Rounded" division: to the nearest integer, exact halves upward (R2). -/
def roundDiv (n d : Nat) : Nat :=
  (2 * n + d) / (2 * d)

/-- The uptime has reached the uptime `e`, across the return to 0 (R26): `e` lies less than half a turn back. -/
def reached (now e : Uptime) : Bool :=
  decide ((now - e).toNat < 2 ^ 31)

/-- The uptime `ms` milliseconds after `now` (R26). -/
def msAfter (now : Uptime) (ms : Nat) : Uptime :=
  now + BitVec.ofNat 32 ms

/-- The milliseconds left to the expiry `e`, 0 when it has come. -/
def msLeft (now e : Uptime) : Nat :=
  if reached now e then 0 else (e - now).toNat

/-! ### Octets (R180) -/

/-- A number as one octet. -/
def be8 (n : Nat) : List Octet :=
  [BitVec.ofNat 8 n]

/-- A number as two octets, most significant first. -/
def be16 (n : Nat) : List Octet :=
  [BitVec.ofNat 8 (n / 256), BitVec.ofNat 8 n]

/-- A number as three octets, most significant first. -/
def be24 (n : Nat) : List Octet :=
  [BitVec.ofNat 8 (n / 65536), BitVec.ofNat 8 (n / 256), BitVec.ofNat 8 n]

/-- A number as four octets, most significant first. -/
def be32 (n : Nat) : List Octet :=
  [BitVec.ofNat 8 (n / 16777216), BitVec.ofNat 8 (n / 65536), BitVec.ofNat 8 (n / 256), BitVec.ofNat 8 n]

/-- A one-octet field that may be absent: the marker is FFh (R180). -/
def opt8 (o : Option Nat) : List Octet :=
  be8 (o.getD 0xFF)

/-- A two-octet field that may be absent: the marker is FFFFh (R180). -/
def opt16 (o : Option Nat) : List Octet :=
  be16 (o.getD 0xFFFF)

/-- A four-octet field that may be absent: the marker is FFFFFFFFh (R180). -/
def opt32 (o : Option Nat) : List Octet :=
  be32 (o.getD 0xFFFFFFFF)

/-- The number two octets carry, most significant first (R180). -/
def nat16 (hi lo : Octet) : Nat :=
  hi.toNat * 256 + lo.toNat

/-- The number three octets carry, most significant first (R180). -/
def nat24 (hi mid lo : Octet) : Nat :=
  (hi.toNat * 256 + mid.toNat) * 256 + lo.toNat

/-- A flag as 0 or 1. -/
def flagCode (b : Bool) : Nat :=
  if b then 1 else 0

/-- A flag octet: 0 clear, 1 set, any other value has no meaning. -/
def flagOf (o : Octet) : Option Bool :=
  if o = 0 then some false else if o = 1 then some true else none

/-- A number below `n`, or nothing. -/
def finOf (n k : Nat) : Option (Fin n) :=
  if h : k < n then some ⟨k, h⟩ else none

/-- A field that may be absent: FFh is absent, a number below `n` is that number, any other is out of range. -/
def optFinOf (n : Nat) (o : Octet) : Option (Option (Fin n)) :=
  if o = 0xFF then some none else (finOf n o.toNat).map some

/-! ### The check of a frame (R161) -/

/-- One shift of the check register. -/
def crcShift (r : BitVec 16) : BitVec 16 :=
  if r.msb then (r <<< 1) ^^^ 0x8005#16 else r <<< 1

/-- One octet combined into the check register. -/
def crcOctet (r : BitVec 16) (o : Octet) : BitVec 16 :=
  Nat.repeat crcShift 8 (r ^^^ (o.zeroExtend 16 <<< 8))

/-- The check over a run of octets (R161). -/
def crc (os : List Octet) : BitVec 16 :=
  os.foldl crcOctet 0

/-- The two check octets, upper first (R161). -/
def checkOctets (os : List Octet) : List Octet :=
  be16 (crc os).toNat

/-! ### Masks -/

/-- The units of a mask of `n` units: nothing when none is selected or a bit above them is set (R178). -/
def unitsOf (n : Nat) (mask : Octet) : Option (List (Fin n)) :=
  if mask = 0 ∨ 2 ^ n ≤ mask.toNat then none
  else some ((List.finRange n).filter fun i => mask.getLsbD i.val)

/-- The mask of a list of units. -/
def maskOf {n : Nat} (us : List (Fin n)) : Nat :=
  ((List.finRange n).map fun i => if i ∈ us then 2 ^ i.val else 0).sum

/-- The slots of a slot mask. -/
def slotsOf (mask : Octet) : List (Fin 8) :=
  (List.finRange 8).filter fun i => mask.getLsbD i.val

/-! ### Value codes (layout tables of chapter 10) -/

def Disposition.code : Disposition → Nat
  | .done => 0x00
  | .adjusted => 0x01
  | .partialDone => 0x02
  | .busy => 0x03
  | .wrongState => 0x04
  | .isProtected => 0x05
  | .notPermitted => 0x06
  | .unknown => 0x07
  | .badLength => 0x08
  | .badValue => 0x09
  | .abandoned => 0x0A
  | .incomplete => 0x0B

def NoticeKind.code : NoticeKind → Nat
  | .portalState => 0x80
  | .source => 0x81
  | .meterState => 0x82
  | .circuitFault => 0x83
  | .shortfall => 0x84
  | .trafficState => 0x85
  | .overrideEnded => 0x86
  | .coldStart => 0x87

/-- The maskable kinds, in the order of their mask bits (R177). -/
def maskable : List NoticeKind :=
  [.portalState, .source, .meterState, .circuitFault, .shortfall, .trafficState, .overrideEnded]

/-- The mask that the body of a SET_NOTICE_MASK carries; bit 7 is ignored (R182). -/
def noticeMaskOf (o : Octet) : List NoticeKind :=
  maskable.filter fun k => o.getLsbD (k.code - 0x80)

def PortalState.code : PortalState → Nat
  | .offline => 0
  | .held => 1
  | .dryRun => 2
  | .auto => 3
  | .emergency => 4

def Source.code : Source → Nat
  | .own => 0
  | .partner => 1
  | .schedule => 2
  | .blind => 3

def Role.code : Role → Nat
  | .entry => 0
  | .exit => 1

def PlanSlot.code : PlanSlot → Nat
  | .a => 0
  | .b => 1

def planSlotOf (o : Octet) : Option PlanSlot :=
  if o = 0 then some .a else if o = 1 then some .b else none

def OverrideKind.code : OverrideKind → Nat
  | .level _ => 0
  | .freeze => 1

def ActionKind.code : ActionKind → Nat
  | .hold => 0
  | .release => 1
  | .stopOrderly => 2

def Link.code (l : Link) : Nat :=
  (Link.index l).val

def DirectionMode.code : DirectionMode → Nat
  | .forward => 0
  | .reverse => 1
  | .bidirectional => 2
  | .closed => 3

def directionOf (o : Octet) : Option DirectionMode :=
  if o = 0 then some .forward
  else if o = 1 then some .reverse
  else if o = 2 then some .bidirectional
  else if o = 3 then some .closed
  else none

def Condition.code : Condition → Nat
  | .released => 0
  | .held => 1
  | .driven => 2

def MeterStatus.code : MeterStatus → Nat
  | .unconfigured => 0
  | .starting => 1
  | .valid => 2
  | .faulty => 3

def SampleFlag.code : SampleFlag → Nat
  | .invalidLow => 0
  | .underZero => 1
  | .valid => 2
  | .over => 3
  | .invalidHigh => 4

def CircuitKind.code : CircuitKind → Nat
  | .switched => 1
  | .dimmed => 2

def CircuitState.code : CircuitState → Nat
  | .off => 0
  | .switchingOn => 1
  | .on => 2
  | .switchingOff => 3
  | .failedDark => 4
  | .stuckOn => 5
  | .lockedOut => 6

def TimerKind.code : TimerKind → Nat
  | .settle => 1
  | .loss => 2

def OrderMode.code : OrderMode → Nat
  | .sequential => 0
  | .interleaved => 1

def orderOf (o : Octet) : Option OrderMode :=
  if o = 0 then some .sequential else if o = 1 then some .interleaved else none

def LineFn.code : LineFn → Nat
  | .released => 0
  | .switchOut => 1
  | .dimOut => 2
  | .feedbackIn => 3
  | .meterIn => 4

def lineFnOf (o : Octet) : Option LineFn :=
  if o = 0 then some .released
  else if o = 1 then some .switchOut
  else if o = 2 then some .dimOut
  else if o = 3 then some .feedbackIn
  else if o = 4 then some .meterIn
  else none

/-! ### Meter samples -/

/-- The flag of a count C over a gate of G milliseconds (R6). -/
def sampleFlag (gate count : Nat) : SampleFlag :=
  if count * 1000 < 900 * gate then .invalidLow
  else if count * 1000 < 1000 * gate then .underZero
  else if count * 1000 ≤ 11000 * gate then .valid
  else if count * 1000 ≤ 12000 * gate then .over
  else .invalidHigh

/-- The value S of a sample, absent for an invalid one (R7). -/
def sampleValue (gate span count : Nat) : Option Nat :=
  match sampleFlag gate count with
  | .invalidLow | .invalidHigh => none
  | .underZero => some 0
  | .valid => some (roundDiv ((count * 1000 - 1000 * gate) * span) (gate * 10000))
  | .over => some span

/-- The filter: F after a valid sample S in status VALID, with weight a (R11). -/
def filterStep (weight filtered value : Nat) : Nat :=
  (filtered * (16 - weight) + value * weight + 8) / 16

/-- The ring with a sample added: the oldest record goes when it holds 16 (R8). -/
def ringPush (ring : List Sample) (x : Sample) : List Sample :=
  (ring ++ [x]).drop (ring.length + 1 - 16)

/-! ### The schedule -/

/-- A window covers a minute of the day (R23). -/
def Window.covers (w : Window) (minute : Nat) : Bool :=
  decide ((minute + 1440 - w.start) % 1440 < w.width)

/-- The fields of a window are in their ranges (R23). -/
def Window.inRange (w : Window) : Bool :=
  decide (w.start ≤ 1439) && decide (1 ≤ w.width) && decide (w.width ≤ 1440) && decide (w.access ≤ 9999)

/-- A window put at its place in a list in ascending start order. -/
def insertWindow (w : Window) : List Window → List Window
  | [] => [w]
  | x :: xs => if w.start ≤ x.start then w :: x :: xs else x :: insertWindow w xs

/-- Windows sorted by start minute (R25). -/
def sortWindows (ws : List Window) : List Window :=
  ws.foldr insertWindow []

/-- Each window ends at or before the next one's start (R25). -/
def noOverlap : List Window → Bool
  | [] => true
  | [_] => true
  | x :: y :: rest => decide (x.start + x.width ≤ y.start) && noOverlap (y :: rest)

/-- The last window's end, less a day, lies at or before the first one's start (R25). -/
def noWrapOverlap (ws : List Window) : Bool :=
  match ws.head?, ws.getLast? with
  | some first, some last => decide (last.start + last.width ≤ first.start + 1440)
  | _, _ => true

/-! ### Level plans -/

/-- Access luminances strictly increase and threshold luminances do not decrease along the curve (R29). -/
def curveRises : List Point → Bool
  | [] => true
  | [_] => true
  | p :: q :: rest =>
    decide (p.access < q.access) && decide (p.threshold ≤ q.threshold) && curveRises (q :: rest)

/-- The plan meets every constraint of R29. -/
def Plan.valid (p : Plan) : Bool :=
  decide (2 ≤ p.curve.length) && decide (p.curve.length ≤ 12)
  && p.curve.all (fun q => decide (q.access ≤ 9999) && decide (q.threshold ≤ 60000))
  && curveRises p.curve
  && (List.finRange 5).all (fun i => decide (100 ≤ p.factors.get i) && decide (p.factors.get i ≤ 1000))
  && (List.finRange 4).all (fun i => decide (p.factors.get i.castSucc ≤ p.factors.get i.succ))
  && decide (100 ≤ p.r1) && decide (p.r1 ≤ 1000)
  && decide (50 ≤ p.r2) && decide (p.r2 ≤ p.r1)
  && decide (p.interiorDay ≤ 60000) && decide (p.interiorNight ≤ p.interiorDay)
  && decide (p.nightThreshold ≤ 9998)
  && decide (p.nightThreshold < p.dayThreshold) && decide (p.dayThreshold ≤ 9999)
  && decide (1 ≤ p.nightHold) && decide (p.nightHold ≤ 30)
  && decide (10 ≤ p.riseStep) && decide (p.riseStep ≤ 1000)
  && decide (1 ≤ p.fallStep) && decide (p.fallStep ≤ 200)

/-- The curve value Lc at the access luminance A (R35). -/
def curveValue (access : Nat) : List Point → Nat
  | [] => 0
  | [p] => p.threshold
  | p :: q :: rest =>
    if access ≤ p.access then p.threshold
    else if access < q.access then
      p.threshold + roundDiv ((q.threshold - p.threshold) * (access - p.access)) (q.access - p.access)
    else curveValue access (q :: rest)

/-- The access luminance of the last point of the curve (R19). -/
def Plan.blindAccess (p : Plan) : Nat :=
  (p.curve.getLast?.map Point.access).getD 0

/-- The threshold base Dth0 (R36). -/
def Plan.thresholdBase (p : Plan) (access : Nat) (speedClass : Fin 5) : Nat :=
  roundDiv (curveValue access p.curve * p.factors.get speedClass) 1000

/-- The three demands of a portal: TH, T1, T2. -/
structure Demands where
  th : Nat
  t1 : Nat
  t2 : Nat
deriving DecidableEq, Repr

/-- The demands from the threshold demand Dth and the interior demand I (R44). -/
def demandsFrom (p : Plan) (dth interior : Nat) : Demands where
  th := dth
  t1 := max interior (roundDiv (dth * p.r1) 1000)
  t2 := max interior (roundDiv (dth * p.r2) 1000)

/-- The demands for a role, from the threshold base and I (R44, R45). -/
def demandsFor (p : Plan) (role : Role) (base interior : Nat) : Demands :=
  match role with
  | .entry => demandsFrom p (max base interior) interior
  | .exit => demandsFrom p interior interior

/-- The interior level a plan gives (R41). -/
def Plan.interiorLevel (p : Plan) (night : Bool) : Nat :=
  if night then p.interiorNight else p.interiorDay

/-! ### Ramp step (R51) -/

/-- One ramp step of R towards D. -/
def rampStep (ramped demand rise fall : Nat) : Nat :=
  if ramped < demand then min demand (ramped + max 50 (ramped * rise / 1000))
  else if demand < ramped then max demand (ramped - max 50 (ramped * fall / 1000))
  else ramped

/-! ### Dim level (R75) -/

/-- The common dim level for a need `x` that the dimmed circuits may carry in part (R75). -/
def dimLevel (need cd minDim : Nat) : Option Nat :=
  if cd = 0 then none
  else
    let level := roundDiv (min need cd * 1000) cd
    some (if 0 < level ∧ level < minDim then minDim else level)

/-! ### Rotation order (R67) -/

/-- The slot at position i of the rotation order. -/
def slotAt (mode : OrderMode) (s i : Fin 8) : Fin 8 :=
  match mode with
  | .sequential => s + i
  | .interleaved => s ^^^ i

/-- The rotation order, all eight slots (R67). -/
def rotationOrder (mode : OrderMode) (s : Fin 8) : List (Fin 8) :=
  (List.finRange 8).map (slotAt mode s)

/-! ### Requests by name (the code list of chapter 10) -/

/-- The requests the part takes. -/
inductive ReqCode where
  | echo | setNoticeMask
  | readPortal | readBore | readZone | readCircuit | readMeter | readLine | readPlan | readSchedule | readClock
  | writeLine | writeMeterSetup | writePortalSetup | writeZone | writePlan | writeSchedule | writeBoreSetup
  | setClock
  | commission | hold | release | stop | overrideSet | overrideClear | dryRunStart | dryRunInput | dryRunStop
  | lockoutModify | burnReset
  | speedReport | directionSet | emergencySet | emergencyClear
deriving DecidableEq, Repr

/-- The code octet of a request. -/
def ReqCode.octet : ReqCode → Octet
  | .echo => 0x01
  | .setNoticeMask => 0x02
  | .readPortal => 0x10
  | .readBore => 0x11
  | .readZone => 0x12
  | .readCircuit => 0x13
  | .readMeter => 0x14
  | .readLine => 0x15
  | .readPlan => 0x16
  | .readSchedule => 0x17
  | .readClock => 0x18
  | .writeLine => 0x20
  | .writeMeterSetup => 0x21
  | .writePortalSetup => 0x22
  | .writeZone => 0x23
  | .writePlan => 0x24
  | .writeSchedule => 0x25
  | .writeBoreSetup => 0x26
  | .setClock => 0x27
  | .commission => 0x30
  | .hold => 0x31
  | .release => 0x32
  | .stop => 0x33
  | .overrideSet => 0x34
  | .overrideClear => 0x35
  | .dryRunStart => 0x36
  | .dryRunInput => 0x37
  | .dryRunStop => 0x38
  | .lockoutModify => 0x40
  | .burnReset => 0x41
  | .speedReport => 0x50
  | .directionSet => 0x51
  | .emergencySet => 0x52
  | .emergencyClear => 0x53

/-- Every request the part takes. -/
def ReqCode.all : List ReqCode :=
  [.echo, .setNoticeMask, .readPortal, .readBore, .readZone, .readCircuit, .readMeter, .readLine, .readPlan,
   .readSchedule, .readClock, .writeLine, .writeMeterSetup, .writePortalSetup, .writeZone, .writePlan,
   .writeSchedule, .writeBoreSetup, .setClock, .commission, .hold, .release, .stop, .overrideSet, .overrideClear,
   .dryRunStart, .dryRunInput, .dryRunStop, .lockoutModify, .burnReset, .speedReport, .directionSet,
   .emergencySet, .emergencyClear]

/-- The request a code octet names, or none (R168 step 1). -/
def reqCodeOf (o : Octet) : Option ReqCode :=
  ReqCode.all.find? fun c => c.octet == o

/-- The link's role may make the request (R168 step 2). -/
def mayMake (l : Link) (c : ReqCode) : Bool :=
  match l, c with
  | .o, .speedReport | .o, .directionSet | .o, .emergencySet | .o, .emergencyClear => false
  | .o, _ => true
  | .t, .speedReport | .t, .directionSet | .t, .readPortal | .t, .readBore | .t, .echo | .t, .setNoticeMask => true
  | .t, _ => false
  | .s, .emergencySet | .s, .emergencyClear | .s, .readPortal | .s, .readBore | .s, .echo | .s, .setNoticeMask =>
    true
  | .s, _ => false

/-- The body length is one the code allows (R168 step 3, R179). -/
def lengthOk (c : ReqCode) (body : List Octet) : Bool :=
  match c with
  | .echo => decide (body.length ≤ 127)
  | .writePlan => decide (body.length = 1) || decide (2 ≤ body.length ∧ body.length = 29 + 4 * (body.getD 1 0).toNat)
  | .writeSchedule => decide (1 ≤ body.length ∧ body.length = 1 + 5 * (body.getD 0 0).toNat)
  | .setNoticeMask | .readCircuit | .readLine | .readPlan | .stop | .burnReset | .directionSet =>
    decide (body.length = 1)
  | .readPortal | .readBore | .readZone | .readMeter | .readSchedule | .readClock | .commission | .hold | .release
  | .overrideClear | .dryRunStop | .emergencySet | .emergencyClear => decide (body.length = 0)
  | .writeLine => decide (body.length = 3)
  | .writeMeterSetup => decide (body.length = 6)
  | .writeZone => decide (body.length = 48)
  | .writeBoreSetup | .lockoutModify | .speedReport => decide (body.length = 2)
  | .writePortalSetup | .setClock | .overrideSet | .dryRunStart | .dryRunInput => decide (body.length = 4)

/-- Reads and ECHO, whose responses are made whatever the ack-wanted flag (R171). -/
def ReqCode.returnsData : ReqCode → Bool
  | .echo | .readPortal | .readBore | .readZone | .readCircuit | .readMeter | .readLine | .readPlan | .readSchedule
  | .readClock => true
  | .setNoticeMask | .writeLine | .writeMeterSetup | .writePortalSetup | .writeZone | .writePlan | .writeSchedule
  | .writeBoreSetup | .setClock | .commission | .hold | .release | .stop | .overrideSet | .overrideClear
  | .dryRunStart | .dryRunInput | .dryRunStop | .lockoutModify | .burnReset | .speedReport | .directionSet
  | .emergencySet | .emergencyClear => false

/-- The request of a deferred action (R109, R125). -/
def ActionKind.request : ActionKind → ReqCode
  | .hold => .hold
  | .release => .release
  | .stopOrderly => .stop

/-! ### Dispositions of a request with a mask (R170) -/

/-- The frame disposition formed from the per-target dispositions (R170). -/
def frameDisposition : List Disposition → Disposition
  | [] => .done
  | d :: ds =>
    if ds.all (· == d) then d
    else if (d :: ds).all (fun x => x == .done || x == .adjusted) then .adjusted
    else .partialDone

/-! ### Notices -/

def Notice.kind : Notice → NoticeKind
  | .portalState .. => .portalState
  | .source .. => .source
  | .meterState .. => .meterState
  | .circuitFault .. => .circuitFault
  | .shortfall .. => .shortfall
  | .trafficState .. => .trafficState
  | .overrideEnded .. => .overrideEnded
  | .coldStart => .coldStart

/-- The number of a notice's subject among the subjects of its kind (R174). -/
def Notice.subject : Notice → Nat
  | .portalState p .. => p
  | .source p .. => p
  | .meterState m .. => m
  | .circuitFault z .. => z
  | .shortfall z .. => z
  | .trafficState b .. => b
  | .overrideEnded p .. => p
  | .coldStart => 0

/-- Two notices have the same kind and subject (R175). -/
def Notice.sameKey (m n : Notice) : Bool :=
  m.kind == n.kind && m.subject == n.subject

/-- The target octet of a notice frame (R176); that of COLD_START is a free value (log 10). -/
def Notice.target : Notice → Octet
  | .coldStart => Config.coldStartTarget
  | n => BitVec.ofNat 8 n.subject

/-- The level field of an override, absent for FREEZE. -/
def OverrideKind.levelField : OverrideKind → Option Nat
  | .level lum => some lum
  | .freeze => none

/-- The body of a notice frame (notice bodies of chapter 10). -/
def Notice.body : Notice → List Octet
  | .portalState _ st role act =>
    be8 st.code ++ opt8 (role.map Role.code) ++ opt8 (act.map ActionKind.code)
  | .source _ src acc => opt8 (src.map Source.code) ++ opt16 acc
  | .meterState _ st f inv val flag =>
    be8 st.code ++ opt16 f ++ be8 inv ++ be8 val ++ opt8 (flag.map SampleFlag.code)
  | .circuitFault _ dark stuck => be8 (maskOf dark) ++ be8 (maskOf stuck)
  | .shortfall _ flag r k => be8 (flagCode flag) ++ be16 r ++ be24 k
  | .trafficState _ mode cls cong stale emer =>
    be8 mode.code ++ be8 cls.val ++ be8 (flagCode cong + 2 * flagCode stale + 4 * flagCode emer)
  | .overrideEnded _ kind => be8 kind.code ++ opt16 kind.levelField
  | .coldStart => []

/-! ### Frames sent (R160, R170, R176) -/

/-- The body of a response frame: the frame disposition, the per-target dispositions, the data (R170). -/
def Response.body (r : Response) : List Octet :=
  be8 r.frame.code ++ r.each.flatMap (fun d => be8 d.code) ++ r.data

/-- The four header octets (tag, control, code, target) and the body of a frame sent; both flags are clear (R160). -/
def TxFrame.content : TxFrame → List Octet
  | .response r => [r.tag, 1, r.code, r.target] ++ r.body
  | .notice n => [0, 2, BitVec.ofNat 8 n.kind.code, n.target] ++ n.body

/-- Every octet of a frame sent, from the start octet to the check (R160, R161). -/
def TxFrame.octets (f : TxFrame) : List Octet :=
  let inner := be8 f.content.length ++ f.content
  0xC3 :: (inner ++ checkOctets inner)

/-- The whole milliseconds in which a frame of `n` octets is sent: 10 bit times an octet at 115 200 baud,
rounded up (R159; log 6). -/
def sendMs (n : Nat) : Nat :=
  (n * 10000 + 115199) / 115200

end Sys2Proof.Machine
end

