-- ==== Sys2Proof/Machine/Flags.lean ====
section
/-! DEFINITION. What the records say when read together: the fixed arrangement (R1), the sums and classes of
allocation (R66), supervision (R88), roles (R131), plan selection (R33), the source cascade (R17), the
interior demand (R40), previews (R83). Nothing here changes the state. -/

namespace Sys2Proof.Machine

/-! ### Records by number -/

def State.link (s : State) (l : Link) : LinkRec :=
  s.links.get (Link.index l)

def State.line (s : State) (i : Fin 192) : Line :=
  s.lines.get i

def State.meter (s : State) (m : Fin 4) : Meter :=
  s.meters.get m

def State.portal (s : State) (p : Fin 4) : Portal :=
  s.portals.get p

def State.bore (s : State) (b : Fin 2) : Bore :=
  s.bores.get b

def State.zone (s : State) (z : Fin 14) : Zone :=
  s.zones.get z

/-- The circuit in a slot of a zone, if any. -/
def State.circuit (s : State) (z : Fin 14) (k : Fin 8) : Option Circuit :=
  (s.zone z).slots.get k

/-! ### The fixed arrangement (R1) -/

/-- The bore a portal belongs to. -/
def boreOf (p : Fin 4) : Fin 2 :=
  ⟨p.val / 2, by omega⟩

/-- The two portals of a bore, the even one first. -/
def portalsOf (b : Fin 2) : List (Fin 4) :=
  [⟨2 * b.val, by omega⟩, ⟨2 * b.val + 1, by omega⟩]

/-- Zone j (TH, T1, T2) of a portal: number 3p + j. -/
def zoneOf (p : Fin 4) (j : Fin 3) : Fin 14 :=
  ⟨3 * p.val + j.val, by omega⟩

/-- The three zones of a portal, TH first. -/
def zonesOf (p : Fin 4) : List (Fin 14) :=
  [zoneOf p 0, zoneOf p 1, zoneOf p 2]

/-- The interior zone of a bore. -/
def interiorOf (b : Fin 2) : Fin 14 :=
  ⟨12 + b.val, by omega⟩

/-- Who owns a zone. -/
inductive Owner where
  | portal (p : Fin 4)
  | bore (b : Fin 2)
deriving DecidableEq, Repr

/-- The owner of a zone (R1). -/
def ownerOf (z : Fin 14) : Owner :=
  if h : z.val < 12 then .portal ⟨z.val / 3, by omega⟩ else .bore ⟨z.val - 12, by omega⟩

/-! ### Circuits and sums (R66, R87) -/

/-- Available: in OFF, SWITCHING_ON, ON or SWITCHING_OFF (R66). -/
def Circuit.available (c : Circuit) : Bool :=
  match c.state with
  | .off | .switchingOn | .on | .switchingOff => true
  | .failedDark | .stuckOn | .lockedOut => false

def Circuit.isSwitched (c : Circuit) : Bool :=
  c.kind == .switched

def Circuit.isDimmed (c : Circuit) : Bool :=
  c.kind == .dimmed

/-- In flight: a SWITCHED circuit in SWITCHING_ON or SWITCHING_OFF (R66). -/
def Circuit.inFlight (c : Circuit) : Bool :=
  c.isSwitched && (c.state == .switchingOn || c.state == .switchingOff)

/-- Counted in Son: a SWITCHED circuit in SWITCHING_ON, ON or STUCK_ON (R66). -/
def Circuit.inSon (c : Circuit) : Bool :=
  c.isSwitched && (c.state == .switchingOn || c.state == .on || c.state == .stuckOn)

/-- Counted in Cd: an available DIMMED circuit (R66). -/
def Circuit.inCd (c : Circuit) : Bool :=
  c.isDimmed && c.available

/-- Counted in K beside Son and Cd: a SWITCHED circuit in OFF or SWITCHING_OFF (R66). -/
def Circuit.inReserve (c : Circuit) : Bool :=
  c.isSwitched && (c.state == .off || c.state == .switchingOff)

/-- The circuit's output command is active (R87, R100). -/
def Circuit.active (c : Circuit) : Bool :=
  match c.kind with
  | .switched => c.state == .switchingOn || c.state == .on
  | .dimmed => decide (0 < c.level)

/-- The circuits of a zone, by slot. -/
def Zone.circuits (z : Zone) : List Circuit :=
  z.slots.rows.filterMap id

/-- Summed rated contribution of the zone's circuits that meet a condition. -/
def Zone.sumOf (z : Zone) (f : Circuit → Bool) : Nat :=
  ((z.circuits.filter f).map Circuit.rating).sum

/-- Son (R66). -/
def Zone.son (z : Zone) : Nat :=
  z.sumOf Circuit.inSon

/-- Cd (R66). -/
def Zone.cd (z : Zone) : Nat :=
  z.sumOf Circuit.inCd

/-- The capacity K (R56, R66). -/
def Zone.capacity (z : Zone) : Nat :=
  z.son + z.sumOf Circuit.inReserve + z.cd

/-- A SWITCHED circuit of the zone is in flight (R71). -/
def Zone.anyInFlight (z : Zone) : Bool :=
  z.circuits.any Circuit.inFlight

/-- The slots whose circuits meet a condition, in slot order. -/
def Zone.slotsWhere (z : Zone) (f : Circuit → Bool) : List (Fin 8) :=
  (List.finRange 8).filter fun k => (z.slots.get k).any f

/-- The failed set (R96). -/
def Zone.failedSet (z : Zone) : List (Fin 8) :=
  z.slotsWhere fun c => c.state == .failedDark

/-- The stuck set (R96). -/
def Zone.stuckSet (z : Zone) : List (Fin 8) :=
  z.slotsWhere fun c => c.state == .stuckOn

/-- The slots of the zone along its rotation order (R67). -/
def Zone.along (z : Zone) : List (Fin 8) :=
  rotationOrder z.order z.rotation

/-- The first SWITCHED circuit along the order in OFF, which a switch-on takes (R72). -/
def Zone.firstOff (z : Zone) : Option (Fin 8) :=
  z.along.find? fun k => (z.slots.get k).any fun c => c.isSwitched && c.state == .off

/-- The SWITCHED circuit in ON furthest along the order, which a switch-off considers (R73). -/
def Zone.lastOn (z : Zone) : Option (Fin 8) :=
  z.along.reverse.find? fun k => (z.slots.get k).any fun c => c.isSwitched && c.state == .on

/-! ### Supervision and the interior condition (R88, R139) -/

/-- The zone is supervised (R88): its portal is in service, or its interior condition is not RELEASED. -/
def State.supervised (s : State) (z : Fin 14) : Bool :=
  match ownerOf z with
  | .portal p => (s.portal p).state != .offline
  | .bore b => (s.bore b).condition != .released

/-- The zone is under emergency allocation (R80). -/
def State.underEmergency (s : State) (z : Fin 14) : Bool :=
  match ownerOf z with
  | .portal p => (s.portal p).state == .emergency
  | .bore b => (s.bore b).emergency && (s.bore b).condition == .driven

/-- The interior condition that the states of the bore's portals give (R139). -/
def State.conditionFor (s : State) (b : Fin 2) : Condition :=
  if (portalsOf b).any fun p => (s.portal p).state == .auto || (s.portal p).state == .emergency then .driven
  else if (portalsOf b).any fun p => (s.portal p).state == .held || (s.portal p).state == .dryRun then .held
  else .released

/-- The feedback value of a circuit as the supervisor takes it (R153). -/
def State.feedbackPresent (s : State) (c : Circuit) : Bool :=
  match c.feedback with
  | none => false
  | some i => (s.line i).fn == .feedbackIn && (s.line i).debounced == some true

/-- A circuit's output command is active at this moment: none is while its zone is not supervised (R87, R100). -/
def State.commandActive (s : State) (z : Fin 14) (c : Circuit) : Bool :=
  s.supervised z && c.active

/-! ### Lines (R149 to R152) -/

/-- The function drives an output. -/
def LineFn.isOutput : LineFn → Bool
  | .switchOut | .dimOut => true
  | .released | .feedbackIn | .meterIn => false

/-- The output value a circuit's command gives a served line of a function (R149). -/
def Circuit.outputFor (c : Circuit) : LineFn → OutputValue
  | .switchOut => .level c.active
  | .dimOut => .duty c.level
  | .released | .feedbackIn | .meterIn => .none

/-- The raw value of an input line: the pin level with the invert flag applied (R152). -/
def Line.raw (x : Line) (pin : Bool) : Bool :=
  xor pin x.invert

/-- The circuits of supervised zones, with their zone and slot. -/
def State.supervisedCircuits (s : State) : List (Fin 14 × Fin 8 × Circuit) :=
  (List.finRange 14).flatMap fun z =>
    if s.supervised z then
      (List.finRange 8).filterMap fun k => ((s.zone z).slots.get k).map fun c => (z, k, c)
    else []

/-- The lines a circuit names: its output line and its feedback line. -/
def Circuit.namings (c : Circuit) : List (Fin 192) :=
  c.output :: c.feedback.toList

/-- The portals that are not OFFLINE. -/
def State.inService (s : State) : List (Fin 4) :=
  (List.finRange 4).filter fun p => (s.portal p).state != .offline

/-- A portal that is not OFFLINE names the meter (R13). -/
def State.meterInService (s : State) (m : Fin 4) : Bool :=
  s.inService.any fun p => (s.portal p).meter == some m

/-- The line is named by a circuit of a supervised zone, or is the line of a meter in service (R155). -/
def State.lineInService (s : State) (i : Fin 192) : Bool :=
  s.supervisedCircuits.any (fun x => x.2.2.namings.contains i)
  || (List.finRange 4).any fun m => s.meterInService m && (s.meter m).line == some i

/-- The meter's line is present and has the function METER_IN (R4). -/
def State.meterConfigured (s : State) (m : Fin 4) : Bool :=
  match (s.meter m).line with
  | none => false
  | some i => (s.line i).fn == .meterIn

/-! ### Roles and plans (R131, R33) -/

/-- The role a direction mode gives a portal (R131). -/
def roleOf (mode : DirectionMode) (p : Fin 4) : Role :=
  match mode, decide (p.val % 2 = 0) with
  | .forward, true => .entry
  | .forward, false => .exit
  | .reverse, true => .exit
  | .reverse, false => .entry
  | .bidirectional, _ => .entry
  | .closed, _ => .exit

/-- The plan in a slot. -/
def Portal.plan (x : Portal) : PlanSlot → Option Plan
  | .a => x.planA
  | .b => x.planB

/-- The slot plan selection gives the portal at this moment (R33). -/
def State.selectSlot (s : State) (p : Fin 4) : PlanSlot :=
  if (s.bore (boreOf p)).congested && (s.portal p).planB.isSome then .b else .a

/-- The plan that plan selection gives the portal at this moment (R33). -/
def State.selectedPlan (s : State) (p : Fin 4) : Option Plan :=
  (s.portal p).plan (s.selectSlot p)

/-- The plan the previews of a dry run use (R34). -/
def State.previewPlan (s : State) (p : Fin 4) (x : DryRunInput) : Option Plan :=
  match x.plan with
  | none => s.selectedPlan p
  | some .a => (s.portal p).planA
  | some .b => if (s.portal p).planB.isSome then (s.portal p).planB else (s.portal p).planA

/-! ### The source cascade (R17 to R19) -/

/-- The filtered value of a meter that is VALID. -/
def State.validReading (s : State) (m : Option (Fin 4)) : Option Nat :=
  match m with
  | none => none
  | some k => if (s.meter k).status == .valid then (s.meter k).filtered else none

/-- The value of the schedule at the present minute: the clock is set and a window covers it (R17, R23). -/
def State.scheduled (s : State) : Option Nat :=
  match s.clock with
  | none => none
  | some c => (s.schedule.find? fun w => w.covers c.minute).map Window.access

/-- Steps 3 and 4 of the cascade (R17, R19). -/
def State.lateCascade (s : State) (p : Fin 4) : Source × Option Nat :=
  match s.scheduled with
  | some a => (.schedule, some a)
  | none => (.blind, (s.selectedPlan p).map Plan.blindAccess)

/-- The reading the PARTNER step takes (R18). -/
def State.partnerReading (s : State) (p : Fin 4) : Option Nat :=
  match (s.portal p).partner with
  | none => none
  | some q =>
    if (s.portal q).source == some .own then
      (s.validReading (s.portal q).meter).map fun f => min 9999 (roundDiv (f * (s.portal p).factor) 1000)
    else none

/-- The source cascade: the first step whose condition holds (R17). -/
def State.cascade (s : State) (p : Fin 4) : Source × Option Nat :=
  match s.validReading (s.portal p).meter with
  | some f => (.own, some f)
  | none =>
    match s.partnerReading p with
    | some a => (.partner, some a)
    | none => s.lateCascade p

/-! ### The interior demand (R40, R41) -/

/-- What an AUTO portal would give its bore's interior: the plan slot and plan selected, its night flag. -/
structure InteriorOffer where
  portal : Fin 4
  slot : PlanSlot
  plan : Plan
  night : Bool
deriving DecidableEq, Repr

/-- The level of an offer (R41). -/
def InteriorOffer.level (x : InteriorOffer) : Nat :=
  x.plan.interiorLevel x.night

/-- The offers of the bore's portals in AUTO, the lower-numbered first. -/
def State.offers (s : State) (b : Fin 2) : List InteriorOffer :=
  (portalsOf b).filterMap fun p =>
    if (s.portal p).state == .auto then
      (s.selectedPlan p).map fun plan => ⟨p, s.selectSlot p, plan, (s.portal p).night⟩
    else none

/-- The larger of two offers, the first on a tie (R41). -/
def betterOffer (x y : InteriorOffer) : InteriorOffer :=
  if x.level < y.level then y else x

/-- The largest of a list of offers, the earliest on a tie. -/
def bestOffer : List InteriorOffer → Option InteriorOffer
  | [] => none
  | x :: xs => some (xs.foldl betterOffer x)

/-- The five cases of R40. -/
inductive InteriorCase where
  | emergency
  | closedAuto (offer : InteriorOffer)
  | closedIdle
  | entryAuto (offer : InteriorOffer)
  | noEntry
deriving DecidableEq, Repr

/-- The case of R40 that applies at this moment. -/
def State.interiorCase (s : State) (b : Fin 2) : InteriorCase :=
  if (s.bore b).emergency then .emergency
  else if (s.bore b).mode == .closed then
    match (s.offers b).head? with
    | some x => .closedAuto x
    | none => .closedIdle
  else
    match bestOffer ((s.offers b).filter fun x => roleOf (s.bore b).mode x.portal == .entry) with
    | some x => .entryAuto x
    | none => .noEntry

/-- The bore record with I, Ib, the supplier and the interior night flag of a case of R40. -/
def Bore.withInterior (x : Bore) : InteriorCase → Bore
  | .emergency => { x with demand := 60000 }
  | .closedAuto o =>
    { x with demand := o.plan.interiorNight, base := o.plan.interiorNight, supplier := some (o.portal, o.slot),
             interiorNight := true }
  | .closedIdle => { x with demand := 0, base := 0, supplier := none }
  | .entryAuto o =>
    { x with demand := o.level, base := o.level, supplier := some (o.portal, o.slot), interiorNight := o.night }
  | .noEntry => { x with demand := x.base }

/-! ### Previews (R83) -/

/-- The slots a preview chooses along the order, with the sum they leave: step 2 of R83. -/
def choosePreview (dp cd : Nat) : Nat → List (Fin 8 × Nat) → List (Fin 8) × Nat
  | sp, [] => ([], sp)
  | sp, (k, rating) :: rest =>
    if sp + cd < dp then
      let r := choosePreview dp cd (sp + rating) rest
      (k :: r.1, r.2)
    else ([], sp)

/-- The available SWITCHED circuits of a zone along its rotation order, with their ratings. -/
def Zone.previewCandidates (z : Zone) : List (Fin 8 × Nat) :=
  z.along.filterMap fun k =>
    match z.slots.get k with
    | some c => if c.isSwitched && c.available then some (k, c.rating) else none
    | none => none

/-- The preview of a zone for a preview demand (R83). -/
def Zone.previewFor (z : Zone) (dp : Nat) : Preview :=
  let stuck := z.sumOf fun c => c.isSwitched && c.state == .stuckOn
  let chosen := choosePreview dp z.cd stuck z.previewCandidates
  { demand := dp
    slots := chosen.1
    dim := dimLevel (dp - chosen.2) z.cd z.minDim
    shortfall := decide (z.capacity < dp) }

end Sys2Proof.Machine
end

