-- ==== Sys2Proof/Machine/Ops.lean ====
section
/-! DEFINITION. The named operations on the state that every meaning is built from: writing a record, time,
raising a notice, placing a response, a transmitter's choice of its next frame, and the frame of one event. -/

namespace Sys2Proof.Machine

/-! ### Writing a record -/

def State.setLink (s : State) (l : Link) (x : LinkRec) : State :=
  { s with links := s.links.put (Link.index l) x }

def State.setLine (s : State) (i : Fin 192) (x : Line) : State :=
  { s with lines := s.lines.put i x }

/-- The level of line `i`'s pin, as the cabinet wiring gives it (log 7). -/
def State.setPin (s : State) (i : Fin 192) (high : Bool) : State :=
  { s with pins := if high then s.pins ||| (1#192 <<< i.val) else s.pins &&& ~~~(1#192 <<< i.val) }

def State.setMeter (s : State) (m : Fin 4) (x : Meter) : State :=
  { s with meters := s.meters.put m x }

def State.setPortal (s : State) (p : Fin 4) (x : Portal) : State :=
  { s with portals := s.portals.put p x }

def State.setBore (s : State) (b : Fin 2) (x : Bore) : State :=
  { s with bores := s.bores.put b x }

def State.setZone (s : State) (z : Fin 14) (x : Zone) : State :=
  { s with zones := s.zones.put z x }

/-! ### Time (R26) -/

/-- The uptime at the expiry `e` of a timer: an expiry event carries the time to its expiry (log 4), and never back. -/
def State.reach (s : State) (e : Uptime) : State :=
  { s with uptime := if reached s.uptime e then s.uptime else e }

/-! ### Notices (R174, R175) -/

/-- A notice delivered to a queue: an entry of the same kind and subject keeps its place and takes the new
content, otherwise the notice joins at the tail (R175). -/
def placeNotice (n : Notice) (q : List Notice) : List Notice :=
  if q.any (Notice.sameKey n) then q.map fun m => if n.sameKey m then n else m else q ++ [n]

/-- A notice delivered to a link whose mask includes its kind (R174). -/
def LinkRec.deliver (x : LinkRec) (n : Notice) : LinkRec :=
  { x with notices := if n.kind ∈ x.mask then placeNotice n x.notices else x.notices }

/-- A notice raised: delivered to every link in the same event (R174). -/
def State.raise (s : State) (n : Notice) : State :=
  { s with links := s.links.mapWith fun _ x => x.deliver n }

/-- A PORTAL_STATE notice, with its content as it stands (R126). -/
def State.raisePortalState (s : State) (p : Fin 4) : State :=
  s.raise (.portalState p (s.portal p).state (s.portal p).role ((s.portal p).action.map PendingAction.kind))

/-- A TRAFFIC_STATE notice, with its content as it stands (R146). -/
def State.raiseTrafficState (s : State) (b : Fin 2) : State :=
  s.raise (.trafficState b (s.bore b).mode (s.bore b).speedClass (s.bore b).congested (s.bore b).stale
    (s.bore b).emergency)

/-- A METER_STATE notice, with its content as it stands and the flag of the sample that caused it, if any (R12). -/
def State.raiseMeterState (s : State) (m : Fin 4) (flag : Option SampleFlag) : State :=
  s.raise (.meterState m (s.meter m).status (s.meter m).filtered (s.meter m).invalidCount (s.meter m).validCount flag)

/-- A CIRCUIT_FAULT notice where the zone's failed or stuck set differs from those of the zone record `was` (R97). -/
def State.raiseFaultChange (s : State) (z : Fin 14) (was : Zone) : State :=
  if (s.zone z).failedSet = was.failedSet ∧ (s.zone z).stuckSet = was.stuckSet then s
  else s.raise (.circuitFault z (s.zone z).failedSet (s.zone z).stuckSet)

/-! ### Responses (R170 to R172) -/

/-- A response placed at the tail of the response list; one that finds 8 entries is discarded (R172). -/
def LinkRec.place (x : LinkRec) (r : Response) : LinkRec :=
  { x with responses := if x.responses.length < 8 then x.responses ++ [r] else x.responses }

/-- A response placed in a link's list. -/
def State.place (s : State) (l : Link) (r : Response) : State :=
  s.setLink l ((s.link l).place r)

/-- DONE or ADJUSTED: the request took effect (R169). -/
def Disposition.tookEffect (d : Disposition) : Bool :=
  d == .done || d == .adjusted

/-- The answer of a deferred action of a portal: a completion, or ABANDONED (R125, R171, R116). -/
def State.answerAction (s : State) (p : Fin 4) (a : PendingAction) (d : Disposition) : State :=
  if a.answerOwed && (a.ackWanted || !d.tookEffect) then
    s.place a.link
      { tag := a.tag, code := a.kind.request.octet, target := BitVec.ofNat 8 (2 ^ p.val),
        frame := d, each := [d], data := [] }
  else s

/-! ### Transmitters (R173) -/

/-- The transmitter takes its next frame, the oldest response before the oldest notice, or enters IDLE (R173). The rest of
at least one octet time that precedes it is left open in length; the model's choice is to add none to the frame's end
(log 6). -/
def LinkRec.beginNext (now : Uptime) (x : LinkRec) : LinkRec :=
  match x.responses with
  | r :: rest =>
    { x with responses := rest,
             transmitter := .sending (.response r) (msAfter now (sendMs (TxFrame.response r).octets.length)) }
  | [] =>
    match x.notices with
    | n :: rest =>
      { x with notices := rest,
               transmitter := .sending (.notice n) (msAfter now (sendMs (TxFrame.notice n).octets.length)) }
    | [] => { x with transmitter := .idle }

/-- An IDLE transmitter begins what waits (R173). -/
def LinkRec.arbitrate (now : Uptime) (x : LinkRec) : LinkRec :=
  match x.transmitter with
  | .idle => x.beginNext now
  | .sending .. => x
  | .silent => x

/-- Every IDLE transmitter begins what waits. -/
def State.arbitrate (s : State) : State :=
  { s with links := s.links.mapWith fun _ x => x.arbitrate s.uptime }

/-! ### One event -/

/-- One event of a part that is not held in reset: its effect, and at its end the choice of each IDLE
transmitter (R173). The choice before the effect is that of the instant the part leaves reset (R159, log 1):
after any event it finds nothing to begin. A part held in reset takes no event (R158). -/
def State.event (s : State) (f : State → State) : State :=
  if s.inReset then s else (f s.arbitrate).arbitrate

end Sys2Proof.Machine
end

