-- ==== Sys2Proof/Machine/Allocation.lean ====
section
/-! DEFINITION. The zone allocator and the circuit supervisor as operations: commands to circuits, normal
and emergency allocation, the shortfall test, a zone becoming supervised and being cleared. -/

namespace Sys2Proof.Machine

/-! ### Commands to a circuit -/

/-- A switch-on command to a SWITCHED circuit (R90). -/
def Circuit.switchOn (now : Uptime) (settle : Nat) (c : Circuit) : Circuit :=
  if c.feedback.isSome then
    { c with state := .switchingOn, timer := some ⟨.settle, msAfter now settle⟩ }
  else { c with state := .on, timer := none }

/-- A switch-off command to a SWITCHED circuit in ON (R92). -/
def Circuit.switchOff (now : Uptime) (settle : Nat) (c : Circuit) : Circuit :=
  if c.feedback.isSome then
    { c with state := .switchingOff, timer := some ⟨.settle, msAfter now settle⟩ }
  else { c with state := .off, timer := none }

/-- A level commanded to an available DIMMED circuit; its timer runs on (R76, R95). -/
def Circuit.setLevel (level : Nat) (c : Circuit) : Circuit :=
  { c with level := level, state := if level = 0 then .off else .on }

/-- A circuit taken out of service: its output command inactive, its timer gone (R87, R98). -/
def Circuit.outOfService (state : CircuitState) (c : Circuit) : Circuit :=
  { c with state := state, level := 0, timer := none }

/-- What the stop of its owner does to a circuit (R99). -/
def Circuit.stopped (c : Circuit) : Circuit :=
  match c.state with
  | .off | .switchingOn | .on | .switchingOff => c.outOfService .off
  | .failedDark | .stuckOn | .lockedOut => c.outOfService c.state

/-- The circuit with its loss timer started (R89). -/
def Circuit.startLoss (now : Uptime) (settle : Nat) (c : Circuit) : Circuit :=
  { c with timer := some ⟨.loss, msAfter now settle⟩ }

/-- The circuit with a running loss timer cancelled (R93, R95). -/
def Circuit.cancelLoss (c : Circuit) : Circuit :=
  { c with timer := if (c.timer.any fun t => t.kind == .loss) then none else c.timer }

/-! ### Circuits of a zone -/

/-- The circuit of a slot changed by `f`; an empty slot is passed over. -/
def Zone.modSlot (z : Zone) (k : Fin 8) (f : Circuit → Circuit) : Zone :=
  { z with slots := z.slots.put k ((z.slots.get k).map f) }

/-- Every circuit of the zone that meets a condition changed by `f`. -/
def Zone.modWhere (z : Zone) (cond : Circuit → Bool) (f : Circuit → Circuit) : Zone :=
  { z with slots := z.slots.mapWith fun _ o => o.map fun c => if cond c then f c else c }

/-- The common dim level set and handed to the available DIMMED circuits (R76). -/
def Zone.handDim (z : Zone) (dim : Option Nat) : Zone :=
  match dim with
  | none => { z with dim := none }
  | some level => { z.modWhere Circuit.inCd (Circuit.setLevel level) with dim := some level }

/-! ### Normal allocation (R71 to R76) -/

/-- The switching decision: at most one command (R71 to R74). -/
def Zone.switching (now : Uptime) (z : Zone) : Zone :=
  if z.anyInFlight then z
  else if z.son + z.cd < z.ramped then
    match z.firstOff with
    | some k => z.modSlot k (Circuit.switchOn now z.settle)
    | none => z
  else
    match z.lastOn with
    | none => z
    | some k =>
      match z.slots.get k with
      | none => z
      | some c =>
        if z.ramped + c.rating ≤ z.son + z.cd * (1000 - z.hysteresis) / 1000 then
          z.modSlot k (Circuit.switchOff now z.settle)
        else z

/-- Normal allocation: the switching decision, then the dim level from Son as it leaves it (R71 to R76). -/
def Zone.allocate (now : Uptime) (z : Zone) : Zone :=
  let y := z.switching now
  y.handDim (dimLevel (y.ramped - y.son) y.cd y.minDim)

/-! ### Emergency allocation (R79) -/

/-- Every available SWITCHED circuit in OFF or SWITCHING_OFF is commanded on, the dim level is 1000 (R79). -/
def Zone.lightAll (now : Uptime) (z : Zone) : Zone :=
  let y := z.modWhere Circuit.inReserve (Circuit.switchOn now z.settle)
  y.handDim (if y.cd = 0 then none else some 1000)

/-- R set to the smaller of 60 000 and the capacity (R57, R58). -/
def Zone.atCapacity (z : Zone) : Zone :=
  { z with ramped := min 60000 z.capacity }

/-! ### Writing a zone whose circuits may have changed -/

/-- The output lines of circuits follow their commands (R149): each line that serves a circuit is driven at
the value of the circuit's command. -/
def followOutputs (cs : List Circuit) (lines : Tab 192 Line) : Tab 192 Line :=
  cs.foldl (fun t c =>
    if (t.get c.output).fn.isOutput then
      t.put c.output { t.get c.output with drive := .driven, output := c.outputFor (t.get c.output).fn }
    else t) lines

/-- A zone record written, and in the same event the output values of its served lines (R87, R149). -/
def State.putZone (s : State) (z : Fin 14) (x : Zone) : State :=
  { s.setZone z x with lines := if s.supervised z then followOutputs x.circuits s.lines else s.lines }

/-- The shortfall test (R77), with the SHORTFALL notice of a change (R78). -/
def State.testShortfall (s : State) (z : Fin 14) : State :=
  let x := s.zone z
  let flag := decide (x.capacity < x.ramped)
  if x.shortfall = flag then s
  else (s.setZone z { x with shortfall := flag }).raise (.shortfall z flag x.ramped x.capacity)

/-- Normal allocation of a zone, with its shortfall test (R69, R70, R77). -/
def State.allocateNormal (s : State) (z : Fin 14) : State :=
  (s.putZone z ((s.zone z).allocate s.uptime)).testShortfall z

/-- R set to capacity and emergency allocation, with its shortfall test (R57, R58, R79). -/
def State.light (s : State) (z : Fin 14) : State :=
  (s.putZone z ((s.zone z).atCapacity.lightAll s.uptime)).testShortfall z

/-! ### A zone becoming supervised, and being cleared -/

/-- The output lines of circuits begin to serve them: driven from the commands, a DIM_OUT line's period at
duty 0 (R149, R151). -/
def startOutputs (cs : List Circuit) (lines : Tab 192 Line) : Tab 192 Line :=
  cs.foldl (fun t c =>
    if (t.get c.output).fn.isOutput then
      t.put c.output { t.get c.output with
        drive := .driven
        output := c.outputFor (t.get c.output).fn
        period := if (t.get c.output).fn == .dimOut then some 0 else none }
    else t) lines

/-- The output lines of circuits stop serving them: floating, the period in progress cut (R149, R151). -/
def stopOutputs (cs : List Circuit) (lines : Tab 192 Line) : Tab 192 Line :=
  cs.foldl (fun t c =>
    if (t.get c.output).fn.isOutput then
      t.put c.output { t.get c.output with drive := .floating, output := .none, period := none }
    else t) lines

/-- The loss timers that start when a zone becomes supervised: each DIMMED circuit in OFF whose fault input
is present (R88). -/
def State.startSupervision (s : State) (x : Zone) : Zone :=
  x.modWhere (fun c => c.isDimmed && c.state == .off && s.feedbackPresent c) (Circuit.startLoss s.uptime x.settle)

/-- A zone becomes supervised (R88, R115, R140, R149). -/
def State.supervise (s : State) (z : Fin 14) : State :=
  let x := s.startSupervision (s.zone z)
  { s.setZone z x with lines := startOutputs x.circuits s.lines }

/-- A zone record cleared at its owner's stop, but for the shortfall flag (R85, R99). -/
def Zone.cleared (z : Zone) : Zone :=
  { z with
    slots := z.slots.mapWith fun _ o => o.map Circuit.stopped
    demand := 0
    ramped := 0
    dim := none
    preview := none }

/-- A zone cleared and its lines released; shortfall is cleared, with a notice if it was set (R85, R99, R149). No test
runs there, so the R and K of that notice are the model's choice: those of the cleared record, R 0 (R78; log 23). -/
def State.clearZone (s : State) (z : Fin 14) : State :=
  let x := (s.zone z).cleared
  let t := { s.setZone z { x with shortfall := false } with lines := stopOutputs x.circuits s.lines }
  if x.shortfall then t.raise (.shortfall z false x.ramped x.capacity) else t

end Sys2Proof.Machine
end

