-- ==== Sys2Proof/Machine/Portals.lean ====
section
/-! DEFINITION. What a portal channel and a bore unit do in more than one command: storing a source with its
pull-offs, the interior condition, and the entries into OFFLINE, EMERGENCY and HELD. -/

namespace Sys2Proof.Machine

/-! ### The source (R16 to R21) -/

/-- A source and access luminance stored in a portal record; BLIND clears the night flag and its count (R19). -/
def Portal.withSource (x : Portal) (source : Source) (access : Option Nat) : Portal :=
  if source = .blind then
    { x with source := some source, access := access, night := false, lowCount := 0 }
  else { x with source := some source, access := access }

/-- A portal on PARTNER takes step 3 or 4 of its own cascade, with its SOURCE notice (R21). -/
def State.pullOffOne (s : State) (q : Fin 4) : State :=
  let r := s.lateCascade q
  (s.setPortal q ((s.portal q).withSource r.1 r.2)).raise (.source q (some r.1) r.2)

/-- The portals on PARTNER that name `p`, in ascending number. -/
def State.followersOf (s : State) (p : Fin 4) : List (Fin 4) :=
  (List.finRange 4).filter fun q => (s.portal q).source == some .partner && (s.portal q).partner == some p

/-- Every portal on PARTNER that names `p` is pulled off (R21). -/
def State.pullOff (s : State) (p : Fin 4) : State :=
  (s.followersOf p).foldl State.pullOffOne s

/-- The source and access luminance an evaluation gives are stored, with the SOURCE notice of a change (R20)
and the pull-offs of a departure from OWN (R21). -/
def State.setSource (s : State) (p : Fin 4) (source : Source) (access : Option Nat) : State :=
  let was := (s.portal p).source
  let t := s.setPortal p ((s.portal p).withSource source access)
  let t := if was = some source then t else t.raise (.source p (some source) access)
  if was = some .own ∧ source ≠ .own then t.pullOff p else t

/-- The source and access luminance become absent, with the notice and the pull-offs that brings (R16, R20, R21). -/
def State.dropSource (s : State) (p : Fin 4) : State :=
  let was := (s.portal p).source
  let t := s.setPortal p { s.portal p with source := none, access := none }
  let t := if was.isSome then t.raise (.source p none none) else t
  if was = some .own then t.pullOff p else t

/-! ### The interior condition (R139 to R142) -/

/-- The bore's interior condition stored. -/
def State.setCondition (s : State) (b : Fin 2) (c : Condition) : State :=
  s.setBore b { s.bore b with condition := c }

/-- The interior zone is lit where the bore's emergency flag is set (R140). -/
def State.lightInterior (s : State) (b : Fin 2) : State :=
  if (s.bore b).emergency then s.light (interiorOf b) else s

/-- The interior condition worked afresh from the states of the bore's portals, with the effects of its change
(R139 to R142). -/
def State.workCondition (s : State) (b : Fin 2) : State :=
  match (s.bore b).condition, s.conditionFor b with
  | .released, .released => s
  | .released, .held => (s.setCondition b .held).supervise (interiorOf b)
  | .released, .driven => ((s.setCondition b .driven).supervise (interiorOf b)).lightInterior b
  | .held, .released => (s.setCondition b .released).clearZone (interiorOf b)
  | .held, .held => s
  | .held, .driven => (s.setCondition b .driven).lightInterior b
  | .driven, .released => (s.setCondition b .released).clearZone (interiorOf b)
  | .driven, .held => s.setCondition b .held
  | .driven, .driven => s

/-! ### Changes of state -/

/-- A portal's state changed. -/
def State.setPortalState (s : State) (p : Fin 4) (st : PortalState) : State :=
  s.setPortal p { s.portal p with state := st }

/-- A portal's pending-action record removed (R109). -/
def State.removeAction (s : State) (p : Fin 4) : State :=
  s.setPortal p { s.portal p with action := none }

/-- A pending action answered ABANDONED and removed, if there is one (R113, R117, R125). -/
def State.abandonAction (s : State) (p : Fin 4) : State :=
  match (s.portal p).action with
  | none => s
  | some a => (s.answerAction p a .abandoned).removeAction p

/-- The previews of a portal's zones removed (R84). -/
def State.dropPreviews (s : State) (p : Fin 4) : State :=
  (zonesOf p).foldl (fun t z => t.setZone z { t.zone z with preview := none }) s

/-- A portal record's fields at entry into OFFLINE, the source apart: timer, plan in use, role, night flag and
count, override and dry-run inputs (R114). -/
def Portal.toOffline (x : Portal) : Portal :=
  { x with
    state := .offline, timer := none, planInUse := none, role := none, night := false, lowCount := 0,
    override := none, dryRun := none }

/-- Entry into OFFLINE (R114), with the interior condition worked afresh (R139, R142). -/
def State.enterOffline (s : State) (p : Fin 4) : State :=
  let s := s.setPortal p (s.portal p).toOffline
  let s := s.dropSource p
  let s := (zonesOf p).foldl State.clearZone s
  let s := s.raisePortalState p
  s.workCondition (boreOf p)

/-- Entry into EMERGENCY (R117): a pending action abandoned, a dry run ended, the state and its notice, and the
three zones set to capacity and lit. -/
def State.enterEmergency (s : State) (p : Fin 4) : State :=
  let s := s.abandonAction p
  let s := (s.setPortal p { s.portal p with dryRun := none }).dropPreviews p
  let s := (s.setPortalState p .emergency).raisePortalState p
  (zonesOf p).foldl State.light s

/-- Entry into HELD at a COMMISSION that passed its checks (R115), with the interior condition worked afresh
(R139, R140). -/
def State.enterHeld (s : State) (p : Fin 4) : State :=
  let s := s.setPortal p { s.portal p with state := .held, timer := some (msAfter s.uptime 1000) }
  let s := (zonesOf p).foldl State.supervise s
  let s := s.raisePortalState p
  s.workCondition (boreOf p)

end Sys2Proof.Machine
end

