-- ==== Sys2Proof/Machine/Engine.lean ====
section
/-! DEFINITION. The request engine of a link (R167 to R172): taking the request at the head of the queue, its
checks, visiting the units of a mask, and forming the response. -/

namespace Sys2Proof.Machine

/-- What a request is answered with, before the suppression of R171. -/
structure Reply where
  target : Octet
  frame : Disposition
  each : List Disposition
  data : List Octet
deriving DecidableEq, Repr

/-- A reply that carries its frame disposition alone (R168, R170); also that of a request without a mask. -/
def Reply.alone (r : Request) (d : Disposition) : Reply :=
  { target := r.target, frame := d, each := [], data := [] }

/-- The reply of a read or ECHO taken with the disposition DONE (R170). -/
def Reply.withData (r : Request) (data : List Octet) : Reply :=
  { target := r.target, frame := .done, each := [], data := data }

/-- The reply to a request with a mask, formed from the dispositions of the units it reports (R170). -/
def Reply.masked (target : Octet) (each : List Disposition) (data : List Octet) : Reply :=
  { target := target, frame := frameDisposition each, each := each, data := data }

/-- What a request does to the state, and its reply; no reply where every selected portal deferred (R125). -/
abbrev Handler := Request → State → State × Option Reply

/-- The code names a read or ECHO (R171). -/
def Request.returnsData (r : Request) : Bool :=
  (reqCodeOf r.code).any ReqCode.returnsData

/-- The response is made (R171): always for a read or ECHO and for a refusal, else where ack was wanted. -/
def Reply.made (r : Request) (x : Reply) : Bool :=
  r.returnsData || r.ackWanted || !x.frame.tookEffect

/-- The response to a request placed in its link's list, unless there is none to make (R170 to R172). -/
def State.respond (s : State) (l : Link) (r : Request) (reply : Option Reply) : State :=
  match reply with
  | none => s
  | some x =>
    if x.made r then
      s.place l { tag := r.tag, code := r.code, target := x.target, frame := x.frame, each := x.each, data := x.data }
    else s

/-- The request the engine of a link takes next, if it may take one (R167). -/
def State.nextRequest (s : State) (l : Link) : Option Request :=
  if (s.link l).responses.length < 4 then (s.link l).requests.head? else none

/-- The state once the head request of a link has left its queue (R167). -/
def State.popRequest (s : State) (l : Link) : State :=
  s.setLink l { s.link l with requests := (s.link l).requests.tail }

/-- One take by a link's engine (R167) of a request that is `mine`: the request leaves its queue, acts, and is
answered. Nothing happens where the engine has no such request to take (log 5). -/
def State.take (s : State) (l : Link) (mine : Request → Bool) (act : Handler) : State :=
  s.event fun s =>
    match s.nextRequest l with
    | none => s
    | some r =>
      if mine r then
        let out := act r (s.popRequest l)
        out.1.respond l r out.2
      else s

/-- The request's code is `c`. -/
def Request.isFor (c : ReqCode) (r : Request) : Bool :=
  reqCodeOf r.code == some c

/-- Steps 2 and 3 of the engine's checks, before the request's own (R168). -/
def checked (l : Link) (c : ReqCode) (act : Handler) : Handler := fun r s =>
  if mayMake l c then
    if lengthOk c r.body then act r s else (s, some (Reply.alone r .badLength))
  else (s, some (Reply.alone r .notPermitted))

/-- A take of a request of code `c` with all of the engine's checks (R167, R168). -/
def State.takeFor (s : State) (l : Link) (c : ReqCode) (act : Handler) : State :=
  s.take l (Request.isFor c) (checked l c act)

/-! ### Units of a mask -/

/-- Each unit visited in ascending order, each seeing the effects of those before it (R108, R130); what each
answered, with its unit, for those that answered at once. -/
def visitAll {n : Nat} {α : Type} (f : Fin n → State → State × Option α) :
    List (Fin n) → State → State × List (Fin n × α)
  | [], s => (s, [])
  | u :: us, s =>
    let x := f u s
    let y := visitAll f us x.1
    (y.1, (x.2.map fun a => (u, a)).toList ++ y.2)

/-- A request with a mask of `n` units: the mask check (R168 step 4), a refusal of the request as a whole, which
answers every selected unit alike (R108, R130), or each unit on its own. No rule orders the first two where a mask with a
bit that names no unit comes with a body value out of range: the mask first, so that BAD_VALUE is answered with the frame
disposition alone, is the model's choice (log 26). -/
def overUnits (n : Nat) (refusal : Option Disposition) (visit : Fin n → State → State × Disposition) : Handler :=
  fun r s =>
    match unitsOf n r.target with
    | none => (s, some (Reply.alone r .badValue))
    | some us =>
      match refusal with
      | some d => (s, some (Reply.masked r.target (us.map fun _ => d) []))
      | none =>
        let out := visitAll (fun u t => let x := visit u t; (x.1, some x.2)) us s
        (out.1, some (Reply.masked r.target (out.2.map Prod.snd) []))

/-- A read of the units of a mask: each answers DONE, and their data follows all the dispositions (R183). -/
def readUnits (n : Nat) (data : State → Fin n → List Octet) : Handler := fun r s =>
  match unitsOf n r.target with
  | none => (s, some (Reply.alone r .badValue))
  | some us => (s, some (Reply.masked r.target (us.map fun _ => .done) (us.flatMap (data s))))

/-- A request whose target is a number below `n` (R178). -/
def onUnit (n : Nat) (act : Fin n → Handler) : Handler := fun r s =>
  match finOf n r.target.toNat with
  | none => (s, some (Reply.alone r .badValue))
  | some u => act u r s

end Sys2Proof.Machine
end

