-- ==== Sys2Proof/Machine/Supervision.lean ====
section
/-! DEFINITION. The meanings of the supervision events: FEEDBACK_SAMPLE, FEEDBACK_CHANGE, SETTLE_EXPIRY,
LOSS_EXPIRY and BURN_TICK (R91 to R95, R100, R152, R153). -/

namespace Sys2Proof.Machine

/-! ### Debounce (R152) -/

/-- A sample of the pin is the 20th consecutive one that disagrees with the debounced value of a FEEDBACK_IN line:
a feedback change (R152). -/
def Line.changes (pin : Bool) (x : Line) : Bool :=
  x.fn == .feedbackIn && x.count.any (19 ≤ ·) && some (x.raw pin) != x.debounced

/-- A FEEDBACK_IN line record after a sample of its pin, by the table of R152. Any other line is passed over. -/
def Line.sampled (pin : Bool) (x : Line) : Line :=
  match x.fn, x.count with
  | .feedbackIn, some n =>
    if some (x.raw pin) = x.debounced then { x with count := some 0 }
    else if n < 19 then { x with count := some (n + 1) }
    else { x with debounced := some (x.raw pin), count := some 0 }
  | _, _ => x

/-- The line is a FEEDBACK_IN line whose next disagreeing sample is the 20th. -/
def Line.changeReady (x : Line) : Bool :=
  x.fn == .feedbackIn && x.count == some 19

/-! ### Feedback judgement (R93, R95, R153) -/

/-- A feedback change acts on a circuit by its kind and state (R93, R95). -/
def Circuit.feedbackChanged (now : Uptime) (settle : Nat) (present : Bool) (c : Circuit) : Circuit :=
  match c.kind with
  | .switched =>
    if c.state = .on then (if present then c.cancelLoss else c.startLoss now settle) else c
  | .dimmed =>
    if c.state = .off ∨ c.state = .on then (if present then c.startLoss now settle else c.cancelLoss) else c

/-- A circuit of a supervised zone takes the feedback change that a sample of the lines `which` makes on its feedback
line, if it makes one (R153). -/
def Circuit.takeSample (s : State) (which : Fin 192 → Bool) (pins : BitVec 192) (settle : Nat) (c : Circuit) : Circuit :=
  match c.feedback with
  | none => c
  | some i =>
    if which i && (s.line i).changes (pins.getLsbD i.val) then
      c.feedbackChanged s.uptime settle ((s.line i).raw (pins.getLsbD i.val))
    else c

/-- The FEEDBACK_IN lines among `which` are sampled, and each feedback change is handed, in the same event, to every
supervised circuit that names the line (R152, R153). A circuit names one feedback line, so the order of the changes
does not matter. -/
def State.sampleLines (s : State) (which : Fin 192 → Bool) (pins : BitVec 192) : State :=
  { s with
    lines := s.lines.mapWith fun i x => if which i then x.sampled (pins.getLsbD i.val) else x
    zones := s.zones.mapWith fun z x =>
      if s.supervised z then
        { x with slots := x.slots.mapWith fun _ o => o.map (Circuit.takeSample s which pins x.settle) }
      else x }

/-- The pin level at which a line's raw value is its debounced value changed over. -/
def Line.changingPin (x : Line) : Bool :=
  xor (x.debounced == some false) x.invert

/-- FEEDBACK_CHANGE: the 20th consecutive disagreeing sample of one line, taken at the next whole millisecond with the pin
at the level that disagrees (R152, R153). The FEEDBACK_SAMPLE of that millisecond then finds the line agreeing (log 11). -/
def execFeedbackChange (i : Fin 192) (s : State) : Host.Outcome State Fault Refusal :=
  .next (s.event fun s =>
    if (s.line i).changeReady then
      let t := (s.reach s.sampleDue).setPin i (s.line i).changingPin
      t.sampleLines (fun j => j == i) t.pins
    else s)

/-- FEEDBACK_SAMPLE: at a whole millisecond every FEEDBACK_IN line is sampled against the levels of the pins, and a line
whose 20th disagreeing sample it is makes its feedback change (R152, R153). -/
def execFeedbackSample (pins : BitVec 192) (s : State) : Host.Outcome State Fault Refusal :=
  .next (s.event fun s =>
    let t := { s.reach s.sampleDue with sampleDue := msAfter s.sampleDue 1, pins := pins }
    t.sampleLines (fun _ => true) pins)

/-! ### Expiries (R91, R92, R94, R95) -/

/-- A circuit at its settle expiry, with the feedback as it stands (R91, R92). -/
def Circuit.settled (present : Bool) (c : Circuit) : Circuit :=
  match c.state with
  | .switchingOn => if present then { c with state := .on, timer := none } else c.outOfService .failedDark
  | .switchingOff => if present then c.outOfService .stuckOn else c.outOfService .off
  | .off | .on | .failedDark | .stuckOn | .lockedOut => { c with timer := none }

/-- A circuit at its loss expiry: an available one is FAILED_DARK (R94, R95). -/
def Circuit.lost (c : Circuit) : Circuit :=
  if c.available then c.outOfService .failedDark else { c with timer := none }

/-- A circuit record written in its slot, with the output value of its line and the CIRCUIT_FAULT notice of a set
that changes (R87, R97). -/
def State.putCircuit (s : State) (z : Fin 14) (k : Fin 8) (f : Circuit → Circuit) : State :=
  (s.putZone z ((s.zone z).modSlot k f)).raiseFaultChange z (s.zone z)

/-- The expiry of a circuit's timer of a kind, where one runs. -/
def State.timerOf (s : State) (kind : TimerKind) (z : Fin 14) (k : Fin 8) : Option Uptime :=
  ((s.circuit z k).bind Circuit.timer).bind fun t => if t.kind = kind then some t.expiry else none

/-- The feedback value of the circuit in a slot (R153). -/
def State.slotFeedback (s : State) (z : Fin 14) (k : Fin 8) : Bool :=
  (s.circuit z k).any s.feedbackPresent

/-- SETTLE_EXPIRY (R91, R92). -/
def execSettleExpiry (z : Fin 14) (k : Fin 8) (s : State) : Host.Outcome State Fault Refusal :=
  .next (s.event fun s =>
    match s.timerOf .settle z k with
    | none => s
    | some e => (s.reach e).putCircuit z k (Circuit.settled (s.slotFeedback z k)))

/-- LOSS_EXPIRY (R94, R95). -/
def execLossExpiry (z : Fin 14) (k : Fin 8) (s : State) : Host.Outcome State Fault Refusal :=
  .next (s.event fun s =>
    match s.timerOf .loss z k with
    | none => s
    | some e => (s.reach e).putCircuit z k Circuit.lost)

/-! ### Burn time (R100) -/

/-- A circuit with one burn second more; the count stops at its largest value (R100). -/
def Circuit.burned (c : Circuit) : Circuit :=
  { c with burn := min 4294967295 (c.burn + 1) }

/-- BURN_TICK: every circuit whose output command is active burns one second (R100). -/
def execBurnTick (s : State) : Host.Outcome State Fault Refusal :=
  .next (s.event fun s =>
    let e := s.burnDue
    { s.reach e with
      burnDue := msAfter e 1000
      zones := s.zones.mapWith fun z x => x.modWhere (s.commandActive z) Circuit.burned })

end Sys2Proof.Machine
end

