-- ==== Sys2Proof/Machine/Clock.lean ====
section
/-! DEFINITION. What the part does by itself: the command for its next due event, and a millisecond that passes
(R26, R167, R173; log 2, log 3). -/

namespace Sys2Proof.Machine

/-- The row of the table that takes a request (R167, R168; the STOP rows by log 13). -/
def takeCommand (l : Link) (r : Request) : Instr :=
  match reqCodeOf r.code with
  | none => .unknownCode l
  | some .echo => .echo l
  | some .setNoticeMask => .setNoticeMask l
  | some .readPortal => .readPortal l
  | some .readBore => .readBore l
  | some .readZone => .readZone l
  | some .readCircuit => .readCircuit l
  | some .readMeter => .readMeter l
  | some .readLine => .readLine l
  | some .readPlan => .readPlan l
  | some .readSchedule => .readSchedule l
  | some .readClock => .readClock l
  | some .writeLine => .writeLine l
  | some .writeMeterSetup => .writeMeterSetup l
  | some .writePortalSetup => .writePortalSetup l
  | some .writeZone => .writeZone l
  | some .writePlan => .writePlan l
  | some .writeSchedule => .writeSchedule l
  | some .writeBoreSetup => .writeBoreSetup l
  | some .setClock => .setClock l
  | some .commission => .commission l
  | some .hold => .hold l
  | some .release => .release l
  | some .stop => if r.body = [1] then .stopImmediate l else .stopOrderly l
  | some .overrideSet => .overrideSet l
  | some .overrideClear => .overrideClear l
  | some .dryRunStart => .dryRunStart l
  | some .dryRunInput => .dryRunInput l
  | some .dryRunStop => .dryRunStop l
  | some .lockoutModify => .lockoutModify l
  | some .burnReset => .burnReset l
  | some .speedReport => .speedReport l
  | some .directionSet => .directionSet l
  | some .emergencySet => .emergencySet l
  | some .emergencyClear => .emergencyClear l

/-- The three links. -/
def allLinks : List Link :=
  [.o, .t, .s]

/-- The uptime has reached an expiry, if there is one (R26). -/
def State.due (s : State) (e : Option Uptime) : Bool :=
  e.any fun e => reached s.uptime e

/-- A gap timer that has expired (R163). -/
def State.dueGap (s : State) : Option Instr :=
  (allLinks.find? fun l =>
    match (s.link l).framer with
    | .hunt => false
    | .collect _ gap => reached s.uptime gap
    | .brk => false).map .gapTimerExpiry

/-- The expiry of a circuit's timer that has come (R89). -/
def dueTimer (s : State) (z : Fin 14) (k : Fin 8) (c : Circuit) : Option Instr :=
  match c.timer with
  | none => none
  | some t =>
    if reached s.uptime t.expiry then
      match t.kind with
      | .settle => some (.settleExpiry z k)
      | .loss => some (.lossExpiry z k)
    else none

/-- A settle or loss timer that has expired, by zone and slot (R89). -/
def State.dueCircuit (s : State) : Option Instr :=
  (List.finRange 14).findSome? fun z =>
    (List.finRange 8).findSome? fun k => (s.circuit z k).bind fun c => dueTimer s z k c

/-- A gate that has ended (R5). -/
def State.dueGate (s : State) : Option Instr :=
  ((List.finRange 4).find? fun m => s.due (s.meter m).gateEnd).map .gateExpiry

/-- An override timer that has expired (R121). -/
def State.dueOverride (s : State) : Option Instr :=
  ((List.finRange 4).find? fun p => s.due ((s.portal p).override.bind Override.expiry)).map .overrideExpiry

/-- A stale timer that has expired (R134). -/
def State.dueStale (s : State) : Option Instr :=
  ((List.finRange 2).find? fun b => s.due (s.bore b).staleTimer).map .staleExpiry

/-- A portal whose evaluation has come (R106). -/
def State.duePortal (s : State) : Option Instr :=
  ((List.finRange 4).find? fun p => s.due (s.portal p).timer).map .portalEvaluation

/-- A bore whose evaluation has come (R143). -/
def State.dueBore (s : State) : Option Instr :=
  ((List.finRange 2).find? fun b => s.due (some (s.bore b).timer)).map .boreEvaluation

/-- A transmission that has ended (R173). -/
def State.dueSent (s : State) : Option Instr :=
  (allLinks.find? fun l =>
    match (s.link l).transmitter with
    | .idle => false
    | .sending _ ends => reached s.uptime ends
    | .silent => false).map .transmissionEnd

/-- A request that an engine may take (R167). -/
def State.dueTake (s : State) : Option Instr :=
  allLinks.findSome? fun l => (s.nextRequest l).map (takeCommand l)

/-- The part's next due event, as the command that carries it out; the order among events that have come together
is the model's (log 3). -/
def State.dueCommand (s : State) : Option Instr :=
  (if s.due (some s.sampleDue) then some (.feedbackSample s.pins) else none)
  <|> (if s.due (some s.periodDue) then some .pwmPeriodStart else none)
  <|> s.dueGap
  <|> s.dueCircuit
  <|> s.dueGate
  <|> s.dueOverride
  <|> s.dueStale
  <|> (if s.due (s.clock.map Clock.next) then some .minuteAdvance else none)
  <|> s.duePortal
  <|> s.dueBore
  <|> (if s.due (some s.burnDue) then some .burnTick else none)
  <|> s.dueSent
  <|> s.dueTake

/-- A millisecond passes (R26). -/
def State.tick (s : State) : State :=
  s.event fun s => { s with uptime := s.uptime + 1 }

end Sys2Proof.Machine
end

