-- ==== Sys2Proof/Machine/BoreInputs.lean ====
section
/-! DEFINITION. The meanings of the bore inputs: SPEED_REPORT, DIRECTION_SET, EMERGENCY_SET and EMERGENCY_CLEAR
(R130, R132, R133, R136, R137, R196). -/

namespace Sys2Proof.Machine

/-! ### Traffic (R132, R133) -/

/-- The speed class an octet carries, clamped to 4 (R133). -/
def classOf (o : Octet) : Fin 5 :=
  ⟨min 4 o.toNat, by omega⟩

/-- A bore record that has taken a speed report (R133). -/
def Bore.reported (now : Uptime) (x : Bore) (cls : Fin 5) (congested : Bool) : Bore :=
  { x with
    speedClass := cls, congested := congested, stale := false
    staleTimer := some (msAfter now (x.staleTimeout * 1000)) }

/-- One selected bore of a SPEED_REPORT (R133). -/
def State.reportOne (cls : Fin 5) (clamped congested : Bool) (b : Fin 2) (s : State) : State × Disposition :=
  let t := s.setBore b ((s.bore b).reported s.uptime cls congested)
  (if (s.bore b).stale then t.raiseTrafficState b else t, if clamped then .adjusted else .done)

/-- SPEED_REPORT (R133, R196). -/
def execSpeedReport (l : Link) (s : State) : Host.Outcome State Fault Refusal :=
  .next (s.takeFor l .speedReport fun r s =>
    let cls := r.body.getD 0 0
    match flagOf (r.body.getD 1 0) with
    | none => overUnits 2 (some .badValue) (fun _ t => (t, .badValue)) r s
    | some congested =>
      overUnits 2 none (State.reportOne (classOf cls) (decide (4 < cls.toNat)) congested) r s)

/-- One selected bore of a DIRECTION_SET (R132). -/
def State.directionOne (mode : DirectionMode) (b : Fin 2) (s : State) : State × Disposition :=
  (if (s.bore b).mode = mode then s else (s.setBore b { s.bore b with mode := mode }).raiseTrafficState b, .done)

/-- DIRECTION_SET (R132, R196). -/
def execDirectionSet (l : Link) (s : State) : Host.Outcome State Fault Refusal :=
  .next (s.takeFor l .directionSet fun r s =>
    match directionOf (r.body.getD 0 0) with
    | none => overUnits 2 (some .badValue) (fun _ t => (t, .badValue)) r s
    | some mode => overUnits 2 none (State.directionOne mode) r s)

/-! ### Emergency (R136, R137) -/

/-- A portal in AUTO, HELD or DRY_RUN enters EMERGENCY; any other is left as it is (R117). -/
def State.reachPortal (s : State) (p : Fin 4) : State :=
  match (s.portal p).state with
  | .auto | .held | .dryRun => s.enterEmergency p
  | .offline | .emergency => s

/-- Step 4 of an emergency set: the interior condition worked afresh and, where it is DRIVEN, the interior zone
set to capacity and lit (R136); a condition that rises to DRIVEN lights it by R140. -/
def State.emergencyInterior (s : State) (b : Fin 2) : State :=
  let t := s.workCondition b
  if (s.bore b).condition = .driven ∧ (t.bore b).condition = .driven then t.light (interiorOf b) else t

/-- One selected bore of an EMERGENCY_SET (R136). -/
def State.emergencyOne (b : Fin 2) (s : State) : State × Disposition :=
  if (s.bore b).emergency then (s, .done)
  else
    let t := s.setBore b { s.bore b with emergency := true, demand := 60000 }
    let t := (portalsOf b).foldl State.reachPortal t
    ((t.emergencyInterior b).raiseTrafficState b, .done)

/-- EMERGENCY_SET (R136, R196). -/
def execEmergencySet (l : Link) (s : State) : Host.Outcome State Fault Refusal :=
  .next (s.takeFor l .emergencySet (overUnits 2 none State.emergencyOne))

/-- A portal in EMERGENCY passes to AUTO, with its PORTAL_STATE notice; any other is left as it is (R118). -/
def State.returnPortal (s : State) (p : Fin 4) : State :=
  if (s.portal p).state = .emergency then (s.setPortalState p .auto).raisePortalState p else s

/-- One selected bore of an EMERGENCY_CLEAR (R137). -/
def State.clearOne (b : Fin 2) (s : State) : State × Disposition :=
  if (s.bore b).emergency then
    let t := s.setBore b { s.bore b with emergency := false, demand := (s.bore b).base }
    let t := (portalsOf b).foldl State.returnPortal t
    ((t.workCondition b).raiseTrafficState b, .done)
  else (s, .done)

/-- EMERGENCY_CLEAR (R137, R196). -/
def execEmergencyClear (l : Link) (s : State) : Host.Outcome State Fault Refusal :=
  .next (s.takeFor l .emergencyClear (overUnits 2 none State.clearOne))

end Sys2Proof.Machine
end

