-- ==== Sys2Proof/Machine/Control.lean ====
section
/-! DEFINITION. The meanings of the portal control requests: COMMISSION with its checks, HOLD, RELEASE, STOP in
its two rows, OVERRIDE_SET, OVERRIDE_CLEAR, DRY_RUN_START, DRY_RUN_INPUT and DRY_RUN_STOP (R108, R191 to R194,
R198 to R201). -/

namespace Sys2Proof.Machine

/-! ### The commissioning checks (R198 to R201) -/

/-- A failure item: its code and its argument (layout tables). -/
structure FailureItem where
  code : Nat
  argument : Nat
deriving DecidableEq, Repr

/-- The zones whose circuits a COMMISSION of the portal checks: its own, and the interior zone of its bore while
its condition is RELEASED (R198, R200). -/
def State.checkedZones (s : State) (p : Fin 4) : List (Fin 14) :=
  zonesOf p ++ if (s.bore (boreOf p)).condition = .released then [interiorOf (boreOf p)] else []

/-- The circuits checked, in the order of R201. -/
def State.checkedCircuits (s : State) (p : Fin 4) : List Circuit :=
  (s.checkedZones p).flatMap fun z => (s.zone z).circuits

/-- The output function a circuit of a kind needs (item 03h of R198). -/
def CircuitKind.outputFn : CircuitKind → LineFn
  | .switched => .switchOut
  | .dimmed => .dimOut

/-- The lines of a list, each where it is first found (R201). -/
def firstOnly (ls : List (Fin 192)) : List (Fin 192) :=
  ls.foldl (fun acc i => if i ∈ acc then acc else acc ++ [i]) []

/-- The output lines that fail item 03h. -/
def State.wrongOutputs (s : State) (p : Fin 4) : List (Fin 192) :=
  firstOnly (((s.checkedCircuits p).filter fun c => (s.line c.output).fn != c.kind.outputFn).map Circuit.output)

/-- The feedback lines that fail item 04h. -/
def State.wrongFeedbacks (s : State) (p : Fin 4) : List (Fin 192) :=
  firstOnly ((s.checkedCircuits p).filterMap fun c => c.feedback.filter fun i => (s.line i).fn != .feedbackIn)

/-- The line of the meter the portal names, if any. -/
def State.portalMeterLine (s : State) (p : Fin 4) : Option (Fin 192) :=
  (s.portal p).meter.bind fun m => (s.meter m).line

/-- The candidate namings of a COMMISSION of the portal (R199). -/
def State.candidates (s : State) (p : Fin 4) : List (Fin 192) :=
  (s.checkedCircuits p).flatMap Circuit.namings ++ (s.portalMeterLine p).toList

/-- The line carries a naming in use (R199): by a circuit of a supervised zone, or as the line of a meter that a
portal in service names, other than the meter this portal names, which is one naming with it. -/
def State.namedInUse (s : State) (p : Fin 4) (i : Fin 192) : Bool :=
  s.supervisedCircuits.any (fun x => x.2.2.namings.contains i)
  || (List.finRange 4).any fun m =>
      s.meterInService m && (s.portal p).meter != some m && (s.meter m).line == some i

/-- The lines named twice, ascending (item 05h, R199). -/
def State.namedTwice (s : State) (p : Fin 4) : List (Fin 192) :=
  let namings := s.candidates p
  (List.finRange 192).filter fun i =>
    decide (2 ≤ namings.count i) || (decide (1 ≤ namings.count i) && s.namedInUse p i)

/-- Every failure item of a COMMISSION of the portal, in the order found (R198, R201). -/
def State.failures (s : State) (p : Fin 4) : List FailureItem :=
  (if (s.portal p).planA.isSome then [] else [⟨1, 0⟩])
  ++ (if (s.zone (zoneOf p 0)).circuits = [] then [⟨2, (zoneOf p 0).val⟩] else [])
  ++ (s.wrongOutputs p).map (fun i => ⟨3, i.val⟩)
  ++ (s.wrongFeedbacks p).map (fun i => ⟨4, i.val⟩)
  ++ (s.namedTwice p).map (fun i => ⟨5, i.val⟩)
  ++ ((s.portal p).meter.filter fun m => !s.meterConfigured m).toList.map (fun m => ⟨6, m.val⟩)
  ++ (if (s.portal p).partner = some p then [⟨7, p.val⟩] else [])

/-- The failure list of a portal in a response: its number, the item count, the first 14 items (R191, R201). -/
def failureList (p : Fin 4) (items : List FailureItem) : List Octet :=
  let listed := items.take 14
  be8 p.val ++ be8 listed.length ++ listed.flatMap fun x => be8 x.code ++ be8 x.argument

/-- One selected portal of a COMMISSION: its disposition and its failure list (R108, R115, R191). -/
def State.commissionOne (s : State) (p : Fin 4) : State × Disposition × List Octet :=
  if (s.portal p).state ≠ .offline then (s, .wrongState, [])
  else if s.failures p = [] then (s.enterHeld p, .done, [])
  else (s, .incomplete, failureList p (s.failures p))

/-- COMMISSION (R115, R191). -/
def execCommission (l : Link) (s : State) : Host.Outcome State Fault Refusal :=
  .next (s.takeFor l .commission fun r s =>
    match unitsOf 4 r.target with
    | none => (s, some (Reply.alone r .badValue))
    | some us =>
      let out := visitAll (fun p t => let x := t.commissionOne p; (x.1, some x.2)) us s
      (out.1, some (Reply.masked r.target (out.2.map fun x => x.2.1) (out.2.flatMap fun x => x.2.2))))

/-! ### Deferred requests (R108, R109, R125) -/

/-- What the table of R108 gives for a deferred request in a state. -/
inductive Verdict where
  | refused (d : Disposition)
  | noChange
  | deferred
deriving DecidableEq, Repr

/-- The row of a deferred request in the table of R108. -/
def ActionKind.verdict (kind : ActionKind) (st : PortalState) : Verdict :=
  match kind, st with
  | .hold, .offline => .refused .wrongState
  | .hold, .held => .noChange
  | .hold, .dryRun => .refused .wrongState
  | .hold, .auto => .deferred
  | .release, .offline => .refused .wrongState
  | .release, .held => .deferred
  | .release, .dryRun => .refused .wrongState
  | .release, .auto => .noChange
  | .stopOrderly, .offline => .noChange
  | .stopOrderly, .held => .deferred
  | .stopOrderly, .dryRun => .deferred
  | .stopOrderly, .auto => .deferred
  | _, .emergency => .refused .isProtected

/-- One selected portal of a deferred request: it answers at once, or holds the request as its pending action and
answers nothing yet; a portal that already holds one answers BUSY (R108, R109). -/
def State.deferOne (kind : ActionKind) (l : Link) (r : Request) (p : Fin 4) (s : State) :
    State × Option Disposition :=
  match kind.verdict (s.portal p).state with
  | .refused d => (s, some d)
  | .noChange => (s, some (if (s.portal p).action.isSome then .busy else .done))
  | .deferred =>
    if (s.portal p).action.isSome then (s, some .busy)
    else
      (s.setPortal p { s.portal p with
        action := some { kind := kind, link := l, tag := r.tag, ackWanted := r.ackWanted, answerOwed := true } },
       none)

/-- A deferred request: the reply at acceptance names the portals that answered at once, and there is none where
every selected portal deferred (R125). -/
def deferAll (kind : ActionKind) (l : Link) : Handler := fun r s =>
  match unitsOf 4 r.target with
  | none => (s, some (Reply.alone r .badValue))
  | some us =>
    let out := visitAll (State.deferOne kind l r) us s
    (out.1,
     if out.2 = [] then none
     else some (Reply.masked (BitVec.ofNat 8 (maskOf (out.2.map Prod.fst))) (out.2.map Prod.snd) []))

/-- HOLD (R108, R110, R192). -/
def execHold (l : Link) (s : State) : Host.Outcome State Fault Refusal :=
  .next (s.takeFor l .hold (deferAll .hold l))

/-- RELEASE (R108, R111, R192). -/
def execRelease (l : Link) (s : State) : Host.Outcome State Fault Refusal :=
  .next (s.takeFor l .release (deferAll .release l))

/-! ### STOP (R112, R113, R192) -/

/-- The request is a STOP with the immediate body. -/
def Request.isStopImmediate (r : Request) : Bool :=
  r.isFor .stop && r.body == [1]

/-- The request is a STOP with any other body: the orderly one, and those the engine refuses (log 13). -/
def Request.isStopOrderly (r : Request) : Bool :=
  r.isFor .stop && r.body != [1]

/-- STOP ORDERLY (R108, R112, R192); a body that is neither stop is refused BAD_VALUE for every selected portal. -/
def execStopOrderly (l : Link) (s : State) : Host.Outcome State Fault Refusal :=
  .next (s.take l Request.isStopOrderly (checked l .stop fun r s =>
    if r.body = [0] then deferAll .stopOrderly l r s
    else overUnits 4 (some .badValue) (fun _ t => (t, .badValue)) r s))

/-- One selected portal of a STOP IMMEDIATE (R108, R113). -/
def State.stopOne (p : Fin 4) (s : State) : State × Disposition :=
  match (s.portal p).state with
  | .offline => (s, .done)
  | .held | .dryRun | .auto => ((s.abandonAction p).enterOffline p, .done)
  | .emergency => (s, .isProtected)

/-- STOP IMMEDIATE (R113, R192). -/
def execStopImmediate (l : Link) (s : State) : Host.Outcome State Fault Refusal :=
  .next (s.take l Request.isStopImmediate (checked l .stop (overUnits 4 none State.stopOne)))

/-! ### Overrides (R119 to R122, R193) -/

/-- The kind an OVERRIDE_SET carries, its level clamped, and whether it was clamped (R119, R193). -/
def overrideKindOf (body : List Octet) : Option (OverrideKind × Bool) :=
  let level := nat16 (body.getD 1 0) (body.getD 2 0)
  if body.getD 0 0 = 0 then some (.level (min 60000 level), decide (60000 < level))
  else if body.getD 0 0 = 1 then some (.freeze, false)
  else none

/-- The override record set at an uptime (R119). -/
def newOverride (now : Uptime) (kind : OverrideKind) (minutes : Nat) : Override where
  kind := kind
  duration := minutes
  expiry := if minutes = 0 then none else some (msAfter now (minutes * 60000))

/-- One selected portal of an OVERRIDE_SET (R108, R119). -/
def State.overrideOne (kind : OverrideKind) (clamped : Bool) (minutes : Nat) (p : Fin 4) (s : State) :
    State × Disposition :=
  match (s.portal p).state with
  | .offline | .dryRun => (s, .wrongState)
  | .held | .auto =>
    (s.setPortal p { s.portal p with override := some (newOverride s.uptime kind minutes) },
     if clamped then .adjusted else .done)
  | .emergency => (s, .isProtected)

/-- OVERRIDE_SET (R119, R193). -/
def execOverrideSet (l : Link) (s : State) : Host.Outcome State Fault Refusal :=
  .next (s.takeFor l .overrideSet fun r s =>
    let minutes := (r.body.getD 3 0).toNat
    match overrideKindOf r.body with
    | none => overUnits 4 (some .badValue) (fun _ t => (t, .badValue)) r s
    | some (kind, clamped) =>
      overUnits 4 (if minutes ≤ 240 then none else some .badValue) (State.overrideOne kind clamped minutes) r s)

/-- One selected portal of an OVERRIDE_CLEAR (R108, R122). -/
def State.unoverrideOne (p : Fin 4) (s : State) : State × Disposition :=
  match (s.portal p).state with
  | .offline | .dryRun => (s, .wrongState)
  | .held | .auto | .emergency =>
    if (s.portal p).override.isSome then (s.setPortal p { s.portal p with override := none }, .done)
    else (s, .wrongState)

/-- OVERRIDE_CLEAR (R122, R193). -/
def execOverrideClear (l : Link) (s : State) : Host.Outcome State Fault Refusal :=
  .next (s.takeFor l .overrideClear (overUnits 4 none State.unoverrideOne))

/-! ### Dry runs (R123, R124, R194) -/

/-- The dry-run input record a body carries, if every value is in its range (R123, R194). -/
def dryRunInputOf (body : List Octet) : Option DryRunInput :=
  let access := nat16 (body.getD 0 0) (body.getD 1 0)
  let slot : Option (Option PlanSlot) :=
    if body.getD 3 0 = 0xFF then some none else (planSlotOf (body.getD 3 0)).map some
  match optFinOf 5 (body.getD 2 0), slot with
  | some cls, some slot => if access ≤ 9999 then some ⟨access, cls, slot⟩ else none
  | _, _ => none

/-- One selected portal of a DRY_RUN_START (R108, R123). -/
def State.dryRunOne (x : DryRunInput) (p : Fin 4) (s : State) : State × Disposition :=
  match (s.portal p).state with
  | .offline | .dryRun | .auto => (s, .wrongState)
  | .emergency => (s, .isProtected)
  | .held =>
    if (s.portal p).action.isSome then (s, .busy)
    else if (s.bore (boreOf p)).emergency then (s, .isProtected)
    else
      (((s.setPortal p { s.portal p with dryRun := some x, state := .dryRun }).raisePortalState p).workCondition
        (boreOf p), .done)

/-- DRY_RUN_START (R123, R194). -/
def execDryRunStart (l : Link) (s : State) : Host.Outcome State Fault Refusal :=
  .next (s.takeFor l .dryRunStart fun r s =>
    match dryRunInputOf r.body with
    | none => overUnits 4 (some .badValue) (fun _ t => (t, .badValue)) r s
    | some x => overUnits 4 none (State.dryRunOne x) r s)

/-- One selected portal of a DRY_RUN_INPUT (R108, R124). -/
def State.dryInputOne (x : DryRunInput) (p : Fin 4) (s : State) : State × Disposition :=
  match (s.portal p).state with
  | .offline | .held | .auto => (s, .wrongState)
  | .dryRun => (s.setPortal p { s.portal p with dryRun := some x }, .done)
  | .emergency => (s, .isProtected)

/-- DRY_RUN_INPUT (R124, R194). -/
def execDryRunInput (l : Link) (s : State) : Host.Outcome State Fault Refusal :=
  .next (s.takeFor l .dryRunInput fun r s =>
    match dryRunInputOf r.body with
    | none => overUnits 4 (some .badValue) (fun _ t => (t, .badValue)) r s
    | some x => overUnits 4 none (State.dryInputOne x) r s)

/-- One selected portal of a DRY_RUN_STOP (R108, R124). -/
def State.dryStopOne (p : Fin 4) (s : State) : State × Disposition :=
  match (s.portal p).state with
  | .offline | .held | .auto => (s, .wrongState)
  | .dryRun =>
    let t := (s.setPortal p { s.portal p with dryRun := none, state := .held }).dropPreviews p
    ((t.raisePortalState p).workCondition (boreOf p), .done)
  | .emergency => (s, .isProtected)

/-- DRY_RUN_STOP (R124, R194). -/
def execDryRunStop (l : Link) (s : State) : Host.Outcome State Fault Refusal :=
  .next (s.takeFor l .dryRunStop (overUnits 4 none State.dryStopOne))

end Sys2Proof.Machine
end

