-- ==== Sys2Proof/Machine/Evaluation.lean ====
section
/-! DEFINITION. The meanings of PORTAL_EVALUATION (R107) and BORE_EVALUATION (R143). -/

namespace Sys2Proof.Machine

/-! ### Step 1 of a portal's evaluation: the pending action (R110 to R112) -/

/-- A pending HOLD takes effect (R110). -/
def State.holdNow (s : State) (p : Fin 4) (a : PendingAction) : State :=
  let s := (s.setPortalState p .held).raisePortalState p
  ((s.removeAction p).answerAction p a .done).workCondition (boreOf p)

/-- A pending RELEASE takes effect: into AUTO, or into EMERGENCY while the bore's flag is set (R111). -/
def State.releaseNow (s : State) (p : Fin 4) (a : PendingAction) : State :=
  if (s.bore (boreOf p)).emergency then
    (((s.removeAction p).answerAction p a .done).enterEmergency p).workCondition (boreOf p)
  else
    let s := (s.setPortalState p .auto).raisePortalState p
    ((s.removeAction p).answerAction p a .done).workCondition (boreOf p)

/-- A SWITCHED circuit of the portal's zones is in flight (R112). -/
def State.portalInFlight (s : State) (p : Fin 4) : Bool :=
  (zonesOf p).any fun z => (s.zone z).anyInFlight

/-- A pending STOP ORDERLY takes effect where nothing is in flight, else it stays pending (R112). -/
def State.stopNow (s : State) (p : Fin 4) (a : PendingAction) : State :=
  if s.portalInFlight p then s
  else ((s.enterOffline p).removeAction p).answerAction p a .done

/-- Step 1 of R107: a pending action takes effect if it is due. -/
def State.takeAction (s : State) (p : Fin 4) : State :=
  match (s.portal p).action with
  | none => s
  | some a =>
    match a.kind with
    | .hold => s.holdNow p a
    | .release => s.releaseNow p a
    | .stopOrderly => s.stopNow p a

/-! ### Steps 2 to 5 (R33, R17, R38, R39, R43) -/

/-- Step 2: the slot that plan selection gives is stored as the plan in use (R33). -/
def State.selectPlan (s : State) (p : Fin 4) : State :=
  s.setPortal p { s.portal p with planInUse := some (s.selectSlot p) }

/-- Step 3: the source cascade, storing source and A (R16, R17). -/
def State.runCascade (s : State) (p : Fin 4) : State :=
  let r := s.cascade p
  s.setSource p r.1 r.2

/-- The night test on a portal record, from the stored A and the thresholds of the plan in use (R38). -/
def Portal.nightTest (plan : Plan) (access : Nat) (x : Portal) : Portal :=
  if access < plan.nightThreshold then
    let count := min 1800 (x.lowCount + 1)
    { x with lowCount := count, night := x.night || decide (plan.nightHold * 60 ≤ count) }
  else if access < plan.dayThreshold then { x with lowCount := 0 }
  else { x with lowCount := 0, night := false }

/-- A zone's rotation start advanced by 1, modulo 8 (R68). -/
def State.advanceRotation (s : State) (z : Fin 14) : State :=
  s.setZone z { s.zone z with rotation := (s.zone z).rotation + 1 }

/-- Step 4: the night test, passed over on BLIND, with night entry and the rotation advance (R38, R39). -/
def State.testNight (s : State) (p : Fin 4) (plan : Plan) : State :=
  let x := s.portal p
  if x.source = some .blind then s
  else
    match x.access with
    | none => s
    | some access =>
      let y := x.nightTest plan access
      let t := s.setPortal p y
      if y.night && !x.night then (zonesOf p).foldl State.advanceRotation t else t

/-- The role the bore's direction mode gives the portal at this moment. -/
def State.roleNow (s : State) (p : Fin 4) : Role :=
  roleOf (s.bore (boreOf p)).mode p

/-- Step 5: the role is stored (R43). -/
def State.storeRole (s : State) (p : Fin 4) : State :=
  s.setPortal p { s.portal p with role := some (s.roleNow p) }

/-! ### Step 6 (R107) -/

/-- The threshold base of the live demands: the override's level, or that of the plan (R36, R37). -/
def State.liveBase (s : State) (p : Fin 4) (plan : Plan) : Nat :=
  match (s.portal p).override.map Override.kind with
  | some (.level lum) => lum
  | some .freeze | none =>
    plan.thresholdBase ((s.portal p).access.getD 0) (s.bore (boreOf p)).speedClass

/-- The live demands of the portal (R44, R45, R47). -/
def State.liveDemands (s : State) (p : Fin 4) (plan : Plan) : Demands :=
  demandsFor plan (s.roleNow p) (s.liveBase p plan) (s.bore (boreOf p)).demand

/-- The portal holds a FREEZE override (R54). -/
def Portal.frozen (x : Portal) : Bool :=
  (x.override.map Override.kind) == some .freeze

/-- A zone record given its demand and, unless it is frozen, one ramp step (R51, R54). -/
def Zone.ramp (z : Zone) (frozen : Bool) (rise fall demand : Nat) : Zone :=
  { z with demand := demand, ramped := if frozen then z.ramped else rampStep z.ramped demand rise fall }

/-- One zone of an evaluation in AUTO: demand, ramp step, normal allocation (R47, R52, R69). -/
def State.driveZone (s : State) (z : Fin 14) (frozen : Bool) (rise fall demand : Nat) : State :=
  (s.setZone z ((s.zone z).ramp frozen rise fall demand)).allocateNormal z

/-- Step 6 in AUTO. -/
def State.actAuto (s : State) (p : Fin 4) (plan : Plan) : State :=
  let d := s.liveDemands p plan
  let frozen := (s.portal p).frozen
  let s := s.driveZone (zoneOf p 0) frozen plan.riseStep plan.fallStep d.th
  let s := s.driveZone (zoneOf p 1) frozen plan.riseStep plan.fallStep d.t1
  s.driveZone (zoneOf p 2) frozen plan.riseStep plan.fallStep d.t2

/-- Step 6 in HELD: the shortfall test of each zone (R77). -/
def State.actHeld (s : State) (p : Fin 4) : State :=
  (zonesOf p).foldl State.testShortfall s

/-- The preview demands of a dry run (R48). -/
def State.previewDemands (s : State) (p : Fin 4) (x : DryRunInput) (plan : Plan) : Demands :=
  demandsFor plan (s.roleNow p)
    (plan.thresholdBase x.access (x.speedClass.getD (s.bore (boreOf p)).speedClass))
    (s.bore (boreOf p)).demand

/-- A zone's preview replaced (R83). -/
def State.previewZone (s : State) (z : Fin 14) (demand : Nat) : State :=
  s.setZone z { s.zone z with preview := some ((s.zone z).previewFor demand) }

/-- Step 6 in DRY_RUN: preview demands, previews, and the shortfall test of each zone. -/
def State.actDryRun (s : State) (p : Fin 4) : State :=
  match (s.portal p).dryRun with
  | none => s.actHeld p
  | some x =>
    match s.previewPlan p x with
    | none => s.actHeld p
    | some plan =>
      let d := s.previewDemands p x plan
      (((s.previewZone (zoneOf p 0) d.th).previewZone (zoneOf p 1) d.t1).previewZone (zoneOf p 2) d.t2).actHeld p

/-- One zone of an evaluation in EMERGENCY: D = 60 000, R set to capacity, emergency allocation (R47, R58, R79). -/
def State.emergencyZone (s : State) (z : Fin 14) : State :=
  (s.setZone z { s.zone z with demand := 60000 }).light z

/-- Step 6 in EMERGENCY. -/
def State.actEmergency (s : State) (p : Fin 4) : State :=
  (zonesOf p).foldl State.emergencyZone s

/-- The state the evaluation acts in: AUTO with a STOP ORDERLY still pending acts as HELD (R107). -/
def Portal.actingState (x : Portal) : PortalState :=
  match x.state with
  | .auto => if (x.action.map PendingAction.kind) = some .stopOrderly then .held else .auto
  | .offline => .offline
  | .held => .held
  | .dryRun => .dryRun
  | .emergency => .emergency

/-- Step 6 of R107 for the acting state. -/
def State.act (s : State) (p : Fin 4) (plan : Plan) : State :=
  match (s.portal p).actingState with
  | .offline => s
  | .held => s.actHeld p
  | .dryRun => s.actDryRun p
  | .auto => s.actAuto p plan
  | .emergency => s.actEmergency p

/-- Steps 2 to 6 of R107, for a portal in service, which holds a plan A (R105; log 17 for one that holds none). -/
def State.evaluateSteps (s : State) (p : Fin 4) : State :=
  match s.selectedPlan p with
  | none => s
  | some plan =>
    let s := (s.selectPlan p).runCascade p
    ((s.testNight p plan).storeRole p).act p plan

/-- One evaluation of a portal, taken whole (R107). -/
def State.evaluatePortal (s : State) (p : Fin 4) : State :=
  let s := s.takeAction p
  if (s.portal p).state = .offline then s else s.evaluateSteps p

/-- PORTAL_EVALUATION: the evaluation timer expires, its next expiry 1000 ms later (R106, R107). A stopped timer
does not expire. -/
def execPortalEvaluation (p : Fin 4) (s : State) : Host.Outcome State Fault Refusal :=
  .next (s.event fun s =>
    match (s.portal p).timer with
    | none => s
    | some e =>
      ((s.reach e).setPortal p { s.portal p with timer := some (msAfter e 1000) }).evaluatePortal p)

/-! ### The bore's evaluation (R143) -/

/-- The ramp rates an interior case names: those of the supplier's plan in cases 2 and 4, none else (R53). -/
def InteriorCase.rates : InteriorCase → Option (Nat × Nat)
  | .emergency => none
  | .closedAuto x => some (x.plan.riseStep, x.plan.fallStep)
  | .closedIdle => none
  | .entryAuto x => some (x.plan.riseStep, x.plan.fallStep)
  | .noEntry => none

/-- Steps 3 to 6 for a driven interior zone outside case 1: demand, ramp step if the case ramps, allocation. -/
def State.driveInterior (s : State) (b : Fin 2) (c : InteriorCase) : State :=
  let z := interiorOf b
  let demand := (s.bore b).demand
  match c.rates with
  | some (rise, fall) => s.driveZone z false rise fall demand
  | none => s.driveZone z true 0 0 demand

/-- Step 2: the interior night entry turns the interior rotation (R144). -/
def State.interiorNightEntry (s : State) (b : Fin 2) (was : Bool) : State :=
  if (s.bore b).interiorNight && !was then s.advanceRotation (interiorOf b) else s

/-- Steps 2 to 6 of R143 by the interior condition. -/
def State.actInterior (s : State) (b : Fin 2) (c : InteriorCase) (was : Bool) : State :=
  match (s.bore b).condition with
  | .driven =>
    let s := s.interiorNightEntry b was
    if c = .emergency then
      (s.setZone (interiorOf b) { s.zone (interiorOf b) with demand := (s.bore b).demand }).light (interiorOf b)
    else s.driveInterior b c
  | .held =>
    (s.setZone (interiorOf b) { s.zone (interiorOf b) with demand := (s.bore b).demand }).testShortfall (interiorOf b)
  | .released => s

/-- One evaluation of a bore, taken whole (R143). -/
def State.evaluateBore (s : State) (b : Fin 2) : State :=
  let c := s.interiorCase b
  let was := (s.bore b).interiorNight
  (s.setBore b ((s.bore b).withInterior c)).actInterior b c was

/-- BORE_EVALUATION: the evaluation timer expires, its next expiry 1000 ms later (R143). -/
def execBoreEvaluation (b : Fin 2) (s : State) : Host.Outcome State Fault Refusal :=
  .next (s.event fun s =>
    let e := (s.bore b).timer
    ((s.reach e).setBore b { s.bore b with timer := msAfter e 1000 }).evaluateBore b)

end Sys2Proof.Machine
end

