-- ==== Sys2Proof/Machine/Framing.lean ====
section
/-! DEFINITION. The meanings of the link events: RX_OCTET, GAP_TIMER_EXPIRY, LINK_RESTART,
LINE_RETURNS_TO_MARK and TRANSMISSION_END (R162 to R166, R173, R175). -/

namespace Sys2Proof.Machine

/-- A complete frame judged (R164): the octets from the length to the check give a request where the check agrees
and the kind is request. -/
def judgeFrame (os : List Octet) : Option Request :=
  let inner := os.take (os.length - 2)
  if checkOctets inner = os.drop (os.length - 2) then
    match inner with
    | _ :: tag :: control :: code :: target :: body =>
      if control.getLsbD 0 || control.getLsbD 1 then none
      else
        some { tag := tag, urgent := control.getLsbD 7, ackWanted := control.getLsbD 6, code := code,
               target := target, body := body }
    | _ => none
  else none

/-- A request offered to a queue (R166): behind the last urgent one or at the tail; a full queue discards it. -/
def joinQueue (q : List Request) (r : Request) : List Request :=
  if 8 ≤ q.length then q
  else if r.urgent then q.takeWhile Request.urgent ++ r :: q.dropWhile Request.urgent
  else q ++ [r]

/-- The request of a complete frame, where there is one, offered to the link's queue; the framer hunts again. -/
def LinkRec.frameComplete (x : LinkRec) (os : List Octet) : LinkRec :=
  match judgeFrame os with
  | none => { x with framer := .hunt }
  | some r => { x with framer := .hunt, requests := joinQueue x.requests r }

/-- The octet taken by a framer in COLLECT that holds `os` (R162): the length first, then the frame up to its
second check octet. -/
def LinkRec.collectOctet (now : Uptime) (x : LinkRec) (os : List Octet) (o : Octet) : LinkRec :=
  match os with
  | [] =>
    if o.toNat < 4 ∨ 132 < o.toNat then { x with framer := .hunt }
    else { x with framer := .collect [o] (msAfter now 3) }
  | len :: _ =>
    if os.length + 1 = len.toNat + 3 then x.frameComplete (os ++ [o])
    else { x with framer := .collect (os ++ [o]) (msAfter now 3) }

/-- One received octet taken by the framer by its state (R162, R163). -/
def LinkRec.rxOctet (now : Uptime) (x : LinkRec) (o : Octet) (framingError : Bool) : LinkRec :=
  match x.framer with
  | .hunt => if !framingError && o == 0xC3 then { x with framer := .collect [] (msAfter now 3) } else x
  | .collect os _ => if framingError then { x with framer := .hunt } else x.collectOctet now os o
  | .brk => x

/-- RX_OCTET: the framer of a link takes one received octet (R162). -/
def execRxOctet (l : Link) (o : Octet) (framingError : Bool) (s : State) : Host.Outcome State Fault Refusal :=
  .next (s.event fun s => s.setLink l ((s.link l).rxOctet s.uptime o framingError))

/-- GAP_TIMER_EXPIRY: the frame being collected is discarded and the framer hunts (R163). -/
def execGapTimerExpiry (l : Link) (s : State) : Host.Outcome State Fault Refusal :=
  .next (s.event fun s =>
    match (s.link l).framer with
    | .hunt => s
    | .collect _ gap => (s.reach gap).setLink l { s.link l with framer := .hunt }
    | .brk => s)

/-- The notice queue after a restart that cuts `cut` (R175): a notice goes back to the head unless a later entry
of its kind and subject stands or its kind is no longer in the mask; COLD_START is under no mask (log 22). -/
def requeueCut (mask : List NoticeKind) (q : List Notice) (cut : Transmitter) : List Notice :=
  match cut with
  | .idle => q
  | .silent => q
  | .sending (.response _) _ => q
  | .sending (.notice n) _ =>
    if q.any (Notice.sameKey n) then q
    else if n.kind = .coldStart ∨ n.kind ∈ mask then n :: q
    else q

/-- The link record after a restart (R165). -/
def LinkRec.restarted (x : LinkRec) : LinkRec :=
  { x with
    framer := .brk, requests := [], responses := [], transmitter := .silent,
    notices := requeueCut x.mask x.notices x.transmitter }

/-- The portal record with its answer-owed flag cleared where its pending action came on the link (R116). -/
def Portal.unowed (l : Link) (x : Portal) : Portal :=
  { x with action := x.action.map fun a => if a.link = l then { a with answerOwed := false } else a }

/-- LINK_RESTART: the line has been at space for 20 ms (R165). A link already in BREAK stays as it is. -/
def execLinkRestart (l : Link) (s : State) : Host.Outcome State Fault Refusal :=
  .next (s.event fun s =>
    if (s.link l).framer = .brk then s
    else { s.setLink l (s.link l).restarted with portals := s.portals.mapWith fun _ x => x.unowed l })

/-- LINE_RETURNS_TO_MARK: the framer hunts and the transmitter takes its next frame (R165, R173). -/
def execLineReturnsToMark (l : Link) (s : State) : Host.Outcome State Fault Refusal :=
  .next (s.event fun s =>
    if (s.link l).framer = .brk then
      s.setLink l (LinkRec.beginNext s.uptime { s.link l with framer := .hunt })
    else s)

/-- TRANSMISSION_END: the frame has been sent, and the transmitter takes the next one or is IDLE (R173). Taken before the
end its frame was given, it ends the frame at the present uptime, and the next frame's end counts from there: the model's
choice (log 25). -/
def execTransmissionEnd (l : Link) (s : State) : Host.Outcome State Fault Refusal :=
  .next (s.event fun s =>
    match (s.link l).transmitter with
    | .idle => s
    | .sending _ _ => s.setLink l ((s.link l).beginNext s.uptime)
    | .silent => s)

end Sys2Proof.Machine
end

