-- ==== Sys2Proof/Machine/Maintenance.lean ====
section
/-! DEFINITION. The meanings of the circuit maintenance requests LOCKOUT_MODIFY and BURN_RESET (R98, R80, R101,
R195). -/

namespace Sys2Proof.Machine

/-- A circuit named by the set mask: LOCKED_OUT from whatever state it holds (R98). -/
def Circuit.lockOut (c : Circuit) : Circuit :=
  if c.state = .lockedOut then c else c.outOfService .lockedOut

/-- A circuit named by the clear mask: from LOCKED_OUT to OFF, else not changed (R98). -/
def Circuit.unlock (c : Circuit) : Circuit :=
  if c.state = .lockedOut then c.outOfService .off else c

/-- The circuits of some slots changed by `f`; empty slots are passed over. -/
def Zone.modSlots (z : Zone) (ks : List (Fin 8)) (f : Circuit → Circuit) : Zone :=
  { z with slots := z.slots.mapWith fun k o => if k ∈ ks then o.map f else o }

/-- The slots of a list whose circuits are LOCKED_OUT. -/
def Zone.lockedAmong (z : Zone) (ks : List (Fin 8)) : List (Fin 8) :=
  ks.filter fun k => (z.slots.get k).any fun c => c.state == .lockedOut

/-- A circuit freed in a zone under emergency allocation is lit (R80). -/
def Circuit.lit (now : Uptime) (settle : Nat) (c : Circuit) : Circuit :=
  match c.kind with
  | .switched => c.switchOn now settle
  | .dimmed => c.setLevel 1000

/-- The freed circuits of a zone under emergency allocation are lit; a DIMMED one sets the common dim level to
1000 (R80). -/
def Zone.lightFreed (now : Uptime) (z : Zone) (freed : List (Fin 8)) : Zone :=
  let y := z.modSlots freed (Circuit.lit now z.settle)
  if freed.any fun k => (z.slots.get k).any Circuit.isDimmed then { y with dim := some 1000 } else y

/-- A LOCKOUT_MODIFY on a zone record: the set mask, then the clear mask, then what the allocator lights (R98). -/
def Zone.lockoutModify (now : Uptime) (emergency : Bool) (z : Zone) (sets clears : List (Fin 8)) : Zone :=
  let locked := z.modSlots sets Circuit.lockOut
  let freed := locked.lockedAmong clears
  let y := locked.modSlots clears Circuit.unlock
  if emergency then y.lightFreed now freed else y

/-- LOCKOUT_MODIFY (R98, R195), with the CIRCUIT_FAULT notice of a set that changes (R97). -/
def execLockoutModify (l : Link) (s : State) : Host.Outcome State Fault Refusal :=
  .next (s.takeFor l .lockoutModify (onUnit 14 fun z r s =>
    let x := (s.zone z).lockoutModify s.uptime (s.underEmergency z) (slotsOf (r.body.getD 0 0))
      (slotsOf (r.body.getD 1 0))
    ((s.putZone z x).raiseFaultChange z (s.zone z), some (Reply.alone r .done))))

/-- BURN_RESET (R101, R195). -/
def execBurnReset (l : Link) (s : State) : Host.Outcome State Fault Refusal :=
  .next (s.takeFor l .burnReset (onUnit 14 fun z r s =>
    (s.setZone z ((s.zone z).modSlots (slotsOf (r.body.getD 0 0)) fun c => { c with burn := 0 }),
     some (Reply.alone r .done))))

end Sys2Proof.Machine
end

