-- ==== Sys2Proof/Machine/Meters.lean ====
section
/-! DEFINITION. The meanings of GATE_EXPIRY (R5 to R11) and METER_EDGE with its edge detection (R154, R5). -/

namespace Sys2Proof.Machine

/-- The two consecutive counts after a sample (R9). -/
def Meter.counted (x : Meter) (valid : Bool) : Meter :=
  if valid then { x with validCount := min 5 (x.validCount + 1), invalidCount := 0 }
  else { x with invalidCount := min 3 (x.invalidCount + 1), validCount := 0 }

/-- What a valid sample S does to the status and F, the counts being updated (R10, R11). -/
def Meter.takeValid (x : Meter) (value : Nat) : Meter :=
  match x.status with
  | .unconfigured => x
  | .starting => { x with filtered := some value, status := .valid }
  | .valid => { x with filtered := x.filtered.map fun f => filterStep x.weight f value }
  | .faulty => if x.validCount = 5 then { x with filtered := some value, status := .valid } else x

/-- What an invalid sample does to the status, the counts being updated (R10). -/
def Meter.takeInvalid (x : Meter) : Meter :=
  match x.status with
  | .unconfigured => x
  | .starting => if x.invalidCount = 3 then { x with status := .faulty, filtered := none } else x
  | .valid => if x.invalidCount = 3 then { x with status := .faulty } else x
  | .faulty => x

/-- The sample of a finished gate judged (R9, R10). -/
def Meter.judge (x : Meter) (value : Option Nat) : Meter :=
  match value with
  | some v => (x.counted true).takeValid v
  | none => (x.counted false).takeInvalid

/-- A meter record at the expiry `e` of its gate: the sample stored, the gate count returned to 0, the next gate
begun, and the sample judged (R5 to R10). -/
def Meter.gateExpired (e : Uptime) (x : Meter) : Meter :=
  let y := { x with
    ring := ringPush x.ring ⟨e, x.gateCount, sampleFlag x.gate x.gateCount⟩
    gateCount := 0
    gateEnd := some (msAfter e x.gate) }
  y.judge (sampleValue x.gate x.span x.gateCount)

/-- A gate of meter `m` ends at `e`, with the METER_STATE notice of a status change (R12). -/
def State.endGate (s : State) (m : Fin 4) (e : Uptime) : State :=
  let x := s.meter m
  let t := s.setMeter m (x.gateExpired e)
  if (t.meter m).status = x.status then t else t.raiseMeterState m (some (sampleFlag x.gate x.gateCount))

/-- GATE_EXPIRY (R5). A meter that is not configured runs no gate (R4). -/
def execGateExpiry (m : Fin 4) (s : State) : Host.Outcome State Fault Refusal :=
  .next (s.event fun s =>
    match (s.meter m).gateEnd with
    | none => s
    | some e => (s.reach e).endGate m e)

/-- The configured meter whose setup names a line, if any (R154). -/
def State.meterCounting (s : State) (i : Fin 192) : Option (Fin 4) :=
  (List.finRange 4).find? fun m => (s.meter m).line == some i && s.meterConfigured m

/-- A meter record with one edge counted, stopping at 65 535 (R5). -/
def Meter.countEdge (x : Meter) : Meter :=
  { x with gateCount := min 65535 (x.gateCount + 1) }

/-- The edge detector after the raw value has been read at `periods` consecutive crystal periods, at least one: the value
seen changes over at the 20th consecutive period that differs from it (R154; log 18). -/
def EdgeDetector.read (raw : Bool) (periods : Nat) (d : EdgeDetector) : EdgeDetector :=
  if raw = d.seen then { d with run := 0 }
  else if d.run + periods < 20 then { d with run := d.run + periods }
  else ⟨raw, 0⟩

/-- Those readings take a rising edge: absent has been seen, and present has now stood for 20 periods (R154). -/
def EdgeDetector.rises (raw : Bool) (periods : Nat) (d : EdgeDetector) : Bool :=
  raw && !d.seen && decide (20 ≤ d.run + periods)

/-- A rising edge handed to the configured meter whose setup names the line, if there is one (R154, R5). -/
def State.takeEdge (s : State) (i : Fin 192) : State :=
  match s.meterCounting i with
  | none => s
  | some m => s.setMeter m (s.meter m).countEdge

/-- The pin of a METER_IN line whose detector stands at `d` is read (R154). -/
def State.readPin (s : State) (x : PinReading) (d : EdgeDetector) : State :=
  let raw := (s.line x.line).raw x.level
  let t := (s.setPin x.line x.level).setLine x.line { s.line x.line with edge := some (d.read raw x.periods) }
  if d.rises raw x.periods then t.takeEdge x.line else t

/-- METER_EDGE: the pin of a METER_IN line is read at a level at some consecutive crystal periods, and a rising edge
adds one to the gate count of its meter (R154, R5). No other line is watched, and no reading is no event (log 5). -/
def execMeterEdge (x : PinReading) (s : State) : Host.Outcome State Fault Refusal :=
  .next (s.event fun s =>
    match (s.line x.line).fn, (s.line x.line).edge with
    | .meterIn, some d => if x.periods = 0 then s else s.readPin x d
    | _, _ => s)

end Sys2Proof.Machine
end

