-- ==== Sys2Proof/Machine/Reads.lean ====
section
/-! DEFINITION. The meanings of the reads and of the link checks: UNKNOWN_CODE, ECHO, SET_NOTICE_MASK,
READ_PORTAL, READ_BORE, READ_ZONE, READ_CIRCUIT, READ_METER, READ_LINE, READ_PLAN, READ_SCHEDULE and
READ_CLOCK (R168, R181 to R186), with the octets each layout gives. -/

namespace Sys2Proof.Machine

/-! ### The link checks -/

/-- UNKNOWN_CODE: the request's code names no request (R168 step 1). -/
def execUnknownCode (l : Link) (s : State) : Host.Outcome State Fault Refusal :=
  .next (s.take l (fun r => (reqCodeOf r.code).isNone) fun r s => (s, some (Reply.alone r .unknown)))

/-- ECHO: the body is returned unchanged (R181). -/
def execEcho (l : Link) (s : State) : Host.Outcome State Fault Refusal :=
  .next (s.takeFor l .echo fun r s => (s, some (Reply.withData r r.body)))

/-- A link record with a new notice mask, its queue purged of the kinds dropped; COLD_START stays (R177). -/
def LinkRec.withMask (x : LinkRec) (mask : List NoticeKind) : LinkRec :=
  { x with mask := mask, notices := x.notices.filter fun n => n.kind == .coldStart || mask.contains n.kind }

/-- SET_NOTICE_MASK: the notice mask of the sending link is replaced (R177, R182). -/
def execSetNoticeMask (l : Link) (s : State) : Host.Outcome State Fault Refusal :=
  .next (s.takeFor l .setNoticeMask fun r s =>
    (s.setLink l ((s.link l).withMask (noticeMaskOf (r.body.getD 0 0))), some (Reply.alone r .done)))

/-! ### Portals and bores (R127, R145, R183) -/

/-- The override fields of a portal summary. -/
def overrideFields (now : Uptime) : Option Override → List Octet
  | none => opt8 none ++ opt16 none ++ opt8 none ++ opt32 none
  | some v =>
    be8 v.kind.code ++ opt16 v.kind.levelField ++ be8 v.duration ++ opt32 (v.expiry.map (msLeft now))

/-- The pending-action fields of a portal summary. -/
def actionFields : Option PendingAction → List Octet
  | none => opt8 none ++ opt8 none ++ opt8 none
  | some a => be8 a.kind.code ++ be8 (Link.code a.link) ++ [a.tag]

/-- The dry-run fields of a portal summary. -/
def dryRunFields : Option DryRunInput → List Octet
  | none => opt16 none ++ opt8 none ++ opt8 none
  | some x => be16 x.access ++ opt8 (x.speedClass.map Fin.val) ++ opt8 (x.plan.map PlanSlot.code)

/-- A portal summary, 30 octets (R127, layout tables). -/
def portalSummary (s : State) (p : Fin 4) : List Octet :=
  let x := s.portal p
  be8 x.state.code
  ++ opt8 (x.meter.map Fin.val) ++ opt8 (x.partner.map Fin.val) ++ be16 x.factor
  ++ opt8 (x.source.map Source.code) ++ opt16 x.access
  ++ opt8 (x.planInUse.map PlanSlot.code)
  ++ be8 (flagCode x.night) ++ be16 x.lowCount
  ++ opt8 (x.role.map Role.code)
  ++ overrideFields s.uptime x.override
  ++ actionFields x.action
  ++ dryRunFields x.dryRun
  ++ opt16 (x.timer.map (msLeft s.uptime))

/-- READ_PORTAL: one summary for each selected portal (R127, R183). -/
def execReadPortal (l : Link) (s : State) : Host.Outcome State Fault Refusal :=
  .next (s.takeFor l .readPortal (readUnits 4 portalSummary))

/-- A bore summary, 20 octets (R145, layout tables). -/
def boreSummary (s : State) (b : Fin 2) : List Octet :=
  let x := s.bore b
  be8 x.mode.code
  ++ (portalsOf b).flatMap (fun p => be8 (roleOf x.mode p).code)
  ++ be8 x.speedClass.val
  ++ be8 (flagCode x.congested + 2 * flagCode x.stale + 4 * flagCode x.emergency + 8 * flagCode x.interiorNight)
  ++ be16 x.staleTimeout ++ opt32 (x.staleTimer.map (msLeft s.uptime))
  ++ be16 x.demand ++ be16 x.base
  ++ opt8 (x.supplier.map fun q => q.1.val) ++ opt8 (x.supplier.map fun q => q.2.code)
  ++ be8 x.condition.code
  ++ be16 (msLeft s.uptime x.timer)

/-- READ_BORE: one summary for each selected bore (R145, R183). -/
def execReadBore (l : Link) (s : State) : Host.Outcome State Fault Refusal :=
  .next (s.takeFor l .readBore (readUnits 2 boreSummary))

/-! ### Zones and circuits (R86, R102, R184) -/

/-- A slot entry of a zone setup: five octets, all 0 for an empty slot (log 15). -/
def slotEntry : Option Circuit → List Octet
  | none => [0, 0, 0, 0, 0]
  | some c => be8 c.kind.code ++ be16 c.rating ++ be8 c.output.val ++ opt8 (c.feedback.map Fin.val)

/-- A zone setup in the layout of a WRITE_ZONE body, 48 octets (R184). -/
def zoneSetup (z : Zone) : List Octet :=
  be8 z.order.code ++ be8 z.rotation.val ++ be16 z.settle ++ be16 z.hysteresis ++ be16 z.minDim
  ++ z.slots.rows.flatMap slotEntry

/-- The preview fields of a READ_ZONE response. -/
def previewFields : Option Preview → List Octet
  | none => opt16 none ++ be8 0 ++ opt16 none ++ be8 0
  | some v => be16 v.demand ++ be8 (maskOf v.slots) ++ opt16 v.dim ++ be8 (flagCode v.shortfall)

/-- The data of a READ_ZONE response (R86, layout tables). -/
def zoneData (z : Zone) : List Octet :=
  zoneSetup z
  ++ be16 z.demand ++ be16 z.ramped ++ be24 z.cd ++ be24 z.son ++ be24 z.capacity
  ++ opt16 z.dim ++ be8 (flagCode z.shortfall)
  ++ previewFields z.preview
  ++ z.slots.rows.flatMap fun o => opt8 (o.map fun c => c.state.code)

/-- READ_ZONE (R86, R184). -/
def execReadZone (l : Link) (s : State) : Host.Outcome State Fault Refusal :=
  .next (s.takeFor l .readZone (onUnit 14 fun z r s => (s, some (Reply.withData r (zoneData (s.zone z))))))

/-- The timer fields of a circuit entry. -/
def timerFields (now : Uptime) : Option CircuitTimer → List Octet
  | none => be8 0 ++ opt16 none
  | some t => be8 t.kind.code ++ be16 (msLeft now t.expiry)

/-- A circuit entry, 16 octets; kind empty and every other field 0 for an empty slot (R102, R184). -/
def circuitEntry (s : State) : Option Circuit → List Octet
  | none => List.replicate 16 0
  | some c =>
    be8 c.kind.code ++ be16 c.rating ++ be8 c.output.val ++ opt8 (c.feedback.map Fin.val)
    ++ be8 c.state.code ++ opt16 (if c.isDimmed then some c.level else none)
    ++ timerFields s.uptime c.timer ++ be32 c.burn ++ be8 (flagCode (s.feedbackPresent c))

/-- READ_CIRCUIT (R102, R184). -/
def execReadCircuit (l : Link) (s : State) : Host.Outcome State Fault Refusal :=
  .next (s.takeFor l .readCircuit (onUnit 14 fun z r s =>
    match finOf 8 (r.body.getD 0 0).toNat with
    | none => (s, some (Reply.alone r .badValue))
    | some k => (s, some (Reply.withData r (circuitEntry s (s.circuit z k))))))

/-! ### Meters and lines (R14, R157, R185) -/

/-- A sample record of a meter response, 7 octets. -/
def sampleEntry (x : Sample) : List Octet :=
  be32 x.stamp.toNat ++ be16 x.count ++ be8 x.flag.code

/-- The data of a READ_METER response (R14, layout tables). -/
def meterData (m : Meter) : List Octet :=
  opt8 (m.line.map Fin.val) ++ be16 m.gate ++ be16 m.span ++ be8 m.weight
  ++ be8 m.status.code ++ be8 m.invalidCount ++ be8 m.validCount
  ++ opt16 m.filtered ++ be16 m.gateCount
  ++ be8 m.ring.length ++ m.ring.flatMap sampleEntry

/-- READ_METER (R14, R185). -/
def execReadMeter (l : Link) (s : State) : Host.Outcome State Fault Refusal :=
  .next (s.takeFor l .readMeter (onUnit 4 fun m r s => (s, some (Reply.withData r (meterData (s.meter m))))))

/-- The lines of a run (R155, R157): nothing where it begins past line 191, is empty or runs past line 191. -/
def runOf (first count : Nat) : Option (List (Fin 192)) :=
  if 1 ≤ count ∧ first + count ≤ 192 then
    some ((List.finRange 192).filter fun i => decide (first ≤ i.val) && decide (i.val < first + count))
  else none

/-- Reading the pin takes a free value: a DIM_OUT line driven at a duty that pulses (R157, log 8). -/
def Line.pulses (x : Line) : Bool :=
  x.drive == .driven && x.fn == .dimOut && x.period.any fun d => decide (0 < d) && decide (d < 1000)

/-- The level of a pin, high or not, as the input buffer reads it (R157): of a DRIVEN line the level the part
drives (R150, R151), of a FLOATING one the level the cabinet wiring gives. -/
def pinLevel (draws : Nat) (pins : BitVec 192) (i : Fin 192) (x : Line) : Bool :=
  match x.drive with
  | .floating => pins.getLsbD i.val
  | .driven =>
    if x.pulses then Config.pulseLevel draws i
    else
      match x.output, x.period with
      | .level active, _ => xor active x.invert
      | .duty _, some d => xor (decide (0 < d)) x.invert
      | .duty _, none => pins.getLsbD i.val
      | .none, _ => pins.getLsbD i.val

/-- The output value field of a line entry. -/
def OutputValue.field : OutputValue → Nat
  | .none => 2047
  | .level active => flagCode active
  | .duty d => d

/-- The debounced value field of a line entry. -/
def debouncedField : Option Bool → Nat
  | none => 0
  | some false => 1
  | some true => 2

/-- A line entry, 3 octets, for a line whose pin reads `high` (R157, layout tables). -/
def lineEntry (x : Line) (high : Bool) : List Octet :=
  be8 x.fn.code
  ++ be16 (32768 * flagCode x.invert + 16384 * flagCode (x.drive == .driven) + 8192 * flagCode high
      + 2048 * debouncedField x.debounced + x.output.field)

/-- The entries of a run of lines, and the free values it leaves drawn: one for each pin in mid-pulse (log 8). -/
def readRun (s : State) : Nat → List (Fin 192) → Nat × List Octet
  | draws, [] => (draws, [])
  | draws, i :: is =>
    let rest := readRun s (if (s.line i).pulses then draws + 1 else draws) is
    (rest.1, lineEntry (s.line i) (pinLevel draws s.pins i (s.line i)) ++ rest.2)

/-- READ_LINE (R157, R185). -/
def execReadLine (l : Link) (s : State) : Host.Outcome State Fault Refusal :=
  .next (s.takeFor l .readLine fun r s =>
    let count := (r.body.getD 0 0).toNat
    match if count ≤ 32 then runOf r.target.toNat count else none with
    | none => (s, some (Reply.alone r .badValue))
    | some run =>
      let out := readRun s s.draws run
      ({ s with draws := out.1 }, some (Reply.withData r out.2)))

/-! ### Plans, schedule and clock (R32, R25, R27, R186) -/

/-- A plan in the layout of a WRITE_PLAN body, after the slot octet. -/
def planFields (x : Plan) : List Octet :=
  be8 x.curve.length
  ++ x.curve.flatMap (fun q => be16 q.access ++ be16 q.threshold)
  ++ x.factors.rows.flatMap be16
  ++ be16 x.r1 ++ be16 x.r2 ++ be16 x.interiorDay ++ be16 x.interiorNight
  ++ be16 x.nightThreshold ++ be16 x.dayThreshold ++ be8 x.nightHold ++ be16 x.riseStep ++ be16 x.fallStep

/-- A plan slot in the layout of a WRITE_PLAN body; an empty slot is the slot octet alone (R186). -/
def planData (slot : PlanSlot) (plan : Option Plan) : List Octet :=
  be8 slot.code ++ (plan.map planFields).getD []

/-- READ_PLAN (R32, R186). -/
def execReadPlan (l : Link) (s : State) : Host.Outcome State Fault Refusal :=
  .next (s.takeFor l .readPlan (onUnit 4 fun p r s =>
    match planSlotOf (r.body.getD 0 0) with
    | none => (s, some (Reply.alone r .badValue))
    | some slot => (s, some (Reply.withData r (planData slot ((s.portal p).plan slot))))))

/-- A window in its five octets (layout tables). -/
def windowEntry (w : Window) : List Octet :=
  be24 (w.start * 4096 + w.width) ++ be16 w.access

/-- The schedule in the layout of a WRITE_SCHEDULE body (R25, R186). -/
def scheduleData (ws : List Window) : List Octet :=
  be8 ws.length ++ ws.flatMap windowEntry

/-- READ_SCHEDULE (R25, R186). -/
def execReadSchedule (l : Link) (s : State) : Host.Outcome State Fault Refusal :=
  .next (s.takeFor l .readSchedule fun r s => (s, some (Reply.withData r (scheduleData s.schedule))))

/-- The data of a READ_CLOCK response (R27, R186). -/
def clockData (clock : Option Clock) (now : Uptime) : List Octet :=
  be8 (flagCode clock.isSome) ++ opt16 (clock.map Clock.minute) ++ opt16 (clock.map Clock.day) ++ be32 now.toNat

/-- READ_CLOCK (R27, R186). -/
def execReadClock (l : Link) (s : State) : Host.Outcome State Fault Refusal :=
  .next (s.takeFor l .readClock fun r s => (s, some (Reply.withData r (clockData s.clock s.uptime))))

end Sys2Proof.Machine
end

