-- ==== Sys2Proof/Machine/Reset.lean ====
section
/-! DEFINITION. The meanings of POWER_ON, RESET_PIN and RESET_PIN_RELEASE (R158, R197). -/

namespace Sys2Proof.Machine

/-- The cold start: every record at its cold-start value (R158, R197). The queue of waiting commands, the levels
of the pins and the count of free values drawn are not the part's and stay (log 19). -/
def State.coldStart (s : State) (held : Bool) : State :=
  { State.reset with pending := s.pending, pins := s.pins, draws := s.draws, inReset := held }

/-- POWER_ON: power is good; the part leaves reset in its cold-start state where the RESET pin is high, and each
transmitter begins its COLD_START notice (R158, R159). -/
def execPowerOn (s : State) : Host.Outcome State Fault Refusal :=
  .next (if s.inReset then s.coldStart true else (s.coldStart false).arbitrate)

/-- A low of this many microseconds is taken as a reset (R158): below 2 it is ignored, from 10 it is taken, and
between the two it may or may not be, a free value (log 9). -/
def resetTaken (lowMicros draws : Nat) : Bool :=
  if lowMicros < 2 then false else if 10 ≤ lowMicros then true else Config.shortLowTaken draws

/-- The free values that a low of this many microseconds draws (log 9). -/
def resetDraws (lowMicros draws : Nat) : Nat :=
  if 2 ≤ lowMicros ∧ lowMicros < 10 then draws + 1 else draws

/-- RESET_PIN: a low on the RESET pin returns the whole part to its cold-start state and holds it there (R158). -/
def execResetPin (lowMicros : Nat) (s : State) : Host.Outcome State Fault Refusal :=
  let t := { s with draws := resetDraws lowMicros s.draws }
  .next (if resetTaken lowMicros s.draws then t.coldStart true else t)

/-- RESET_PIN_RELEASE: the part leaves reset in its cold-start state, and each transmitter begins its COLD_START
notice (R158, R159). -/
def execResetPinRelease (s : State) : Host.Outcome State Fault Refusal :=
  .next (if s.inReset then (s.coldStart false).arbitrate else s)

end Sys2Proof.Machine
end

