-- ==== Sys2Proof/Machine/Timers.lean ====
section
/-! DEFINITION. The meanings of OVERRIDE_EXPIRY (R121), STALE_EXPIRY (R134), MINUTE_ADVANCE (R27) and
PWM_PERIOD_START (R151). -/

namespace Sys2Proof.Machine

/-- A timed override ends: it is removed, with its OVERRIDE_ENDED notice (R121). -/
def State.endOverride (s : State) (p : Fin 4) (v : Override) : State :=
  (s.setPortal p { s.portal p with override := none }).raise (.overrideEnded p v.kind)

/-- OVERRIDE_EXPIRY (R121). An override without a timer does not expire. -/
def execOverrideExpiry (p : Fin 4) (s : State) : Host.Outcome State Fault Refusal :=
  .next (s.event fun s =>
    match (s.portal p).override with
    | none => s
    | some v =>
      match v.expiry with
      | none => s
      | some e => (s.reach e).endOverride p v)

/-- A bore record gone stale (R134). -/
def Bore.goneStale (x : Bore) : Bore :=
  { x with speedClass := 4, congested := false, stale := true, staleTimer := none }

/-- STALE_EXPIRY (R134). A stopped timer does not expire. -/
def execStaleExpiry (b : Fin 2) (s : State) : Host.Outcome State Fault Refusal :=
  .next (s.event fun s =>
    match (s.bore b).staleTimer with
    | none => s
    | some e => ((s.reach e).setBore b (s.bore b).goneStale).raiseTrafficState b)

/-- The clock of day a minute later (R27). -/
def Clock.advanced (c : Clock) : Clock where
  minute := if c.minute < 1439 then c.minute + 1 else 0
  day := if c.minute < 1439 then c.day else (c.day + 1) % 65536
  next := msAfter c.next 60000

/-- MINUTE_ADVANCE (R27). An unset clock does not advance. -/
def execMinuteAdvance (s : State) : Host.Outcome State Fault Refusal :=
  .next (s.event fun s =>
    match s.clock with
    | none => s
    | some c => { s.reach c.next with clock := some c.advanced })

/-- A line record at the start of a PWM period: a served DIM_OUT line takes the duty last commanded (R151). -/
def Line.periodStart (x : Line) : Line :=
  match x.fn, x.drive, x.output with
  | .dimOut, .driven, .duty d => { x with period := some d }
  | _, _, _ => x

/-- PWM_PERIOD_START: a new period begins on every served DIM_OUT line (R151). -/
def execPwmPeriodStart (s : State) : Host.Outcome State Fault Refusal :=
  .next (s.event fun s =>
    let e := s.periodDue
    { s.reach e with periodDue := msAfter e 1, lines := s.lines.mapWith fun _ x => x.periodStart })

end Sys2Proof.Machine
end

