-- ==== Sys2Proof/Machine/Writes.lean ====
section
/-! DEFINITION. The meanings of the configuration writes: WRITE_LINE, WRITE_METER_SETUP, WRITE_PORTAL_SETUP,
WRITE_ZONE, WRITE_PLAN, WRITE_SCHEDULE, WRITE_BORE_SETUP and SET_CLOCK (R187 to R190). -/

namespace Sys2Proof.Machine

/-! ### Meters becoming configured or not (R4) -/

/-- A meter record with its gate cancelled, its ring emptied, F removed and both counts at 0 (R4, R13). -/
def Meter.discarded (x : Meter) : Meter :=
  { x with invalidCount := 0, validCount := 0, filtered := none, gateCount := 0, ring := [], gateEnd := none }

/-- A meter record that enters STARTING, its first gate begun (R4). -/
def Meter.started (now : Uptime) (x : Meter) : Meter :=
  { x.discarded with status := .starting, gateEnd := some (msAfter now x.gate) }

/-- A meter record that enters UNCONFIGURED (R4). -/
def Meter.unconfigured (x : Meter) : Meter :=
  { x.discarded with status := .unconfigured }

/-- A meter record restarted, into STARTING if it is configured and UNCONFIGURED if not (R4, R13). -/
def Meter.restarted (now : Uptime) (configured : Bool) (x : Meter) : Meter :=
  if configured then x.started now else x.unconfigured

/-- A meter restarted because its line's function or its setup changed, with its METER_STATE notice, which carries
no sample flag (R12, R13). -/
def State.restartMeter (s : State) (m : Fin 4) : State :=
  (s.setMeter m ((s.meter m).restarted s.uptime (s.meterConfigured m))).raiseMeterState m none

/-- The meter whose setup names a line, if any. -/
def State.meterOf (s : State) (i : Fin 192) : Option (Fin 4) :=
  (List.finRange 4).find? fun m => (s.meter m).line == some i

/-! ### WRITE_LINE (R155, R156) -/

/-- The line record that a new setting leaves (R156): FLOATING, with no output value, and for FEEDBACK_IN the
debounced value absent and the count 0, for METER_IN edge detection that begins (R154). -/
def Line.written (fn : LineFn) (invert : Bool) : Line where
  fn := fn
  invert := invert
  drive := .floating
  output := .none
  debounced := if fn = .feedbackIn then some false else none
  count := if fn = .feedbackIn then some 0 else none
  edge := if fn = .meterIn then some .start else none
  period := none

/-- A setting written to one line (R155, R156): a setting already held changes nothing, a change into or out of
METER_IN restarts the meter naming the line. -/
def State.writeLine (fn : LineFn) (invert : Bool) (s : State) (i : Fin 192) : State :=
  let x := s.line i
  if x.fn = fn ∧ x.invert = invert then s
  else
    let t := s.setLine i (Line.written fn invert)
    if (x.fn = .meterIn ∧ fn ≠ .meterIn) ∨ (x.fn ≠ .meterIn ∧ fn = .meterIn) then
      match t.meterOf i with
      | none => t
      | some m => t.restartMeter m
    else t

/-- The run, function and invert flag a WRITE_LINE carries, if every value has a meaning (R155 step 1). -/
def lineSetting (r : Request) : Option (List (Fin 192) × LineFn × Bool) :=
  match runOf r.target.toNat (r.body.getD 0 0).toNat, lineFnOf (r.body.getD 1 0), flagOf (r.body.getD 2 0) with
  | some run, some fn, some invert => some (run, fn, invert)
  | _, _, _ => none

/-- WRITE_LINE (R155, R156). -/
def execWriteLine (l : Link) (s : State) : Host.Outcome State Fault Refusal :=
  .next (s.takeFor l .writeLine fun r s =>
    match lineSetting r with
    | none => (s, some (Reply.alone r .badValue))
    | some (run, fn, invert) =>
      if run.any s.lineInService then (s, some (Reply.alone r .wrongState))
      else (run.foldl (State.writeLine fn invert) s, some (Reply.alone r .done)))

/-! ### WRITE_METER_SETUP (R13) -/

/-- A meter setup as a request carries it. -/
structure MeterSetup where
  line : Option (Fin 192)
  gate : Nat
  span : Nat
  weight : Nat
deriving DecidableEq, Repr

/-- The setup a WRITE_METER_SETUP carries, if every value is in its range (R13 step 1). -/
def meterSetupOf (body : List Octet) : Option MeterSetup :=
  let gate := nat16 (body.getD 1 0) (body.getD 2 0)
  let span := nat16 (body.getD 3 0) (body.getD 4 0)
  let weight := (body.getD 5 0).toNat
  match optFinOf 192 (body.getD 0 0) with
  | none => none
  | some line =>
    if gate % 100 = 0 ∧ 100 ≤ gate ∧ gate ≤ 2000 ∧ 1000 ≤ span ∧ span ≤ 9999 ∧ 1 ≤ weight ∧ weight ≤ 16 then
      some ⟨line, gate, span, weight⟩
    else none

/-- Another meter's setup names the line (R13 step 2). -/
def State.lineTaken (s : State) (m : Fin 4) (line : Option (Fin 192)) : Bool :=
  line.isSome && (List.finRange 4).any fun k => k != m && (s.meter k).line == line

/-- A setup written whole in a meter record. -/
def Meter.withSetup (x : Meter) (u : MeterSetup) : Meter :=
  { x with line := u.line, gate := u.gate, span := u.span, weight := u.weight }

/-- WRITE_METER_SETUP (R13). -/
def execWriteMeterSetup (l : Link) (s : State) : Host.Outcome State Fault Refusal :=
  .next (s.takeFor l .writeMeterSetup (onUnit 4 fun m r s =>
    match meterSetupOf r.body with
    | none => (s, some (Reply.alone r .badValue))
    | some u =>
      if s.lineTaken m u.line then (s, some (Reply.alone r .badValue))
      else if s.meterInService m && u.line != (s.meter m).line then (s, some (Reply.alone r .wrongState))
      else ((s.setMeter m ((s.meter m).withSetup u)).restartMeter m, some (Reply.alone r .done))))

/-! ### WRITE_PORTAL_SETUP (R15) -/

/-- The meter, partner and factor a WRITE_PORTAL_SETUP carries, if every value is in its range (R15). -/
def portalSetupOf (body : List Octet) : Option (Option (Fin 4) × Option (Fin 4) × Nat) :=
  let factor := nat16 (body.getD 2 0) (body.getD 3 0)
  match optFinOf 4 (body.getD 0 0), optFinOf 4 (body.getD 1 0) with
  | some meter, some partner => if 250 ≤ factor ∧ factor ≤ 4000 then some (meter, partner, factor) else none
  | _, _ => none

/-- WRITE_PORTAL_SETUP: the portal's state is judged before the values (R15, R187). -/
def execWritePortalSetup (l : Link) (s : State) : Host.Outcome State Fault Refusal :=
  .next (s.takeFor l .writePortalSetup (onUnit 4 fun p r s =>
    if (s.portal p).state ≠ .offline then (s, some (Reply.alone r .wrongState))
    else
      match portalSetupOf r.body with
      | none => (s, some (Reply.alone r .badValue))
      | some (meter, partner, factor) =>
        (s.setPortal p { s.portal p with meter := meter, partner := partner, factor := factor },
         some (Reply.alone r .done))))

/-! ### WRITE_ZONE (R64, R65, R188) -/

/-- A circuit as a slot entry carries it. -/
structure CircuitSetup where
  kind : CircuitKind
  rating : Nat
  output : Fin 192
  feedback : Option (Fin 192)
deriving DecidableEq, Repr

/-- The lines and rating of a slot entry of a kind, if every value is in its range (R64 step 1). -/
def circuitSetupOf (kind : CircuitKind) (e : List Octet) : Option CircuitSetup :=
  let rating := nat16 (e.getD 1 0) (e.getD 2 0)
  match finOf 192 (e.getD 3 0).toNat, optFinOf 192 (e.getD 4 0) with
  | some output, some feedback =>
    if 1 ≤ rating ∧ rating ≤ 30000 then some ⟨kind, rating, output, feedback⟩ else none
  | _, _ => none

/-- A slot entry of five octets: empty, a circuit, or nothing that has a meaning (R188). -/
def slotSetupOf (e : List Octet) : Option (Option CircuitSetup) :=
  if e.getD 0 0 = 0 then some none
  else if e.getD 0 0 = 1 then (circuitSetupOf .switched e).map some
  else if e.getD 0 0 = 2 then (circuitSetupOf .dimmed e).map some
  else none

/-- The entry of slot `k` in a zone body: the five octets after the header of 8 and the entries before it. -/
def slotOctets (body : List Octet) (k : Fin 8) : List Octet :=
  (body.drop (8 + 5 * k.val)).take 5

/-- A new circuit record, in OFF (R65, R87). -/
def CircuitSetup.create (c : CircuitSetup) : Circuit where
  kind := c.kind
  rating := c.rating
  output := c.output
  feedback := c.feedback
  state := .off
  level := 0
  timer := none
  burn := 0

/-- The four fields of a circuit record that a zone setup gives. -/
def Circuit.setup (c : Circuit) : CircuitSetup :=
  ⟨c.kind, c.rating, c.output, c.feedback⟩

/-- A slot written: the record is kept where the four fields agree, else replaced or discarded (R65). -/
def writeSlot (held : Option Circuit) (new : Option CircuitSetup) : Option Circuit :=
  match new with
  | none => none
  | some u =>
    match held with
    | none => some u.create
    | some c => if c.setup = u then some c else some u.create

/-- A zone setup as a request carries it. -/
structure ZoneSetup where
  order : OrderMode
  rotation : Fin 8
  settle : Nat
  hysteresis : Nat
  minDim : Nat
  slots : Tab 8 (Option CircuitSetup)
deriving DecidableEq, Repr

/-- The eight slot entries of a zone body, if every one has a meaning (R64, R188). -/
def slotSetupsOf (body : List Octet) : Option (Tab 8 (Option CircuitSetup)) :=
  let entry (k : Fin 8) := slotSetupOf (slotOctets body k)
  if (List.finRange 8).all fun k => (entry k).isSome then
    some ((Tab.fill 8 (none : Option CircuitSetup)).mapWith fun k _ => (entry k).getD none)
  else none

/-- The setup a WRITE_ZONE carries, if every value is in its range (R64 step 1). -/
def zoneSetupOf (body : List Octet) : Option ZoneSetup :=
  let settle := nat16 (body.getD 2 0) (body.getD 3 0)
  let hysteresis := nat16 (body.getD 4 0) (body.getD 5 0)
  let minDim := nat16 (body.getD 6 0) (body.getD 7 0)
  match orderOf (body.getD 0 0), finOf 8 (body.getD 1 0).toNat, slotSetupsOf body with
  | some order, some rotation, some slots =>
    if settle % 100 = 0 ∧ 200 ≤ settle ∧ settle ≤ 5000 ∧ hysteresis ≤ 500 ∧ 10 ≤ minDim ∧ minDim ≤ 500 then
      some ⟨order, rotation, settle, hysteresis, minDim, slots⟩
    else none
  | _, _, _ => none

/-- A zone record with a setup written; D, R, dim level, shortfall and preview are not touched (R65). -/
def Zone.withSetup (z : Zone) (u : ZoneSetup) : Zone :=
  { z with
    order := u.order, rotation := u.rotation, settle := u.settle, hysteresis := u.hysteresis, minDim := u.minDim
    slots := u.slots.mapWith fun k new => writeSlot (z.slots.get k) new }

/-- The zone's setup may be written: its portal, or both portals of its bore, are OFFLINE (R64 step 2). -/
def State.zoneWritable (s : State) (z : Fin 14) : Bool :=
  match ownerOf z with
  | .portal p => (s.portal p).state == .offline
  | .bore b => (portalsOf b).all fun p => (s.portal p).state == .offline

/-- WRITE_ZONE (R64, R65, R188), with the CIRCUIT_FAULT notice of a set that changes (R97). -/
def execWriteZone (l : Link) (s : State) : Host.Outcome State Fault Refusal :=
  .next (s.takeFor l .writeZone (onUnit 14 fun z r s =>
    match zoneSetupOf r.body with
    | none => (s, some (Reply.alone r .badValue))
    | some u =>
      if s.zoneWritable z then
        ((s.setZone z ((s.zone z).withSetup u)).raiseFaultChange z (s.zone z), some (Reply.alone r .done))
      else (s, some (Reply.alone r .wrongState))))

/-! ### WRITE_PLAN (R29 to R31, R189) -/

/-- The curve points of `n` groups of four octets. -/
def pointsOf : Nat → List Octet → List Point
  | 0, _ => []
  | n + 1, os =>
    ⟨nat16 (os.getD 0 0) (os.getD 1 0), nat16 (os.getD 2 0) (os.getD 3 0)⟩ :: pointsOf n (os.drop 4)

/-- The plan a WRITE_PLAN body of 29 + 4n octets carries, before its validation (R189, layout tables). -/
def planOf (body : List Octet) : Plan :=
  let n := (body.getD 1 0).toNat
  let f := body.drop (2 + 4 * n)
  let w (k : Nat) := nat16 (f.getD k 0) (f.getD (k + 1) 0)
  { curve := pointsOf n (body.drop 2)
    factors := (Tab.fill 5 0).mapWith fun i _ => w (2 * i.val)
    r1 := w 10, r2 := w 12
    interiorDay := w 14, interiorNight := w 16
    nightThreshold := w 18, dayThreshold := w 20
    nightHold := (f.getD 22 0).toNat
    riseStep := w 23, fallStep := w 25 }

/-- What a WRITE_PLAN writes: the slot, and the plan or nothing; refused where it has no meaning (R29, R31). -/
def planWriteOf (body : List Octet) : Option (PlanSlot × Option Plan) :=
  match planSlotOf (body.getD 0 0) with
  | none => none
  | some slot =>
    if body.length = 1 then (if slot = .b then some (.b, none) else none)
    else if (planOf body).valid then some (slot, some (planOf body)) else none

/-- A plan slot of a portal record written. -/
def Portal.withPlan (x : Portal) (slot : PlanSlot) (plan : Option Plan) : Portal :=
  match slot with
  | .a => { x with planA := plan }
  | .b => { x with planB := plan }

/-- One selected portal of a WRITE_PLAN (R30, R31). -/
def State.writePlan (w : PlanSlot × Option Plan) (p : Fin 4) (s : State) : State × Disposition :=
  match (s.portal p).state with
  | .offline | .held | .dryRun => (s.setPortal p ((s.portal p).withPlan w.1 w.2), .done)
  | .auto | .emergency => (s, .wrongState)

/-- WRITE_PLAN (R29 to R31, R189). -/
def execWritePlan (l : Link) (s : State) : Host.Outcome State Fault Refusal :=
  .next (s.takeFor l .writePlan fun r s =>
    match planWriteOf r.body with
    | none => overUnits 4 (some .badValue) (fun _ t => (t, .badValue)) r s
    | some w => overUnits 4 none (State.writePlan w) r s)

/-! ### WRITE_SCHEDULE (R25, R190) -/

/-- The windows of `n` groups of five octets. -/
def windowsOf : Nat → List Octet → List Window
  | 0, _ => []
  | n + 1, os =>
    let v := nat24 (os.getD 0 0) (os.getD 1 0) (os.getD 2 0)
    ⟨v / 4096, v % 4096, nat16 (os.getD 3 0) (os.getD 4 0)⟩ :: windowsOf n (os.drop 5)

/-- The list a WRITE_SCHEDULE carries, sorted, if its count, its windows and its order pass (R25, R190). -/
def scheduleOf (body : List Octet) : Option (List Window) :=
  let n := (body.getD 0 0).toNat
  let ws := windowsOf n (body.drop 1)
  let sorted := sortWindows ws
  if n ≤ 24 ∧ ws.all Window.inRange ∧ noOverlap sorted ∧ noWrapOverlap sorted then some sorted else none

/-- WRITE_SCHEDULE (R25, R190). -/
def execWriteSchedule (l : Link) (s : State) : Host.Outcome State Fault Refusal :=
  .next (s.takeFor l .writeSchedule fun r s =>
    match scheduleOf r.body with
    | none => (s, some (Reply.alone r .badValue))
    | some ws => ({ s with schedule := ws }, some (Reply.alone r .done)))

/-! ### WRITE_BORE_SETUP and SET_CLOCK (R135, R27) -/

/-- WRITE_BORE_SETUP: a running stale timer keeps its expiry (R135). -/
def execWriteBoreSetup (l : Link) (s : State) : Host.Outcome State Fault Refusal :=
  .next (s.takeFor l .writeBoreSetup fun r s =>
    let timeout := nat16 (r.body.getD 0 0) (r.body.getD 1 0)
    overUnits 2 (if 10 ≤ timeout ∧ timeout ≤ 600 then none else some .badValue)
      (fun b t => (t.setBore b { t.bore b with staleTimeout := timeout }, .done)) r s)

/-- SET_CLOCK: the clock takes the values carried, its next advance 60 000 ms after the set (R27). A day of FFFFh is taken
as day 65 535 and not as an absent marker, which is the model's reading of R27 and R180 (log 24). -/
def execSetClock (l : Link) (s : State) : Host.Outcome State Fault Refusal :=
  .next (s.takeFor l .setClock fun r s =>
    let minute := nat16 (r.body.getD 0 0) (r.body.getD 1 0)
    let day := nat16 (r.body.getD 2 0) (r.body.getD 3 0)
    if minute ≤ 1439 then
      ({ s with clock := some ⟨minute, day, msAfter s.uptime 60000⟩ }, some (Reply.alone r .done))
    else (s, some (Reply.alone r .badValue)))

end Sys2Proof.Machine
end

