-- ==== Sys2Proof/Machine/Dispatch.lean ====
section
/-! DEFINITION. The meaning of every command: one arm per row of the table of operations and events. -/

namespace Sys2Proof.Machine

def exec (i : Instr) (s : State) : Host.Outcome State Fault Refusal :=
  match i with
  | .powerOn => Sys2Proof.Machine.execPowerOn s
  | .resetPin lowMicros => Sys2Proof.Machine.execResetPin lowMicros s
  | .rxOctet l octet framingError => Sys2Proof.Machine.execRxOctet l octet framingError s
  | .gapTimerExpiry l => Sys2Proof.Machine.execGapTimerExpiry l s
  | .linkRestart l => Sys2Proof.Machine.execLinkRestart l s
  | .lineReturnsToMark l => Sys2Proof.Machine.execLineReturnsToMark l s
  | .transmissionEnd l => Sys2Proof.Machine.execTransmissionEnd l s
  | .unknownCode l => Sys2Proof.Machine.execUnknownCode l s
  | .echo l => Sys2Proof.Machine.execEcho l s
  | .setNoticeMask l => Sys2Proof.Machine.execSetNoticeMask l s
  | .readPortal l => Sys2Proof.Machine.execReadPortal l s
  | .readBore l => Sys2Proof.Machine.execReadBore l s
  | .readZone l => Sys2Proof.Machine.execReadZone l s
  | .readCircuit l => Sys2Proof.Machine.execReadCircuit l s
  | .readMeter l => Sys2Proof.Machine.execReadMeter l s
  | .readLine l => Sys2Proof.Machine.execReadLine l s
  | .readPlan l => Sys2Proof.Machine.execReadPlan l s
  | .readSchedule l => Sys2Proof.Machine.execReadSchedule l s
  | .readClock l => Sys2Proof.Machine.execReadClock l s
  | .writeLine l => Sys2Proof.Machine.execWriteLine l s
  | .writeMeterSetup l => Sys2Proof.Machine.execWriteMeterSetup l s
  | .writePortalSetup l => Sys2Proof.Machine.execWritePortalSetup l s
  | .writeZone l => Sys2Proof.Machine.execWriteZone l s
  | .writePlan l => Sys2Proof.Machine.execWritePlan l s
  | .writeSchedule l => Sys2Proof.Machine.execWriteSchedule l s
  | .writeBoreSetup l => Sys2Proof.Machine.execWriteBoreSetup l s
  | .setClock l => Sys2Proof.Machine.execSetClock l s
  | .commission l => Sys2Proof.Machine.execCommission l s
  | .hold l => Sys2Proof.Machine.execHold l s
  | .release l => Sys2Proof.Machine.execRelease l s
  | .stopOrderly l => Sys2Proof.Machine.execStopOrderly l s
  | .stopImmediate l => Sys2Proof.Machine.execStopImmediate l s
  | .overrideSet l => Sys2Proof.Machine.execOverrideSet l s
  | .overrideClear l => Sys2Proof.Machine.execOverrideClear l s
  | .dryRunStart l => Sys2Proof.Machine.execDryRunStart l s
  | .dryRunInput l => Sys2Proof.Machine.execDryRunInput l s
  | .dryRunStop l => Sys2Proof.Machine.execDryRunStop l s
  | .lockoutModify l => Sys2Proof.Machine.execLockoutModify l s
  | .burnReset l => Sys2Proof.Machine.execBurnReset l s
  | .speedReport l => Sys2Proof.Machine.execSpeedReport l s
  | .directionSet l => Sys2Proof.Machine.execDirectionSet l s
  | .emergencySet l => Sys2Proof.Machine.execEmergencySet l s
  | .emergencyClear l => Sys2Proof.Machine.execEmergencyClear l s
  | .portalEvaluation p => Sys2Proof.Machine.execPortalEvaluation p s
  | .boreEvaluation b => Sys2Proof.Machine.execBoreEvaluation b s
  | .gateExpiry m => Sys2Proof.Machine.execGateExpiry m s
  | .meterEdge reading => Sys2Proof.Machine.execMeterEdge reading s
  | .feedbackChange line => Sys2Proof.Machine.execFeedbackChange line s
  | .settleExpiry z k => Sys2Proof.Machine.execSettleExpiry z k s
  | .lossExpiry z k => Sys2Proof.Machine.execLossExpiry z k s
  | .burnTick => Sys2Proof.Machine.execBurnTick s
  | .overrideExpiry p => Sys2Proof.Machine.execOverrideExpiry p s
  | .staleExpiry b => Sys2Proof.Machine.execStaleExpiry b s
  | .minuteAdvance => Sys2Proof.Machine.execMinuteAdvance s
  | .resetPinRelease => Sys2Proof.Machine.execResetPinRelease s
  | .feedbackSample pins => Sys2Proof.Machine.execFeedbackSample pins s
  | .pwmPeriodStart => Sys2Proof.Machine.execPwmPeriodStart s

end Sys2Proof.Machine
end

