-- ==== Sys2Proof/Safety.lean ====
section
/-! DEFINITION. What counts as a good state of the part: the conditions between two events, and the ranges and
relations of the records that the manual says hold at all times. Each is a property of one state. -/

namespace Sys2Proof.Machine

/-! ### Between two events -/

/-- The part is awake and between two events: not held in reset, and no IDLE transmitter has a frame to begin
(R158, R173). -/
def State.Settled (s : State) : Prop :=
  s.inReset = false ∧ s.arbitrate = s

/-- The request that the engine of a link takes next: the part is settled, the request is at the head of the
queue, and the response list holds fewer than 4 entries (R167). -/
def State.Offers (s : State) (l : Link) (r : Request) : Prop :=
  s.Settled ∧ s.nextRequest l = some r

/-- A part held in reset, or one whose IDLE transmitters have nothing to begin (R158, R173). -/
def State.NothingLeftIdle (s : State) : Prop :=
  s.inReset = true ∨ s.arbitrate = s

/-! ### What a request is answered with, and how a request arrives -/

/-- The response that echoes a request, with its dispositions and data (R170). -/
def Request.reply (r : Request) (frame : Disposition) (each : List Disposition) (data : List Octet) : Response :=
  { tag := r.tag, code := r.code, target := r.target, frame := frame, each := each, data := data }

/-- A response to a request that took effect is placed where the request wants one (R171, R172). -/
def State.acknowledge (s : State) (l : Link) (r : Request) (x : Response) : State :=
  if r.ackWanted then s.place l x else s

/-- The engine of a link takes `r` next, and it passes steps 1 to 3 of the engine's checks as a request of code `c`
(R167, R168). -/
def State.Takes (s : State) (l : Link) (c : ReqCode) (r : Request) : Prop :=
  s.Offers l r ∧ reqCodeOf r.code = some c ∧ mayMake l c = true ∧ lengthOk c r.body = true

/-- The end of a take that changes no block: the request has left its queue, and its response is placed whatever the
ack-wanted flag (R167, R171, R172). -/
def State.answer (s : State) (l : Link) (r : Request) (d : Disposition) (each : List Disposition)
    (data : List Octet) : State :=
  ((s.popRequest l).place l (r.reply d each data)).arbitrate

/-- The end of a take whose request took effect and left the blocks as they are in `t`: the response is placed where
one is wanted (R171, R172). -/
def State.finish (t : State) (l : Link) (r : Request) (d : Disposition) (each : List Disposition) : State :=
  (t.acknowledge l r (r.reply d each [])).arbitrate

/-- The end of a take of a request with a mask that left the blocks as they are in `t`: the frame disposition is
formed from those of the units, and the response is placed where one is wanted or a unit refused (R170 to R172). -/
def State.report (t : State) (l : Link) (r : Request) (each : List Disposition) : State :=
  (if r.ackWanted || !(frameDisposition each).tookEffect then t.place l (r.reply (frameDisposition each) each [])
   else t).arbitrate

/-- The links of the second state are those of the first but for the notices that wait. -/
def State.onlyNotices (s t : State) : Prop :=
  ∀ k, t.link k = { s.link k with notices := (t.link k).notices }

/-- A notice waits in the queue of every link whose mask includes its kind (R174). -/
def State.Waiting (s : State) (n : Notice) : Prop :=
  ∀ k, n.kind ∈ (s.link k).mask → n ∈ (s.link k).notices

/-- Every zone whose shortfall flag differs in the second state has its SHORTFALL notice waiting there, with the flag, R and
K of that zone (R78; those of a zone that is cleared by log 23). -/
def State.ShortfallsRaised (s t : State) : Prop :=
  ∀ z, (t.zone z).shortfall ≠ (s.zone z).shortfall →
    t.Waiting (.shortfall z (t.zone z).shortfall (t.zone z).ramped (t.zone z).capacity)

/-- Where portal `p` leaves OWN, each portal on PARTNER that names it is pulled off: it takes step 3 or 4 of its own cascade
with its SOURCE notice (R20, R21). Every other portal than `p` keeps its record. -/
def State.PullsOff (s t : State) (p : Fin 4) (leaves : Prop) : Prop :=
  ∀ q, q ≠ p →
    let follows := leaves ∧ (s.portal q).source = some .partner ∧ (s.portal q).partner = some p
    let late := s.lateCascade q
    (follows → t.portal q = (s.portal q).withSource late.1 late.2 ∧ t.Waiting (.source q (some late.1) late.2))
    ∧ (¬ follows → t.portal q = s.portal q)

/-- The night flag and count of low evaluations that an evaluation stores (R19, R38), from the source and access luminance
it has just stored and the plan in use. -/
def Portal.nightAfter (x : Portal) (plan : Plan) (source : Source) (access : Option Nat) : Bool × Nat :=
  match source, access with
  | .blind, _ => (false, 0)
  | _, none => (x.night, x.lowCount)
  | _, some a =>
    if a < plan.nightThreshold then
      (x.night || decide (plan.nightHold * 60 ≤ min 1800 (x.lowCount + 1)), min 1800 (x.lowCount + 1))
    else if a < plan.dayThreshold then (x.night, 0)
    else (false, 0)

/-- The demands an evaluation of a portal in AUTO computes (R36, R37, R43 to R45), from the access luminance it has just
stored, the bore's speed class, mode and I, and the portal's override. -/
def State.demandsAt (s : State) (p : Fin 4) (plan : Plan) (access : Option Nat) : Demands :=
  let b := s.bore (boreOf p)
  let base :=
    match (s.portal p).override with
    | some ⟨.level lum, _, _⟩ => lum
    | _ => roundDiv (curveValue (access.getD 0) plan.curve * plan.factors.get b.speedClass) 1000
  let dth := match roleOf b.mode p with | .entry => max base b.demand | .exit => b.demand
  ⟨dth, max b.demand (roundDiv (dth * plan.r1) 1000), max b.demand (roundDiv (dth * plan.r2) 1000)⟩

/-- The preview demands an evaluation of a portal in DRY_RUN computes (R34, R36, R48). -/
def State.previewDemandsAt (s : State) (p : Fin 4) (x : DryRunInput) (plan : Plan) : Demands :=
  let b := s.bore (boreOf p)
  let base := roundDiv (curveValue x.access plan.curve * plan.factors.get (x.speedClass.getD b.speedClass)) 1000
  demandsFor plan (roleOf b.mode p) base b.demand

/-- The demand of zone j of a portal. -/
def Demands.at (d : Demands) (j : Fin 3) : Nat :=
  if j = 0 then d.th else if j = 1 then d.t1 else d.t2

/-- Zone j of a portal as one evaluation of the portal that acts in `acting` leaves it (R107 steps 4 and 6): the rotation
start turned at night entry, then the step of the acting state, then the shortfall test. -/
def State.evaluatedZone (s : State) (p : Fin 4) (plan : Plan) (acting : PortalState) (now : Uptime) (j : Fin 3) : Zone :=
  let x := s.portal p
  let z := s.zone (zoneOf p j)
  let night := (x.nightAfter plan (s.cascade p).1 (s.cascade p).2).1
  let z0 := { z with rotation := if night && !x.night then z.rotation + 1 else z.rotation }
  let d := (s.demandsAt p plan (s.cascade p).2).at j
  let z1 :=
    match acting with
    | .offline => z0
    | .held => z0
    | .dryRun =>
      match x.dryRun with
      | none => z0
      | some input =>
        match s.previewPlan p input with
        | none => z0
        | some q => { z0 with preview := some (z0.previewFor ((s.previewDemandsAt p input q).at j)) }
    | .auto =>
      let frozen := match x.override with | some ⟨.freeze, _, _⟩ => true | _ => false
      ({ z0 with
         demand := d
         ramped := if frozen then z.ramped else rampStep z.ramped d plan.riseStep plan.fallStep } : Zone).allocate now
    | .emergency => ({ z0 with demand := 60000 } : Zone).atCapacity.lightAll now
  { z1 with shortfall := decide (z1.capacity < z1.ramped) }

/-- Units taken in ascending order in one event, each seeing the effects of those before it (R108, R130): `R u s a t`
says that unit `u`, taken in `s`, answers `a` and leaves `t`. -/
inductive Visited {n : Nat} {α : Type} (R : Fin n → State → α → State → Prop) :
    List (Fin n) → State → List α → State → Prop where
  | nil (s : State) : Visited R [] s [] s
  | cons {u : Fin n} {us : List (Fin n)} {s t v : State} {a : α} {as : List α} :
      R u s a t → Visited R us t as v → Visited R (u :: us) s (a :: as) v

/-- A zone record as the stop of its owner leaves it (R85, R99): D and R 0, no dim level, no preview, no shortfall, every
circuit out of flight at level 0 with its fault state and its burn seconds kept. -/
def Zone.releasedFrom (x y : Zone) : Prop :=
  y = { x with slots := y.slots, demand := 0, ramped := 0, dim := none, shortfall := false, preview := none }
  ∧ ∀ k, y.slots.get k = (x.slots.get k).map fun c =>
      { c with state := if c.available then .off else c.state, level := 0, timer := none }

/-- A zone record as an emergency lights it (R57, R79): R the smaller of 60 000 and the capacity, D as it was, every
available circuit lit, every other one as it was, no shortfall. -/
def Zone.litFrom (x y : Zone) : Prop :=
  y.ramped = min 60000 x.capacity ∧ y.capacity = x.capacity ∧ y.demand = x.demand ∧ y.shortfall = false
  ∧ ∀ k c, x.slots.get k = some c →
      ∃ d, y.slots.get k = some d ∧ d.setup = c.setup ∧ d.burn = c.burn ∧ d.available = c.available
        ∧ (c.available = false → d = c)
        ∧ (c.available = true →
            (match c.kind with
             | .switched => d.state = .switchingOn ∨ d.state = .on
             | .dimmed => d.state = .on ∧ d.level = 1000))

/-- The octets in which a supervising system sends a request (R160, R161). -/
def Request.frame (r : Request) : List Octet :=
  let control : Octet := BitVec.ofNat 8 (128 * flagCode r.urgent + 64 * flagCode r.ackWanted)
  let inner := BitVec.ofNat 8 (4 + r.body.length) :: r.tag :: control :: r.code :: r.target :: r.body
  0xC3 :: (inner ++ checkOctets inner)

/-- The state after an outcome that is a next state, else the state before. -/
def afterOutcome (s : State) : Host.Outcome State Fault Refusal → State
  | .next t => t
  | .fault _ => s
  | .refused _ => s

/-- The state after the receiver of a link has delivered some octets, one RX_OCTET each, none with a framing error. -/
def receiveAll (l : Link) (os : List Octet) (s : State) : State :=
  os.foldl (fun t o => afterOutcome t (exec (.rxOctet l o false) t)) s

/-- Every record but those of the links stands at its cold-start value, the uptime at 0 (R197). -/
def State.recordsCold (t : State) : Prop :=
  t.uptime = 0 ∧ t.clock = none ∧ t.burnDue = 1000 ∧ t.lines = Tab.fill 192 Line.cold
  ∧ t.meters = Tab.fill 4 Meter.cold ∧ t.schedule = [] ∧ t.portals = Tab.fill 4 Portal.cold
  ∧ t.bores = Tab.fill 2 Bore.cold ∧ t.zones = Tab.fill 14 Zone.cold

/-- A link record that is sending its COLD_START notice and holds nothing else, under its cold-start mask (R159). -/
def LinkRec.announcing (l : Link) (x : LinkRec) : Prop :=
  (∃ ends, x.transmitter = .sending (.notice .coldStart) ends) ∧ x.framer = .hunt ∧ x.requests = []
  ∧ x.responses = [] ∧ x.notices = [] ∧ x.mask = coldMask l

/-! ### The links -/

/-- No two notices of a list have the same kind and subject (R175). -/
def distinctKeys : List Notice → Bool
  | [] => true
  | n :: ns => ns.all (fun m => !n.sameKey m) && distinctKeys ns

/-- Every urgent request stands ahead of every non-urgent one (R166). -/
def urgentFirst (q : List Request) : Bool :=
  (q.dropWhile Request.urgent).all fun r => !r.urgent

/-- A link record within the bounds the manual states: at most 8 requests with the urgent ones first (R166), at
most 8 responses (R172), one notice for each kind and subject, of kinds the mask includes (R174, R175), BREAK and
SILENT together (R165). -/
def LinkRec.ordered (x : LinkRec) : Bool :=
  decide (x.requests.length ≤ 8) && urgentFirst x.requests && decide (x.responses.length ≤ 8)
  && distinctKeys x.notices && x.notices.all (fun n => n.kind == .coldStart || x.mask.contains n.kind)
  && ((x.framer == .brk) == (x.transmitter == .silent))

/-- Every link record is in order. -/
def State.LinksOrdered (s : State) : Prop :=
  ∀ l : Link, (s.link l).ordered = true

/-- The portals whose pending action's answer is owed to a link (R109, R172). -/
def State.owedTo (s : State) (l : Link) : List (Fin 4) :=
  (List.finRange 4).filter fun p => (s.portal p).action.any fun a => a.link == l && a.answerOwed

/-- The responses in a link's list and the answers owed to it number at most 8 (R172). -/
def State.AnswersBounded (s : State) : Prop :=
  ∀ l : Link, (s.link l).responses.length + (s.owedTo l).length ≤ 8

/-! ### Levels (R46, R50) -/

/-- The plans of a portal record are valid and its override's level is at most 60 000 (R28, R29, R119). -/
def Portal.plansValid (x : Portal) : Bool :=
  x.planA.all Plan.valid && x.planB.all Plan.valid
  && x.override.all fun v => v.kind.levelField.all fun lum => decide (lum ≤ 60000)

/-- Every demand, ramped level and interior demand is at most 60 000, and every plan held is valid. -/
def State.LevelsBounded (s : State) : Prop :=
  (∀ p, (s.portal p).plansValid = true)
  ∧ (∀ b, (s.bore b).demand ≤ 60000 ∧ (s.bore b).base ≤ 60000)
  ∧ ∀ z, (s.zone z).demand ≤ 60000 ∧ (s.zone z).ramped ≤ 60000

/-! ### Meters (R3, R4) -/

/-- The fields of a meter record lie in their ranges (R3, R11). -/
def Meter.inRange (x : Meter) : Bool :=
  x.gate % 100 == 0 && decide (100 ≤ x.gate) && decide (x.gate ≤ 2000)
  && decide (1000 ≤ x.span) && decide (x.span ≤ 9999)
  && decide (1 ≤ x.weight) && decide (x.weight ≤ 16)
  && decide (x.invalidCount ≤ 3) && decide (x.validCount ≤ 5)
  && x.filtered.all (fun f => decide (f ≤ x.span))
  && decide (x.gateCount ≤ 65535) && decide (x.ring.length ≤ 16)

/-- An UNCONFIGURED meter record holds nothing and runs no gate, any other runs one, and a VALID one holds F
(R4, R10). -/
def Meter.fitsStatus (x : Meter) : Bool :=
  match x.status with
  | .unconfigured =>
    x.gateEnd.isNone && x.ring.isEmpty && x.filtered.isNone && x.invalidCount == 0 && x.validCount == 0
  | .starting => x.gateEnd.isSome
  | .valid => x.gateEnd.isSome && x.filtered.isSome
  | .faulty => x.gateEnd.isSome

/-- The meters are in range, fit their statuses, are UNCONFIGURED exactly where their line is not METER_IN, and
name lines of their own (R3, R4, R13). -/
def State.MetersFit (s : State) : Prop :=
  (∀ m, (s.meter m).inRange = true ∧ (s.meter m).fitsStatus = true
    ∧ (s.meterConfigured m = true ↔ (s.meter m).status ≠ .unconfigured))
  ∧ ∀ m k, m ≠ k → (s.meter m).line.isSome = true → (s.meter m).line ≠ (s.meter k).line

/-! ### Schedule (R24) -/

/-- The stored list: at most 24 windows in range, ascending, no two covering a common minute (R23 to R25). -/
def State.ScheduleFit (s : State) : Prop :=
  s.schedule.length ≤ 24 ∧ s.schedule.all Window.inRange = true ∧ noOverlap s.schedule = true
  ∧ noWrapOverlap s.schedule = true

/-! ### Portals and bores -/

/-- The working fields of an OFFLINE portal are absent or clear (R104, R109, R114). -/
def Portal.cleared (x : Portal) : Bool :=
  x.timer.isNone && x.source.isNone && x.access.isNone && x.planInUse.isNone && x.role.isNone && !x.night
  && x.lowCount == 0 && x.override.isNone && x.action.isNone && x.dryRun.isNone

/-- A pending action is one that the portal's state admits (R108, R109). -/
def PendingAction.fits (a : PendingAction) (st : PortalState) : Bool :=
  match a.kind, st with
  | .hold, .auto => true
  | .release, .held => true
  | .stopOrderly, .held | .stopOrderly, .dryRun | .stopOrderly, .auto => true
  | _, _ => false

/-- A portal record fits its state and its bore's emergency flag (R105, R106, R109, R114, R117, R118, R123). -/
def Portal.fits (x : Portal) (p : Fin 4) (emergency : Bool) : Bool :=
  match x.state with
  | .offline => x.cleared
  | .held => x.timer.isSome && x.planA.isSome && x.partner != some p && x.dryRun.isNone && x.action.all (·.fits .held)
  | .dryRun =>
    x.timer.isSome && x.planA.isSome && x.partner != some p && x.dryRun.isSome && x.action.all (·.fits .dryRun)
    && !emergency
  | .auto =>
    x.timer.isSome && x.planA.isSome && x.partner != some p && x.dryRun.isNone && x.action.all (·.fits .auto)
    && !emergency
  | .emergency =>
    x.timer.isSome && x.planA.isSome && x.partner != some p && x.dryRun.isNone && x.action.isNone && emergency

/-- Every portal record fits its state. -/
def State.PortalsFit (s : State) : Prop :=
  ∀ p, (s.portal p).fits p (s.bore (boreOf p)).emergency = true

/-- A portal's source is PARTNER only while the partner it names has source OWN (R21). -/
def State.PartnersOwn (s : State) : Prop :=
  ∀ p, (s.portal p).source = some .partner →
    ∃ q, (s.portal p).partner = some q ∧ (s.portal q).source = some .own

/-- The interior condition of each bore is the one its portals' states give (R139). -/
def State.ConditionsFollow (s : State) : Prop :=
  ∀ b, (s.bore b).condition = s.conditionFor b

/-! ### Zones and circuits -/

/-- A circuit record within R63, R87, R89 and R95: a SWITCHED circuit has level 0 and a timer only in flight
(SETTLE, with a feedback line) or in ON (LOSS); a DIMMED one is in ON exactly at a level above 0, at most 1000, is
never in flight or stuck, and has a LOSS timer at most. -/
def Circuit.legal (c : Circuit) : Bool :=
  decide (1 ≤ c.rating) && decide (c.rating ≤ 30000) && decide (c.burn ≤ 4294967295)
  && match c.kind, c.state with
    | .switched, .switchingOn | .switched, .switchingOff =>
      c.level == 0 && c.feedback.isSome && c.timer.any fun t => t.kind == .settle
    | .switched, .on => c.level == 0 && c.timer.all fun t => t.kind == .loss
    | .switched, _ => c.level == 0 && c.timer.isNone
    | .dimmed, .off => c.level == 0 && c.timer.all fun t => t.kind == .loss
    | .dimmed, .on => decide (0 < c.level) && decide (c.level ≤ 1000) && c.timer.all fun t => t.kind == .loss
    | .dimmed, .failedDark | .dimmed, .lockedOut => c.level == 0 && c.timer.isNone
    | .dimmed, _ => false

/-- A zone record in its ranges, with legal circuits (R62). -/
def Zone.legal (z : Zone) : Bool :=
  z.circuits.all Circuit.legal
  && z.settle % 100 == 0 && decide (200 ≤ z.settle) && decide (z.settle ≤ 5000)
  && decide (z.hysteresis ≤ 500) && decide (10 ≤ z.minDim) && decide (z.minDim ≤ 500)
  && z.dim.all (fun level => decide (level ≤ 1000))

/-- Every zone record is legal. -/
def State.ZonesLegal (s : State) : Prop :=
  ∀ z, (s.zone z).legal = true

/-- The zone's dim level, and the level of each of its circuits, is 0 or at least the minimum dim level (R75, R76). -/
def Zone.dimsAboveMinimum (z : Zone) : Bool :=
  z.dim.all (fun level => level == 0 || decide (z.minDim ≤ level))
  && z.circuits.all fun c => c.level == 0 || decide (z.minDim ≤ c.level)

/-- The zone has no dim level, and none of its circuits is commanded, in flight or timed (R85, R99). -/
def Zone.dark (z : Zone) : Bool :=
  z.dim.isNone
  && z.circuits.all fun c =>
    c.level == 0 && c.timer.isNone && c.state != .switchingOn && c.state != .on && c.state != .switchingOff

/-- No driver is asked for a level between 0 and its zone's minimum dim level, and a zone that is not supervised is
dark (R76, R85, R99). -/
def State.DimsRight (s : State) : Prop :=
  ∀ z, (s.zone z).dimsAboveMinimum = true ∧ (s.supervised z = false → (s.zone z).dark = true)

/-- The lines that the circuits of supervised zones name, as output or feedback line (R199). -/
def State.namings (s : State) : List (Fin 192) :=
  s.supervisedCircuits.flatMap fun x => x.2.2.namings

/-- The lines follow the circuits they serve (R149, R198, R199): no line is named twice in supervised zones, the output
line of each of their circuits has the function its kind needs, is DRIVEN and carries its command, and every line that
serves no circuit is FLOATING with no output. -/
def State.LinesFollow (s : State) : Prop :=
  s.namings.Nodup
  ∧ (∀ x ∈ s.supervisedCircuits,
      match x.2.2.kind with
      | .switched =>
        (s.line x.2.2.output).fn = .switchOut ∧ (s.line x.2.2.output).drive = .driven
        ∧ (s.line x.2.2.output).output = .level x.2.2.active
      | .dimmed =>
        (s.line x.2.2.output).fn = .dimOut ∧ (s.line x.2.2.output).drive = .driven
        ∧ (s.line x.2.2.output).output = .duty x.2.2.level)
  ∧ ∀ i, (∀ x ∈ s.supervisedCircuits, x.2.2.output ≠ i) →
      (s.line i).drive = .floating ∧ (s.line i).output = .none

/-- The input state of a line record is that of its function (R147, R156): a debounced value and a count of at most 19 in a
FEEDBACK_IN line, an edge detector with a count of at most 19 in a METER_IN line (R154), none in any other. -/
def Line.inputFits (x : Line) : Bool :=
  match x.fn with
  | .feedbackIn => x.debounced.isSome && x.count.any (fun n => decide (n ≤ 19)) && x.edge.isNone
  | .meterIn => x.debounced.isNone && x.count.isNone && x.edge.any fun d => decide (d.run ≤ 19)
  | .released | .switchOut | .dimOut => x.debounced.isNone && x.count.isNone && x.edge.isNone

/-- The input state of every line is that of its function. -/
def State.InputsFit (s : State) : Prop :=
  ∀ i, (s.line i).inputFits = true

/-- A circuit is lit as emergency allocation lights it: a SWITCHED one in SWITCHING_ON or ON, a DIMMED one at 1000
(R79). -/
def Circuit.fullyLit (c : Circuit) : Bool :=
  match c.kind with
  | .switched => c.state == .switchingOn || c.state == .on
  | .dimmed => c.level == 1000

/-- Every available circuit of a zone under emergency allocation is lit (R79, R140). -/
def State.EmergencyLit (s : State) : Prop :=
  ∀ z, s.underEmergency z = true → ∀ c ∈ (s.zone z).circuits, c.available = true → c.fullyLit = true

end Sys2Proof.Machine
end

