-- ==== Sys2Proof/Certificates/Slice0/Obligations.lean ====
section
/-! DEFINITION. What the provers are asked to prove: one proposition for each entry of OBLIGATIONS.json. -/

open Sys2Proof Sys2Proof.Machine

/-! ### Steps, reset and whole-machine rules -/

/-- A step takes the command at the front of the queue and runs it on the state with the queue's rest. -/
def Obligations.StepTakesTheFrontCommand : Prop :=
  ∀ (c : Instr) (s : State), step { s with pending := c :: s.pending } = exec c s

/-- With an empty queue a part held in reset idles; an awake one runs its next due event, and where none is due it
lets a millisecond pass and changes nothing but the uptime and the frames its transmitters begin. The model's choice:
log 2, with the order of its due events (log 3). -/
def Obligations.AnEmptyQueueRunsTheClock : Prop :=
  ∀ s : State, s.pending = [] →
    (s.inReset = true → step s = .next s)
    ∧ (s.inReset = false → ∀ c, s.dueCommand = some c → step s = exec c s)
    ∧ (s.inReset = false → s.dueCommand = none →
        step s = .next ({ s.arbitrate with uptime := s.uptime + 1 } : State).arbitrate)

/-- Every command answers a next state and leaves the queue of waiting commands as it was (the events of chapter 95 are whole); a part
held in reset takes no event but those of its reset and its power (R158; log 9). -/
def Obligations.EveryCommandAnswersANextState : Prop :=
  (∀ (c : Instr) (s : State), ∃ t, exec c s = .next t ∧ t.pending = s.pending)
  ∧ (∀ (c : Instr) (s : State), s.inReset = true → c ≠ .powerOn → c ≠ .resetPinRelease → (∀ n, c ≠ .resetPin n) →
      exec c s = .next s)

/-- The state right after reset holds every record at its cold-start value, and each link a COLD_START notice alone (R3, R15,
R16, R26 to R28, R38, R40, R62, R104, R129, R147, R159, R177); it meets the invariants; and the first thing the part does
leaves every transmitter sending its COLD_START notice (R159; log 1, log 2). -/
def Obligations.ResetIsTheColdStart : Prop :=
  State.reset.recordsCold ∧ State.reset.inReset = false ∧ State.reset.pending = []
  ∧ ∀ l : Link, State.reset.link l
      = { framer := .hunt, requests := [], responses := [], transmitter := .idle, notices := [.coldStart],
          mask := coldMask l }
  ∧ State.reset.LinksOrdered ∧ State.reset.AnswersBounded ∧ State.reset.LevelsBounded ∧ State.reset.MetersFit
  ∧ State.reset.ScheduleFit ∧ State.reset.PortalsFit ∧ State.reset.PartnersOwn ∧ State.reset.ConditionsFollow
  ∧ State.reset.ZonesLegal ∧ State.reset.DimsRight ∧ State.reset.EmergencyLit ∧ State.reset.LinesFollow
  ∧ State.reset.InputsFit
  ∧ ∃ t, step State.reset = .next t ∧ t.NothingLeftIdle ∧ ∀ l, (t.link l).announcing l

/-- Leaving reset, by the RESET pin's return or by power that becomes good, starts the part cold: every record at its
cold-start value and each transmitter sending its COLD_START notice. Power that becomes good under a low RESET pin
leaves the part held (log 19); a pin that returns high on a part not held does nothing.
A low on the RESET pin of at least 10 microseconds returns every record to its cold-start value and holds the part
there, one shorter than 2 is ignored, and one between the two does the one or the other, drawing a free value (R158;
log 9). -/
def Obligations.ResetAndPower : Prop :=
  (∀ s : State,
      let started (t : State) : Prop :=
        t.recordsCold ∧ t.inReset = false ∧ (∀ l, (t.link l).announcing l) ∧ t.pending = s.pending ∧ t.pins = s.pins
      (s.inReset = true → ∃ t, exec .resetPinRelease s = .next t ∧ started t)
      ∧ (s.inReset = false → exec .resetPinRelease s = .next s)
      ∧ (s.inReset = false → ∃ t, exec .powerOn s = .next t ∧ started t)
      ∧ (s.inReset = true → ∃ t, exec .powerOn s = .next t ∧ t.recordsCold ∧ t.inReset = true ∧ t.links = coldLinks
          ∧ t.pending = s.pending ∧ t.pins = s.pins))
  ∧ (∀ (n : Nat) (s : State),
      let held (t : State) : Prop :=
        t.recordsCold ∧ t.inReset = true ∧ t.links = coldLinks ∧ t.pending = s.pending ∧ t.pins = s.pins
      (10 ≤ n → ∃ t, exec (.resetPin n) s = .next t ∧ held t ∧ t.draws = s.draws)
      ∧ (n < 2 → exec (.resetPin n) s = .next s)
      ∧ (2 ≤ n → n < 10 → ∃ t, exec (.resetPin n) s = .next t
          ∧ (held t ∧ t.draws = s.draws + 1 ∨ t = { s with draws := s.draws + 1 })))

/-- Settings change only by their own writes: outside a reset, the schedule only by WRITE_SCHEDULE, the clock only by
SET_CLOCK and its minutes, a line's function and invert flag only by WRITE_LINE, a portal's setup only by
WRITE_PORTAL_SETUP and its plans only by WRITE_PLAN, a bore's direction only by DIRECTION_SET and its stale timeout
only by WRITE_BORE_SETUP, a zone's setup only by WRITE_ZONE; and the meter
records only by gates, edges and the writes of their lines and setups. What a line holds of its pin stays too (R147):
the debounced value and count change only by FEEDBACK_SAMPLE, FEEDBACK_CHANGE and WRITE_LINE (R152), the edge detector
only by METER_EDGE and WRITE_LINE (R154), and the duty of the PWM period in progress only where a period begins, a line
is written, or a COMMISSION or an entry into OFFLINE starts or ends the serving of lines (R149, R151). -/
def Obligations.SettingsChangeOnlyByTheirWrites : Prop :=
  ∀ (c : Instr) (s t : State), exec c s = .next t → c ≠ .powerOn → c ≠ .resetPinRelease → (∀ n, c ≠ .resetPin n) →
    ((∀ l, c ≠ .writeSchedule l) → t.schedule = s.schedule)
    ∧ ((∀ l, c ≠ .setClock l) → c ≠ .minuteAdvance → t.clock = s.clock)
    ∧ ((∀ l, c ≠ .writeLine l) → ∀ i, (t.line i).fn = (s.line i).fn ∧ (t.line i).invert = (s.line i).invert)
    ∧ ((∀ l, c ≠ .writePortalSetup l) → ∀ p, (t.portal p).meter = (s.portal p).meter
        ∧ (t.portal p).partner = (s.portal p).partner ∧ (t.portal p).factor = (s.portal p).factor)
    ∧ ((∀ l, c ≠ .writePlan l) → ∀ p, (t.portal p).planA = (s.portal p).planA ∧ (t.portal p).planB = (s.portal p).planB)
    ∧ ((∀ l, c ≠ .directionSet l) → ∀ b, (t.bore b).mode = (s.bore b).mode)
    ∧ ((∀ l, c ≠ .writeBoreSetup l) → ∀ b, (t.bore b).staleTimeout = (s.bore b).staleTimeout)
    ∧ ((∀ l, c ≠ .writeZone l) → ∀ z, (t.zone z).order = (s.zone z).order ∧ (t.zone z).settle = (s.zone z).settle
        ∧ (t.zone z).hysteresis = (s.zone z).hysteresis ∧ (t.zone z).minDim = (s.zone z).minDim
        ∧ ∀ k, (t.circuit z k).map Circuit.setup = (s.circuit z k).map Circuit.setup)
    ∧ ((∀ m, c ≠ .gateExpiry m) → (∀ x, c ≠ .meterEdge x) → (∀ l, c ≠ .writeLine l) → (∀ l, c ≠ .writeMeterSetup l) →
        t.meters = s.meters)
    ∧ ((∀ pins, c ≠ .feedbackSample pins) → (∀ i, c ≠ .feedbackChange i) → (∀ l, c ≠ .writeLine l) →
        ∀ i, (t.line i).debounced = (s.line i).debounced ∧ (t.line i).count = (s.line i).count)
    ∧ ((∀ x, c ≠ .meterEdge x) → (∀ l, c ≠ .writeLine l) → ∀ i, (t.line i).edge = (s.line i).edge)
    ∧ (s.ConditionsFollow → s.PortalsFit → c ≠ .pwmPeriodStart → (∀ l, c ≠ .writeLine l) → (∀ l, c ≠ .commission l) →
        (∀ l, c ≠ .stopImmediate l) →
        (∀ p, c = .portalEvaluation p → (t.portal p).state = .offline → (s.portal p).state = .offline) →
        ∀ i, (t.line i).period = (s.line i).period)

/-! ### Framers, queues and transmitters -/

/-- The framer by its state (R162, R163): it hunts for C3h, discards a frame on a framing error or a length outside 4
to 132, collects up to the second check octet and restarts its gap timer at each octet, offers the request of a
complete frame to its queue (R164, R166), and takes nothing in BREAK. A frame whose last octets are not the check
of the others, or whose kind is response or notice, gives no request. -/
def Obligations.TheFramerTakesAnOctet : Prop :=
  (∀ (l : Link) (o : Octet) (e : Bool) (s : State), s.Settled →
      let x := s.link l
      let becomes (y : LinkRec) : Prop := exec (.rxOctet l o e) s = .next (s.setLink l y)
      (x.framer = .hunt → e = false → o = 0xC3 → becomes { x with framer := .collect [] (msAfter s.uptime 3) })
      ∧ (x.framer = .hunt → (e = true ∨ o ≠ 0xC3) → exec (.rxOctet l o e) s = .next s)
      ∧ (x.framer = .brk → exec (.rxOctet l o e) s = .next s)
      ∧ ∀ os gap, x.framer = .collect os gap →
          (e = true → becomes { x with framer := .hunt })
          ∧ (e = false → os = [] → (o.toNat < 4 ∨ 132 < o.toNat) → becomes { x with framer := .hunt })
          ∧ (e = false → os = [] → 4 ≤ o.toNat → o.toNat ≤ 132 →
              becomes { x with framer := .collect [o] (msAfter s.uptime 3) })
          ∧ (e = false → ∀ len rest, os = len :: rest →
              (os.length + 1 ≠ len.toNat + 3 → becomes { x with framer := .collect (os ++ [o]) (msAfter s.uptime 3) })
              ∧ (os.length + 1 = len.toNat + 3 →
                  becomes { x with
                    framer := .hunt
                    requests := match judgeFrame (os ++ [o]) with
                      | some r => joinQueue x.requests r
                      | none => x.requests })))
  ∧ ((∀ (inner check : List Octet), check.length = 2 → check ≠ checkOctets inner → judgeFrame (inner ++ check) = none)
    ∧ ∀ (len tag control code target : Octet) (body : List Octet),
        (control.getLsbD 0 = true ∨ control.getLsbD 1 = true) →
        judgeFrame ((len :: tag :: control :: code :: target :: body)
          ++ checkOctets (len :: tag :: control :: code :: target :: body)) = none)

/-- A request sent as a frame by R160 and R161 reaches the request queue of its link with every field as it was sent,
and no other record changes (R162, R164, R166). -/
def Obligations.ARequestFrameReachesTheQueue : Prop :=
  ∀ (l : Link) (r : Request) (s : State), s.Settled → (s.link l).framer = .hunt → r.body.length ≤ 128 →
    receiveAll l r.frame s
      = s.setLink l { s.link l with framer := .hunt, requests := joinQueue (s.link l).requests r }

/-- The table of R166: a full queue discards, an urgent request joins directly behind the last urgent one, any other
at the tail, and the queue keeps its bound and its order. -/
def Obligations.TheRequestQueueKeepsItsOrder : Prop :=
  ∀ (q : List Request) (r : Request),
    (8 ≤ q.length → joinQueue q r = q)
    ∧ (q.length < 8 → r.urgent = false → joinQueue q r = q ++ [r])
    ∧ (q.length < 8 → r.urgent = true → ∀ a b, q = a ++ b → (∀ x ∈ a, x.urgent = true) →
        (∀ x ∈ b, x.urgent = false) → joinQueue q r = a ++ r :: b)
    ∧ (q.length ≤ 8 → (joinQueue q r).length ≤ 8)
    ∧ (urgentFirst q = true → urgentFirst (joinQueue q r) = true)

/-- A gap timer's expiry discards the frame being collected (R163); a line that returns to mark and a transmission that
ends let the transmitter take the oldest response, else the oldest notice, else nothing (R165, R173). The frame it takes
ends when its octets have been sent, at 10 bit times an octet and 115 200 bits a second (R160; in whole milliseconds and
with no rest before it: the model's choice, log 6). The model's choices: an event the state does not admit has no effect
(log 5), an expiry carries its time (log 4), and a transmission ends when TRANSMISSION_END is taken, whatever end its
frame was given (log 25). A frame sent is C3h, the length, tag, control octet, code and target, the
body and the check; a response echoes its request and carries its dispositions and its data, a notice its kind, its
subject and the content of its kind, with the absent markers of R180 (R160, R170, R176; the target of COLD_START is a
free value, log 10). -/
def Obligations.TransmittersTakeResponsesFirst : Prop :=
  (∀ (l : Link) (s : State), s.Settled →
    let x := s.link l
    let sending (f : TxFrame) : Transmitter :=
      .sending f (s.uptime + BitVec.ofNat 32 ((10 * 1000 * f.octets.length + (115200 - 1)) / 115200))
    let takesNext (c : Instr) (f : Framer) : Prop :=
      ∃ y, exec c s = .next (s.setLink l y) ∧ y.framer = f ∧ y.requests = x.requests ∧ y.mask = x.mask
        ∧ (∀ r rest, x.responses = r :: rest →
            y.transmitter = sending (.response r) ∧ y.responses = rest ∧ y.notices = x.notices)
        ∧ (∀ n rest, x.responses = [] → x.notices = n :: rest →
            y.transmitter = sending (.notice n) ∧ y.responses = [] ∧ y.notices = rest)
        ∧ (x.responses = [] → x.notices = [] → y.transmitter = .idle ∧ y.responses = [] ∧ y.notices = [])
    (∀ os gap, x.framer = .collect os gap →
        exec (.gapTimerExpiry l) s = .next ((s.reach gap).setLink l { x with framer := .hunt }))
    ∧ ((∀ os gap, x.framer ≠ .collect os gap) → exec (.gapTimerExpiry l) s = .next s)
    ∧ (x.framer = .brk → takesNext (.lineReturnsToMark l) .hunt)
    ∧ (x.framer ≠ .brk → exec (.lineReturnsToMark l) s = .next s)
    ∧ ((∃ f ends, x.transmitter = .sending f ends) → takesNext (.transmissionEnd l) x.framer)
    ∧ ((∀ f ends, x.transmitter ≠ .sending f ends) → exec (.transmissionEnd l) s = .next s))
  ∧ (let octet (n : Nat) : Octet := BitVec.ofNat 8 n
    let word (n : Nat) : List Octet := [octet (n / 256), octet n]
    let sent (tag control code target : Octet) (body : List Octet) : List Octet :=
      let inner := octet (4 + body.length) :: tag :: control :: code :: target :: body
      0xC3 :: (inner ++ checkOctets inner)
    (∀ r : Response, (TxFrame.response r).octets
        = sent r.tag 1 r.code r.target (octet r.frame.code :: r.each.map (fun d => octet d.code) ++ r.data))
    ∧ (∀ p st role act, (TxFrame.notice (.portalState p st role act)).octets
        = sent 0 2 0x80 (octet p.val)
            [octet st.code, octet ((role.map Role.code).getD 0xFF), octet ((act.map ActionKind.code).getD 0xFF)])
    ∧ (∀ p src acc, (TxFrame.notice (.source p src acc)).octets
        = sent 0 2 0x81 (octet p.val) (octet ((src.map Source.code).getD 0xFF) :: word (acc.getD 0xFFFF)))
    ∧ (∀ m st f inv val flag, (TxFrame.notice (.meterState m st f inv val flag)).octets
        = sent 0 2 0x82 (octet m.val)
            (octet st.code :: word (f.getD 0xFFFF)
              ++ [octet inv, octet val, octet ((flag.map SampleFlag.code).getD 0xFF)]))
    ∧ (∀ z failed stuck, ∃ a b : Octet, (TxFrame.notice (.circuitFault z failed stuck)).octets
          = sent 0 2 0x83 (octet z.val) [a, b]
        ∧ ∀ k : Fin 8, (a.getLsbD k.val = true ↔ k ∈ failed) ∧ (b.getLsbD k.val = true ↔ k ∈ stuck))
    ∧ (∀ z flag ramped capacity, (TxFrame.notice (.shortfall z flag ramped capacity)).octets
        = sent 0 2 0x84 (octet z.val)
            (octet (if flag then 1 else 0) :: word ramped ++ octet (capacity / 65536) :: word capacity))
    ∧ (∀ b mode cls congested stale emergency,
        (TxFrame.notice (.trafficState b mode cls congested stale emergency)).octets
          = sent 0 2 0x85 (octet b.val) [octet mode.code, octet cls.val,
              (if congested then 1 else 0) ||| (if stale then 2 else 0) ||| (if emergency then 4 else 0)])
    ∧ (∀ p lum, (TxFrame.notice (.overrideEnded p (.level lum))).octets
        = sent 0 2 0x86 (octet p.val) (octet (OverrideKind.level lum).code :: word lum))
    ∧ (∀ p, (TxFrame.notice (.overrideEnded p .freeze)).octets
        = sent 0 2 0x86 (octet p.val) [octet OverrideKind.freeze.code, 0xFF, 0xFF])
    ∧ ∃ target, (TxFrame.notice .coldStart).octets = sent 0 2 0x87 target [])

/-- A link restart (R165): BREAK and SILENT, request queue and response list emptied, mask kept, the answers owed to the
link no longer owed, a notice being sent put back at the head of the queue unless a later one of its kind and subject
stands or its kind is masked (R175; COLD_START by log 22), and nothing else. -/
def Obligations.ALinkRestartEmptiesTheLink : Prop :=
  ∀ (l : Link) (s : State), s.Settled → (s.link l).framer ≠ .brk →
    ∃ t, exec (.linkRestart l) s = .next t
      ∧ (t.link l).framer = .brk ∧ (t.link l).transmitter = .silent ∧ (t.link l).requests = []
      ∧ (t.link l).responses = [] ∧ (t.link l).mask = (s.link l).mask
      ∧ ((∀ n ends, (s.link l).transmitter ≠ .sending (.notice n) ends) → (t.link l).notices = (s.link l).notices)
      ∧ (∀ n ends, (s.link l).transmitter = .sending (.notice n) ends →
          ((s.link l).notices.any (Notice.sameKey n) = true → (t.link l).notices = (s.link l).notices)
          ∧ ((s.link l).notices.any (Notice.sameKey n) = false → n.kind ≠ .coldStart → n.kind ∉ (s.link l).mask →
              (t.link l).notices = (s.link l).notices)
          ∧ ((s.link l).notices.any (Notice.sameKey n) = false → n.kind = .coldStart ∨ n.kind ∈ (s.link l).mask →
              (t.link l).notices = n :: (s.link l).notices))
      ∧ (∀ p, t.portal p = { s.portal p with
          action := (s.portal p).action.map fun a => { a with answerOwed := a.answerOwed && a.link != l } })
      ∧ (∀ k, k ≠ l → t.link k = s.link k)
      ∧ t = { s with links := t.links, portals := t.portals }

/-- A notice raised (R174, R175): a link whose mask does not include its kind is left as it was; in one whose mask does,
an entry of the same kind and subject keeps its place and takes the new content, and without one the notice joins at the
tail; a queue with one entry for each kind and subject stays so. -/
def Obligations.NoticesCoalesce : Prop :=
  ∀ (s : State) (n : Notice) (k : Link),
    (n.kind ∉ (s.link k).mask → (s.raise n).link k = s.link k)
    ∧ (n.kind ∈ (s.link k).mask → (∀ m ∈ (s.link k).notices, n.sameKey m = false) →
        (s.raise n).link k = { s.link k with notices := (s.link k).notices ++ [n] })
    ∧ (n.kind ∈ (s.link k).mask → ∀ a m b, (s.link k).notices = a ++ m :: b → n.sameKey m = true →
        distinctKeys (s.link k).notices = true →
        (s.raise n).link k = { s.link k with notices := a ++ n :: b })
    ∧ (distinctKeys (s.link k).notices = true → distinctKeys ((s.raise n).link k).notices = true)

/-! ### The request engine -/

/-- Steps 1 to 3 of R168: a code that names no request is answered UNKNOWN, a request outside the role of its link
NOT_PERMITTED, a body of a length the code does not allow BAD_LENGTH, each with the frame disposition alone and nothing
else changed. The readings of the target octet (R178, R168 step 4): a mask that selects nothing or has a bit above its units, and
a number past the last, are answered BAD_VALUE with the frame disposition alone and nothing else changed; such a mask is
judged before the values of the body, which is the model's choice (log 26). -/
def Obligations.TheEngineRefuses : Prop :=
  (∀ (s : State) (l : Link) (r : Request), s.Offers l r →
      (reqCodeOf r.code = none → exec (.unknownCode l) s = .next (s.answer l r .unknown [] []))
      ∧ ∀ c, reqCodeOf r.code = some c →
          let outside : Prop :=
            match l with
            | .o => c ∈ [ReqCode.speedReport, .directionSet, .emergencySet, .emergencyClear]
            | .t => c ∉ [ReqCode.speedReport, .directionSet, .readPortal, .readBore, .echo, .setNoticeMask]
            | .s => c ∉ [ReqCode.emergencySet, .emergencyClear, .readPortal, .readBore, .echo, .setNoticeMask]
          (outside → exec (takeCommand l r) s = .next (s.answer l r .notPermitted [] []))
          ∧ (¬ outside → lengthOk c r.body = false → exec (takeCommand l r) s = .next (s.answer l r .badLength [] [])))
  ∧ (∀ (s : State) (l : Link) (c : ReqCode) (r : Request), s.Takes l c r →
      (c ∈ [ReqCode.readPortal, .writePlan, .commission, .hold, .release, .stop, .overrideSet, .overrideClear,
            .dryRunStart, .dryRunInput, .dryRunStop] ∧ (r.target = 0 ∨ 16 ≤ r.target.toNat)
       ∨ c ∈ [ReqCode.readBore, .writeBoreSetup, .speedReport, .directionSet, .emergencySet, .emergencyClear]
          ∧ (r.target = 0 ∨ 4 ≤ r.target.toNat)
       ∨ c ∈ [ReqCode.readPlan, .writePortalSetup, .readMeter, .writeMeterSetup] ∧ 4 ≤ r.target.toNat
       ∨ c ∈ [ReqCode.readZone, .readCircuit, .writeZone, .lockoutModify, .burnReset] ∧ 14 ≤ r.target.toNat
       ∨ c ∈ [ReqCode.readLine, .writeLine] ∧ 192 ≤ r.target.toNat) →
      exec (takeCommand l r) s = .next (s.answer l r .badValue [] []))

/-- ECHO answers its body unchanged, and a SET_NOTICE_MASK replaces the mask of its own link and removes from its queue
the notices of the kinds dropped, COLD_START apart, the others in their order (R177, R181, R182). -/
def Obligations.LinkChecksActOnTheirOwnLink : Prop :=
  ∀ (s : State) (l : Link) (r : Request),
    (s.Takes l .echo r → exec (.echo l) s = .next (s.answer l r .done [] r.body))
    ∧ (s.Takes l .setNoticeMask r → ∀ o, r.body = [o] →
        ∃ mask : List NoticeKind,
          (∀ k, k ∈ mask ↔ k ≠ .coldStart ∧ o.getLsbD (k.code - 0x80) = true)
          ∧ exec (.setNoticeMask l) s = .next
              (((s.popRequest l).setLink l { (s.popRequest l).link l with
                mask := mask
                notices := (s.link l).notices.filter fun n => n.kind = .coldStart ∨ n.kind ∈ mask }).finish
                  l r .done []))

/-- The reads with a mask answer DONE for each selected unit and then one summary for each, of 30 octets for a portal
and 20 for a bore, and change nothing else (R183). The reads of one record answer its layout and change nothing else, the
schedule and the clock among them; a circuit slot above 7 and a plan slot other than A or B are refused BAD_VALUE (R14,
R25, R27, R32, R86, R102, R184 to R186). Each record is laid out field by field in the order of the layout tables of
chapter 10: the portal summary (R127), the bore summary (R145), the plan, the schedule, the zone setup with its slot
entries and the rest of the zone data (78 octets in all), the circuit entry (16), the meter data (14, and 7 for each ring
record, oldest first) and the clock, with the value codes of that chapter and FFh in every octet of an absent field (R180).
By log 15 the fields of an override or a pending action that is not there are FFh throughout, those of an empty slot 0. -/
def Obligations.ReadsAnswerTheirRecords : Prop :=
  (∀ (s : State) (l : Link) (r : Request),
      (s.Takes l .readPortal r → ∀ us, unitsOf 4 r.target = some us →
        exec (.readPortal l) s = .next (s.answer l r .done (us.map fun _ => .done) (us.flatMap (portalSummary s))))
      ∧ (s.Takes l .readBore r → ∀ us, unitsOf 2 r.target = some us →
        exec (.readBore l) s = .next (s.answer l r .done (us.map fun _ => .done) (us.flatMap (boreSummary s)))))
  ∧ (∀ (s : State) (l : Link) (r : Request),
      (s.Takes l .readZone r → ∀ z, finOf 14 r.target.toNat = some z →
        exec (.readZone l) s = .next (s.answer l r .done [] (zoneData (s.zone z))) ∧ (zoneData (s.zone z)).length = 78)
      ∧ (s.Takes l .readCircuit r → ∀ z o, finOf 14 r.target.toNat = some z → r.body = [o] →
          (8 ≤ o.toNat → exec (.readCircuit l) s = .next (s.answer l r .badValue [] []))
          ∧ ∀ k, finOf 8 o.toNat = some k →
              exec (.readCircuit l) s = .next (s.answer l r .done [] (circuitEntry s (s.circuit z k)))
              ∧ (circuitEntry s (s.circuit z k)).length = 16)
      ∧ (s.Takes l .readMeter r → ∀ m, finOf 4 r.target.toNat = some m →
          exec (.readMeter l) s = .next (s.answer l r .done [] (meterData (s.meter m)))
          ∧ (meterData (s.meter m)).length = 14 + 7 * (s.meter m).ring.length)
      ∧ (s.Takes l .readPlan r → ∀ p o, finOf 4 r.target.toNat = some p → r.body = [o] →
          (1 < o.toNat → exec (.readPlan l) s = .next (s.answer l r .badValue [] []))
          ∧ (o = 0 → exec (.readPlan l) s = .next (s.answer l r .done [] (planData .a (s.portal p).planA)))
          ∧ (o = 1 → exec (.readPlan l) s = .next (s.answer l r .done [] (planData .b (s.portal p).planB))))
      ∧ (s.Takes l .readSchedule r →
          exec (.readSchedule l) s = .next (s.answer l r .done [] (scheduleData s.schedule)))
      ∧ (s.Takes l .readClock r →
          exec (.readClock l) s = .next (s.answer l r .done [] (clockData s.clock s.uptime))))
  ∧ (let octet (n : Nat) : Octet := BitVec.ofNat 8 n
    let bit (b : Bool) : Octet := if b then 1 else 0
    let word (n : Nat) : List Octet := [octet (n / 256), octet n]
    let triple (n : Nat) : List Octet := octet (n / 65536) :: word n
    let quad (n : Nat) : List Octet := octet (n / 16777216) :: triple n
    let octet? (o : Option Nat) : Octet := octet (o.getD 0xFF)
    let word? (o : Option Nat) : List Octet := word (o.getD 0xFFFF)
    let quad? (o : Option Nat) : List Octet := quad (o.getD 0xFFFFFFFF)
    let left (s : State) (e : Uptime) : Nat := if reached s.uptime e then 0 else (e - s.uptime).toNat
    let mask (ks : List (Fin 8)) (o : Octet) : Prop := ∀ k : Fin 8, o.getLsbD k.val = true ↔ k ∈ ks
    (∀ s p, (portalSummary s p).length = 30 ∧
      let x := s.portal p
      portalSummary s p =
        [octet x.state.code, octet? (x.meter.map Fin.val), octet? (x.partner.map Fin.val)] ++ word x.factor
        ++ [octet? (x.source.map Source.code)] ++ word? x.access ++ [octet? (x.planInUse.map PlanSlot.code), bit x.night]
        ++ word x.lowCount ++ [octet? (x.role.map Role.code)]
        ++ (match x.override with
          | none => List.replicate 8 0xFF
          | some v =>
            [octet v.kind.code] ++ word (match v.kind with | .level lum => lum | .freeze => 0xFFFF)
            ++ [octet v.duration] ++ quad? (v.expiry.map (left s)))
        ++ (match x.action with
          | none => List.replicate 3 0xFF
          | some a => [octet a.kind.code, octet (Link.code a.link), a.tag])
        ++ (match x.dryRun with
          | none => List.replicate 4 0xFF
          | some d => word d.access ++ [octet? (d.speedClass.map Fin.val), octet? (d.plan.map PlanSlot.code)])
        ++ word? (x.timer.map (left s)))
    ∧ (∀ s b, (boreSummary s b).length = 20 ∧
      let x := s.bore b
      boreSummary s b =
        [octet x.mode.code] ++ (portalsOf b).map (fun p => octet (roleOf x.mode p).code)
        ++ [octet x.speedClass.val,
            (if x.congested then 1 else 0) ||| (if x.stale then 2 else 0) ||| (if x.emergency then 4 else 0)
              ||| (if x.interiorNight then 8 else 0)]
        ++ word x.staleTimeout ++ quad? (x.staleTimer.map (left s)) ++ word x.demand ++ word x.base
        ++ [octet? (x.supplier.map fun q => q.1.val), octet? (x.supplier.map fun q => q.2.code), octet x.condition.code]
        ++ word (left s x.timer))
    ∧ (∀ z : Zone, ∃ previewed : Octet, mask (z.preview.elim [] Preview.slots) previewed ∧ zoneData z =
          [octet z.order.code, octet z.rotation.val] ++ word z.settle ++ word z.hysteresis ++ word z.minDim
          ++ ((List.finRange 8).map z.slots.get).flatMap (fun o => match o with
            | none => List.replicate 5 0
            | some c =>
              [octet c.kind.code] ++ word c.rating ++ [octet c.output.val, octet? (c.feedback.map Fin.val)])
          ++ word z.demand ++ word z.ramped ++ triple z.cd ++ triple z.son ++ triple z.capacity ++ word? z.dim
          ++ [bit z.shortfall] ++ word? (z.preview.map Preview.demand) ++ [previewed]
          ++ word? (z.preview.bind Preview.dim) ++ [bit (z.preview.any Preview.shortfall)]
          ++ (List.finRange 8).map (fun k => octet? ((z.slots.get k).map fun c => c.state.code)))
    ∧ (∀ s, circuitEntry s none = List.replicate 16 0)
    ∧ (∀ s c, circuitEntry s (some c) =
        [octet c.kind.code] ++ word c.rating ++ [octet c.output.val, octet? (c.feedback.map Fin.val), octet c.state.code]
        ++ word (match c.kind with | .switched => 0xFFFF | .dimmed => c.level)
        ++ (match c.timer with
          | none => [0x00, 0xFF, 0xFF]
          | some w => [octet w.kind.code] ++ word (left s w.expiry))
        ++ quad c.burn
        ++ [bit (c.feedback.any fun i => (s.line i).fn == .feedbackIn && (s.line i).debounced == some true)])
    ∧ (∀ m, meterData m =
        [octet? (m.line.map Fin.val)] ++ word m.gate ++ word m.span
        ++ [octet m.weight, octet m.status.code, octet m.invalidCount, octet m.validCount]
        ++ word? m.filtered ++ word m.gateCount ++ [octet m.ring.length]
        ++ m.ring.flatMap fun x => quad x.stamp.toNat ++ word x.count ++ [octet x.flag.code])
    ∧ (∀ slot, planData slot none = [octet slot.code])
    ∧ (∀ slot x, planData slot (some x) =
        [octet slot.code, octet x.curve.length] ++ x.curve.flatMap (fun q => word q.access ++ word q.threshold)
        ++ ((List.finRange 5).map x.factors.get).flatMap word ++ word x.r1 ++ word x.r2
        ++ word x.interiorDay ++ word x.interiorNight ++ word x.nightThreshold ++ word x.dayThreshold
        ++ [octet x.nightHold] ++ word x.riseStep ++ word x.fallStep)
    ∧ (∀ ws, scheduleData ws =
        [octet ws.length] ++ ws.flatMap fun w => triple (w.start * 4096 + w.width) ++ word w.access)
    ∧ (∀ now, clockData none now = [0x00, 0xFF, 0xFF, 0xFF, 0xFF] ++ quad now.toNat)
    ∧ (∀ k now, clockData (some k) now = [0x01] ++ word k.minute ++ word k.day ++ quad now.toNat)
    ∧ [PortalState.offline, .held, .dryRun, .auto, .emergency].map PortalState.code = [0, 1, 2, 3, 4]
    ∧ [Source.own, .partner, .schedule, .blind].map Source.code = [0, 1, 2, 3]
    ∧ [Role.entry, .exit].map Role.code = [0, 1] ∧ [PlanSlot.a, .b].map PlanSlot.code = [0, 1]
    ∧ (∀ lum, (OverrideKind.level lum).code = 0) ∧ OverrideKind.freeze.code = 1
    ∧ [ActionKind.hold, .release, .stopOrderly].map ActionKind.code = [0, 1, 2]
    ∧ [Link.o, Link.t, Link.s].map Link.code = [0, 1, 2]
    ∧ [DirectionMode.forward, .reverse, .bidirectional, .closed].map DirectionMode.code = [0, 1, 2, 3]
    ∧ [Condition.released, .held, .driven].map Condition.code = [0, 1, 2]
    ∧ [MeterStatus.unconfigured, .starting, .valid, .faulty].map MeterStatus.code = [0, 1, 2, 3]
    ∧ [SampleFlag.invalidLow, .underZero, .valid, .over, .invalidHigh].map SampleFlag.code = [0, 1, 2, 3, 4]
    ∧ [CircuitKind.switched, .dimmed].map CircuitKind.code = [1, 2]
    ∧ [CircuitState.off, .switchingOn, .on, .switchingOff, .failedDark, .stuckOn, .lockedOut].map CircuitState.code
        = [0, 1, 2, 3, 4, 5, 6]
    ∧ [TimerKind.settle, .loss].map TimerKind.code = [1, 2]
    ∧ [OrderMode.sequential, .interleaved].map OrderMode.code = [0, 1])

/-- READ_LINE answers an entry for each line of a run of 1 to 32 lines (R157): the level of a FLOATING pin is the
wiring's, that of a driven SWITCH_OUT line its output value's, that of a DIM_OUT line at duty 0 or 1000 that of the
duty, each with the invert flag; a DIM_OUT pin in mid-pulse may read either level and draws a free value (log 8). Any
other run is refused BAD_VALUE. -/
def Obligations.ReadLineReadsThePins : Prop :=
  ∀ (s : State) (l : Link) (r : Request) (o : Octet), s.Takes l .readLine r → r.body = [o] →
    let first := r.target.toNat
    let count := o.toNat
    let run := (List.finRange 192).filter fun i => decide (first ≤ i.val ∧ i.val < first + count)
    ((count = 0 ∨ 32 < count ∨ 192 < first + count) →
      exec (.readLine l) s = .next (s.answer l r .badValue [] []))
    ∧ (1 ≤ count → count ≤ 32 → first + count ≤ 192 →
        ∃ high : Fin 192 → Bool,
          exec (.readLine l) s = .next (({ s with draws := s.draws + (run.filter fun i => (s.line i).pulses).length } :
            State).answer l r .done [] (run.flatMap fun i => lineEntry (s.line i) (high i)))
          ∧ ∀ i ∈ run,
              ((s.line i).drive = .floating → high i = s.pins.getLsbD i.val)
              ∧ ((s.line i).drive = .driven → (s.line i).fn = .switchOut → ∀ a, (s.line i).output = .level a →
                  high i = xor a (s.line i).invert)
              ∧ ((s.line i).drive = .driven → (s.line i).fn = .dimOut → ∀ d, (s.line i).output = .duty d →
                  ((s.line i).period = some 0 → high i = (s.line i).invert)
                  ∧ ((s.line i).period = some 1000 → high i = !(s.line i).invert)))

/-- What a read returns in the layout of a write can be written back: the body of a valid plan, of a stored schedule and
of a legal zone's setup is read by the write as the same plan, schedule and setup (R25, R32, R184, R186). -/
def Obligations.WhatIsReadCanBeWrittenBack : Prop :=
  (∀ (slot : PlanSlot) (p : Plan), p.valid = true → planWriteOf (planData slot (some p)) = some (slot, some p))
  ∧ (∀ s : State, s.ScheduleFit → scheduleOf (scheduleData s.schedule) = some s.schedule)
  ∧ ∀ z : Zone, z.legal = true →
      zoneSetupOf (zoneSetup z)
        = some { order := z.order, rotation := z.rotation, settle := z.settle, hysteresis := z.hysteresis,
                 minDim := z.minDim, slots := z.slots.mapWith fun _ o => o.map Circuit.setup }

/-! ### Configuration writes -/

/-- WRITE_LINE (R155, R156): refused BAD_VALUE where the run or a value has no meaning, WRONG_STATE where a line of the
run is in service; else every line of the run not already so set takes the function and invert flag, FLOATING and with
no output, for FEEDBACK_IN absent with count 0 and for METER_IN with edge detection that begins (R152, R154; log 18); a meter whose line came into METER_IN is STARTING, one whose line
left it UNCONFIGURED, with its METER_STATE notice; nothing else changes. -/
def Obligations.WriteLineSetsARun : Prop :=
  ∀ (s : State) (l : Link) (r : Request), s.Takes l .writeLine r → s.MetersFit →
    (lineSetting r = none → exec (.writeLine l) s = .next (s.answer l r .badValue [] []))
    ∧ ∀ run fn invert, lineSetting r = some (run, fn, invert) →
        (run.any s.lineInService = true → exec (.writeLine l) s = .next (s.answer l r .wrongState [] []))
        ∧ (run.any s.lineInService = false →
            ∃ u : State, exec (.writeLine l) s = .next (u.finish l r .done [])
              ∧ u = { s with lines := u.lines, meters := u.meters, links := u.links }
              ∧ (s.popRequest l).onlyNotices u
              ∧ (∀ i, u.line i =
                  if i ∈ run ∧ ¬ ((s.line i).fn = fn ∧ (s.line i).invert = invert) then
                    { fn := fn, invert := invert, drive := .floating, output := .none
                      debounced := if fn = .feedbackIn then some false else none
                      count := if fn = .feedbackIn then some 0 else none
                      edge := if fn = .meterIn then some { seen := true, run := 0 } else none, period := none }
                  else s.line i)
              ∧ (∀ m i, (s.meter m).line = some i →
                  (i ∈ run → (s.line i).fn = .meterIn → fn ≠ .meterIn →
                    u.meter m = (s.meter m).unconfigured
                    ∧ u.Waiting (.meterState m .unconfigured none 0 0 none))
                  ∧ (i ∈ run → (s.line i).fn ≠ .meterIn → fn = .meterIn →
                    u.meter m = (s.meter m).started s.uptime ∧ u.Waiting (.meterState m .starting none 0 0 none))
                  ∧ ((i ∉ run ∨ ((s.line i).fn = .meterIn ↔ fn = .meterIn)) → u.meter m = s.meter m))
              ∧ ∀ m, (s.meter m).line = none → u.meter m = s.meter m)

/-- WRITE_METER_SETUP (R13): the checks in their order, and a setup that passes is written whole and restarts the meter,
STARTING with a new gate where its line is a METER_IN line and UNCONFIGURED where not, ring, F and counts gone, with
its METER_STATE notice; nothing else changes. -/
def Obligations.WriteMeterSetupRestartsTheMeter : Prop :=
  ∀ (s : State) (l : Link) (r : Request) (m : Fin 4), s.Takes l .writeMeterSetup r →
    finOf 4 r.target.toNat = some m →
    (meterSetupOf r.body = none → exec (.writeMeterSetup l) s = .next (s.answer l r .badValue [] []))
    ∧ ∀ u, meterSetupOf r.body = some u →
        ((∃ k, k ≠ m ∧ u.line.isSome = true ∧ (s.meter k).line = u.line) →
          exec (.writeMeterSetup l) s = .next (s.answer l r .badValue [] []))
        ∧ ((∀ k, k ≠ m → u.line.isSome = true → (s.meter k).line ≠ u.line) →
            ((∃ p, (s.portal p).state ≠ .offline ∧ (s.portal p).meter = some m) → u.line ≠ (s.meter m).line →
              exec (.writeMeterSetup l) s = .next (s.answer l r .wrongState [] []))
            ∧ ((∀ p, (s.portal p).state ≠ .offline → (s.portal p).meter = some m → u.line = (s.meter m).line) →
                let configured := u.line.any fun i => (s.line i).fn == .meterIn
                let status : MeterStatus := if configured then .starting else .unconfigured
                exec (.writeMeterSetup l) s = .next
                  ((((s.popRequest l).setMeter m
                    { line := u.line, gate := u.gate, span := u.span, weight := u.weight, status := status
                      invalidCount := 0, validCount := 0, filtered := none, gateCount := 0, ring := []
                      gateEnd := if configured then some (msAfter s.uptime u.gate) else none }).raise
                    (.meterState m status none 0 0 none)).finish l r .done [])))

/-- WRITE_PORTAL_SETUP (R15): refused WRONG_STATE in service whatever it carries, BAD_VALUE in OFFLINE for a value out of
range, else meter, partner and factor are written and nothing else. -/
def Obligations.WritePortalSetupIsForOfflinePortals : Prop :=
  ∀ (s : State) (l : Link) (r : Request) (p : Fin 4) (m q f1 f0 : Octet), s.Takes l .writePortalSetup r →
    finOf 4 r.target.toNat = some p → r.body = [m, q, f1, f0] →
    let factor := f1.toNat * 256 + f0.toNat
    let bad := (4 ≤ m.toNat ∧ m ≠ 0xFF) ∨ (4 ≤ q.toNat ∧ q ≠ 0xFF) ∨ factor < 250 ∨ 4000 < factor
    ((s.portal p).state ≠ .offline → exec (.writePortalSetup l) s = .next (s.answer l r .wrongState [] []))
    ∧ ((s.portal p).state = .offline → bad →
        exec (.writePortalSetup l) s = .next (s.answer l r .badValue [] []))
    ∧ ((s.portal p).state = .offline → ¬ bad →
        exec (.writePortalSetup l) s = .next
          (((s.popRequest l).setPortal p { s.portal p with
            meter := finOf 4 m.toNat, partner := finOf 4 q.toNat, factor := factor }).finish l r .done []))

/-- WRITE_ZONE (R64, R65, R97): refused BAD_VALUE for a value out of range, then WRONG_STATE in service; else the setup is
written, each slot keeps its circuit where the four fields agree and else takes a new one in OFF or none, the working
fields of the zone stay, and a change of the failed or stuck set raises CIRCUIT_FAULT. -/
def Obligations.WriteZoneReplacesTheSetup : Prop :=
  ∀ (s : State) (l : Link) (r : Request) (z : Fin 14), s.Takes l .writeZone r → finOf 14 r.target.toNat = some z →
    let writable : Prop :=
      match ownerOf z with
      | .portal p => (s.portal p).state = .offline
      | .bore b => ∀ p ∈ portalsOf b, (s.portal p).state = .offline
    (zoneSetupOf r.body = none → exec (.writeZone l) s = .next (s.answer l r .badValue [] []))
    ∧ ∀ u, zoneSetupOf r.body = some u →
        (¬ writable → exec (.writeZone l) s = .next (s.answer l r .wrongState [] []))
        ∧ (writable → ∃ x : Zone,
            (∀ k, x.slots.get k =
              match u.slots.get k, (s.zone z).slots.get k with
              | none, _ => none
              | some c, none => some c.create
              | some c, some held => if held.setup = c then some held else some c.create)
            ∧ x = { s.zone z with slots := x.slots, order := u.order, rotation := u.rotation, settle := u.settle,
                                  hysteresis := u.hysteresis, minDim := u.minDim }
            ∧ exec (.writeZone l) s = .next
                ((if x.failedSet = (s.zone z).failedSet ∧ x.stuckSet = (s.zone z).stuckSet then
                    (s.popRequest l).setZone z x
                  else ((s.popRequest l).setZone z x).raise (.circuitFault z x.failedSet x.stuckSet)).finish
                    l r .done []))

/-- WRITE_PLAN (R29 to R31): a slot other than A or B, a plan that fails R29, or slot A with no plan is refused BAD_VALUE
for every selected portal; else each selected portal in OFFLINE, HELD or DRY_RUN has the slot replaced, or slot B
emptied, and answers DONE, and each in AUTO or EMERGENCY stays and answers WRONG_STATE. -/
def Obligations.WritePlanReplacesASlot : Prop :=
  ∀ (s : State) (l : Link) (r : Request) (us : List (Fin 4)), s.Takes l .writePlan r → unitsOf 4 r.target = some us →
    let o := r.body.getD 0 0
    let alone := r.body.length = 1
    let may (p : Fin 4) : Bool := (s.portal p).state != .auto && (s.portal p).state != .emergency
    let writes (slot : PlanSlot) (plan : Option Plan) : Prop :=
      ∃ u : State, exec (.writePlan l) s = .next (u.report l r (us.map fun p => if may p then .done else .wrongState))
        ∧ u = { s.popRequest l with portals := u.portals }
        ∧ ∀ p, u.portal p =
            if p ∈ us ∧ may p = true then
              (match slot with
               | .a => { s.portal p with planA := plan }
               | .b => { s.portal p with planB := plan })
            else s.portal p
    (1 < o.toNat ∨ (alone ∧ o = 0) ∨ (¬ alone ∧ (planOf r.body).valid = false) →
      exec (.writePlan l) s = .next (s.answer l r .badValue (us.map fun _ => .badValue) []))
    ∧ (alone → o = 1 → writes .b none)
    ∧ (¬ alone → (planOf r.body).valid = true → (o = 0 → writes .a (some (planOf r.body)))
        ∧ (o = 1 → writes .b (some (planOf r.body))))

/-- WRITE_SCHEDULE and SET_CLOCK (R25, R27): a list that passes replaces the stored one, sorted, in any other case the
request is refused BAD_VALUE and the stored one stands; a minute of at most 1439 sets the clock with its next advance
60 000 ms after the set, a larger one is refused BAD_VALUE; every day is set, FFFFh as day 65 535 (the model's reading of
R180, log 24). WRITE_BORE_SETUP (R130, R135): a timeout outside 10 to 600 s is refused BAD_VALUE for every selected bore; else every
selected bore stores it and a running stale timer keeps its expiry. -/
def Obligations.ScheduleClockAndTimeoutAreSet : Prop :=
  (∀ (s : State) (l : Link) (r : Request),
      (s.Takes l .writeSchedule r →
        (scheduleOf r.body = none → exec (.writeSchedule l) s = .next (s.answer l r .badValue [] []))
        ∧ ∀ ws, scheduleOf r.body = some ws →
            exec (.writeSchedule l) s = .next (({ s.popRequest l with schedule := ws } : State).finish l r .done [])
            ∧ List.Perm ws (windowsOf (r.body.getD 0 0).toNat (r.body.drop 1))
            ∧ ws.length ≤ 24 ∧ ws.all Window.inRange = true ∧ noOverlap ws = true ∧ noWrapOverlap ws = true)
      ∧ (s.Takes l .setClock r → ∀ m1 m0 d1 d0, r.body = [m1, m0, d1, d0] →
          let minute := m1.toNat * 256 + m0.toNat
          let day := d1.toNat * 256 + d0.toNat
          (1439 < minute → exec (.setClock l) s = .next (s.answer l r .badValue [] []))
          ∧ (minute ≤ 1439 → exec (.setClock l) s = .next
              (({ s.popRequest l with clock := some ⟨minute, day, msAfter s.uptime 60000⟩ } : State).finish
                l r .done []))))
  ∧ (∀ (s : State) (l : Link) (r : Request) (us : List (Fin 2)) (t1 t0 : Octet), s.Takes l .writeBoreSetup r →
      unitsOf 2 r.target = some us → r.body = [t1, t0] →
      let timeout := t1.toNat * 256 + t0.toNat
      ((timeout < 10 ∨ 600 < timeout) →
        exec (.writeBoreSetup l) s = .next (s.answer l r .badValue (us.map fun _ => .badValue) []))
      ∧ (10 ≤ timeout → timeout ≤ 600 →
          ∃ u : State, exec (.writeBoreSetup l) s = .next (u.finish l r .done (us.map fun _ => .done))
            ∧ u = { s.popRequest l with bores := u.bores }
            ∧ ∀ b, u.bore b = if b ∈ us then { s.bore b with staleTimeout := timeout } else s.bore b))

/-! ### Portal control -/

/-- The commissioning checks (R198 to R201): each item is listed exactly where its check fails, once, in the order of the
items; line items are found among the circuits of the portal's zones and of an interior zone still RELEASED, 03h and 04h in
the order of the zones and their slots and 05h in ascending line order, for a line with two candidate namings or with one
and one in use. -/
def Obligations.TheCommissioningChecks : Prop :=
  ∀ (s : State) (p : Fin 4),
    let zones := zonesOf p ++ if (s.bore (boreOf p)).condition = .released then [interiorOf (boreOf p)] else []
    let found : List Circuit := zones.flatMap fun z => (List.finRange 8).filterMap fun k => s.circuit z k
    let needed (c : Circuit) : LineFn := match c.kind with | .switched => .switchOut | .dimmed => .dimOut
    let wrongOutputs : List Nat := found.filterMap fun c =>
      if (s.line c.output).fn = needed c then none else some c.output.val
    let wrongFeedbacks : List Nat := found.filterMap fun c =>
      c.feedback.bind fun i => if (s.line i).fn = .feedbackIn then none else some i.val
    let candidates (i : Fin 192) : Nat :=
      (found.map fun c => (if c.output = i then 1 else 0) + if c.feedback = some i then 1 else 0).sum
        + if (s.portal p).meter.bind (fun m => (s.meter m).line) = some i then 1 else 0
    let inUse (i : Fin 192) : Prop :=
      (∃ z k c, s.supervised z = true ∧ s.circuit z k = some c ∧ (c.output = i ∨ c.feedback = some i))
      ∨ ∃ m q, (s.portal q).state ≠ .offline ∧ (s.portal q).meter = some m ∧ (s.portal p).meter ≠ some m
          ∧ (s.meter m).line = some i
    (∀ a, ⟨1, a⟩ ∈ s.failures p ↔ a = 0 ∧ (s.portal p).planA = none)
    ∧ (∀ a, ⟨2, a⟩ ∈ s.failures p ↔ a = 3 * p.val ∧ ∀ k, s.circuit (zoneOf p 0) k = none)
    ∧ (∀ a, ⟨3, a⟩ ∈ s.failures p ↔ a ∈ wrongOutputs)
    ∧ (∀ a, ⟨4, a⟩ ∈ s.failures p ↔ a ∈ wrongFeedbacks)
    ∧ (∀ a, ⟨5, a⟩ ∈ s.failures p ↔
        ∃ i : Fin 192, i.val = a ∧ (2 ≤ candidates i ∨ 1 ≤ candidates i ∧ inUse i))
    ∧ (∀ a, ⟨6, a⟩ ∈ s.failures p ↔ ∃ m : Fin 4, m.val = a ∧ (s.portal p).meter = some m ∧ s.meterConfigured m = false)
    ∧ (∀ a, ⟨7, a⟩ ∈ s.failures p ↔ a = p.val ∧ (s.portal p).partner = some p)
    ∧ (∀ x ∈ s.failures p, 1 ≤ x.code ∧ x.code ≤ 7)
    ∧ (s.failures p).Nodup
    ∧ (s.failures p).Pairwise fun x y => x.code ≤ y.code
        ∧ (x.code = 3 → y.code = 3 → wrongOutputs.idxOf x.argument < wrongOutputs.idxOf y.argument)
        ∧ (x.code = 4 → y.code = 4 → wrongFeedbacks.idxOf x.argument < wrongFeedbacks.idxOf y.argument)
        ∧ (x.code = 5 → y.code = 5 → x.argument < y.argument)

/-- COMMISSION of the selected portals in ascending order (R108, R115, R140, R191): WRONG_STATE in service; INCOMPLETE with
the portal's first 14 failure items where a check fails, and no change; else DONE, and the portal is HELD with its
timer started, its zones and a RELEASED interior zone supervised, a loss timer started for each DIMMED circuit in OFF
whose fault input is present, and their output lines driven from their commands. -/
def Obligations.CommissionTakesPortalsToHeld : Prop :=
  ∀ (s : State) (l : Link) (r : Request) (us : List (Fin 4)), s.Takes l .commission r → unitsOf 4 r.target = some us →
    let entersHeld (p : Fin 4) (s t : State) : Prop :=
      let zones := zonesOf p ++ if (s.bore (boreOf p)).condition = .released then [interiorOf (boreOf p)] else []
      t = { s with lines := t.lines, portals := t.portals, bores := t.bores, zones := t.zones, links := t.links }
      ∧ s.onlyNotices t ∧ t.Waiting (.portalState p .held (s.portal p).role ((s.portal p).action.map PendingAction.kind))
      ∧ (∀ q, t.portal q =
          if q = p then { s.portal p with state := .held, timer := some (msAfter s.uptime 1000) } else s.portal q)
      ∧ (s.ConditionsFollow →
          t.ConditionsFollow
          ∧ (∀ b, { t.bore b with condition := .released } = { s.bore b with condition := .released })
          ∧ (∀ z, t.zone z = { s.zone z with slots := (t.zone z).slots })
          ∧ (∀ z k, t.circuit z k = if z ∈ zones then (s.circuit z k).map (fun c =>
                if c.kind = .dimmed ∧ c.state = .off ∧ s.feedbackPresent c = true then
                  { c with timer := some ⟨.loss, msAfter s.uptime (s.zone z).settle⟩ }
                else c)
              else s.circuit z k)
          ∧ (∀ z ∈ zones, ∀ k c, s.circuit z k = some c → t.line c.output =
              { s.line c.output with
                drive := .driven
                output := match c.kind with | .switched => .level c.active | .dimmed => .duty c.level
                period := match c.kind with | .switched => none | .dimmed => some 0 })
          ∧ ∀ i, (∀ z ∈ zones, ∀ k c, s.circuit z k = some c → c.output ≠ i) → t.line i = s.line i)
    ∃ as u,
      Visited (fun p s (a : Disposition × List Octet) t =>
        ((s.portal p).state ≠ .offline → a = (.wrongState, []) ∧ t = s)
        ∧ ((s.portal p).state = .offline → s.failures p ≠ [] → a = (.incomplete, failureList p (s.failures p)) ∧ t = s)
        ∧ ((s.portal p).state = .offline → s.failures p = [] → a = (.done, []) ∧ entersHeld p s t))
        us (s.popRequest l) as u
      ∧ exec (.commission l) s = .next
          (let each := as.map Prod.fst
           let data := as.flatMap Prod.snd
           (if r.ackWanted || !(frameDisposition each).tookEffect then
              u.place l (r.reply (frameDisposition each) each data)
            else u).arbitrate)

/-- HOLD, RELEASE and STOP ORDERLY by the table of R108 (R109, R125, R192): a portal that defers makes its pending-action
record and answers nothing yet, one that holds a record already answers BUSY, and the others answer at once and stay;
the response names the portals that answered at once, and there is none where every one deferred. A STOP whose body is neither orderly nor immediate is refused BAD_VALUE for every selected portal (R192; log 13). -/
def Obligations.DeferredRequestsMakeRecords : Prop :=
  (∀ (s : State) (l : Link) (r : Request) (us : List (Fin 4)) (kind : ActionKind) (c : Instr),
      (kind = .hold ∧ c = .hold l ∧ s.Takes l .hold r ∨ kind = .release ∧ c = .release l ∧ s.Takes l .release r
        ∨ kind = .stopOrderly ∧ c = .stopOrderly l ∧ s.Takes l .stop r ∧ r.body = [0]) →
      unitsOf 4 r.target = some us →
      let cell (st : PortalState) : Option Disposition × Bool :=
        if st = .emergency then (some .isProtected, false)
        else if (kind, st) ∈ [(ActionKind.hold, PortalState.auto), (.release, .held), (.stopOrderly, .held),
            (.stopOrderly, .dryRun), (.stopOrderly, .auto)] then (none, true)
        else if (kind, st) ∈ [(ActionKind.hold, PortalState.held), (.release, .auto), (.stopOrderly, .offline)] then
          (some .done, true)
        else (some .wrongState, false)
      let busy (p : Fin 4) : Prop := (cell (s.portal p).state).2 = true ∧ (s.portal p).action.isSome = true
      ∃ (answer : Fin 4 → Option Disposition) (u : State),
        (∀ p, busy p → answer p = some .busy) ∧ (∀ p, ¬ busy p → answer p = (cell (s.portal p).state).1)
        ∧ u = { s.popRequest l with portals := u.portals }
        ∧ (∀ p, u.portal p =
            if p ∈ us ∧ answer p = none then
              { s.portal p with
                action := some { kind := kind, link := l, tag := r.tag, ackWanted := r.ackWanted, answerOwed := true } }
            else s.portal p)
        ∧ exec c s = .next
            (let answered := us.filter fun p => (answer p).isSome
             if answered = [] then u.arbitrate
             else u.report l { r with target := BitVec.ofNat 8 (maskOf answered) } (us.filterMap answer)))
  ∧ (∀ (s : State) (l : Link) (r : Request) (us : List (Fin 4)), s.Takes l .stop r → r.body ≠ [0] → r.body ≠ [1] →
      unitsOf 4 r.target = some us →
      exec (.stopOrderly l) s = .next (s.answer l r .badValue (us.map fun _ => .badValue) []))

/-- STOP IMMEDIATE of the selected portals in ascending order (R99, R108, R113, R114): DONE with no change in OFFLINE,
PROTECTED in EMERGENCY; else DONE, a pending action answered ABANDONED where its answer is owed, the portal's working
fields absent or clear, its zones released and their output lines floating, the followers of an OWN source pulled off,
and the interior condition worked afresh, with the interior zone released where it falls to RELEASED; PORTAL_STATE, SOURCE
and SHORTFALL notices are raised (R20, R21, R78, R85; the R of a cleared zone's notice is the model's choice, log 23), and
no other portal, zone or line changes. -/
def Obligations.StopImmediateTakesPortalsOffline : Prop :=
  ∀ (s : State) (l : Link) (r : Request) (us : List (Fin 4)), s.Takes l .stop r → r.body = [1] →
    unitsOf 4 r.target = some us →
    let entersOffline (p : Fin 4) (s t : State) : Prop :=
      t = { s with lines := t.lines, portals := t.portals, bores := t.bores, zones := t.zones, links := t.links }
      ∧ t.Waiting (.portalState p .offline none none)
      ∧ (∀ k, t.link k = { s.link k with
          notices := (t.link k).notices
          responses := (s.link k).responses ++
            (match (s.portal p).action with
             | none => []
             | some a =>
               if a.link = k ∧ a.answerOwed = true ∧ (s.link k).responses.length < 8 then
                 [{ tag := a.tag, code := a.kind.request.octet, target := BitVec.ofNat 8 (2 ^ p.val),
                    frame := .abandoned, each := [.abandoned], data := [] }]
               else []) })
      ∧ t.portal p = { s.portal p with
          state := .offline, timer := none, source := none, access := none, planInUse := none, role := none,
          night := false, lowCount := 0, override := none, action := none, dryRun := none }
      ∧ ((s.portal p).source.isSome = true → t.Waiting (.source p none none))
      ∧ s.PullsOff t p ((s.portal p).source = some .own)
      ∧ s.ShortfallsRaised t
      ∧ (∀ z ∈ zonesOf p, (s.zone z).releasedFrom (t.zone z))
      ∧ (∀ q, q ≠ p → ∀ z ∈ zonesOf q, t.zone z = s.zone z)
      ∧ (s.ConditionsFollow →
          t.ConditionsFollow
          ∧ (∀ b, { t.bore b with condition := .released } = { s.bore b with condition := .released })
          ∧ (∀ b, ((s.bore b).condition ≠ .released → (t.bore b).condition = .released →
                (s.zone (interiorOf b)).releasedFrom (t.zone (interiorOf b)))
              ∧ ((s.bore b).condition = .released ∨ (t.bore b).condition ≠ .released →
                t.zone (interiorOf b) = s.zone (interiorOf b)))
          ∧ ∀ i,
              let released (z : Fin 14) : Prop := z ∈ zonesOf p
                ∨ ∃ b, z = interiorOf b ∧ (s.bore b).condition ≠ .released ∧ (t.bore b).condition = .released
              let served : Prop := ∃ z k c, released z ∧ s.circuit z k = some c ∧ c.output = i
                ∧ ((s.line i).fn = .switchOut ∨ (s.line i).fn = .dimOut)
              (served → t.line i = { s.line i with drive := .floating, output := .none, period := none })
              ∧ (¬ served → t.line i = s.line i))
    ∃ ds u,
      Visited (fun p s d t =>
        ((s.portal p).state = .offline → d = .done ∧ t = s)
        ∧ ((s.portal p).state = .emergency → d = .isProtected ∧ t = s)
        ∧ ((s.portal p).state ≠ .offline → (s.portal p).state ≠ .emergency → d = .done ∧ entersOffline p s t))
        us (s.popRequest l) ds u
      ∧ exec (.stopImmediate l) s = .next (u.report l r ds)

/-- OVERRIDE_SET and OVERRIDE_CLEAR (R108, R119, R122, R193): a kind or duration out of range is BAD_VALUE for every
selected portal; a portal in HELD or AUTO replaces its override and answers DONE, or ADJUSTED where the level was above
60 000; a clear removes the override of a portal in HELD, AUTO or EMERGENCY that holds one; every other portal stays and
answers WRONG_STATE or PROTECTED. -/
def Obligations.OverridesAreSetAndCleared : Prop :=
  ∀ (s : State) (l : Link) (r : Request) (us : List (Fin 4)), unitsOf 4 r.target = some us →
    (s.Takes l .overrideSet r → ∀ k v1 v0 d, r.body = [k, v1, v0, d] →
      let level := v1.toNat * 256 + v0.toNat
      ((1 < k.toNat ∨ 240 < d.toNat) →
        exec (.overrideSet l) s = .next (s.answer l r .badValue (us.map fun _ => .badValue) []))
      ∧ (k.toNat ≤ 1 → d.toNat ≤ 240 →
          let takes (p : Fin 4) : Prop := (s.portal p).state = .held ∨ (s.portal p).state = .auto
          ∃ (answer : Fin 4 → Disposition) (u : State),
            (∀ p, takes p → answer p = if k = 0 ∧ 60000 < level then .adjusted else .done)
            ∧ (∀ p, (s.portal p).state = .emergency → answer p = .isProtected)
            ∧ (∀ p, (s.portal p).state = .offline ∨ (s.portal p).state = .dryRun → answer p = .wrongState)
            ∧ u = { s.popRequest l with portals := u.portals }
            ∧ (∀ p, (p ∈ us ∧ takes p → u.portal p = { s.portal p with
                override := some
                  { kind := if k = 0 then .level (min 60000 level) else .freeze, duration := d.toNat
                    expiry := if d.toNat = 0 then none else some (msAfter s.uptime (d.toNat * 60000)) } })
                ∧ (¬ (p ∈ us ∧ takes p) → u.portal p = s.portal p))
            ∧ exec (.overrideSet l) s = .next (u.report l r (us.map answer))))
    ∧ (s.Takes l .overrideClear r →
        let clears (p : Fin 4) : Bool :=
          (s.portal p).override.isSome && (s.portal p).state != .offline && (s.portal p).state != .dryRun
        ∃ u : State, u = { s.popRequest l with portals := u.portals }
          ∧ (∀ p, u.portal p =
              if p ∈ us ∧ clears p = true then { s.portal p with override := none } else s.portal p)
          ∧ exec (.overrideClear l) s = .next
              (u.report l r (us.map fun p => if clears p then .done else .wrongState)))

/-- Dry runs (R108, R123, R124, R194): inputs out of range are BAD_VALUE for every selected portal. DRY_RUN_START takes a
portal in HELD with no pending action and no emergency to DRY_RUN with the inputs, DRY_RUN_INPUT replaces them, and
DRY_RUN_STOP returns the portal to HELD with inputs and previews removed; DONE, with a PORTAL_STATE notice for each
change of state. Every other portal stays and answers WRONG_STATE, BUSY or PROTECTED. -/
def Obligations.DryRunsStartAndStop : Prop :=
  ∀ (s : State) (l : Link) (r : Request) (us : List (Fin 4)), unitsOf 4 r.target = some us →
    let stays (p : Fin 4) (s : State) (d : Disposition) (t : State) : Prop := t = s
      ∧ d = if (s.portal p).state = .emergency then .isProtected else .wrongState
    let notified (p : Fin 4) (s t : State) : Prop := s.onlyNotices t
      ∧ t.Waiting (.portalState p (t.portal p).state (s.portal p).role ((s.portal p).action.map PendingAction.kind))
    let body (c : Instr) (x : Option DryRunInput)
        (R : DryRunInput → Fin 4 → State → Disposition → State → Prop) : Prop :=
      (x = none → exec c s = .next (s.answer l r .badValue (us.map fun _ => .badValue) []))
      ∧ ∀ y, x = some y → ∃ ds u, Visited (R y) us (s.popRequest l) ds u ∧ exec c s = .next (u.report l r ds)
    (∀ a1 a0 k q, r.body = [a1, a0, k, q] →
      (dryRunInputOf r.body = none ↔ 9999 < a1.toNat * 256 + a0.toNat ∨ (4 < k.toNat ∧ k ≠ 0xFF)
        ∨ (1 < q.toNat ∧ q ≠ 0xFF)))
    ∧ (s.Takes l .dryRunStart r → body (.dryRunStart l) (dryRunInputOf r.body) fun y p s d t =>
        ((s.portal p).state ≠ .held → stays p s d t)
        ∧ ((s.portal p).state = .held → (s.portal p).action.isSome = true → d = .busy ∧ t = s)
        ∧ ((s.portal p).state = .held → (s.portal p).action = none → (s.bore (boreOf p)).emergency = true →
            d = .isProtected ∧ t = s)
        ∧ ((s.portal p).state = .held → (s.portal p).action = none → (s.bore (boreOf p)).emergency = false →
            s.ConditionsFollow →
            d = .done ∧ t = { s.setPortal p { s.portal p with state := .dryRun, dryRun := some y } with links := t.links }
            ∧ notified p s t))
    ∧ (s.Takes l .dryRunInput r → body (.dryRunInput l) (dryRunInputOf r.body) fun y p s d t =>
        ((s.portal p).state ≠ .dryRun → stays p s d t)
        ∧ ((s.portal p).state = .dryRun → d = .done ∧ t = s.setPortal p { s.portal p with dryRun := some y }))
    ∧ (s.Takes l .dryRunStop r → ∃ ds u,
        Visited (fun p s d t =>
          ((s.portal p).state ≠ .dryRun → stays p s d t)
          ∧ ((s.portal p).state = .dryRun → s.ConditionsFollow →
              d = .done
              ∧ t = { s.setPortal p { s.portal p with state := .held, dryRun := none } with
                      zones := t.zones, links := t.links }
              ∧ (∀ z, t.zone z = if z ∈ zonesOf p then { s.zone z with preview := none } else s.zone z)
              ∧ notified p s t)) us (s.popRequest l) ds u
        ∧ exec (.dryRunStop l) s = .next (u.report l r ds))

/-! ### Circuit maintenance and bore inputs -/

/-- LOCKOUT_MODIFY (R80, R97, R98): the set mask locks out, then the clear mask takes a LOCKED_OUT circuit to OFF, or,
under emergency allocation, lights it, a DIMMED one with the zone's dim level at 1000; every other circuit and the zone's
other fields stay, its dim level too where no such DIMMED circuit is freed, and a change of the failed or stuck set raises
CIRCUIT_FAULT. BURN_RESET sets the burn seconds of the named circuits to 0 and changes nothing else (R101). -/
def Obligations.CircuitMaintenance : Prop :=
  (∀ (s : State) (l : Link) (r : Request) (z : Fin 14) (sets clears : Octet), s.Takes l .lockoutModify r →
      finOf 14 r.target.toNat = some z → r.body = [sets, clears] →
      ∃ u, exec (.lockoutModify l) s = .next (u.finish l r .done [])
        ∧ u = { s with lines := u.lines, zones := u.zones, links := u.links }
        ∧ (s.popRequest l).onlyNotices u
        ∧ (∀ y, y ≠ z → u.zone y = s.zone y)
        ∧ u.zone z = { s.zone z with slots := (u.zone z).slots, dim := (u.zone z).dim }
        ∧ (∀ k, s.circuit z k = none → u.circuit z k = none)
        ∧ (∀ k c, s.circuit z k = some c →
            let off (st : CircuitState) : Circuit := { c with state := st, level := 0, timer := none }
            let locked := sets.getLsbD k.val ∨ c.state = .lockedOut
            (¬ locked → u.circuit z k = some c)
            ∧ (locked → clears.getLsbD k.val = false →
                u.circuit z k = some (if c.state = .lockedOut then c else off .lockedOut))
            ∧ (locked → clears.getLsbD k.val = true → s.underEmergency z = false → u.circuit z k = some (off .off))
            ∧ (locked → clears.getLsbD k.val = true → s.underEmergency z = true →
                u.circuit z k = some (match c.kind, c.feedback with
                  | .switched, some _ =>
                    { off .switchingOn with timer := some ⟨.settle, msAfter s.uptime (s.zone z).settle⟩ }
                  | .switched, none => off .on
                  | .dimmed, _ => { off .on with level := 1000 })
                ∧ (c.kind = .dimmed → (u.zone z).dim = some 1000)))
        ∧ ((∀ k c, s.circuit z k = some c → c.kind = .dimmed → sets.getLsbD k.val ∨ c.state = .lockedOut →
              clears.getLsbD k.val = true → s.underEmergency z = false) →
            (u.zone z).dim = (s.zone z).dim)
        ∧ ((u.zone z).failedSet ≠ (s.zone z).failedSet ∨ (u.zone z).stuckSet ≠ (s.zone z).stuckSet →
            u.Waiting (.circuitFault z (u.zone z).failedSet (u.zone z).stuckSet))
        ∧ ((u.zone z).failedSet = (s.zone z).failedSet → (u.zone z).stuckSet = (s.zone z).stuckSet →
            u.links = (s.popRequest l).links))
  ∧ (∀ (s : State) (l : Link) (r : Request) (z : Fin 14) (mask : Octet), s.Takes l .burnReset r →
      finOf 14 r.target.toNat = some z → r.body = [mask] →
      exec (.burnReset l) s = .next
        (((s.popRequest l).setZone z { s.zone z with
          slots := (s.zone z).slots.mapWith fun k o =>
            o.map fun c => { c with burn := if mask.getLsbD k.val then 0 else c.burn } }).finish l r .done []))

/-- SPEED_REPORT and DIRECTION_SET (R130, R132, R133, R196): a value with no meaning is BAD_VALUE for every selected bore.
A report sets class and flag, the class clamped to 4 with ADJUSTED, restarts the stale timer and clears the stale flag,
with a TRAFFIC_STATE notice where it was set; a direction takes effect at once, with the notice where it changes. -/
def Obligations.TrafficInputsActOnTheSelectedBores : Prop :=
  ∀ (s : State) (l : Link) (r : Request) (us : List (Fin 2)), unitsOf 2 r.target = some us →
    let notice (b : Fin 2) (x : Bore) : Notice := .trafficState b x.mode x.speedClass x.congested x.stale x.emergency
    (s.Takes l .speedReport r → ∀ k f, r.body = [k, f] →
      (1 < f.toNat → exec (.speedReport l) s = .next (s.answer l r .badValue (us.map fun _ => .badValue) []))
      ∧ (f.toNat ≤ 1 → ∀ cls : Fin 5, cls.val = min 4 k.toNat →
          let report (t : State) (b : Fin 2) : State :=
            let x : Bore := { t.bore b with
              speedClass := cls, congested := f == 1, stale := false
              staleTimer := some (msAfter s.uptime ((s.bore b).staleTimeout * 1000)) }
            if (t.bore b).stale then (t.setBore b x).raise (notice b x) else t.setBore b x
          let d : Disposition := if 4 < k.toNat then .adjusted else .done
          exec (.speedReport l) s = .next
            ((us.foldl report (s.popRequest l)).finish l r d (us.map fun _ => d))))
    ∧ (s.Takes l .directionSet r → ∀ o, r.body = [o] →
        (3 < o.toNat → exec (.directionSet l) s = .next (s.answer l r .badValue (us.map fun _ => .badValue) []))
        ∧ ∀ mode : DirectionMode, mode.code = o.toNat →
            let turn (t : State) (b : Fin 2) : State :=
              if (t.bore b).mode = mode then t
              else (t.setBore b { t.bore b with mode := mode }).raise (notice b { t.bore b with mode := mode })
            exec (.directionSet l) s = .next
              ((us.foldl turn (s.popRequest l)).finish l r .done (us.map fun _ => .done)))

/-- EMERGENCY_SET of the selected bores in ascending order (R117, R136): a bore already in emergency stays; else its flag is
set and I is 60 000, each of its portals in AUTO, HELD or DRY_RUN is in EMERGENCY with its pending action gone and its dry
run ended, the zones of each and a DRIVEN interior zone are lit to capacity in the same event, a portal in OFFLINE and its
zones stay, PORTAL_STATE, TRAFFIC_STATE and SHORTFALL notices are raised (R78), and an owed answer of a pending action is ABANDONED on the link its
record names (R125, R172). -/
def Obligations.EmergencySetLightsTheBore : Prop :=
  ∀ (s : State) (l : Link) (r : Request) (us : List (Fin 2)), s.Takes l .emergencySet r → unitsOf 2 r.target = some us →
    ∃ u,
      Visited (fun b s d t => d = Disposition.done
        ∧ ((s.bore b).emergency = true → t = s)
        ∧ ((s.bore b).emergency = false → s.ConditionsFollow → s.ZonesLegal →
            t = { s with lines := t.lines, portals := t.portals, bores := t.bores, zones := t.zones, links := t.links }
            ∧ t.ConditionsFollow ∧ t.ZonesLegal ∧ s.ShortfallsRaised t
            ∧ t.bore b = { s.bore b with emergency := true, demand := 60000, condition := (t.bore b).condition }
            ∧ (∀ c, c ≠ b → t.bore c = s.bore c)
            ∧ t.Waiting (.trafficState b (s.bore b).mode (s.bore b).speedClass (s.bore b).congested (s.bore b).stale true)
            ∧ (s.AnswersBounded → ∀ k, t.link k = { s.link k with
                notices := (t.link k).notices
                responses := (s.link k).responses ++ (portalsOf b).filterMap fun p =>
                  (s.portal p).action.bind fun a =>
                    if (s.portal p).state ∈ [PortalState.auto, .held, .dryRun] ∧ a.link = k ∧ a.answerOwed = true then
                      some { tag := a.tag, code := a.kind.request.octet, target := BitVec.ofNat 8 (2 ^ p.val),
                             frame := .abandoned, each := [.abandoned], data := [] }
                    else none })
            ∧ (∀ p, boreOf p ≠ b → t.portal p = s.portal p ∧ ∀ z ∈ zonesOf p, t.zone z = s.zone z)
            ∧ (∀ p, boreOf p = b → (s.portal p).state ∈ [PortalState.auto, .held, .dryRun] →
                t.portal p = { s.portal p with state := .emergency, action := none, dryRun := none }
                ∧ t.Waiting (.portalState p .emergency (s.portal p).role none)
                ∧ ∀ z ∈ zonesOf p, (s.zone z).litFrom (t.zone z) ∧ (t.zone z).preview = none)
            ∧ (∀ p, boreOf p = b → (s.portal p).state ∉ [PortalState.auto, .held, .dryRun] →
                t.portal p = s.portal p ∧ ∀ z ∈ zonesOf p, t.zone z = s.zone z)
            ∧ ((t.bore b).condition = .driven → (s.zone (interiorOf b)).litFrom (t.zone (interiorOf b)))
            ∧ ((t.bore b).condition ≠ .driven → t.zone (interiorOf b) = s.zone (interiorOf b))))
        us (s.popRequest l) (us.map fun _ => Disposition.done) u
      ∧ exec (.emergencySet l) s = .next (u.finish l r .done (us.map fun _ => .done))

/-- EMERGENCY_CLEAR of the selected bores in ascending order (R118, R137): a bore not in emergency stays; else its flag is
clear and I is Ib, each of its portals in EMERGENCY is in AUTO, PORTAL_STATE and TRAFFIC_STATE notices are raised, and no
line, no zone and no other portal changes. -/
def Obligations.EmergencyClearReturnsToAuto : Prop :=
  ∀ (s : State) (l : Link) (r : Request) (us : List (Fin 2)), s.Takes l .emergencyClear r →
    unitsOf 2 r.target = some us →
    ∃ u,
      Visited (fun b s d t => d = Disposition.done
        ∧ ((s.bore b).emergency = false → t = s)
        ∧ ((s.bore b).emergency = true → s.ConditionsFollow →
            t = { s with portals := t.portals, bores := t.bores, links := t.links }
            ∧ s.onlyNotices t ∧ t.ConditionsFollow
            ∧ (∀ c, t.bore c =
                if c = b then { s.bore b with emergency := false, demand := (s.bore b).base } else s.bore c)
            ∧ t.Waiting (.trafficState b (s.bore b).mode (s.bore b).speedClass (s.bore b).congested (s.bore b).stale false)
            ∧ ∀ p, (boreOf p = b ∧ (s.portal p).state = .emergency →
                  t.portal p = { s.portal p with state := .auto }
                  ∧ t.Waiting (.portalState p .auto (s.portal p).role ((s.portal p).action.map PendingAction.kind)))
                ∧ (¬ (boreOf p = b ∧ (s.portal p).state = .emergency) → t.portal p = s.portal p)))
        us (s.popRequest l) (us.map fun _ => Disposition.done) u
      ∧ exec (.emergencyClear l) s = .next (u.finish l r .done (us.map fun _ => .done))

/-! ### Evaluations -/

/-- The source cascade (R17 to R19): the portal's own VALID meter; else, scaled and held to 9999, the VALID meter of a
partner whose source is OWN; else the window of the schedule that covers the present minute of a set clock; else BLIND at
the last curve point of the selected plan. -/
def Obligations.TheSourceCascade : Prop :=
  ∀ (s : State) (p : Fin 4),
    let reads (q : Fin 4) (f : Nat) : Prop :=
      ∃ m, (s.portal q).meter = some m ∧ (s.meter m).status = .valid ∧ (s.meter m).filtered = some f
    let lends (f : Nat) : Prop := ∃ q, (s.portal p).partner = some q ∧ (s.portal q).source = some .own ∧ reads q f
    let scheduled (a : Nat) : Prop := ∃ c w, s.clock = some c ∧ w ∈ s.schedule ∧ w.access = a
      ∧ (c.minute + 1440 - w.start) % 1440 < w.width
    (∀ f, reads p f → s.cascade p = (.own, some f))
    ∧ ((∀ f, ¬ reads p f) → ∀ f, lends f →
        s.cascade p = (.partner, some (min 9999 (roundDiv (f * (s.portal p).factor) 1000))))
    ∧ ((∀ f, ¬ reads p f) → (∀ f, ¬ lends f) → (∃ a, scheduled a) →
        ∃ a, scheduled a ∧ s.cascade p = (.schedule, some a))
    ∧ ((∀ f, ¬ reads p f) → (∀ f, ¬ lends f) → (∀ a, ¬ scheduled a) → ∀ plan, s.selectedPlan p = some plan →
        s.cascade p = (.blind, some ((plan.curve.getLast?.map Point.access).getD 0)))

/-- An evaluation at whose step 1 no action takes effect (R33, R43, R106, R107; also one that finds a STOP ORDERLY waiting
for a switching in flight, which in AUTO acts as HELD: R112): the timer's next expiry is 1000 ms on, plan in use, source, A,
night flag, count and role are stored, each of the three zones is as the acting state leaves it, the portals on PARTNER
that name a portal leaving OWN are pulled off (R21), a change of a source or of a shortfall flag raises its notice (R20,
R78), and nothing else changes but lines and waiting notices. An expiry carries its time: the model's choice, log 4. -/
def Obligations.AnEvaluationRunsItsSteps : Prop :=
  ∀ (s : State) (p : Fin 4) (e : Uptime) (plan : Plan), s.Settled →
    (s.portal p).timer = some e → (s.portal p).state ≠ .offline → s.selectedPlan p = some plan →
    ((s.portal p).action = none
      ∨ (∃ a, (s.portal p).action = some a ∧ a.kind = .stopOrderly) ∧ s.portalInFlight p = true) →
    let x := s.portal p
    let now := if reached s.uptime e then s.uptime else e
    let src := (s.cascade p).1
    let acc := (s.cascade p).2
    let acting : PortalState := if x.state = .auto ∧ x.action.isSome = true then .held else x.state
    ∃ u, exec (.portalEvaluation p) s = .next u.arbitrate
      ∧ u = { s with uptime := now, lines := u.lines, portals := u.portals, zones := u.zones, links := u.links }
      ∧ s.onlyNotices u
      ∧ u.portal p = { x with
          timer := some (e + 1000)
          planInUse := some (if (s.bore (boreOf p)).congested = true ∧ x.planB.isSome = true then .b else .a)
          source := some src, access := acc
          night := (x.nightAfter plan src acc).1, lowCount := (x.nightAfter plan src acc).2
          role := some (roleOf (s.bore (boreOf p)).mode p) }
      ∧ s.PullsOff u p (x.source = some .own ∧ src ≠ .own)
      ∧ (∀ j, u.zone (zoneOf p j) = s.evaluatedZone p plan acting now j)
      ∧ (∀ z, z ∉ zonesOf p → u.zone z = s.zone z)
      ∧ (x.source ≠ some src → u.Waiting (.source p (some src) acc))
      ∧ s.ShortfallsRaised u

/-- A pending action that is due takes effect at step 1 (R110 to R112, R125): its record goes, its completion is placed
where it is owed and wanted, and a PORTAL_STATE notice is raised. A HOLD leaves the portal HELD with the D, R and circuits
of its zones; a RELEASE leaves it in AUTO with zones driven by the same evaluation, or in EMERGENCY with zones lit; a STOP
ORDERLY with nothing in flight leaves it OFFLINE with its zones released and its source dropped. A change of a source or of
a shortfall flag raises its notice, and the portals that follow one leaving OWN are pulled off (R20, R21, R78). The pending
action in the notice is the model's reading: log 14. The R in the SHORTFALL notice of a zone that is cleared is the model's
choice: log 23. An expiry carries its time: the model's choice, log 4. -/
def Obligations.PendingActionsTakeEffect : Prop :=
  ∀ (s : State) (p : Fin 4) (e : Uptime) (a : PendingAction) (plan : Plan), s.Settled → s.ConditionsFollow →
    (s.portal p).timer = some e → (s.portal p).action = some a → s.selectedPlan p = some plan →
    let x := s.portal p
    let now := if reached s.uptime e then s.uptime else e
    let answered (u : State) : Prop := ∀ k, (u.link k).responses = (s.link k).responses ++
      if a.link = k ∧ a.answerOwed = true ∧ a.ackWanted = true ∧ (s.link k).responses.length < 8 then
        [{ tag := a.tag, code := a.kind.request.octet, target := BitVec.ofNat 8 (2 ^ p.val), frame := .done,
           each := [.done], data := [] }]
      else []
    let ends (st : PortalState) (role : Option Role) (act : Option ActionKind) (u : State) : Prop :=
      exec (.portalEvaluation p) s = .next u.arbitrate ∧ u.uptime = now ∧ u.ConditionsFollow ∧ answered u
      ∧ (u.portal p).state = st ∧ (u.portal p).action = none ∧ u.Waiting (.portalState p st role act)
      ∧ (x.source ≠ (u.portal p).source → u.Waiting (.source p (u.portal p).source (u.portal p).access))
      ∧ s.PullsOff u p (x.source = some .own ∧ (u.portal p).source ≠ some .own)
      ∧ (∀ q, q ≠ p → ∀ z ∈ zonesOf q, u.zone z = s.zone z) ∧ s.ShortfallsRaised u
    (a.kind = .hold → x.state = .auto →
      ∃ u, ends .held x.role (some .hold) u ∧ (u.portal p).timer = some (e + 1000)
        ∧ ∀ j, u.zone (zoneOf p j) = s.evaluatedZone p plan .held now j)
    ∧ (a.kind = .release → x.state = .held → (s.bore (boreOf p)).emergency = false →
        ∃ u, ends .auto x.role (some .release) u ∧ (u.portal p).timer = some (e + 1000)
          ∧ ∀ j, u.zone (zoneOf p j) = s.evaluatedZone p plan .auto now j)
    ∧ (a.kind = .release → x.state = .held → (s.bore (boreOf p)).emergency = true →
        ∃ u, ends .emergency x.role none u ∧ (u.portal p).timer = some (e + 1000)
          ∧ ∀ j, u.zone (zoneOf p j) = { s.evaluatedZone p plan .emergency now j with preview := none })
    ∧ (a.kind = .stopOrderly → x.state ≠ .offline → x.state ≠ .emergency → s.portalInFlight p = false →
        ∃ u, ends .offline none (some .stopOrderly) u
          ∧ u.portal p = { x with
              state := .offline, timer := none, source := none, access := none, planInUse := none, role := none,
              night := false, lowCount := 0, override := none, action := none, dryRun := none }
          ∧ ∀ z ∈ zonesOf p, (s.zone z).releasedFrom (u.zone z))

/-- An evaluation of a bore (R40, R41, R53, R70, R143, R144), by the case of R40 that applies: I, Ib, supplier and interior
night flag; a DRIVEN interior zone turns its rotation at interior night entry, takes D = I, and is lit to capacity in
emergency, else ramped by the supplier's rates in cases 2 and 4 and not in 3 and 5, and allocated; a HELD one takes D and
its shortfall test; a RELEASED one stays; a change of the shortfall flag raises SHORTFALL (R78). An expiry carries its time: the model's choice, log 4. -/
def Obligations.ABoreEvaluationWorksTheInterior : Prop :=
  ∀ (s : State) (b : Fin 2), s.Settled →
    let x := s.bore b
    let now := if reached s.uptime x.timer then s.uptime else x.timer
    let z := s.zone (interiorOf b)
    let ends (y : Bore) (drive : Zone → Zone) : Prop :=
      ∃ u, exec (.boreEvaluation b) s = .next u.arbitrate
        ∧ u = { s with uptime := now, lines := u.lines, bores := u.bores, zones := u.zones, links := u.links }
        ∧ s.onlyNotices u
        ∧ (∀ c, u.bore c = if c = b then { y with timer := x.timer + 1000 } else s.bore c)
        ∧ (∀ k, k ≠ interiorOf b → u.zone k = s.zone k)
        ∧ s.ShortfallsRaised u
        ∧ (x.condition = .released → u.zone (interiorOf b) = z)
        ∧ (x.condition = .held → u.zone (interiorOf b) =
            { z with demand := y.demand, shortfall := decide (z.capacity < z.ramped) })
        ∧ (x.condition = .driven →
            let w := drive { z with
              rotation := if y.interiorNight && !x.interiorNight then z.rotation + 1 else z.rotation
              demand := y.demand }
            u.zone (interiorOf b) = { w with shortfall := decide (w.capacity < w.ramped) })
    let ramps (plan : Plan) (w : Zone) : Zone :=
      ({ w with ramped := rampStep w.ramped w.demand plan.riseStep plan.fallStep } : Zone).allocate now
    let gives (p : Fin 4) (plan : Plan) : Prop :=
      p ∈ portalsOf b ∧ (s.portal p).state = .auto ∧ s.selectedPlan p = some plan
    let entry (p : Fin 4) (plan : Plan) : Prop := gives p plan ∧ roleOf x.mode p = .entry
    let level (p : Fin 4) (plan : Plan) : Nat := if (s.portal p).night then plan.interiorNight else plan.interiorDay
    (x.emergency = true → ends { x with demand := 60000 } fun w => w.atCapacity.lightAll now)
    ∧ (x.emergency = false → x.mode = .closed → ∀ p plan, gives p plan → (∀ q other, gives q other → p ≤ q) →
        ends { x with demand := plan.interiorNight, base := plan.interiorNight
                      supplier := some (p, s.selectSlot p), interiorNight := true } (ramps plan))
    ∧ (x.emergency = false → x.mode = .closed → (∀ p plan, ¬ gives p plan) →
        ends { x with demand := 0, base := 0, supplier := none } fun w => w.allocate now)
    ∧ (x.emergency = false → x.mode ≠ .closed → ∀ p plan, entry p plan →
        (∀ q other, entry q other → level q other ≤ level p plan ∧ (q < p → level q other < level p plan)) →
        ends { x with demand := level p plan, base := level p plan
                      supplier := some (p, s.selectSlot p), interiorNight := (s.portal p).night } (ramps plan))
    ∧ (x.emergency = false → x.mode ≠ .closed → (∀ p plan, ¬ entry p plan) →
        ends { x with demand := x.base } fun w => w.allocate now)

/-! ### Meters, lines and supervision -/

/-- A gate's expiry (R5 to R12): the count is classified against the bands of the gate time, its record joins the ring,
the two consecutive counts follow it, the status and F move by the table of R10 with the filter of R11, the next gate
begins, and a change of status raises METER_STATE with the sample's flag. A meter with no gate stays.
The pin of a METER_IN line is read at a level for some crystal periods (R154): the raw value, which the invert flag turns, is
seen at the 20th consecutive period that differs from the value seen, a period that agrees starts the run again, and a
change from absent to present is a rising edge, which adds one to the gate count of the configured meter whose setup names
the line, stopping at 65 535 (R5); nothing else changes but the pin. Any other line is not watched. The model's choices: the
form of the readings (log 18), an event the state does not admit has no effect (log 5), an expiry carries its time (log 4). -/
def Obligations.MetersCountAndJudge : Prop :=
  (∀ (s : State) (m : Fin 4), s.Settled →
      let x := s.meter m
      ((s.meter m).gateEnd = none → exec (.gateExpiry m) s = .next s)
      ∧ ∀ e, x.gateEnd = some e → x.status ≠ .unconfigured → x.ring.length ≤ 16 →
          let c := x.gateCount * 1000
          let valid := 900 * x.gate ≤ c ∧ c ≤ 12000 * x.gate
          let flag : SampleFlag :=
            if c < 900 * x.gate then .invalidLow else if c < 1000 * x.gate then .underZero
            else if c ≤ 11000 * x.gate then .valid else if c ≤ 12000 * x.gate then .over else .invalidHigh
          let value :=
            if c < 1000 * x.gate then 0
            else if c ≤ 11000 * x.gate then
              (2 * ((c - 1000 * x.gate) * x.span) + x.gate * 10000) / (2 * (x.gate * 10000))
            else x.span
          let valids := if valid then min 5 (x.validCount + 1) else 0
          let invalids := if valid then 0 else min 3 (x.invalidCount + 1)
          let after : MeterStatus × Option Nat :=
            match x.status with
            | .unconfigured => (.unconfigured, x.filtered)
            | .starting =>
              if valid then (.valid, some value) else if invalids = 3 then (.faulty, none) else (.starting, x.filtered)
            | .valid =>
              if valid then (.valid, x.filtered.map fun f => (f * (16 - x.weight) + value * x.weight + 8) / 16)
              else if invalids = 3 then (.faulty, x.filtered) else (.valid, x.filtered)
            | .faulty => if valid ∧ valids = 5 then (.valid, some value) else (.faulty, x.filtered)
          let y : Meter := { x with
            status := after.1, filtered := after.2, validCount := valids, invalidCount := invalids, gateCount := 0
            ring := (if x.ring.length < 16 then x.ring else x.ring.tail) ++ [⟨e, x.gateCount, flag⟩]
            gateEnd := some (msAfter e x.gate) }
          exec (.gateExpiry m) s = .next
            ((if after.1 = x.status then (s.reach e).setMeter m y
              else ((s.reach e).setMeter m y).raise
                (.meterState m after.1 after.2 invalids valids (some flag))).arbitrate))
  ∧ ∀ (s : State) (i : Fin 192) (level : Bool) (periods : Nat), s.Settled → s.MetersFit →
      ((s.line i).fn ≠ .meterIn ∨ periods = 0 → exec (.meterEdge ⟨i, level, periods⟩) s = .next s)
      ∧ ∀ seen run, (s.line i).fn = .meterIn → (s.line i).edge = some ⟨seen, run⟩ → 0 < periods →
          let raw := if (s.line i).invert then !level else level
          let edge : Bool := !seen && raw && decide (20 ≤ run + periods)
          ∃ t, exec (.meterEdge ⟨i, level, periods⟩) s = .next t
            ∧ t = { s with lines := t.lines, pins := t.pins, meters := t.meters }
            ∧ (∀ j : Fin 192, t.pins.getLsbD j.val = if j = i then level else s.pins.getLsbD j.val)
            ∧ (∀ j, t.line j =
                if j = i then { s.line i with
                  edge := some
                    (if raw = seen then ⟨seen, 0⟩
                     else if run + periods < 20 then ⟨seen, run + periods⟩
                     else ⟨raw, 0⟩) }
                else s.line j)
            ∧ ∀ m, t.meter m =
                if edge = true ∧ (s.meter m).line = some i then
                  { s.meter m with gateCount := min 65535 ((s.meter m).gateCount + 1) }
                else s.meter m

/-- A sample of the feedback lines (R152, R153): a raw value that agrees with the debounced value sets the count to 0, one
that differs adds 1 while the count is below 19, and the 20th gives the debounced value the raw value, the count 0, and in
the same event hands the change to every circuit of a supervised zone that names the line as feedback: on present a DIMMED
one in OFF or ON starts its loss timer and a SWITCHED one in ON cancels it, on absent the other way round (R93, R95). Other
lines and circuits stay, and nothing else changes but the pins and the time. The model's choices: the one command is the
whole of R152 and R153 for every line (log 11), and it carries its time, the uptime moving to that of the sample where it
has not reached it (log 4). -/
def Obligations.ASampleDebouncesEveryFeedbackLine : Prop :=
  ∀ (s : State) (pins : BitVec 192), s.Settled → s.InputsFit →
    let raw (i : Fin 192) : Bool := xor (pins.getLsbD i.val) (s.line i).invert
    let changes (i : Fin 192) : Prop :=
      (s.line i).fn = .feedbackIn ∧ (s.line i).count = some 19 ∧ (s.line i).debounced = some (!raw i)
    ∃ t, exec (.feedbackSample pins) s = .next t
      ∧ t = { s with uptime := t.uptime, sampleDue := s.sampleDue + 1, pins := pins, lines := t.lines, zones := t.zones }
      ∧ t.uptime = (if reached s.uptime s.sampleDue then s.uptime else s.sampleDue)
      ∧ (∀ i,
          ((s.line i).fn ≠ .feedbackIn → t.line i = s.line i)
          ∧ ∀ d n, (s.line i).fn = .feedbackIn → (s.line i).debounced = some d → (s.line i).count = some n →
              (raw i = d → t.line i = { s.line i with count := some 0 })
              ∧ (raw i ≠ d → n < 19 → t.line i = { s.line i with count := some (n + 1) })
              ∧ (raw i ≠ d → n = 19 → t.line i = { s.line i with debounced := some (raw i), count := some 0 }))
      ∧ (∀ z, t.zone z = { s.zone z with slots := (t.zone z).slots })
      ∧ ∀ z k,
          (s.circuit z k = none → t.circuit z k = none)
          ∧ ∀ c, s.circuit z k = some c →
              ((s.supervised z = false ∨ ∀ i, c.feedback = some i → ¬ changes i) → t.circuit z k = some c)
              ∧ ∀ i, s.supervised z = true → c.feedback = some i → changes i →
                  let start : Circuit := { c with timer := some ⟨.loss, msAfter t.uptime (s.zone z).settle⟩ }
                  let stop : Circuit := { c with timer := c.timer.filter fun w => w.kind != .loss }
                  t.circuit z k = some
                    (match c.kind, c.state, raw i with
                     | .switched, .on, false => start
                     | .switched, .on, true => stop
                     | .dimmed, .off, true => start
                     | .dimmed, .on, true => start
                     | .dimmed, .off, false => stop
                     | .dimmed, .on, false => stop
                     | _, _, _ => c)

/-- A feedback change of one line, which is its 20th disagreeing sample (R93, R95, R152, R153): the debounced value changes
over with the count at 0, and every circuit of a supervised zone that names the line as feedback takes it: a SWITCHED one in
ON starts its loss timer on absent and cancels it on present, a DIMMED one in OFF or ON the other way round; nothing else
changes but the time, which is that of the sample, and the line's pin. The sample of that millisecond, with the pins as they
stand, then leaves the line as it is (log 11). A line that has no 20th sample to come stays (the model's choice, log 5). -/
def Obligations.AFeedbackChangeReachesItsCircuits : Prop :=
  ∀ (s : State) (i : Fin 192), s.Settled →
    (¬ ((s.line i).fn = .feedbackIn ∧ (s.line i).count = some 19) → exec (.feedbackChange i) s = .next s)
    ∧ ∀ d, (s.line i).fn = .feedbackIn → (s.line i).count = some 19 → (s.line i).debounced = some d →
        ∃ t, exec (.feedbackChange i) s = .next t
          ∧ t = { s with uptime := t.uptime, pins := t.pins, lines := t.lines, zones := t.zones }
          ∧ t.uptime = (if reached s.uptime s.sampleDue then s.uptime else s.sampleDue)
          ∧ (∀ j : Fin 192, t.pins.getLsbD j.val = if j = i then xor (!d) (s.line i).invert else s.pins.getLsbD j.val)
          ∧ (∀ k, t.line k = if k = i then { s.line i with debounced := some (!d), count := some 0 } else s.line k)
          ∧ (∃ u, exec (.feedbackSample t.pins) t = .next u ∧ u.line i = t.line i)
          ∧ (∀ z, t.zone z = { s.zone z with slots := (t.zone z).slots })
          ∧ ∀ z k, t.circuit z k = (s.circuit z k).map fun c =>
              let start : Circuit := { c with timer := some ⟨.loss, msAfter t.uptime (s.zone z).settle⟩ }
              let stop : Circuit := { c with timer := c.timer.filter fun w => w.kind != .loss }
              if s.supervised z = true ∧ c.feedback = some i then
                match c.kind, c.state, d with
                | .switched, .on, true => start
                | .switched, .on, false => stop
                | .dimmed, .off, false => start
                | .dimmed, .on, false => start
                | .dimmed, .off, true => stop
                | .dimmed, .on, true => stop
                | _, _, _ => c
              else c

/-- The expiry of a settle or loss timer (R91, R92, R94, R95, R97): a circuit in SWITCHING_ON is ON with feedback present
and FAILED_DARK without, one in SWITCHING_OFF is OFF without and STUCK_ON with, an available circuit whose loss timer
expires is FAILED_DARK; a change of the failed or stuck set raises CIRCUIT_FAULT; no other circuit changes. A slot with
no such timer stays (the model's choice, log 5), and an expiry carries its time (log 4). -/
def Obligations.CircuitTimersExpire : Prop :=
  ∀ (s : State) (z : Fin 14) (k : Fin 8), s.Settled →
    let expires (c : Instr) (e : Uptime) (held left : Circuit) : Prop :=
      ∃ u, exec c s = .next u.arbitrate
        ∧ s.circuit z k = some held
        ∧ u = { s with uptime := if reached s.uptime e then s.uptime else e
                       lines := u.lines, zones := u.zones, links := u.links }
        ∧ s.onlyNotices u
        ∧ (∀ y, y ≠ z → u.zone y = s.zone y)
        ∧ u.zone z = { s.zone z with slots := (u.zone z).slots }
        ∧ (∀ j, u.circuit z j = if j = k then some left else s.circuit z j)
        ∧ ((u.zone z).failedSet ≠ (s.zone z).failedSet ∨ (u.zone z).stuckSet ≠ (s.zone z).stuckSet →
            u.Waiting (.circuitFault z (u.zone z).failedSet (u.zone z).stuckSet))
        ∧ ((u.zone z).failedSet = (s.zone z).failedSet → (u.zone z).stuckSet = (s.zone z).stuckSet → u.links = s.links)
    ∀ c, s.circuit z k = some c →
      ((∀ e, c.timer ≠ some ⟨.settle, e⟩) → exec (.settleExpiry z k) s = .next s)
      ∧ ((∀ e, c.timer ≠ some ⟨.loss, e⟩) → exec (.lossExpiry z k) s = .next s)
      ∧ (∀ e, c.timer = some ⟨.settle, e⟩ →
          let present : Prop := ∃ i, c.feedback = some i ∧ (s.line i).fn = .feedbackIn ∧ (s.line i).debounced = some true
          (c.state = .switchingOn → present → expires (.settleExpiry z k) e c { c with state := .on, timer := none })
          ∧ (c.state = .switchingOn → ¬ present →
              expires (.settleExpiry z k) e c { c with state := .failedDark, level := 0, timer := none })
          ∧ (c.state = .switchingOff → present →
              expires (.settleExpiry z k) e c { c with state := .stuckOn, level := 0, timer := none })
          ∧ (c.state = .switchingOff → ¬ present →
              expires (.settleExpiry z k) e c { c with state := .off, level := 0, timer := none }))
      ∧ (∀ e, c.timer = some ⟨.loss, e⟩ → c.available = true →
          expires (.lossExpiry z k) e c { c with state := .failedDark, level := 0, timer := none })

/-- The two ticks of the time base (R100, R151): a burn tick adds a second, up to 4 294 967 295, to every circuit of a
supervised zone whose command is active, and a PWM period's start gives every driven DIM_OUT line the duty last commanded;
each sets its own next expiry and changes nothing else. Override, stale and minute timers (R27, R121, R134): a timed override is removed with OVERRIDE_ENDED, a bore goes
stale with class 4, congestion clear and TRAFFIC_STATE, a set clock moves by a minute and by a day after minute 1439; each
changes nothing else, and one whose timer does not run does nothing. The model's choices: an expiry carries its time
(log 4), and an event the state does not admit has no effect (log 5). -/
def Obligations.TheTimersOfThePart : Prop :=
  (∀ s : State, s.Settled →
      (∃ t, exec .burnTick s = .next t
        ∧ t = { s with uptime := if reached s.uptime s.burnDue then s.uptime else s.burnDue
                       burnDue := s.burnDue + 1000, zones := t.zones }
        ∧ (∀ z, t.zone z = { s.zone z with slots := (t.zone z).slots })
        ∧ ∀ z k, t.circuit z k = (s.circuit z k).map fun c =>
            if s.supervised z = true ∧ (c.kind = .switched ∧ (c.state = .switchingOn ∨ c.state = .on)
                ∨ c.kind = .dimmed ∧ 0 < c.level) then
              { c with burn := min 4294967295 (c.burn + 1) }
            else c)
      ∧ ∃ t, exec .pwmPeriodStart s = .next t
        ∧ t = { s with uptime := if reached s.uptime s.periodDue then s.uptime else s.periodDue
                       periodDue := s.periodDue + 1, lines := t.lines }
        ∧ ∀ i, t.line i =
            match (s.line i).fn, (s.line i).drive, (s.line i).output with
            | .dimOut, .driven, .duty d => { s.line i with period := some d }
            | _, _, _ => s.line i)
  ∧ (∀ s : State, s.Settled →
      (∀ p v e, (s.portal p).override = some v → v.expiry = some e →
        exec (.overrideExpiry p) s = .next
          ((((s.reach e).setPortal p { s.portal p with override := none }).raise (.overrideEnded p v.kind)).arbitrate))
      ∧ (∀ p, (∀ v e, (s.portal p).override = some v → v.expiry ≠ some e) → exec (.overrideExpiry p) s = .next s)
      ∧ (∀ b e, (s.bore b).staleTimer = some e →
          exec (.staleExpiry b) s = .next
            ((((s.reach e).setBore b { s.bore b with
              speedClass := 4, congested := false, stale := true, staleTimer := none }).raise
              (.trafficState b (s.bore b).mode 4 false true (s.bore b).emergency)).arbitrate))
      ∧ (∀ b, (s.bore b).staleTimer = none → exec (.staleExpiry b) s = .next s)
      ∧ (∀ c, s.clock = some c →
          exec .minuteAdvance s = .next { s.reach c.next with
            clock := some (if c.minute < 1439 then ⟨c.minute + 1, c.day, c.next + 60000⟩
              else ⟨0, (c.day + 1) % 65536, c.next + 60000⟩) })
      ∧ (s.clock = none → exec .minuteAdvance s = .next s))

/-! ### Levels and allocation -/

/-- The curve value (R35): the first point's threshold luminance at or below it, the last point's at or above it, and on the
segment between two points their rounded interpolation; always within the curve's own values. -/
def Obligations.TheCurveValue : Prop :=
  ∀ (p : Plan) (a : Nat), p.valid = true →
    (∀ q, p.curve.head? = some q → (a ≤ q.access → curveValue a p.curve = q.threshold)
        ∧ q.threshold ≤ curveValue a p.curve)
    ∧ (∀ q, p.curve.getLast? = some q → (q.access ≤ a → curveValue a p.curve = q.threshold)
        ∧ curveValue a p.curve ≤ q.threshold)
    ∧ (∀ (i : Nat) (q r : Point), p.curve[i]? = some q → p.curve[i + 1]? = some r → q.access < a → a < r.access →
        curveValue a p.curve
          = q.threshold + (2 * ((r.threshold - q.threshold) * (a - q.access)) + (r.access - q.access))
              / (2 * (r.access - q.access)))
    ∧ (∀ (i : Nat) (q : Point), p.curve[i]? = some q → a = q.access → curveValue a p.curve = q.threshold)
    ∧ curveValue a p.curve ≤ 60000

/-- The demands of a portal, computed for a valid plan from a threshold base and an I of at most 60 000, lie in the order
I, T2, T1, TH within 60 000 in both roles, and in the EXIT role each of them is I (R44 to R46). So do the demands that an
evaluation of any portal of a bounded state works, for its zones and for its previews, and in EMERGENCY every demand is
60 000. -/
def Obligations.TheOrderOfTheDemands : Prop :=
  let inOrder (interior : Nat) (d : Demands) : Prop := interior ≤ d.t2 ∧ d.t2 ≤ d.t1 ∧ d.t1 ≤ d.th ∧ d.th ≤ 60000
  (∀ (plan : Plan) (role : Role) (base interior : Nat), plan.valid = true → base ≤ 60000 → interior ≤ 60000 →
    let d := demandsFor plan role base interior
    inOrder interior d
    ∧ (role = .exit → d.th = interior ∧ d.t1 = interior ∧ d.t2 = interior)
    ∧ (role = .entry → d.th = max base interior))
  ∧ ∀ (s : State) (p : Fin 4), s.LevelsBounded →
      let interior := (s.bore (boreOf p)).demand
      interior ≤ 60000
      ∧ (∀ plan access, s.selectedPlan p = some plan → inOrder interior (s.demandsAt p plan access))
      ∧ (∀ input plan, s.previewPlan p input = some plan → inOrder interior (s.previewDemandsAt p input plan))
      ∧ ∀ plan now j, (s.evaluatedZone p plan .emergency now j).demand = 60000

/-- A ramp step (R51) of a zone towards the demand just written to it: up by the larger of 50 and the truncated
fraction, or down by it, never past the demand, and not at all at the demand; nothing else of the zone changes. -/
def Obligations.ARampStepMovesTowardsTheDemand : Prop :=
  ∀ (z : Zone) (demand rise fall : Nat),
    let y := z.ramp false rise fall demand
    y = { z with demand := demand, ramped := y.ramped }
    ∧ (z.ramped < demand → y.ramped = min demand (z.ramped + max 50 (z.ramped * rise / 1000))
        ∧ z.ramped < y.ramped ∧ y.ramped ≤ demand)
    ∧ (demand < z.ramped →
        (y.ramped : Int) = max (demand : Int) ((z.ramped : Int) - max 50 (z.ramped * fall / 1000 : Nat))
        ∧ y.ramped < z.ramped ∧ demand ≤ y.ramped)
    ∧ (z.ramped = demand → y.ramped = z.ramped)

/-- The rotation order (R67): position i names slot (s + i) mod 8 or slot s XOR i, and each mode names every slot once. -/
def Obligations.TheRotationOrder : Prop :=
  ∀ (s : Fin 8) (i : Fin 8) (mode : OrderMode),
    (rotationOrder .sequential s)[i.val]? = some ⟨(s.val + i.val) % 8, by omega⟩
    ∧ ((rotationOrder .interleaved s)[i.val]?).map Fin.val = some (s.val ^^^ i.val)
    ∧ (rotationOrder mode s).length = 8 ∧ (rotationOrder mode s).Nodup

/-- The switching decision of a normal allocation (R71 to R74): none with a circuit in flight; else, where R - Son is
greater than Cd, the first SWITCHED circuit in OFF along the order is commanded on, and where it is not, the one in ON
furthest along the order is commanded off if R - (Son - its rating) is at most the band; no other circuit changes, and a
switch-off is not followed by a switch-on at the same R and Cd. -/
def Obligations.ASwitchingDecisionIssuesOneCommand : Prop :=
  ∀ (now : Uptime) (z : Zone), z.legal = true →
    let y := z.switching now
    let inState (k : Fin 8) (st : CircuitState) : Prop :=
      ∃ c, z.slots.get k = some c ∧ c.kind = .switched ∧ c.state = st
    let place (k : Fin 8) : Nat := z.along.idxOf k
    let onTest : Prop := (z.ramped : Int) - z.son > z.cd
    let offTest (c : Circuit) : Prop :=
      (z.ramped : Int) - (z.son - c.rating) ≤ (z.cd * (1000 - z.hysteresis) / 1000 : Nat)
    (z.anyInFlight = true → y = z)
    ∧ (z.anyInFlight = false → onTest → (∀ k, ¬ inState k .off) → y = z)
    ∧ (z.anyInFlight = false → onTest → ∀ k, inState k .off → (∀ j, inState j .off → place k ≤ place j) →
        y = z.modSlot k fun c =>
          if c.feedback.isSome then { c with state := .switchingOn, timer := some ⟨.settle, msAfter now z.settle⟩ }
          else { c with state := .on, timer := none })
    ∧ (z.anyInFlight = false → ¬ onTest → (∀ k, ¬ inState k .on) → y = z)
    ∧ (z.anyInFlight = false → ¬ onTest → ∀ k c, inState k .on → (∀ j, inState j .on → place j ≤ place k) →
        z.slots.get k = some c →
        (¬ offTest c → y = z)
        ∧ (offTest c →
            y = z.modSlot k (fun c =>
              if c.feedback.isSome then { c with state := .switchingOff, timer := some ⟨.settle, msAfter now z.settle⟩ }
              else { c with state := .off, timer := none })
            ∧ ¬ ((y.ramped : Int) - y.son > y.cd)))

/-- The common dim level of a normal allocation (R75): absent where Cd is 0; else the rounded share of Cd that R - Son asks for, held between
0 and Cd, raised to the minimum dim level where it lies above 0 and below it, and at most 1000; every available DIMMED
circuit has it as its level and is ON exactly where it is above 0. -/
def Obligations.TheCommonDimLevel : Prop :=
  ∀ (now : Uptime) (z : Zone), z.legal = true →
    let y := z.switching now
    let w := z.allocate now
    let need := min ((y.ramped : Int) - y.son).toNat y.cd
    let level := (2 * (need * 1000) + y.cd) / (2 * y.cd)
    (y.cd = 0 → w.dim = none)
    ∧ (y.cd ≠ 0 → w.dim = some (if 0 < level ∧ level < z.minDim then z.minDim else level))
    ∧ (∀ d, w.dim = some d → d ≤ 1000 ∧ ∀ k c, w.slots.get k = some c → c.kind = .dimmed → c.available = true →
        c.level = d ∧ (c.state = .on ↔ 0 < d))
    ∧ (w.dim = none → ∀ k c, w.slots.get k = some c → c.kind = .dimmed → c.available = false)

/-! ### Invariants that every step keeps -/

/-- No IDLE transmitter is left with a frame to begin, except while the part is held in reset (R173; log 1). -/
def Obligations.EveryStepLeavesNoTransmitterIdle : Prop :=
  ∀ s t : State, s.NothingLeftIdle → step s = .next t → t.NothingLeftIdle

/-- Every step keeps the links in order: queues within their bounds, urgent requests first, one notice for each kind and
subject, of kinds the mask includes, BREAK with SILENT (R165, R166, R172, R175, R177). -/
def Obligations.EveryStepKeepsTheLinksOrdered : Prop :=
  ∀ s t : State, s.LinksOrdered → step s = .next t → t.LinksOrdered

/-- Every step keeps the responses in a link's list and the answers owed to it at 8 together at most (R172). -/
def Obligations.EveryStepKeepsTheAnswersBounded : Prop :=
  ∀ s t : State, s.AnswersBounded → step s = .next t → t.AnswersBounded

/-- Every step keeps demands, ramped levels and interior demands within 60 000 and the plans valid (R28, R46, R50). -/
def Obligations.EveryStepKeepsTheLevelsBounded : Prop :=
  ∀ s t : State, s.LevelsBounded → step s = .next t → t.LevelsBounded

/-- Every step keeps the meters in their ranges and fitting their statuses, configured exactly where they are not
UNCONFIGURED, on lines of their own (R3, R4, R11, R13). -/
def Obligations.EveryStepKeepsTheMetersFit : Prop :=
  ∀ s t : State, s.MetersFit → step s = .next t → t.MetersFit

/-- Every step keeps the schedule fit, and a fit schedule is in strictly ascending start order with no two of its windows
covering a common minute (R24). -/
def Obligations.EveryStepKeepsTheScheduleFit : Prop :=
  ∀ s t : State, s.ScheduleFit →
    (step s = .next t → t.ScheduleFit)
    ∧ s.schedule.Pairwise (fun v w => v.start < w.start)
    ∧ s.schedule.Pairwise fun v w => ∀ minute, minute ≤ 1439 → ¬ (v.covers minute = true ∧ w.covers minute = true)

/-- Every step keeps every portal record fitting its state and its bore's emergency flag (R105, R109, R114, R117,
R118, R123). -/
def Obligations.EveryStepKeepsThePortalsFit : Prop :=
  ∀ s t : State, s.PortalsFit → step s = .next t → t.PortalsFit

/-- Every step keeps a portal's source at PARTNER only while the partner it names has source OWN (R21). -/
def Obligations.EveryStepKeepsPartnersOwn : Prop :=
  ∀ s t : State, s.PortalsFit → s.PartnersOwn → step s = .next t → t.PartnersOwn

/-- Every step keeps each interior condition at the one the states of its bore's portals give (R139). -/
def Obligations.EveryStepKeepsTheConditions : Prop :=
  ∀ s t : State, s.ConditionsFollow → step s = .next t → t.ConditionsFollow

/-- Every step keeps every zone record in its ranges and every circuit record legal for its kind and state (R62, R63, R87,
R89, R95), and with it that no dim level lies between 0 and its zone's minimum dim level and that a zone that is not
supervised is dark (R75, R76, R85, R99). -/
def Obligations.EveryStepKeepsTheZonesLegal : Prop :=
  ∀ s t : State, s.ZonesLegal → step s = .next t → t.ZonesLegal ∧ (s.ConditionsFollow → s.DimsRight → t.DimsRight)

/-- Every step keeps every available circuit of a zone under emergency allocation lit (R79, R80, R140). -/
def Obligations.EveryStepKeepsAnEmergencyLit : Prop :=
  ∀ s t : State, s.ZonesLegal → s.ConditionsFollow → s.EmergencyLit → step s = .next t → t.EmergencyLit

/-- Every step keeps the lines following the circuits they serve: driven with their commands, every other line
floating (R149, R155, R199). Every step keeps the input state of every line that of its function (R147, R152, R154,
R156). -/
def Obligations.EveryStepKeepsTheLinesFollowing : Prop :=
  (∀ s t : State, s.PortalsFit → s.ConditionsFollow → s.LinesFollow → step s = .next t → t.LinesFollow)
  ∧ ∀ s t : State, s.InputsFit → step s = .next t → t.InputsFit
end

