-- ==== Sys2Proof/Laws/State.lean ====
section
/-! SUPPORT. What each update of the state leaves in each field, and what each record reads after it. -/

namespace Sys2Proof.Machine

variable (s : State)

/-! ### `State.setLink` -/

@[simp] theorem State.setLink_pending (l : Link) (x : LinkRec) : (s.setLink l x).pending = s.pending := rfl
@[simp] theorem State.setLink_inReset (l : Link) (x : LinkRec) : (s.setLink l x).inReset = s.inReset := rfl
@[simp] theorem State.setLink_uptime (l : Link) (x : LinkRec) : (s.setLink l x).uptime = s.uptime := rfl
@[simp] theorem State.setLink_clock (l : Link) (x : LinkRec) : (s.setLink l x).clock = s.clock := rfl
@[simp] theorem State.setLink_burnDue (l : Link) (x : LinkRec) : (s.setLink l x).burnDue = s.burnDue := rfl
@[simp] theorem State.setLink_sampleDue (l : Link) (x : LinkRec) : (s.setLink l x).sampleDue = s.sampleDue := rfl
@[simp] theorem State.setLink_periodDue (l : Link) (x : LinkRec) : (s.setLink l x).periodDue = s.periodDue := rfl
@[simp] theorem State.setLink_lines (l : Link) (x : LinkRec) : (s.setLink l x).lines = s.lines := rfl
@[simp] theorem State.setLink_pins (l : Link) (x : LinkRec) : (s.setLink l x).pins = s.pins := rfl
@[simp] theorem State.setLink_meters (l : Link) (x : LinkRec) : (s.setLink l x).meters = s.meters := rfl
@[simp] theorem State.setLink_schedule (l : Link) (x : LinkRec) : (s.setLink l x).schedule = s.schedule := rfl
@[simp] theorem State.setLink_portals (l : Link) (x : LinkRec) : (s.setLink l x).portals = s.portals := rfl
@[simp] theorem State.setLink_bores (l : Link) (x : LinkRec) : (s.setLink l x).bores = s.bores := rfl
@[simp] theorem State.setLink_zones (l : Link) (x : LinkRec) : (s.setLink l x).zones = s.zones := rfl
@[simp] theorem State.setLink_draws (l : Link) (x : LinkRec) : (s.setLink l x).draws = s.draws := rfl
@[simp] theorem State.line_setLink (l : Link) (x : LinkRec) (j : Fin 192) : (s.setLink l x).line j = s.line j := rfl
@[simp] theorem State.meter_setLink (l : Link) (x : LinkRec) (k : Fin 4) : (s.setLink l x).meter k = s.meter k := rfl
@[simp] theorem State.portal_setLink (l : Link) (x : LinkRec) (q : Fin 4) : (s.setLink l x).portal q = s.portal q := rfl
@[simp] theorem State.bore_setLink (l : Link) (x : LinkRec) (d : Fin 2) : (s.setLink l x).bore d = s.bore d := rfl
@[simp] theorem State.zone_setLink (l : Link) (x : LinkRec) (y : Fin 14) : (s.setLink l x).zone y = s.zone y := rfl

/-! ### `State.setLine` -/

@[simp] theorem State.setLine_pending (i : Fin 192) (x : Line) : (s.setLine i x).pending = s.pending := rfl
@[simp] theorem State.setLine_inReset (i : Fin 192) (x : Line) : (s.setLine i x).inReset = s.inReset := rfl
@[simp] theorem State.setLine_uptime (i : Fin 192) (x : Line) : (s.setLine i x).uptime = s.uptime := rfl
@[simp] theorem State.setLine_clock (i : Fin 192) (x : Line) : (s.setLine i x).clock = s.clock := rfl
@[simp] theorem State.setLine_burnDue (i : Fin 192) (x : Line) : (s.setLine i x).burnDue = s.burnDue := rfl
@[simp] theorem State.setLine_sampleDue (i : Fin 192) (x : Line) : (s.setLine i x).sampleDue = s.sampleDue := rfl
@[simp] theorem State.setLine_periodDue (i : Fin 192) (x : Line) : (s.setLine i x).periodDue = s.periodDue := rfl
@[simp] theorem State.setLine_pins (i : Fin 192) (x : Line) : (s.setLine i x).pins = s.pins := rfl
@[simp] theorem State.setLine_meters (i : Fin 192) (x : Line) : (s.setLine i x).meters = s.meters := rfl
@[simp] theorem State.setLine_schedule (i : Fin 192) (x : Line) : (s.setLine i x).schedule = s.schedule := rfl
@[simp] theorem State.setLine_portals (i : Fin 192) (x : Line) : (s.setLine i x).portals = s.portals := rfl
@[simp] theorem State.setLine_bores (i : Fin 192) (x : Line) : (s.setLine i x).bores = s.bores := rfl
@[simp] theorem State.setLine_zones (i : Fin 192) (x : Line) : (s.setLine i x).zones = s.zones := rfl
@[simp] theorem State.setLine_links (i : Fin 192) (x : Line) : (s.setLine i x).links = s.links := rfl
@[simp] theorem State.setLine_draws (i : Fin 192) (x : Line) : (s.setLine i x).draws = s.draws := rfl
@[simp] theorem State.link_setLine (i : Fin 192) (x : Line) (k : Link) : (s.setLine i x).link k = s.link k := rfl
@[simp] theorem State.meter_setLine (i : Fin 192) (x : Line) (k : Fin 4) : (s.setLine i x).meter k = s.meter k := rfl
@[simp] theorem State.portal_setLine (i : Fin 192) (x : Line) (q : Fin 4) : (s.setLine i x).portal q = s.portal q := rfl
@[simp] theorem State.bore_setLine (i : Fin 192) (x : Line) (d : Fin 2) : (s.setLine i x).bore d = s.bore d := rfl
@[simp] theorem State.zone_setLine (i : Fin 192) (x : Line) (y : Fin 14) : (s.setLine i x).zone y = s.zone y := rfl

/-! ### `State.setMeter` -/

@[simp] theorem State.setMeter_pending (m : Fin 4) (x : Meter) : (s.setMeter m x).pending = s.pending := rfl
@[simp] theorem State.setMeter_inReset (m : Fin 4) (x : Meter) : (s.setMeter m x).inReset = s.inReset := rfl
@[simp] theorem State.setMeter_uptime (m : Fin 4) (x : Meter) : (s.setMeter m x).uptime = s.uptime := rfl
@[simp] theorem State.setMeter_clock (m : Fin 4) (x : Meter) : (s.setMeter m x).clock = s.clock := rfl
@[simp] theorem State.setMeter_burnDue (m : Fin 4) (x : Meter) : (s.setMeter m x).burnDue = s.burnDue := rfl
@[simp] theorem State.setMeter_sampleDue (m : Fin 4) (x : Meter) : (s.setMeter m x).sampleDue = s.sampleDue := rfl
@[simp] theorem State.setMeter_periodDue (m : Fin 4) (x : Meter) : (s.setMeter m x).periodDue = s.periodDue := rfl
@[simp] theorem State.setMeter_lines (m : Fin 4) (x : Meter) : (s.setMeter m x).lines = s.lines := rfl
@[simp] theorem State.setMeter_pins (m : Fin 4) (x : Meter) : (s.setMeter m x).pins = s.pins := rfl
@[simp] theorem State.setMeter_schedule (m : Fin 4) (x : Meter) : (s.setMeter m x).schedule = s.schedule := rfl
@[simp] theorem State.setMeter_portals (m : Fin 4) (x : Meter) : (s.setMeter m x).portals = s.portals := rfl
@[simp] theorem State.setMeter_bores (m : Fin 4) (x : Meter) : (s.setMeter m x).bores = s.bores := rfl
@[simp] theorem State.setMeter_zones (m : Fin 4) (x : Meter) : (s.setMeter m x).zones = s.zones := rfl
@[simp] theorem State.setMeter_links (m : Fin 4) (x : Meter) : (s.setMeter m x).links = s.links := rfl
@[simp] theorem State.setMeter_draws (m : Fin 4) (x : Meter) : (s.setMeter m x).draws = s.draws := rfl
@[simp] theorem State.link_setMeter (m : Fin 4) (x : Meter) (k : Link) : (s.setMeter m x).link k = s.link k := rfl
@[simp] theorem State.line_setMeter (m : Fin 4) (x : Meter) (j : Fin 192) : (s.setMeter m x).line j = s.line j := rfl
@[simp] theorem State.portal_setMeter (m : Fin 4) (x : Meter) (q : Fin 4) : (s.setMeter m x).portal q = s.portal q := rfl
@[simp] theorem State.bore_setMeter (m : Fin 4) (x : Meter) (d : Fin 2) : (s.setMeter m x).bore d = s.bore d := rfl
@[simp] theorem State.zone_setMeter (m : Fin 4) (x : Meter) (y : Fin 14) : (s.setMeter m x).zone y = s.zone y := rfl

/-! ### `State.setPortal` -/

@[simp] theorem State.setPortal_pending (p : Fin 4) (x : Portal) : (s.setPortal p x).pending = s.pending := rfl
@[simp] theorem State.setPortal_inReset (p : Fin 4) (x : Portal) : (s.setPortal p x).inReset = s.inReset := rfl
@[simp] theorem State.setPortal_uptime (p : Fin 4) (x : Portal) : (s.setPortal p x).uptime = s.uptime := rfl
@[simp] theorem State.setPortal_clock (p : Fin 4) (x : Portal) : (s.setPortal p x).clock = s.clock := rfl
@[simp] theorem State.setPortal_burnDue (p : Fin 4) (x : Portal) : (s.setPortal p x).burnDue = s.burnDue := rfl
@[simp] theorem State.setPortal_sampleDue (p : Fin 4) (x : Portal) : (s.setPortal p x).sampleDue = s.sampleDue := rfl
@[simp] theorem State.setPortal_periodDue (p : Fin 4) (x : Portal) : (s.setPortal p x).periodDue = s.periodDue := rfl
@[simp] theorem State.setPortal_lines (p : Fin 4) (x : Portal) : (s.setPortal p x).lines = s.lines := rfl
@[simp] theorem State.setPortal_pins (p : Fin 4) (x : Portal) : (s.setPortal p x).pins = s.pins := rfl
@[simp] theorem State.setPortal_meters (p : Fin 4) (x : Portal) : (s.setPortal p x).meters = s.meters := rfl
@[simp] theorem State.setPortal_schedule (p : Fin 4) (x : Portal) : (s.setPortal p x).schedule = s.schedule := rfl
@[simp] theorem State.setPortal_bores (p : Fin 4) (x : Portal) : (s.setPortal p x).bores = s.bores := rfl
@[simp] theorem State.setPortal_zones (p : Fin 4) (x : Portal) : (s.setPortal p x).zones = s.zones := rfl
@[simp] theorem State.setPortal_links (p : Fin 4) (x : Portal) : (s.setPortal p x).links = s.links := rfl
@[simp] theorem State.setPortal_draws (p : Fin 4) (x : Portal) : (s.setPortal p x).draws = s.draws := rfl
@[simp] theorem State.link_setPortal (p : Fin 4) (x : Portal) (k : Link) : (s.setPortal p x).link k = s.link k := rfl
@[simp] theorem State.line_setPortal (p : Fin 4) (x : Portal) (j : Fin 192) : (s.setPortal p x).line j = s.line j := rfl
@[simp] theorem State.meter_setPortal (p : Fin 4) (x : Portal) (k : Fin 4) : (s.setPortal p x).meter k = s.meter k := rfl
@[simp] theorem State.bore_setPortal (p : Fin 4) (x : Portal) (d : Fin 2) : (s.setPortal p x).bore d = s.bore d := rfl
@[simp] theorem State.zone_setPortal (p : Fin 4) (x : Portal) (y : Fin 14) : (s.setPortal p x).zone y = s.zone y := rfl

/-! ### `State.setBore` -/

@[simp] theorem State.setBore_pending (b : Fin 2) (x : Bore) : (s.setBore b x).pending = s.pending := rfl
@[simp] theorem State.setBore_inReset (b : Fin 2) (x : Bore) : (s.setBore b x).inReset = s.inReset := rfl
@[simp] theorem State.setBore_uptime (b : Fin 2) (x : Bore) : (s.setBore b x).uptime = s.uptime := rfl
@[simp] theorem State.setBore_clock (b : Fin 2) (x : Bore) : (s.setBore b x).clock = s.clock := rfl
@[simp] theorem State.setBore_burnDue (b : Fin 2) (x : Bore) : (s.setBore b x).burnDue = s.burnDue := rfl
@[simp] theorem State.setBore_sampleDue (b : Fin 2) (x : Bore) : (s.setBore b x).sampleDue = s.sampleDue := rfl
@[simp] theorem State.setBore_periodDue (b : Fin 2) (x : Bore) : (s.setBore b x).periodDue = s.periodDue := rfl
@[simp] theorem State.setBore_lines (b : Fin 2) (x : Bore) : (s.setBore b x).lines = s.lines := rfl
@[simp] theorem State.setBore_pins (b : Fin 2) (x : Bore) : (s.setBore b x).pins = s.pins := rfl
@[simp] theorem State.setBore_meters (b : Fin 2) (x : Bore) : (s.setBore b x).meters = s.meters := rfl
@[simp] theorem State.setBore_schedule (b : Fin 2) (x : Bore) : (s.setBore b x).schedule = s.schedule := rfl
@[simp] theorem State.setBore_portals (b : Fin 2) (x : Bore) : (s.setBore b x).portals = s.portals := rfl
@[simp] theorem State.setBore_zones (b : Fin 2) (x : Bore) : (s.setBore b x).zones = s.zones := rfl
@[simp] theorem State.setBore_links (b : Fin 2) (x : Bore) : (s.setBore b x).links = s.links := rfl
@[simp] theorem State.setBore_draws (b : Fin 2) (x : Bore) : (s.setBore b x).draws = s.draws := rfl
@[simp] theorem State.link_setBore (b : Fin 2) (x : Bore) (k : Link) : (s.setBore b x).link k = s.link k := rfl
@[simp] theorem State.line_setBore (b : Fin 2) (x : Bore) (j : Fin 192) : (s.setBore b x).line j = s.line j := rfl
@[simp] theorem State.meter_setBore (b : Fin 2) (x : Bore) (k : Fin 4) : (s.setBore b x).meter k = s.meter k := rfl
@[simp] theorem State.portal_setBore (b : Fin 2) (x : Bore) (q : Fin 4) : (s.setBore b x).portal q = s.portal q := rfl
@[simp] theorem State.zone_setBore (b : Fin 2) (x : Bore) (y : Fin 14) : (s.setBore b x).zone y = s.zone y := rfl

/-! ### `State.setZone` -/

@[simp] theorem State.setZone_pending (z : Fin 14) (x : Zone) : (s.setZone z x).pending = s.pending := rfl
@[simp] theorem State.setZone_inReset (z : Fin 14) (x : Zone) : (s.setZone z x).inReset = s.inReset := rfl
@[simp] theorem State.setZone_uptime (z : Fin 14) (x : Zone) : (s.setZone z x).uptime = s.uptime := rfl
@[simp] theorem State.setZone_clock (z : Fin 14) (x : Zone) : (s.setZone z x).clock = s.clock := rfl
@[simp] theorem State.setZone_burnDue (z : Fin 14) (x : Zone) : (s.setZone z x).burnDue = s.burnDue := rfl
@[simp] theorem State.setZone_sampleDue (z : Fin 14) (x : Zone) : (s.setZone z x).sampleDue = s.sampleDue := rfl
@[simp] theorem State.setZone_periodDue (z : Fin 14) (x : Zone) : (s.setZone z x).periodDue = s.periodDue := rfl
@[simp] theorem State.setZone_lines (z : Fin 14) (x : Zone) : (s.setZone z x).lines = s.lines := rfl
@[simp] theorem State.setZone_pins (z : Fin 14) (x : Zone) : (s.setZone z x).pins = s.pins := rfl
@[simp] theorem State.setZone_meters (z : Fin 14) (x : Zone) : (s.setZone z x).meters = s.meters := rfl
@[simp] theorem State.setZone_schedule (z : Fin 14) (x : Zone) : (s.setZone z x).schedule = s.schedule := rfl
@[simp] theorem State.setZone_portals (z : Fin 14) (x : Zone) : (s.setZone z x).portals = s.portals := rfl
@[simp] theorem State.setZone_bores (z : Fin 14) (x : Zone) : (s.setZone z x).bores = s.bores := rfl
@[simp] theorem State.setZone_links (z : Fin 14) (x : Zone) : (s.setZone z x).links = s.links := rfl
@[simp] theorem State.setZone_draws (z : Fin 14) (x : Zone) : (s.setZone z x).draws = s.draws := rfl
@[simp] theorem State.link_setZone (z : Fin 14) (x : Zone) (k : Link) : (s.setZone z x).link k = s.link k := rfl
@[simp] theorem State.line_setZone (z : Fin 14) (x : Zone) (j : Fin 192) : (s.setZone z x).line j = s.line j := rfl
@[simp] theorem State.meter_setZone (z : Fin 14) (x : Zone) (k : Fin 4) : (s.setZone z x).meter k = s.meter k := rfl
@[simp] theorem State.portal_setZone (z : Fin 14) (x : Zone) (q : Fin 4) : (s.setZone z x).portal q = s.portal q := rfl
@[simp] theorem State.bore_setZone (z : Fin 14) (x : Zone) (d : Fin 2) : (s.setZone z x).bore d = s.bore d := rfl

/-! ### `State.reach` -/

@[simp] theorem State.reach_pending (e : Uptime) : (s.reach e).pending = s.pending := rfl
@[simp] theorem State.reach_inReset (e : Uptime) : (s.reach e).inReset = s.inReset := rfl
@[simp] theorem State.reach_clock (e : Uptime) : (s.reach e).clock = s.clock := rfl
@[simp] theorem State.reach_burnDue (e : Uptime) : (s.reach e).burnDue = s.burnDue := rfl
@[simp] theorem State.reach_sampleDue (e : Uptime) : (s.reach e).sampleDue = s.sampleDue := rfl
@[simp] theorem State.reach_periodDue (e : Uptime) : (s.reach e).periodDue = s.periodDue := rfl
@[simp] theorem State.reach_lines (e : Uptime) : (s.reach e).lines = s.lines := rfl
@[simp] theorem State.reach_pins (e : Uptime) : (s.reach e).pins = s.pins := rfl
@[simp] theorem State.reach_meters (e : Uptime) : (s.reach e).meters = s.meters := rfl
@[simp] theorem State.reach_schedule (e : Uptime) : (s.reach e).schedule = s.schedule := rfl
@[simp] theorem State.reach_portals (e : Uptime) : (s.reach e).portals = s.portals := rfl
@[simp] theorem State.reach_bores (e : Uptime) : (s.reach e).bores = s.bores := rfl
@[simp] theorem State.reach_zones (e : Uptime) : (s.reach e).zones = s.zones := rfl
@[simp] theorem State.reach_links (e : Uptime) : (s.reach e).links = s.links := rfl
@[simp] theorem State.reach_draws (e : Uptime) : (s.reach e).draws = s.draws := rfl
@[simp] theorem State.link_reach (e : Uptime) (k : Link) : (s.reach e).link k = s.link k := rfl
@[simp] theorem State.line_reach (e : Uptime) (j : Fin 192) : (s.reach e).line j = s.line j := rfl
@[simp] theorem State.meter_reach (e : Uptime) (k : Fin 4) : (s.reach e).meter k = s.meter k := rfl
@[simp] theorem State.portal_reach (e : Uptime) (q : Fin 4) : (s.reach e).portal q = s.portal q := rfl
@[simp] theorem State.bore_reach (e : Uptime) (d : Fin 2) : (s.reach e).bore d = s.bore d := rfl
@[simp] theorem State.zone_reach (e : Uptime) (y : Fin 14) : (s.reach e).zone y = s.zone y := rfl

/-! ### `State.raise` -/

@[simp] theorem State.raise_pending (n : Notice) : (s.raise n).pending = s.pending := rfl
@[simp] theorem State.raise_inReset (n : Notice) : (s.raise n).inReset = s.inReset := rfl
@[simp] theorem State.raise_uptime (n : Notice) : (s.raise n).uptime = s.uptime := rfl
@[simp] theorem State.raise_clock (n : Notice) : (s.raise n).clock = s.clock := rfl
@[simp] theorem State.raise_burnDue (n : Notice) : (s.raise n).burnDue = s.burnDue := rfl
@[simp] theorem State.raise_sampleDue (n : Notice) : (s.raise n).sampleDue = s.sampleDue := rfl
@[simp] theorem State.raise_periodDue (n : Notice) : (s.raise n).periodDue = s.periodDue := rfl
@[simp] theorem State.raise_lines (n : Notice) : (s.raise n).lines = s.lines := rfl
@[simp] theorem State.raise_pins (n : Notice) : (s.raise n).pins = s.pins := rfl
@[simp] theorem State.raise_meters (n : Notice) : (s.raise n).meters = s.meters := rfl
@[simp] theorem State.raise_schedule (n : Notice) : (s.raise n).schedule = s.schedule := rfl
@[simp] theorem State.raise_portals (n : Notice) : (s.raise n).portals = s.portals := rfl
@[simp] theorem State.raise_bores (n : Notice) : (s.raise n).bores = s.bores := rfl
@[simp] theorem State.raise_zones (n : Notice) : (s.raise n).zones = s.zones := rfl
@[simp] theorem State.raise_draws (n : Notice) : (s.raise n).draws = s.draws := rfl
@[simp] theorem State.line_raise (n : Notice) (j : Fin 192) : (s.raise n).line j = s.line j := rfl
@[simp] theorem State.meter_raise (n : Notice) (k : Fin 4) : (s.raise n).meter k = s.meter k := rfl
@[simp] theorem State.portal_raise (n : Notice) (q : Fin 4) : (s.raise n).portal q = s.portal q := rfl
@[simp] theorem State.bore_raise (n : Notice) (d : Fin 2) : (s.raise n).bore d = s.bore d := rfl
@[simp] theorem State.zone_raise (n : Notice) (y : Fin 14) : (s.raise n).zone y = s.zone y := rfl

/-! ### `State.arbitrate` -/

@[simp] theorem State.arbitrate_pending : (s.arbitrate).pending = s.pending := rfl
@[simp] theorem State.arbitrate_inReset : (s.arbitrate).inReset = s.inReset := rfl
@[simp] theorem State.arbitrate_uptime : (s.arbitrate).uptime = s.uptime := rfl
@[simp] theorem State.arbitrate_clock : (s.arbitrate).clock = s.clock := rfl
@[simp] theorem State.arbitrate_burnDue : (s.arbitrate).burnDue = s.burnDue := rfl
@[simp] theorem State.arbitrate_sampleDue : (s.arbitrate).sampleDue = s.sampleDue := rfl
@[simp] theorem State.arbitrate_periodDue : (s.arbitrate).periodDue = s.periodDue := rfl
@[simp] theorem State.arbitrate_lines : (s.arbitrate).lines = s.lines := rfl
@[simp] theorem State.arbitrate_pins : (s.arbitrate).pins = s.pins := rfl
@[simp] theorem State.arbitrate_meters : (s.arbitrate).meters = s.meters := rfl
@[simp] theorem State.arbitrate_schedule : (s.arbitrate).schedule = s.schedule := rfl
@[simp] theorem State.arbitrate_portals : (s.arbitrate).portals = s.portals := rfl
@[simp] theorem State.arbitrate_bores : (s.arbitrate).bores = s.bores := rfl
@[simp] theorem State.arbitrate_zones : (s.arbitrate).zones = s.zones := rfl
@[simp] theorem State.arbitrate_draws : (s.arbitrate).draws = s.draws := rfl
@[simp] theorem State.line_arbitrate (j : Fin 192) : (s.arbitrate).line j = s.line j := rfl
@[simp] theorem State.meter_arbitrate (k : Fin 4) : (s.arbitrate).meter k = s.meter k := rfl
@[simp] theorem State.portal_arbitrate (q : Fin 4) : (s.arbitrate).portal q = s.portal q := rfl
@[simp] theorem State.bore_arbitrate (d : Fin 2) : (s.arbitrate).bore d = s.bore d := rfl
@[simp] theorem State.zone_arbitrate (y : Fin 14) : (s.arbitrate).zone y = s.zone y := rfl

/-! ### `State.place` -/

@[simp] theorem State.place_pending (l : Link) (r : Response) : (s.place l r).pending = s.pending := rfl
@[simp] theorem State.place_inReset (l : Link) (r : Response) : (s.place l r).inReset = s.inReset := rfl
@[simp] theorem State.place_uptime (l : Link) (r : Response) : (s.place l r).uptime = s.uptime := rfl
@[simp] theorem State.place_clock (l : Link) (r : Response) : (s.place l r).clock = s.clock := rfl
@[simp] theorem State.place_burnDue (l : Link) (r : Response) : (s.place l r).burnDue = s.burnDue := rfl
@[simp] theorem State.place_sampleDue (l : Link) (r : Response) : (s.place l r).sampleDue = s.sampleDue := rfl
@[simp] theorem State.place_periodDue (l : Link) (r : Response) : (s.place l r).periodDue = s.periodDue := rfl
@[simp] theorem State.place_lines (l : Link) (r : Response) : (s.place l r).lines = s.lines := rfl
@[simp] theorem State.place_pins (l : Link) (r : Response) : (s.place l r).pins = s.pins := rfl
@[simp] theorem State.place_meters (l : Link) (r : Response) : (s.place l r).meters = s.meters := rfl
@[simp] theorem State.place_schedule (l : Link) (r : Response) : (s.place l r).schedule = s.schedule := rfl
@[simp] theorem State.place_portals (l : Link) (r : Response) : (s.place l r).portals = s.portals := rfl
@[simp] theorem State.place_bores (l : Link) (r : Response) : (s.place l r).bores = s.bores := rfl
@[simp] theorem State.place_zones (l : Link) (r : Response) : (s.place l r).zones = s.zones := rfl
@[simp] theorem State.place_draws (l : Link) (r : Response) : (s.place l r).draws = s.draws := rfl
@[simp] theorem State.line_place (l : Link) (r : Response) (j : Fin 192) : (s.place l r).line j = s.line j := rfl
@[simp] theorem State.meter_place (l : Link) (r : Response) (k : Fin 4) : (s.place l r).meter k = s.meter k := rfl
@[simp] theorem State.portal_place (l : Link) (r : Response) (q : Fin 4) : (s.place l r).portal q = s.portal q := rfl
@[simp] theorem State.bore_place (l : Link) (r : Response) (d : Fin 2) : (s.place l r).bore d = s.bore d := rfl
@[simp] theorem State.zone_place (l : Link) (r : Response) (y : Fin 14) : (s.place l r).zone y = s.zone y := rfl

/-! ### `State.putZone` -/

@[simp] theorem State.putZone_pending (z : Fin 14) (x : Zone) : (s.putZone z x).pending = s.pending := rfl
@[simp] theorem State.putZone_inReset (z : Fin 14) (x : Zone) : (s.putZone z x).inReset = s.inReset := rfl
@[simp] theorem State.putZone_uptime (z : Fin 14) (x : Zone) : (s.putZone z x).uptime = s.uptime := rfl
@[simp] theorem State.putZone_clock (z : Fin 14) (x : Zone) : (s.putZone z x).clock = s.clock := rfl
@[simp] theorem State.putZone_burnDue (z : Fin 14) (x : Zone) : (s.putZone z x).burnDue = s.burnDue := rfl
@[simp] theorem State.putZone_sampleDue (z : Fin 14) (x : Zone) : (s.putZone z x).sampleDue = s.sampleDue := rfl
@[simp] theorem State.putZone_periodDue (z : Fin 14) (x : Zone) : (s.putZone z x).periodDue = s.periodDue := rfl
@[simp] theorem State.putZone_pins (z : Fin 14) (x : Zone) : (s.putZone z x).pins = s.pins := rfl
@[simp] theorem State.putZone_meters (z : Fin 14) (x : Zone) : (s.putZone z x).meters = s.meters := rfl
@[simp] theorem State.putZone_schedule (z : Fin 14) (x : Zone) : (s.putZone z x).schedule = s.schedule := rfl
@[simp] theorem State.putZone_portals (z : Fin 14) (x : Zone) : (s.putZone z x).portals = s.portals := rfl
@[simp] theorem State.putZone_bores (z : Fin 14) (x : Zone) : (s.putZone z x).bores = s.bores := rfl
@[simp] theorem State.putZone_links (z : Fin 14) (x : Zone) : (s.putZone z x).links = s.links := rfl
@[simp] theorem State.putZone_draws (z : Fin 14) (x : Zone) : (s.putZone z x).draws = s.draws := rfl
@[simp] theorem State.link_putZone (z : Fin 14) (x : Zone) (k : Link) : (s.putZone z x).link k = s.link k := rfl
@[simp] theorem State.meter_putZone (z : Fin 14) (x : Zone) (k : Fin 4) : (s.putZone z x).meter k = s.meter k := rfl
@[simp] theorem State.portal_putZone (z : Fin 14) (x : Zone) (q : Fin 4) : (s.putZone z x).portal q = s.portal q := rfl
@[simp] theorem State.bore_putZone (z : Fin 14) (x : Zone) (d : Fin 2) : (s.putZone z x).bore d = s.bore d := rfl

/-! ### A record read after it is written -/

@[simp] theorem State.line_setLine_self (i : Fin 192) (x : Line) : (s.setLine i x).line i = x :=
  Tab.get_put_self _ _ _

theorem State.line_setLine (i j : Fin 192) (x : Line) : (s.setLine i x).line j = if j = i then x else s.line j :=
  Tab.get_put _ _ _ _

theorem State.line_setLine_ne {i j : Fin 192} (h : j ≠ i) (x : Line) : (s.setLine i x).line j = s.line j :=
  Tab.get_put_ne _ h _

/-- Writing back the record that is held changes nothing. -/
@[simp] theorem State.setLine_same (i : Fin 192) : s.setLine i (s.line i) = s := by
  unfold State.setLine State.line
  rw [Tab.put_get]

@[simp] theorem State.meter_setMeter_self (i : Fin 4) (x : Meter) : (s.setMeter i x).meter i = x :=
  Tab.get_put_self _ _ _

theorem State.meter_setMeter (i j : Fin 4) (x : Meter) : (s.setMeter i x).meter j = if j = i then x else s.meter j :=
  Tab.get_put _ _ _ _

theorem State.meter_setMeter_ne {i j : Fin 4} (h : j ≠ i) (x : Meter) : (s.setMeter i x).meter j = s.meter j :=
  Tab.get_put_ne _ h _

/-- Writing back the record that is held changes nothing. -/
@[simp] theorem State.setMeter_same (i : Fin 4) : s.setMeter i (s.meter i) = s := by
  unfold State.setMeter State.meter
  rw [Tab.put_get]

@[simp] theorem State.portal_setPortal_self (i : Fin 4) (x : Portal) : (s.setPortal i x).portal i = x :=
  Tab.get_put_self _ _ _

theorem State.portal_setPortal (i j : Fin 4) (x : Portal) : (s.setPortal i x).portal j = if j = i then x else s.portal j :=
  Tab.get_put _ _ _ _

theorem State.portal_setPortal_ne {i j : Fin 4} (h : j ≠ i) (x : Portal) : (s.setPortal i x).portal j = s.portal j :=
  Tab.get_put_ne _ h _

/-- Writing back the record that is held changes nothing. -/
@[simp] theorem State.setPortal_same (i : Fin 4) : s.setPortal i (s.portal i) = s := by
  unfold State.setPortal State.portal
  rw [Tab.put_get]

@[simp] theorem State.bore_setBore_self (i : Fin 2) (x : Bore) : (s.setBore i x).bore i = x :=
  Tab.get_put_self _ _ _

theorem State.bore_setBore (i j : Fin 2) (x : Bore) : (s.setBore i x).bore j = if j = i then x else s.bore j :=
  Tab.get_put _ _ _ _

theorem State.bore_setBore_ne {i j : Fin 2} (h : j ≠ i) (x : Bore) : (s.setBore i x).bore j = s.bore j :=
  Tab.get_put_ne _ h _

/-- Writing back the record that is held changes nothing. -/
@[simp] theorem State.setBore_same (i : Fin 2) : s.setBore i (s.bore i) = s := by
  unfold State.setBore State.bore
  rw [Tab.put_get]

@[simp] theorem State.zone_setZone_self (i : Fin 14) (x : Zone) : (s.setZone i x).zone i = x :=
  Tab.get_put_self _ _ _

theorem State.zone_setZone (i j : Fin 14) (x : Zone) : (s.setZone i x).zone j = if j = i then x else s.zone j :=
  Tab.get_put _ _ _ _

theorem State.zone_setZone_ne {i j : Fin 14} (h : j ≠ i) (x : Zone) : (s.setZone i x).zone j = s.zone j :=
  Tab.get_put_ne _ h _

/-- Writing back the record that is held changes nothing. -/
@[simp] theorem State.setZone_same (i : Fin 14) : s.setZone i (s.zone i) = s := by
  unfold State.setZone State.zone
  rw [Tab.put_get]

/-- The three links are held at three numbers. -/
theorem Link.index_injective {l k : Link} (h : Link.index l = Link.index k) : l = k := by
  cases l <;> cases k <;> first | rfl | exact absurd h (by decide)

@[simp] theorem State.link_setLink_self (l : Link) (x : LinkRec) : (s.setLink l x).link l = x :=
  Tab.get_put_self _ _ _

theorem State.link_setLink_ne {l k : Link} (h : k ≠ l) (x : LinkRec) : (s.setLink l x).link k = s.link k :=
  Tab.get_put_ne _ (fun e => h (Link.index_injective e)) _

theorem State.link_setLink (l k : Link) (x : LinkRec) :
    (s.setLink l x).link k = if k = l then x else s.link k := by
  split
  · next h => subst h; exact s.link_setLink_self k x
  · next h => exact s.link_setLink_ne h x

/-- Writing back the link record that is held changes nothing. -/
@[simp] theorem State.setLink_same (l : Link) : s.setLink l (s.link l) = s := by
  unfold State.setLink State.link
  rw [Tab.put_get]

/-- A notice raised reaches each link as a delivery to it (R174). -/
@[simp] theorem State.link_raise (n : Notice) (l : Link) : (s.raise n).link l = (s.link l).deliver n :=
  Tab.get_mapWith _ _ _

/-- The choice of frames acts on each link by itself (R173). -/
@[simp] theorem State.link_arbitrate (l : Link) : s.arbitrate.link l = (s.link l).arbitrate s.uptime :=
  Tab.get_mapWith _ _ _

/-- A response placed joins the list of its own link and of no other (R172). -/
theorem State.link_place (l k : Link) (r : Response) :
    (s.place l r).link k = if k = l then (s.link l).place r else s.link k :=
  s.link_setLink l k _

@[simp] theorem State.link_place_self (l : Link) (r : Response) : (s.place l r).link l = (s.link l).place r :=
  s.link_setLink_self l _

/-- A zone record written with its outputs reads as written. -/
@[simp] theorem State.zone_putZone_self (z : Fin 14) (x : Zone) : (s.putZone z x).zone z = x :=
  Tab.get_put_self _ _ _

theorem State.zone_putZone (z y : Fin 14) (x : Zone) : (s.putZone z x).zone y = if y = z then x else s.zone y :=
  Tab.get_put _ _ _ _

/-- Two states with equal fields are equal. -/
theorem State.ext_fields {t u : State} (h1 : t.pending = u.pending) (h2 : t.inReset = u.inReset)
    (h3 : t.uptime = u.uptime) (h4 : t.clock = u.clock) (h5 : t.burnDue = u.burnDue) (h6 : t.sampleDue = u.sampleDue)
    (h7 : t.periodDue = u.periodDue) (h8 : t.lines = u.lines) (h9 : t.pins = u.pins) (h10 : t.meters = u.meters)
    (h11 : t.schedule = u.schedule) (h12 : t.portals = u.portals) (h13 : t.bores = u.bores) (h14 : t.zones = u.zones)
    (h15 : t.links = u.links) (h16 : t.draws = u.draws) : t = u := by
  cases t; cases u; simp_all

end Sys2Proof.Machine
end

