-- ==== Sys2Proof/Laws/Acts.lean ====
section
/-! SUPPORT. What the shared operations of the portal channels, bore units, zones and circuits leave alone: the
queue of waiting commands, the time base, the pins, the meters, the schedule, and everything of the links but
notices delivered and responses placed. One relation, `State.Acts`, says so once; one lemma for each operation. -/

namespace Sys2Proof.Machine

/-- A link record that has had notices delivered and responses placed, and nothing else (R172, R174). -/
inductive LinkRec.Grows : LinkRec → LinkRec → Prop where
  | refl (x : LinkRec) : LinkRec.Grows x x
  | deliver {x y : LinkRec} (n : Notice) : LinkRec.Grows x y → LinkRec.Grows x (y.deliver n)
  | place {x y : LinkRec} (r : Response) : LinkRec.Grows x y → LinkRec.Grows x (y.place r)

theorem LinkRec.Grows.trans {x y z : LinkRec} (h : LinkRec.Grows x y) (k : LinkRec.Grows y z) :
    LinkRec.Grows x z := by
  induction k with
  | refl => exact h
  | deliver n _ ih => exact ih.deliver n
  | place r _ ih => exact ih.place r

/-- A property of link records that deliveries and placings keep is kept by growth. -/
theorem LinkRec.Grows.keeps {P : LinkRec → Prop} (hd : ∀ x n, P x → P (LinkRec.deliver x n))
    (hp : ∀ x r, P x → P (LinkRec.place x r)) {x y : LinkRec} (h : LinkRec.Grows x y) : P x → P y := by
  intro hx
  induction h with
  | refl => exact hx
  | deliver n _ ih => exact hd _ n ih
  | place r _ ih => exact hp _ r ih

/-- Framer, request queue, transmitter and mask do not change as a link record grows. -/
theorem LinkRec.Grows.same {x y : LinkRec} (h : LinkRec.Grows x y) :
    y.framer = x.framer ∧ y.requests = x.requests ∧ y.transmitter = x.transmitter ∧ y.mask = x.mask := by
  induction h with
  | refl => exact ⟨rfl, rfl, rfl, rfl⟩
  | deliver n _ ih => exact ih
  | place r _ ih => exact ih

/-- The second state is the first with lines, portals, bores and zones possibly changed, notices raised and
responses placed, and nothing else. -/
structure State.Acts (s t : State) : Prop where
  pending : t.pending = s.pending
  inReset : t.inReset = s.inReset
  uptime : t.uptime = s.uptime
  clock : t.clock = s.clock
  burnDue : t.burnDue = s.burnDue
  sampleDue : t.sampleDue = s.sampleDue
  periodDue : t.periodDue = s.periodDue
  pins : t.pins = s.pins
  meters : t.meters = s.meters
  schedule : t.schedule = s.schedule
  draws : t.draws = s.draws
  links : ∀ l, LinkRec.Grows (s.link l) (t.link l)

theorem State.Acts.refl (s : State) : s.Acts s :=
  ⟨rfl, rfl, rfl, rfl, rfl, rfl, rfl, rfl, rfl, rfl, rfl, fun _ => .refl _⟩

theorem State.Acts.trans {s t u : State} (h : s.Acts t) (k : t.Acts u) : s.Acts u :=
  ⟨k.pending.trans h.pending, k.inReset.trans h.inReset, k.uptime.trans h.uptime, k.clock.trans h.clock,
   k.burnDue.trans h.burnDue, k.sampleDue.trans h.sampleDue, k.periodDue.trans h.periodDue, k.pins.trans h.pins,
   k.meters.trans h.meters, k.schedule.trans h.schedule, k.draws.trans h.draws,
   fun l => (h.links l).trans (k.links l)⟩

/-- Writing lines, portals, bores and zones acts. -/
theorem State.Acts.records (s : State) (ls : Tab 192 Line) (ps : Tab 4 Portal) (bs : Tab 2 Bore) (zs : Tab 14 Zone) :
    s.Acts { s with lines := ls, portals := ps, bores := bs, zones := zs } :=
  ⟨rfl, rfl, rfl, rfl, rfl, rfl, rfl, rfl, rfl, rfl, rfl, fun _ => .refl _⟩

/-- An operation repeated over a list acts if it acts each time. -/
theorem State.Acts.foldl {α : Type} {f : State → α → State} (hf : ∀ s a, State.Acts s (f s a)) (as : List α) (s : State) :
    s.Acts (as.foldl f s) := by
  induction as generalizing s with
  | nil => exact .refl s
  | cons a as ih => exact (hf s a).trans (ih _)

/-- A choice between two operations acts if both do. -/
theorem State.Acts.ite {c : Prop} [Decidable c] {s t u : State} (h : s.Acts t) (k : s.Acts u) :
    s.Acts (if c then t else u) := by
  split
  · exact h
  · exact k

variable (s : State)

/-! ### Writing records, notices and responses -/

theorem State.acts_setLine (i : Fin 192) (x : Line) : s.Acts (s.setLine i x) :=
  .records s _ _ _ _

theorem State.acts_setPortal (p : Fin 4) (x : Portal) : s.Acts (s.setPortal p x) :=
  .records s _ _ _ _

theorem State.acts_setBore (b : Fin 2) (x : Bore) : s.Acts (s.setBore b x) :=
  .records s _ _ _ _

theorem State.acts_setZone (z : Fin 14) (x : Zone) : s.Acts (s.setZone z x) :=
  .records s _ _ _ _

theorem State.acts_putZone (z : Fin 14) (x : Zone) : s.Acts (s.putZone z x) :=
  .records s _ _ _ _

theorem State.acts_raise (n : Notice) : s.Acts (s.raise n) :=
  { State.Acts.refl s with links := fun l => by rw [s.link_raise n l]; exact .deliver n (.refl _) }

theorem State.acts_place (l : Link) (r : Response) : s.Acts (s.place l r) :=
  { State.Acts.refl s with
    links := fun k => by
      rw [s.link_place]
      split
      · next h => subst h; exact .place r (.refl _)
      · exact .refl _ }

theorem State.acts_raisePortalState (p : Fin 4) : s.Acts (s.raisePortalState p) := s.acts_raise _

theorem State.acts_raiseTrafficState (b : Fin 2) : s.Acts (s.raiseTrafficState b) := s.acts_raise _

theorem State.acts_raiseFaultChange (z : Fin 14) (was : Zone) : s.Acts (s.raiseFaultChange z was) :=
  .ite (.refl s) (s.acts_raise _)

theorem State.acts_answerAction (p : Fin 4) (a : PendingAction) (d : Disposition) : s.Acts (s.answerAction p a d) :=
  .ite (s.acts_place _ _) (.refl s)

/-! ### Zones -/

theorem State.acts_testShortfall (z : Fin 14) : s.Acts (s.testShortfall z) :=
  .ite (.refl s) ((s.acts_setZone _ _).trans (State.acts_raise _ _))

theorem State.acts_allocateNormal (z : Fin 14) : s.Acts (s.allocateNormal z) :=
  (s.acts_putZone _ _).trans (State.acts_testShortfall _ z)

theorem State.acts_light (z : Fin 14) : s.Acts (s.light z) :=
  (s.acts_putZone _ _).trans (State.acts_testShortfall _ z)

theorem State.acts_supervise (z : Fin 14) : s.Acts (s.supervise z) :=
  .records s _ _ _ _

theorem State.acts_clearZone (z : Fin 14) : s.Acts (s.clearZone z) := by
  refine .ite (State.Acts.trans (t := { s.setZone z _ with lines := _ }) ?_ (State.acts_raise _ _)) ?_
  · exact .records s _ _ _ _
  · exact .records s _ _ _ _

/-! ### Sources -/

theorem State.acts_pullOffOne (q : Fin 4) : s.Acts (s.pullOffOne q) :=
  (s.acts_setPortal _ _).trans (State.acts_raise _ _)

theorem State.acts_pullOff (p : Fin 4) : s.Acts (s.pullOff p) :=
  .foldl State.acts_pullOffOne _ s

theorem State.acts_setSource (p : Fin 4) (source : Source) (access : Option Nat) :
    s.Acts (s.setSource p source access) := by
  have h : s.Acts (s.setPortal p ((s.portal p).withSource source access)) := s.acts_setPortal _ _
  unfold State.setSource
  refine .ite (State.Acts.trans ?_ (State.acts_pullOff _ p)) ?_ <;>
    exact .ite h (h.trans (State.acts_raise _ _))

theorem State.acts_dropSource (p : Fin 4) : s.Acts (s.dropSource p) := by
  have h : s.Acts (s.setPortal p { s.portal p with source := none, access := none }) := s.acts_setPortal _ _
  unfold State.dropSource
  refine .ite (State.Acts.trans ?_ (State.acts_pullOff _ p)) ?_ <;>
    exact .ite (h.trans (State.acts_raise _ _)) h

/-! ### The interior condition -/

theorem State.acts_setCondition (b : Fin 2) (c : Condition) : s.Acts (s.setCondition b c) := s.acts_setBore _ _

theorem State.acts_lightInterior (b : Fin 2) : s.Acts (s.lightInterior b) :=
  .ite (s.acts_light _) (.refl s)

theorem State.acts_workCondition (b : Fin 2) : s.Acts (s.workCondition b) := by
  unfold State.workCondition
  split
  · exact .refl s
  · exact (s.acts_setCondition _ _).trans (State.acts_supervise _ _)
  · exact ((s.acts_setCondition _ _).trans (State.acts_supervise _ _)).trans (State.acts_lightInterior _ _)
  · exact (s.acts_setCondition _ _).trans (State.acts_clearZone _ _)
  · exact .refl s
  · exact (s.acts_setCondition _ _).trans (State.acts_lightInterior _ _)
  · exact (s.acts_setCondition _ _).trans (State.acts_clearZone _ _)
  · exact s.acts_setCondition _ _
  · exact .refl s

/-! ### Changes of a portal's state -/

theorem State.acts_setPortalState (p : Fin 4) (st : PortalState) : s.Acts (s.setPortalState p st) :=
  s.acts_setPortal _ _

theorem State.acts_removeAction (p : Fin 4) : s.Acts (s.removeAction p) := s.acts_setPortal _ _

theorem State.acts_abandonAction (p : Fin 4) : s.Acts (s.abandonAction p) := by
  unfold State.abandonAction
  split
  · exact .refl s
  · exact (s.acts_answerAction _ _ _).trans (State.acts_removeAction _ _)

theorem State.acts_dropPreviews (p : Fin 4) : s.Acts (s.dropPreviews p) :=
  .foldl (fun t z => t.acts_setZone z _) _ s

theorem State.acts_enterOffline (p : Fin 4) : s.Acts (s.enterOffline p) :=
  ((((s.acts_setPortal p _).trans (State.acts_dropSource _ p)).trans (.foldl State.acts_clearZone _ _)).trans
    (State.acts_raisePortalState _ p)).trans (State.acts_workCondition _ _)

theorem State.acts_enterEmergency (p : Fin 4) : s.Acts (s.enterEmergency p) :=
  (((((s.acts_abandonAction p).trans (State.acts_setPortal _ p _)).trans (State.acts_dropPreviews _ p)).trans
    (State.acts_setPortalState _ p _)).trans (State.acts_raisePortalState _ p)).trans (.foldl State.acts_light _ _)

theorem State.acts_enterHeld (p : Fin 4) : s.Acts (s.enterHeld p) :=
  (((s.acts_setPortal p _).trans (.foldl State.acts_supervise _ _)).trans (State.acts_raisePortalState _ p)).trans
    (State.acts_workCondition _ _)

/-! ### Emergency set and clear -/

theorem State.acts_reachPortal (p : Fin 4) : s.Acts (s.reachPortal p) := by
  unfold State.reachPortal
  split <;> first | exact s.acts_enterEmergency p | exact .refl s

theorem State.acts_emergencyInterior (b : Fin 2) : s.Acts (s.emergencyInterior b) :=
  .ite ((s.acts_workCondition b).trans (State.acts_light _ _)) (s.acts_workCondition b)

theorem State.acts_emergencyOne (b : Fin 2) : s.Acts (s.emergencyOne b).1 := by
  unfold State.emergencyOne
  split
  · exact .refl s
  · exact (((s.acts_setBore b _).trans (.foldl State.acts_reachPortal _ _)).trans
      (State.acts_emergencyInterior _ b)).trans (State.acts_raiseTrafficState _ b)

theorem State.acts_returnPortal (p : Fin 4) : s.Acts (s.returnPortal p) :=
  .ite ((s.acts_setPortalState _ _).trans (State.acts_raisePortalState _ _)) (.refl s)

theorem State.acts_clearOne (b : Fin 2) : s.Acts (s.clearOne b).1 := by
  unfold State.clearOne
  split
  · exact (((s.acts_setBore b _).trans (.foldl State.acts_returnPortal _ _)).trans
      (State.acts_workCondition _ b)).trans (State.acts_raiseTrafficState _ b)
  · exact .refl s

/-! ### Evaluations -/

theorem State.acts_holdNow (p : Fin 4) (a : PendingAction) : s.Acts (s.holdNow p a) :=
  ((((s.acts_setPortalState p _).trans (State.acts_raisePortalState _ p)).trans (State.acts_removeAction _ p)).trans
    (State.acts_answerAction _ p a _)).trans (State.acts_workCondition _ _)

theorem State.acts_releaseNow (p : Fin 4) (a : PendingAction) : s.Acts (s.releaseNow p a) :=
  .ite
    ((((s.acts_removeAction p).trans (State.acts_answerAction _ p a _)).trans (State.acts_enterEmergency _ p)).trans
      (State.acts_workCondition _ _))
    (((((s.acts_setPortalState p _).trans (State.acts_raisePortalState _ p)).trans
      (State.acts_removeAction _ p)).trans (State.acts_answerAction _ p a _)).trans (State.acts_workCondition _ _))

theorem State.acts_stopNow (p : Fin 4) (a : PendingAction) : s.Acts (s.stopNow p a) :=
  .ite (.refl s)
    (((s.acts_enterOffline p).trans (State.acts_removeAction _ p)).trans (State.acts_answerAction _ p a _))

theorem State.acts_takeAction (p : Fin 4) : s.Acts (s.takeAction p) := by
  unfold State.takeAction
  split
  · exact .refl s
  · split
    · exact s.acts_holdNow p _
    · exact s.acts_releaseNow p _
    · exact s.acts_stopNow p _

theorem State.acts_advanceRotation (z : Fin 14) : s.Acts (s.advanceRotation z) := s.acts_setZone _ _

theorem State.acts_testNight (p : Fin 4) (plan : Plan) : s.Acts (s.testNight p plan) := by
  unfold State.testNight
  refine .ite (.refl s) ?_
  split
  · exact .refl s
  · exact .ite ((s.acts_setPortal p _).trans (.foldl State.acts_advanceRotation _ _)) (s.acts_setPortal p _)

theorem State.acts_driveZone (z : Fin 14) (frozen : Bool) (rise fall demand : Nat) :
    s.Acts (s.driveZone z frozen rise fall demand) :=
  (s.acts_setZone z _).trans (State.acts_allocateNormal _ z)

theorem State.acts_actHeld (p : Fin 4) : s.Acts (s.actHeld p) := .foldl State.acts_testShortfall _ s

theorem State.acts_previewZone (z : Fin 14) (demand : Nat) : s.Acts (s.previewZone z demand) := s.acts_setZone _ _

theorem State.acts_actDryRun (p : Fin 4) : s.Acts (s.actDryRun p) := by
  unfold State.actDryRun
  split
  · exact s.acts_actHeld p
  · split
    · exact s.acts_actHeld p
    · exact (((s.acts_previewZone _ _).trans (State.acts_previewZone _ _ _)).trans
        (State.acts_previewZone _ _ _)).trans (State.acts_actHeld _ p)

theorem State.acts_emergencyZone (z : Fin 14) : s.Acts (s.emergencyZone z) :=
  (s.acts_setZone z _).trans (State.acts_light _ z)

theorem State.acts_act (p : Fin 4) (plan : Plan) : s.Acts (s.act p plan) := by
  unfold State.act
  split
  · exact .refl s
  · exact s.acts_actHeld p
  · exact s.acts_actDryRun p
  · exact ((s.acts_driveZone _ _ _ _ _).trans (State.acts_driveZone _ _ _ _ _ _)).trans
      (State.acts_driveZone _ _ _ _ _ _)
  · exact .foldl State.acts_emergencyZone _ s

theorem State.acts_evaluateSteps (p : Fin 4) : s.Acts (s.evaluateSteps p) := by
  unfold State.evaluateSteps
  split
  · exact .refl s
  · exact ((((s.acts_setPortal p _).trans (State.acts_setSource _ p _ _)).trans (State.acts_testNight _ p _)).trans
      (State.acts_setPortal _ p _)).trans (State.acts_act _ p _)

theorem State.acts_evaluatePortal (p : Fin 4) : s.Acts (s.evaluatePortal p) :=
  .ite (s.acts_takeAction p) ((s.acts_takeAction p).trans (State.acts_evaluateSteps _ p))

theorem State.acts_driveInterior (b : Fin 2) (c : InteriorCase) : s.Acts (s.driveInterior b c) := by
  unfold State.driveInterior
  split <;> exact s.acts_driveZone _ _ _ _ _

theorem State.acts_interiorNightEntry (b : Fin 2) (was : Bool) : s.Acts (s.interiorNightEntry b was) :=
  .ite (s.acts_advanceRotation _) (.refl s)

theorem State.acts_actInterior (b : Fin 2) (c : InteriorCase) (was : Bool) : s.Acts (s.actInterior b c was) := by
  unfold State.actInterior
  split
  · exact (s.acts_interiorNightEntry b was).trans
      (.ite ((State.acts_setZone _ _ _).trans (State.acts_light _ _)) (State.acts_driveInterior _ b c))
  · exact (s.acts_setZone _ _).trans (State.acts_testShortfall _ _)
  · exact .refl s

theorem State.acts_evaluateBore (b : Fin 2) : s.Acts (s.evaluateBore b) :=
  (s.acts_setBore b _).trans (State.acts_actInterior _ b _ _)

end Sys2Proof.Machine
end

