-- ==== Sys2Proof/Laws/Engine.lean ====
section
/-! SUPPORT. What one event and one take by a request engine can do. -/

namespace Sys2Proof.Machine

variable (s : State)

/-! ### One event (R158, R173) -/

/-- A part held in reset takes no event. -/
theorem State.event_held {s : State} (h : s.inReset = true) (f : State → State) : s.event f = s := by
  simp [State.event, h]

/-- An event of an awake part acts on the arbitrated state and arbitrates at its end. -/
theorem State.event_awake {s : State} (h : s.inReset = false) (f : State → State) :
    s.event f = (f s.arbitrate).arbitrate := by
  simp [State.event, h]

/-- An event of a settled part is its effect and the arbitration at its end. -/
theorem State.event_settled {s : State} (h : s.Settled) (f : State → State) : s.event f = (f s).arbitrate := by
  rw [State.event_awake h.1, h.2]

/-- A transmitter that has chosen has nothing more to choose. -/
theorem LinkRec.arbitrate_arbitrate (now : Uptime) (x : LinkRec) :
    (x.arbitrate now).arbitrate now = x.arbitrate now := by
  unfold LinkRec.arbitrate
  cases hx : x.transmitter with
  | idle =>
    simp only [LinkRec.beginNext]
    cases hr : x.responses with
    | cons r rest => simp
    | nil =>
      cases hn : x.notices with
      | cons n rest => simp
      | nil => simp
  | sending f e => simp [hx]
  | silent => simp [hx]

@[simp] theorem State.arbitrate_arbitrate : s.arbitrate.arbitrate = s.arbitrate := by
  have h : s.arbitrate.arbitrate.links = s.arbitrate.links := by
    refine Tab.ext_get fun i => ?_
    simp only [State.arbitrate, Tab.get_mapWith]
    exact LinkRec.arbitrate_arbitrate _ _
  exact State.ext_fields rfl rfl rfl rfl rfl rfl rfl rfl rfl rfl rfl rfl rfl rfl h rfl

/-- After an event of an awake part no IDLE transmitter has a frame to begin. -/
theorem State.event_arbitrated {s : State} (h : s.inReset = false) (f : State → State) :
    (s.event f).arbitrate = s.event f := by
  rw [State.event_awake h, State.arbitrate_arbitrate]

/-- The choice of frames keeps the reset flag, and an event keeps it where its effect does. -/
theorem State.event_inReset {s : State} {f : State → State} (hf : ∀ t, (f t).inReset = t.inReset) :
    (s.event f).inReset = s.inReset := by
  unfold State.event
  split
  · rfl
  · exact hf s.arbitrate

/-- The choice of frames keeps the queue of waiting commands, and an event keeps it where its effect does. -/
theorem State.event_pending {s : State} {f : State → State} (hf : ∀ t, (f t).pending = t.pending) :
    (s.event f).pending = s.pending := by
  unfold State.event
  split
  · rfl
  · exact hf s.arbitrate

/-! ### One take (R167 to R172) -/

/-- A take of the request that the engine is offered. -/
theorem State.take_offered {s : State} {l : Link} {r : Request} (h : s.Offers l r) {mine : Request → Bool}
    (hm : mine r = true) (act : Handler) :
    s.take l mine act = ((act r (s.popRequest l)).1.respond l r (act r (s.popRequest l)).2).arbitrate := by
  unfold State.take
  rw [State.event_settled h.1]
  simp [h.2, hm]

/-- A take of another row's request does nothing. -/
theorem State.take_other {s : State} {l : Link} {r : Request} (h : s.Offers l r) {mine : Request → Bool}
    (hm : mine r = false) (act : Handler) : s.take l mine act = s := by
  unfold State.take
  rw [State.event_settled h.1]
  simp [h.2, hm, h.1.2]

/-- A take with the engine's checks, for a request that passes them. -/
theorem State.takeFor_offered {s : State} {l : Link} {r : Request} (h : s.Offers l r) {c : ReqCode}
    (hc : reqCodeOf r.code = some c) (hm : mayMake l c = true) (hl : lengthOk c r.body = true) (act : Handler) :
    s.takeFor l c act = ((act r (s.popRequest l)).1.respond l r (act r (s.popRequest l)).2).arbitrate := by
  unfold State.takeFor
  rw [State.take_offered h (by simp [Request.isFor, hc])]
  simp [checked, hm, hl]

/-- A response that is made is placed; one that is suppressed leaves the state as it is. -/
theorem State.respond_some (l : Link) (r : Request) (x : Reply) :
    s.respond l r (some x) =
      if x.made r then
        s.place l { tag := r.tag, code := r.code, target := x.target, frame := x.frame, each := x.each, data := x.data }
      else s := rfl

@[simp] theorem State.respond_none (l : Link) (r : Request) : s.respond l r none = s := rfl

/-- A response to a request that returns no data and took effect is made where the request wants one (R171). -/
theorem Reply.made_effect {r : Request} {x : Reply} (hr : r.returnsData = false) (hd : x.frame.tookEffect = true) :
    x.made r = r.ackWanted := by
  simp [Reply.made, hr, hd]

/-- A response with any disposition but DONE and ADJUSTED is made (R171). -/
theorem Reply.made_refusal {r : Request} {x : Reply} (hd : x.frame.tookEffect = false) : x.made r = true := by
  simp [Reply.made, hd]

/-- A response to a read or ECHO is made (R171). -/
theorem Reply.made_read {r : Request} {x : Reply} (hr : r.returnsData = true) : x.made r = true := by
  simp [Reply.made, hr]

/-- Responding changes links alone. -/
theorem State.acts_respond (l : Link) (r : Request) (reply : Option Reply) : s.Acts (s.respond l r reply) := by
  unfold State.respond
  split
  · exact .refl s
  · exact .ite (s.acts_place _ _) (.refl s)

/-- A request leaving its queue changes that queue alone. -/
theorem State.link_popRequest (l k : Link) :
    (s.popRequest l).link k = if k = l then { s.link l with requests := (s.link l).requests.tail } else s.link k :=
  s.link_setLink l k _

/-! ### Masks and units -/

/-- Equal dispositions form themselves (R170). -/
theorem frameDisposition_same {α : Type} (us : List α) (h : us ≠ []) (d : Disposition) :
    frameDisposition (us.map fun _ => d) = d := by
  cases us with
  | nil => exact absurd rfl h
  | cons u us => simp [frameDisposition]

/-- A mask that names units names at least one. -/
theorem unitsOf_ne_nil {n : Nat} {mask : Octet} {us : List (Fin n)} (h : unitsOf n mask = some us) :
    us ≠ [] := by
  unfold unitsOf at h
  split at h
  · cases h
  · next hm =>
    rw [not_or] at hm
    intro he
    rw [← Option.some.inj h] at he
    apply hm.1
    refine BitVec.eq_of_getLsbD_eq fun i hi => ?_
    rw [show BitVec.getLsbD (0 : Octet) i = false from BitVec.getLsbD_zero]
    by_cases hin : i < n
    · have hf := List.filter_eq_nil_iff.mp he ⟨i, hin⟩ (List.mem_finRange _)
      simpa using hf
    · refine Bool.eq_false_iff.mpr fun hb => ?_
      have := Nat.ge_two_pow_of_testBit (x := mask.toNat) (i := i) (by simpa [BitVec.getLsbD] using hb)
      have h2 : 2 ^ n ≤ 2 ^ i := Nat.pow_le_pow_right (by omega) (by omega)
      omega

/-- Visiting units keeps what each visit keeps. -/
theorem visitAll_keeps {n : Nat} {α : Type} {f : Fin n → State → State × Option α} {R : State → State → Prop}
    (hr : ∀ s, R s s) (ht : ∀ s t u, R s t → R t u → R s u) (hf : ∀ u s, R s (f u s).1) (us : List (Fin n)) (s : State) :
    R s (visitAll f us s).1 := by
  induction us generalizing s with
  | nil => exact hr s
  | cons u us ih => exact ht _ _ _ (hf u s) (ih _)

end Sys2Proof.Machine
end

