-- ==== Sys2Proof/Laws/Inputs.lean ====
section
/-! SUPPORT. What a sample of the feedback lines and the reading of a meter line's pin leave in each record. -/

namespace Sys2Proof.Machine

variable (s : State)

/-! ### `State.setPin` -/

@[simp] theorem State.setPin_pending (i : Fin 192) (b : Bool) : (s.setPin i b).pending = s.pending := rfl
@[simp] theorem State.setPin_inReset (i : Fin 192) (b : Bool) : (s.setPin i b).inReset = s.inReset := rfl
@[simp] theorem State.setPin_uptime (i : Fin 192) (b : Bool) : (s.setPin i b).uptime = s.uptime := rfl
@[simp] theorem State.setPin_clock (i : Fin 192) (b : Bool) : (s.setPin i b).clock = s.clock := rfl
@[simp] theorem State.setPin_burnDue (i : Fin 192) (b : Bool) : (s.setPin i b).burnDue = s.burnDue := rfl
@[simp] theorem State.setPin_sampleDue (i : Fin 192) (b : Bool) : (s.setPin i b).sampleDue = s.sampleDue := rfl
@[simp] theorem State.setPin_periodDue (i : Fin 192) (b : Bool) : (s.setPin i b).periodDue = s.periodDue := rfl
@[simp] theorem State.setPin_lines (i : Fin 192) (b : Bool) : (s.setPin i b).lines = s.lines := rfl
@[simp] theorem State.setPin_meters (i : Fin 192) (b : Bool) : (s.setPin i b).meters = s.meters := rfl
@[simp] theorem State.setPin_schedule (i : Fin 192) (b : Bool) : (s.setPin i b).schedule = s.schedule := rfl
@[simp] theorem State.setPin_portals (i : Fin 192) (b : Bool) : (s.setPin i b).portals = s.portals := rfl
@[simp] theorem State.setPin_bores (i : Fin 192) (b : Bool) : (s.setPin i b).bores = s.bores := rfl
@[simp] theorem State.setPin_zones (i : Fin 192) (b : Bool) : (s.setPin i b).zones = s.zones := rfl
@[simp] theorem State.setPin_links (i : Fin 192) (b : Bool) : (s.setPin i b).links = s.links := rfl
@[simp] theorem State.setPin_draws (i : Fin 192) (b : Bool) : (s.setPin i b).draws = s.draws := rfl
@[simp] theorem State.link_setPin (i : Fin 192) (b : Bool) (l : Link) : (s.setPin i b).link l = s.link l := rfl
@[simp] theorem State.line_setPin (i : Fin 192) (b : Bool) (j : Fin 192) : (s.setPin i b).line j = s.line j := rfl
@[simp] theorem State.meter_setPin (i : Fin 192) (b : Bool) (m : Fin 4) : (s.setPin i b).meter m = s.meter m := rfl
@[simp] theorem State.portal_setPin (i : Fin 192) (b : Bool) (p : Fin 4) : (s.setPin i b).portal p = s.portal p := rfl
@[simp] theorem State.bore_setPin (i : Fin 192) (b : Bool) (c : Fin 2) : (s.setPin i b).bore c = s.bore c := rfl
@[simp] theorem State.zone_setPin (i : Fin 192) (b : Bool) (z : Fin 14) : (s.setPin i b).zone z = s.zone z := rfl

/-- The pin written reads as written, and every other pin as before. -/
theorem State.pin_setPin (i j : Fin 192) (b : Bool) :
    (s.setPin i b).pins.getLsbD j.val = if j = i then b else s.pins.getLsbD j.val := by
  have hj := j.isLt
  by_cases h : j = i
  · subst h
    cases b <;> simp [State.setPin]
  · have hne : j.val ≠ i.val := fun e => h (Fin.ext e)
    have hbit : (1#192 <<< i.val).getLsbD j.val = false := by
      rw [BitVec.getLsbD_shiftLeft, BitVec.getLsbD_one]
      simp only [Bool.and_eq_false_iff]
      by_cases hlt : j.val < i.val
      · simp [hlt]
      · right; simp; omega
    cases b
    · simp only [State.setPin, h, if_false, Bool.false_eq_true, BitVec.getLsbD_and, BitVec.getLsbD_not, hbit]
      simp [hj]
    · simp only [State.setPin, h, if_true, if_false, BitVec.getLsbD_or, hbit, Bool.or_false]

/-! ### Samples of the feedback lines (R152, R153) -/

/-- Everything a sample of a line can do to its record: nothing to a line that is no FEEDBACK_IN line, and else by the
three rows of the table of R152. -/
theorem Line.sampled_cases (pin : Bool) (x : Line) :
    (x.sampled pin = x ∧ ((x.fn ≠ .feedbackIn) ∨ x.count = none))
    ∨ ∃ n, x.fn = .feedbackIn ∧ x.count = some n
      ∧ ((some (x.raw pin) = x.debounced ∧ x.sampled pin = { x with count := some 0 })
        ∨ (some (x.raw pin) ≠ x.debounced ∧ n < 19 ∧ x.sampled pin = { x with count := some (n + 1) })
        ∨ (some (x.raw pin) ≠ x.debounced ∧ 19 ≤ n ∧ x.changes pin = true
            ∧ x.sampled pin = { x with debounced := some (x.raw pin), count := some 0 })) := by
  unfold Line.sampled Line.changes
  cases hf : x.fn <;> cases hc : x.count with
  | none => simp
  | some n =>
    first
      | (left; simp; done)
      | (right
         refine ⟨n, rfl, rfl, ?_⟩
         by_cases hr : some (x.raw pin) = x.debounced
         · left; simp [hr]
         · by_cases hn : n < 19
           · right; left; simp [hr, hn]
           · right; right; simp [hr, hn]; omega)

@[simp] theorem State.line_sampleLines (which : Fin 192 → Bool) (pins : BitVec 192) (i : Fin 192) :
    (s.sampleLines which pins).line i = if which i then (s.line i).sampled (pins.getLsbD i.val) else s.line i :=
  Tab.get_mapWith _ _ _

@[simp] theorem State.zone_sampleLines (which : Fin 192 → Bool) (pins : BitVec 192) (z : Fin 14) :
    (s.sampleLines which pins).zone z =
      if s.supervised z then
        { s.zone z with
          slots := (s.zone z).slots.mapWith fun _ o => o.map (Circuit.takeSample s which pins (s.zone z).settle) }
      else s.zone z :=
  Tab.get_mapWith _ _ _

@[simp] theorem State.circuit_sampleLines (which : Fin 192 → Bool) (pins : BitVec 192) (z : Fin 14) (k : Fin 8) :
    (s.sampleLines which pins).circuit z k = (s.circuit z k).map fun c =>
      if s.supervised z then c.takeSample s which pins (s.zone z).settle else c := by
  simp only [State.circuit, State.zone_sampleLines]
  split
  · simp [*]
  · simp [*]

/-- A sample changes line records and zone records alone. -/
theorem State.sampleLines_eq (which : Fin 192 → Bool) (pins : BitVec 192) :
    s.sampleLines which pins
      = { s with lines := (s.sampleLines which pins).lines, zones := (s.sampleLines which pins).zones } := rfl

/-! ### The pin of a meter line (R154) -/

/-- The detector's count of disagreeing periods stays below 20. -/
theorem EdgeDetector.read_run (raw : Bool) (periods : Nat) (d : EdgeDetector) : (d.read raw periods).run < 20 := by
  unfold EdgeDetector.read
  split
  · simp
  · split
    · assumption
    · simp

/-- A rising edge is taken exactly where the value seen changes over from absent to present (R154). -/
theorem EdgeDetector.rises_iff (raw : Bool) (periods : Nat) (d : EdgeDetector) :
    d.rises raw periods = true ↔ d.seen = false ∧ (d.read raw periods).seen = true := by
  unfold EdgeDetector.rises EdgeDetector.read
  cases raw <;> cases d.seen <;> simp
  split <;> simp_all

/-- Everything the reading of a pin can do: the detector and the pin, and one count of a meter at most (R154, R5). -/
theorem State.readPin_cases (x : PinReading) (d : EdgeDetector) :
    let raw := (s.line x.line).raw x.level
    let t := (s.setPin x.line x.level).setLine x.line { s.line x.line with edge := some (d.read raw x.periods) }
    s.readPin x d = t
    ∨ d.rises raw x.periods = true
      ∧ ∃ m, t.meterCounting x.line = some m ∧ s.readPin x d = t.setMeter m (s.meter m).countEdge := by
  intro raw t
  by_cases h : d.rises raw x.periods = true
  · have e : s.readPin x d = t.takeEdge x.line := if_pos h
    cases hm : t.meterCounting x.line with
    | none => left; rw [e]; unfold State.takeEdge; rw [hm]
    | some m => right; refine ⟨h, m, rfl, ?_⟩; rw [e]; unfold State.takeEdge; rw [hm]; rfl
  · left; exact if_neg h

end Sys2Proof.Machine
end

