-- ==== Sys2Proof/Tests/Slice0.lean ====
section
/-! SUPPORT. Tests: the worked examples of the manual (each named in its comment), one step at a time, and a
witness for the hypotheses of every obligation that has some. -/

namespace Sys2Proof.Tests

open Sys2Proof.Machine

set_option Elab.async false

/-! ### Well-formedness and decoding -/

theorem test_wellFormed_refuses_no_low : (Instr.resetPin 0).wellFormed = false := by decide +kernel

theorem test_wellFormed_admits_a_low : (Instr.resetPin 10).wellFormed = true := by decide +kernel

theorem test_wellFormed_refuses_no_reading : (Instr.meterEdge ⟨96, true, 0⟩).wellFormed = false := by decide +kernel

/-- The table gives no row bits, so no word spells a command. -/
theorem test_no_word_spells_a_command : decodeTableWord 16 0x30 = none := by decide +kernel

/-! ### Worked values -/

/-- The plan A of the worked demand case of chapter 2. -/
def plan : Plan where
  curve := [⟨0, 400⟩, ⟨1000, 4500⟩, ⟨2000, 9000⟩, ⟨4000, 18000⟩, ⟨6000, 24000⟩]
  factors := ⟨[500, 600, 700, 800, 1000], rfl⟩
  r1 := 400
  r2 := 150
  interiorDay := 600
  interiorNight := 200
  nightThreshold := 20
  dayThreshold := 60
  nightHold := 10
  riseStep := 250
  fallStep := 40

/-- Chapter 2, worked demand case: "The plan passes every check of R29". -/
theorem test_plan_valid : plan.valid = true := by decide +kernel

/-- Chapter 2, meter to threshold, a rounding case, silent traffic, dusk. -/
theorem test_threshold_base :
    plan.thresholdBase 3200 3 = 11520 ∧ plan.thresholdBase 1333 3 = 4799 ∧ plan.thresholdBase 1333 4 = 5999
    ∧ plan.thresholdBase 18 4 = 474 := by decide +kernel

/-- Chapter 2, meter to threshold, a rounding case, the exit portal. -/
theorem test_demands :
    demandsFor plan .entry 11520 600 = ⟨11520, 4608, 1728⟩ ∧ demandsFor plan .entry 4799 600 = ⟨4799, 1920, 720⟩
    ∧ demandsFor plan .exit 11520 600 = ⟨600, 600, 600⟩ := by decide +kernel

/-- Chapter 1, classifying counts (G = 500 ms, span 8000). -/
theorem test_classify :
    [440, 470, 501, 2500, 5500, 5800, 6100].map (sampleFlag 500)
      = [.invalidLow, .underZero, .valid, .valid, .valid, .over, .invalidHigh]
    ∧ [440, 470, 501, 2500, 5500, 5800, 6100].map (sampleValue 500 8000)
      = [none, some 0, some 2, some 3200, some 8000, some 8000, none] := by decide +kernel

/-- Chapter 1, fault and recovery: the fifteen gates of meter M1, as their values. -/
def recoverySamples : List (Option Nat) :=
  [some 3360, none, none, some 3300, none, none, none, some 3100, some 3120, none, some 3150, some 3160, some 3170,
   some 3180, some 3190]

/-- Chapter 1, fault and recovery: the meter M1 before gate 1. -/
def meterOne : Meter := { Meter.cold with status := .valid, filtered := some 3200, validCount := 5 }

/-- Chapter 1, fault and recovery: status, F and the two counts after gates 7, 14 and 15. -/
theorem test_fault_and_recovery :
    ([7, 14, 15].map fun n =>
      let m := (recoverySamples.take n).foldl Meter.judge meterOne
      (m.status, m.filtered, m.invalidCount, m.validCount))
      = [(.faulty, some 3255, 3, 0), (.faulty, some 3255, 0, 4), (.valid, some 3190, 0, 5)] := by decide +kernel

/-- Chapter 1, a schedule across midnight: the list stored sorted, and the refused variant. -/
theorem test_schedule_across_midnight :
    sortWindows [⟨1380, 180, 150⟩, ⟨300, 240, 2500⟩, ⟨540, 600, 4500⟩]
      = [⟨300, 240, 2500⟩, ⟨540, 600, 4500⟩, ⟨1380, 180, 150⟩]
    ∧ noWrapOverlap [⟨300, 240, 2500⟩, ⟨540, 600, 4500⟩, ⟨1380, 180, 150⟩] = true
    ∧ noOverlap (sortWindows [⟨1380, 180, 150⟩, ⟨300, 240, 2500⟩, ⟨500, 600, 4500⟩]) = false
    ∧ (Window.mk 1380 180 150).covers 60 = true ∧ (Window.mk 1380 180 150).covers 120 = false := by decide +kernel

/-- Chapter 3, rise towards a settled demand and fall after a change of role. -/
theorem test_ramps :
    [4000, 5000, 6250, 7812, 9765].map (fun r => rampStep r 11520 250 40) = [5000, 6250, 7812, 9765, 11520]
    ∧ [11520, 11060, 10618, 10194, 9787, 630].map (fun r => rampStep r 600 250 40)
      = [11060, 10618, 10194, 9787, 9396, 600] := by decide +kernel

/-- Chapter 4, the table of rotation orders. -/
theorem test_rotation_orders :
    rotationOrder .sequential 5 = [5, 6, 7, 0, 1, 2, 3, 4] ∧ rotationOrder .interleaved 2 = [2, 3, 0, 1, 6, 7, 4, 5]
    ∧ rotationOrder .interleaved 5 = [5, 4, 7, 6, 1, 0, 3, 2] := by decide +kernel

/-- Chapter 9, the check values given for the frame check. -/
theorem test_check_values :
    crc [1] = 0x8005 ∧ crc [0x31, 0x32, 0x33, 0x34, 0x35, 0x36, 0x37, 0x38, 0x39] = 0xFEE8 := by decide +kernel

/-- Chapter 9, urgent requests overtake a reload: tags stand for W1 to W7, H (20) and S (21). -/
theorem test_urgent_requests_overtake :
    let w (n : Octet) : Request := ⟨n, false, false, 0x20, 0, []⟩
    let u (n : Octet) : Request := ⟨n, true, false, 0x33, 0, []⟩
    ([w 1, w 2, u 20, w 3, u 21, w 4, w 5, w 6, w 7].foldl joinQueue []).map Request.tag
      = [20, 21, 1, 2, 3, 4, 5, 6] := by decide +kernel

/-! ### Worked allocation case (chapter 4) -/

/-- A SWITCHED circuit of zone 0 of the worked cases, in a state. -/
def switched (st : CircuitState) (output feedback : Fin 192) : Circuit where
  kind := .switched
  rating := 3000
  output := output
  feedback := some feedback
  state := st
  level := 0
  timer := none
  burn := 0

/-- A DIMMED circuit of zone 0 of the worked cases, at a level. -/
def dimmed (level : Nat) (output feedback : Fin 192) : Circuit where
  kind := .dimmed
  rating := 1500
  output := output
  feedback := some feedback
  state := if level = 0 then .off else .on
  level := level
  timer := none
  burn := 0

/-- Zone 0 of the worked allocation case, with the states of slots 0 to 3, its dim level and R. -/
def zoneWith (s0 s1 s2 s3 : CircuitState) (level ramped : Nat) : Zone :=
  { Zone.cold with
    slots := ⟨[some (switched s0 0 37), some (switched s1 1 38), some (switched s2 2 39), some (switched s3 3 40),
      some (dimmed level 4 41), some (dimmed level 5 42), none, none], rfl⟩
    rotation := 2
    settle := 500
    minDim := 50
    ramped := ramped
    demand := ramped
    dim := some level }

/-- What an allocation of zone 0 leaves: the states of slots 0 to 3, Son and the dim level. -/
def allocated (z : Zone) : List (Option CircuitState) × Nat × Option Nat :=
  let y := z.allocate 0
  (([0, 1, 2, 3] : List (Fin 8)).map fun k => (y.slots.get k).map Circuit.state, y.son, y.dim)

/-- Chapter 4, rise: evaluations 1, 2, 4 and 5. -/
theorem test_rise :
    allocated (zoneWith .off .off .on .off 333 5000) = ([some .off, some .off, some .on, some .off], 3000, some 667)
    ∧ allocated (zoneWith .off .off .on .off 667 6250)
      = ([some .off, some .off, some .on, some .switchingOn], 6000, some 83)
    ∧ allocated (zoneWith .off .off .on .on 604 9765)
      = ([some .switchingOn, some .off, some .on, some .on], 9000, some 255)
    ∧ allocated (zoneWith .on .off .on .on 255 11520) = ([some .on, some .off, some .on, some .on], 9000, some 840) := by
  decide +kernel

/-- Chapter 4, fall through the hysteresis band: evaluations 6, 7, 16, 17 and 18. -/
theorem test_fall :
    allocated (zoneWith .on .off .on .on 132 9021) = ([some .on, some .off, some .on, some .on], 9000, some 50)
    ∧ allocated (zoneWith .on .off .on .on 50 8661)
      = ([some .switchingOff, some .off, some .on, some .on], 6000, some 887)
    ∧ (allocated (zoneWith .off .off .on .on 84 6001)).2 = (6000, some 0)
    ∧ (allocated (zoneWith .off .off .on .on 0 5761)).2 = (6000, some 0)
    ∧ allocated (zoneWith .off .off .on .on 0 5600)
      = ([some .off, some .off, some .on, some .switchingOff], 3000, some 867) := by
  decide +kernel

/-- Chapter 4, dry-run preview: the preview demands 4799 and 20 000. -/
theorem test_previews :
    (zoneWith .on .off .on .on 840 11520).previewFor 4799 = ⟨4799, [2], some 600, false⟩
    ∧ (zoneWith .on .off .on .on 840 11520).previewFor 20000 = ⟨20000, [2, 3, 0, 1], some 1000, true⟩ := by
  decide +kernel

/-! ### States for one step: a quiet part, a request at the head of a queue, the cabinet of chapter 11 -/

/-- An awake part between two events, its links with nothing to send. -/
def quiet : State :=
  { State.reset with
    links := ⟨[Link.o, .t, .s].map fun l => { LinkRec.cold (coldMask l) with notices := [] }, rfl⟩ }

/-- A request of a code, target and body, with the ack wanted. -/
def asks (code target : Octet) (body : List Octet) : Request :=
  { tag := 7, urgent := false, ackWanted := true, code := code, target := target, body := body }

/-- The state with one request waiting on a link. -/
def ask (s : State) (l : Link) (r : Request) : State :=
  s.setLink l { s.link l with requests := [r] }

/-- Line functions of chapter 11, lines 18 and 19 as first sent (SWITCH_OUT) or as corrected (DIM_OUT). -/
def cabinetFn (late : LineFn) (i : Nat) : LineFn :=
  if i ≤ 3 ∨ i = 16 ∨ i = 17 then .switchOut
  else if i ≤ 8 then .dimOut
  else if i = 18 ∨ i = 19 then late
  else if 37 ≤ i ∧ i ≤ 45 ∨ 48 ≤ i ∧ i ≤ 51 then .feedbackIn
  else if i = 96 then .meterIn
  else .released

/-- A DIMMED circuit in OFF. -/
def dimmedOf (rating : Nat) (output feedback : Fin 192) : Circuit :=
  { dimmed 0 output feedback with rating := rating }

/-- The configured cabinet of chapter 11 at 7300, with the fault line of zone 2 as sent and the function of lines 18
and 19. -/
def cabinet (faultLine : Fin 192) (late : LineFn) : State :=
  { quiet with
    uptime := 7300, burnDue := 8000, sampleDue := 7301, periodDue := 7301
    lines := quiet.lines.mapWith fun i x =>
      let fn := cabinetFn late i.val
      { x with fn := fn, debounced := if fn = .feedbackIn then some false else none
               count := if fn = .feedbackIn then some 0 else none
               edge := if fn = .meterIn then some .start else none }
    meters := quiet.meters.put 0 { Meter.cold with
      line := some 96, gate := 500, span := 8000, status := .valid, filtered := some 3200, gateEnd := some 7500 }
    portals := quiet.portals.put 0 { Portal.cold with meter := some 0, planA := some plan }
    bores := quiet.bores.mapWith fun b x => { x with
      timer := 8000, speedClass := if b = 0 then 3 else 4, stale := b != 0
      staleTimer := if b = 0 then some 121800 else none }
    zones := quiet.zones.mapWith fun z x =>
      if z = 0 then { zoneWith .off .off .off .off 0 0 with dim := none }
      else if z = 1 then
        { x with slots := ⟨[some (dimmedOf 2500 6 43), some (dimmedOf 2500 7 44), none, none, none, none, none, none], rfl⟩
                 minDim := 50 }
      else if z = 2 then
        { x with slots := ⟨[some (dimmedOf 2000 8 faultLine), none, none, none, none, none, none, none], rfl⟩
                 minDim := 50 }
      else if z = 12 then
        { x with slots := ⟨[some { switched .off 16 48 with rating := 2000 }, some { switched .off 17 49 with rating := 2000 },
            some (dimmedOf 1000 18 50), some (dimmedOf 1000 19 51), none, none, none, none], rfl⟩ }
      else x }

/-- The cabinet with its errors corrected. -/
def corrected : State := cabinet 45 .dimOut

/-- The corrected cabinet with P0 in HELD at 9000 or later (chapter 11 after its COMMISSION). -/
def heldAt (now next : Uptime) : State :=
  let t := corrected.enterHeld 0
  let t := { t with uptime := now, links := quiet.links }
  (t.setPortal 0 { t.portal 0 with timer := some next }).setBore 0 { t.bore 0 with timer := next }

/-- A next state in which `p` holds. -/
def leads (o : Host.Outcome State Fault Refusal) (p : State → Bool) : Bool :=
  match o with
  | .next t => p t
  | .fault _ => false
  | .refused _ => false

/-- The frame a link is sending. -/
def sent (t : State) (l : Link) : Option TxFrame :=
  match (t.link l).transmitter with
  | .sending f _ => some f
  | .idle => none
  | .silent => none

/-! ### Worked sequences, one step each -/

/-- Chapter 11, a refused COMMISSION: INCOMPLETE, and the failure list 03h 18, 03h 19, 05h 44. -/
theorem test_commission_refused :
    leads (exec (.commission .o) (ask (cabinet 44 .switchOut) .o (asks 0x30 1 []))) (fun t =>
      sent t .o = some (.response ⟨7, 0x30, 1, .incomplete, [.incomplete], [0, 3, 3, 18, 3, 19, 5, 44]⟩)
      && (t.portal 0).state == .offline && (t.line 0).drive == .floating) = true := by decide +kernel

/-- Chapter 11, the corrected COMMISSION: HELD, lines driven at off or duty 0, the interior condition HELD. -/
theorem test_commission_done :
    leads (exec (.commission .o) (ask corrected .o (asks 0x30 1 []))) (fun t =>
      (t.portal 0).state == .held && (t.bore 0).condition == .held && (t.portal 0).timer == some 8300
      && ([0, 3, 16, 17] : List (Fin 192)).all (fun i => (t.line i).drive == .driven && (t.line i).output == .level false)
      && ([4, 8, 18, 19] : List (Fin 192)).all fun i => (t.line i).drive == .driven && (t.line i).output == .duty 0)
      = true := by decide +kernel

/-- Chapter 11, the evaluation at 12 000 that takes the RELEASE: AUTO, D = 11 520, R = 50, dim level 50. -/
theorem test_release_takes_effect :
    let s := (heldAt 11999 12000).setPortal 0
      { (heldAt 11999 12000).portal 0 with action := some ⟨.release, .o, 18, true, true⟩ }
    leads (exec (.portalEvaluation 0) s) (fun t =>
      (t.portal 0).state == .auto && (t.zone 0).demand == 11520 && (t.zone 0).ramped == 50 && (t.zone 0).dim == some 50
      && (t.bore 0).condition == .driven && t.uptime == 12000
      && sent t .o == some (.response ⟨18, 0x32, 1, .done, [.done], []⟩)) = true := by decide +kernel

/-- Chapter 11, the bore's evaluation at 12 000: case 4, I = 600 from P0's plan A, interior R = 50. -/
theorem test_bore_case_four :
    let s := (heldAt 12000 12000).setPortal 0 { (heldAt 12000 12000).portal 0 with state := .auto }
    leads (exec (.boreEvaluation 0) (s.setBore 0 { s.bore 0 with condition := .driven })) (fun t =>
      (t.bore 0).demand == 600 && (t.bore 0).supplier == some (0, .a) && (t.zone 12).ramped == 50) = true := by
  decide +kernel

/-- Chapters 3 and 4: an emergency sets R of zone 0 to its capacity of 15 000 with every circuit lit, and chapter 7's
clear leaves the portal in AUTO. -/
theorem test_emergency_set_and_clear :
    leads (exec (.emergencySet .s) (ask (heldAt 9100 10000) .s (asks 0x52 1 []))) (fun t =>
      (t.portal 0).state == .emergency && (t.zone 0).ramped == 15000 && (t.zone 0).dim == some 1000
      && (t.bore 0).demand == 60000 && (t.line 3).output == .level true
      && leads (exec (.emergencyClear .s) (ask { t with links := quiet.links } .s (asks 0x53 1 []))) (fun u =>
        (u.portal 0).state == .auto && (u.zone 0).ramped == 15000 && !(u.bore 0).emergency)) = true := by decide +kernel

/-- Chapter 11: M0's first gate expires with C = 2500, a VALID sample of 3200. -/
theorem test_first_gate :
    leads (exec (.gateExpiry 0) (corrected.setMeter 0
      { corrected.meter 0 with status := .starting, filtered := none, gateCount := 2500 })) (fun t =>
      (t.meter 0).status == .valid && (t.meter 0).filtered == some 3200
      && sent t .o == some (.notice (.meterState 0 .valid (some 3200) 0 1 (some .valid)))) = true := by decide +kernel

/-- Chapter 5, a contactor that will not close, then the lockout that empties the sets. -/
theorem test_contactor_fails :
    let s := (heldAt 102000 103000).setZone 0 ((((heldAt 102000 103000).zone 0).modSlot 3
      (Circuit.switchOn 102000 500)))
    leads (exec (.settleExpiry 0 3) s) (fun t =>
      (t.circuit 0 3).map Circuit.state == some .failedDark && t.uptime == 102500
      && sent t .o == some (.notice (.circuitFault 0 [3] []))
      && leads (exec (.lockoutModify .o) (ask { t with links := quiet.links } .o (asks 0x40 0 [8, 0]))) (fun u =>
        (u.circuit 0 3).map Circuit.state == some .lockedOut && (u.zone 0).capacity == 12000
        && (u.zone 0).failedSet == [])) = true := by decide +kernel

/-- Chapter 5, a driver fault: the loss expiry takes slot 4 out of service. -/
theorem test_driver_fault :
    let s := (heldAt 500700 501000).setZone 0 (((heldAt 500700 501000).zone 0).modSlot 4 fun c =>
      { c with state := .on, level := 840, timer := some ⟨.loss, 501200⟩ })
    leads (exec (.lossExpiry 0 4) s) (fun t =>
      (t.circuit 0 4).map (fun c => (c.state, c.level)) == some (.failedDark, 0) && (t.zone 0).cd == 1500) = true := by
  decide +kernel

/-- Chapter 8, a bouncing contact: the samples at 102 043 (its third present one), 102 044, 102 046, 102 064 and 102 065. -/
theorem test_bouncing_contact :
    let s := heldAt 102042 103000
    let after (due : Uptime) (count : Nat) (pins : BitVec 192) (c : Nat) (d : Bool) : Bool :=
      leads (exec (.feedbackSample pins) { s.setLine 40 { s.line 40 with count := some count } with sampleDue := due })
        fun t => (t.line 40).count == some c && (t.line 40).debounced == some d && t.uptime == due
    after 102043 2 (1#192 <<< 40) 3 false && after 102044 3 0 0 false && after 102046 0 (1#192 <<< 40) 1 false
      && after 102064 18 (1#192 <<< 40) 19 false && after 102065 19 (1#192 <<< 40) 0 true = true := by
  decide +kernel

/-- R152 and R153 by the other row of the table: the 20th sample taken by FEEDBACK_CHANGE, with the fault line of the
DIMMED slot 4, whose LOSS timer starts for the settle time of 500 ms (chapter 5, a driver fault). -/
theorem test_feedback_change_of_one_line :
    let s := heldAt 500699 501000
    let s := { s.setLine 41 { s.line 41 with count := some 19 } with sampleDue := 500700 }
    leads (exec (.feedbackChange 41) s) (fun t =>
      (t.line 41).debounced == some true && (t.line 41).count == some 0
      && (t.circuit 0 4).bind Circuit.timer == some ⟨.loss, 501200⟩
      && leads (exec (.feedbackSample t.pins) t) fun u => u.line 41 == t.line 41) = true := by decide +kernel

/-- The gate count and the detector of line 96 after one reading of its pin from a detector and an invert flag. -/
def readEdge (invert : Bool) (d : EdgeDetector) (level : Bool) (periods : Nat) : Option (Nat × EdgeDetector) :=
  match exec (.meterEdge ⟨96, level, periods⟩)
      (corrected.setLine 96 { corrected.line 96 with invert := invert, edge := some d }) with
  | .next t => (t.line 96).edge.map fun e => ((t.meter 0).gateCount, e)
  | .fault _ => none
  | .refused _ => none

/-- R154: 20 absent and 20 present crystal periods make an edge, 19 of either do not, a pin already present makes none, and
a pulse of 5 periods is not seen. -/
theorem test_rising_edges :
    readEdge false .start true 500 = some (0, ⟨true, 0⟩) ∧ readEdge false .start false 19 = some (0, ⟨true, 19⟩)
    ∧ readEdge false .start false 20 = some (0, ⟨false, 0⟩) ∧ readEdge false ⟨false, 0⟩ true 19 = some (0, ⟨false, 19⟩)
    ∧ readEdge false ⟨false, 19⟩ true 1 = some (1, ⟨true, 0⟩) ∧ readEdge false ⟨false, 5⟩ false 3 = some (0, ⟨false, 0⟩)
    ∧ readEdge false ⟨false, 0⟩ true 20 = some (1, ⟨true, 0⟩) := by decide +kernel

/-- R154: with the invert flag set, the falling edges of the pin are counted. -/
theorem test_falling_edges_under_invert :
    readEdge true ⟨false, 0⟩ false 20 = some (1, ⟨true, 0⟩) ∧ readEdge true ⟨true, 0⟩ true 20 = some (0, ⟨false, 0⟩) := by
  decide +kernel

/-- Chapter 7, closing a bore: I = 250, R falls from 700 to 650, and s advances from 4 to 5. -/
theorem test_closing_a_bore :
    let s := (heldAt 801000 801000).setPortal 0
      { (heldAt 801000 801000).portal 0 with state := .auto, planA := some { plan with interiorNight := 250, interiorDay := 700 } }
    let s := s.setBore 0 { s.bore 0 with condition := .driven, mode := .closed, demand := 700, base := 700 }
    leads (exec (.boreEvaluation 0) (s.setZone 12 { s.zone 12 with demand := 700, ramped := 700, rotation := 4 })) (fun t =>
      (t.bore 0).demand == 250 && (t.bore 0).interiorNight && (t.zone 12).ramped == 650 && (t.zone 12).rotation == 5)
      = true := by decide +kernel

/-- Chapter 7, the traffic system falls silent: class 9 is taken as 4, ADJUSTED, and clears the stale flag. -/
theorem test_class_nine :
    leads (exec (.speedReport .t) (ask { quiet with uptime := 600000 } .t (asks 0x50 1 [9, 0]))) (fun t =>
      (t.bore 0).speedClass == 4 && !(t.bore 0).stale && (t.bore 0).staleTimer == some 720000
      && sent t .t == some (.response ⟨7, 0x50, 1, .adjusted, [.adjusted], []⟩)) = true := by decide +kernel

/-- Chapter 6, a timed override and a late clear: the clear after the expiry is WRONG_STATE. -/
theorem test_late_clear :
    let s := (heldAt 1599000 1600000).setPortal 0 { (heldAt 1599000 1600000).portal 0 with
      override := some ⟨.level 8000, 10, some 1600000⟩ }
    leads (exec (.overrideExpiry 0) s) (fun t =>
      (t.portal 0).override.isNone && sent t .o == some (.notice (.overrideEnded 0 (.level 8000)))
      && leads (exec (.overrideClear .o) (ask { t with links := quiet.links } .o (asks 0x35 1 []))) (fun u =>
        sent u .o == some (.response ⟨7, 0x35, 1, .wrongState, [.wrongState], []⟩))) = true := by decide +kernel

/-- Chapter 9, a portal-mask write: DONE, WRONG_STATE, DONE and PARTIAL, made despite the clear ack flag. -/
theorem test_portal_mask_write :
    let s := (heldAt 9100 10000).setPortal 1 { Portal.cold with state := .auto, planA := some plan, timer := some 10000 }
    let body : List Octet := planData .a (some plan)
    leads (exec (.writePlan .o) (ask s .o { asks 0x24 7 body with ackWanted := false })) (fun t =>
      sent t .o == some (.response ⟨7, 0x24, 7, .partialDone, [.done, .wrongState, .done], []⟩)
      && (t.portal 2).planA == some plan && (t.portal 1).planA == some plan) = true := by decide +kernel

/-- Chapter 9, a restart with a deferred action outstanding: at 60 220 and at the return to mark. -/
theorem test_restart :
    let s := (heldAt 60220 61000).setPortal 0
      { (heldAt 60220 61000).portal 0 with state := .auto, action := some ⟨.hold, .o, 17, true, true⟩ }
    let src : Notice := .source 0 (some .own) (some 3200)
    let rest : List Notice := [.shortfall 0 true 16000 15000, .portalState 1 .held none none]
    let s := s.setLink .o { s.link .o with
      responses := [⟨5, 0x25, 0, .done, [], []⟩], transmitter := .sending (.notice src) 60230, notices := rest }
    leads (exec (.linkRestart .o) s) (fun t =>
      (t.link .o).notices == src :: rest && (t.link .o).responses == [] && (t.link .o).transmitter == .silent
      && (t.portal 0).action == some ⟨.hold, .o, 17, true, false⟩
      && leads (exec (.lineReturnsToMark .o) t) (fun u =>
        sent u .o == some (.notice src) && (u.link .o).notices == rest && (u.link .o).framer == .hunt)) = true := by
  decide +kernel

/-- Chapter 8, a write refused while a portal is in service: WRONG_STATE, no line written. -/
theorem test_write_line_in_service :
    leads (exec (.writeLine .o) (ask (heldAt 9100 10000) .o (asks 0x20 8 [4, 1, 0]))) (fun t =>
      sent t .o == some (.response ⟨7, 0x20, 8, .wrongState, [], []⟩)
      && (t.line 9).fn == .released) = true := by decide +kernel

/-- Chapter 8, an inverted dimming line: a new duty waits for the next period. -/
theorem test_duty_waits_for_a_period :
    let s := (heldAt 306000 307000).setLine 4
      { (heldAt 306000 307000).line 4 with output := .duty 333, invert := true }
    (pinLevel 0 0 4 (s.line 4) == true
      && leads (exec .pwmPeriodStart { s with periodDue := 306001 }) fun t => (t.line 4).period == some 333) = true := by
  decide +kernel

/-! ### Witnesses: states and operands that meet the hypotheses of the obligations -/

/-- What makes a state settled, to evaluate. -/
def settledNow (s : State) : Bool :=
  !s.inReset && (List.finRange 3).all fun i => decide ((s.links.get i).arbitrate s.uptime = s.links.get i)

theorem settled_of {s : State} (h : settledNow s = true) : s.Settled := by
  simp only [settledNow, Bool.and_eq_true, Bool.not_eq_true', List.all_eq_true, List.mem_finRange, true_implies,
    decide_eq_true_eq] at h
  refine ⟨h.1, ?_⟩
  have : s.links.mapWith (fun _ x => x.arbitrate s.uptime) = s.links := Tab.ext_get fun i => by simp [h.2 i]
  simp [State.arbitrate, this]

theorem settled_all (ss : List State) (h : ss.all settledNow = true) : ∀ s ∈ ss, s.Settled := fun s hs =>
  settled_of (List.all_eq_true.mp h s hs)

theorem offers_all (xs : List (State × Link × Request))
    (h : xs.all (fun x => settledNow x.1 && decide (x.1.nextRequest x.2.1 = some x.2.2)) = true) :
    ∀ x ∈ xs, x.1.Offers x.2.1 x.2.2 := fun x hx => by
  have := List.all_eq_true.mp h x hx
  simp only [Bool.and_eq_true, decide_eq_true_eq] at this
  exact ⟨settled_of this.1, this.2⟩

/-- What makes a request taken as one of its code, to evaluate. -/
def takesNow (s : State) (l : Link) (c : ReqCode) (r : Request) : Bool :=
  settledNow s && decide (s.nextRequest l = some r) && decide (reqCodeOf r.code = some c) && mayMake l c
  && lengthOk c r.body

theorem takes_of {s : State} {l : Link} {c : ReqCode} {r : Request} (h : takesNow s l c r = true) :
    s.Takes l c r := by
  simp only [takesNow, Bool.and_eq_true, decide_eq_true_eq] at h
  exact ⟨⟨settled_of h.1.1.1.1, h.1.1.1.2⟩, h.1.1.2, h.1.2, h.2⟩

/-- Requests taken from states that ask them, one each. -/
theorem takes_all (l : Link) (c : ReqCode) (xs : List (State × Request))
    (h : xs.all (fun x => takesNow (ask x.1 l x.2) l c x.2) = true) :
    ∀ x ∈ xs, (ask x.1 l x.2).Takes l c x.2 := fun x hx =>
  takes_of (List.all_eq_true.mp h x hx)

/-- The quiet part with the framer of link O in a state. -/
def framing (f : Framer) : State :=
  quiet.setLink .o { quiet.link .o with framer := f, transmitter := if f = .brk then .silent else .idle }

theorem witness_AnEmptyQueueRunsTheClock :
    quiet.pending = [] ∧ ({ quiet with inReset := true } : State).inReset = true
    ∧ ({ quiet with uptime := 1 } : State).dueCommand = some (.feedbackSample 0) ∧ quiet.inReset = false
    ∧ quiet.dueCommand = none := by decide +kernel

theorem witness_EveryCommandAnswersANextState :
    ({ quiet with inReset := true } : State).inReset = true ∧ Instr.burnTick ≠ .powerOn
    ∧ Instr.burnTick ≠ .resetPinRelease ∧ ∀ n, Instr.burnTick ≠ .resetPin n :=
  ⟨rfl, by decide, by decide, fun _ => Instr.noConfusion⟩

/-- Each framer state and, in COLLECT, an empty frame and one whose next octet is or is not its last. -/
theorem witness_TheFramerTakesAnOctet :
    (∀ s ∈ [framing .hunt, framing .brk, framing (.collect [] 3), framing (.collect [4, 1, 0, 1, 0] 3),
        framing (.collect [4, 1, 0, 1, 0, 9] 3)], s.Settled)
    ∧ ([4, 1, 0, 1, 0] : List Octet).length + 1 ≠ (4 : Octet).toNat + 3
    ∧ ([4, 1, 0, 1, 0, 9] : List Octet).length + 1 = (4 : Octet).toNat + 3
    ∧ ([0, 0] : List Octet) ≠ checkOctets [4, 1, 0, 1, 0] ∧ (1 : Octet).getLsbD 0 = true :=
  ⟨settled_all _ (by decide +kernel), by decide +kernel⟩

/-- The longest body a frame carries. -/
theorem witness_ARequestFrameReachesTheQueue :
    quiet.Settled ∧ (quiet.link .o).framer = .hunt ∧ (asks 1 0 (List.replicate 128 0)).body.length ≤ 128 :=
  ⟨settled_of (by decide +kernel), by decide +kernel⟩

theorem witness_TheRequestQueueKeepsItsOrder :
    let r := asks 1 0 []
    let u := { r with urgent := true }
    8 ≤ (List.replicate 8 r).length ∧ (List.replicate 7 r).length < 8 ∧ r.urgent = false ∧ u.urgent = true
    ∧ [u, r] = [u] ++ [r] ∧ urgentFirst [u, u, r] = true := by decide +kernel

theorem witness_TransmittersTakeResponsesFirst :
    (∀ s ∈ [framing (.collect [] 3), framing .hunt, framing .brk,
        quiet.setLink .o { quiet.link .o with transmitter := .sending (.notice .coldStart) 9, notices := [.coldStart] },
        quiet.setLink .o { quiet.link .o with
          transmitter := .sending (.notice .coldStart) 9, responses := [⟨7, 1, 0, .done, [], []⟩] }], s.Settled)
    ∧ ((framing .brk).link .o).framer = .brk :=
  ⟨settled_all _ (by decide +kernel), by decide +kernel⟩

/-- A cut notice that a later one replaces, one whose kind is masked, and one that goes back to the head. -/
theorem witness_ALinkRestartEmptiesTheLink :
    let n : Notice := .source 0 none none
    let cut (l : Link) (q : List Notice) := quiet.setLink l { quiet.link l with
      transmitter := .sending (.notice n) 9, notices := q }
    (∀ s ∈ [cut .o [n], cut .t [], cut .o [], framing .hunt], s.Settled)
    ∧ ([n].any (Notice.sameKey n) = true ∧ n.kind ∉ (quiet.link .t).mask ∧ n.kind ∈ (quiet.link .o).mask)
    ∧ ((cut .o []).link .o).framer ≠ .brk :=
  ⟨settled_all _ (by decide +kernel), by decide +kernel⟩

theorem witness_NoticesCoalesce :
    let n : Notice := .trafficState 1 .forward 4 false true false
    let m : Notice := .trafficState 1 .forward 2 false false false
    n.kind ∈ (quiet.link .t).mask ∧ n.kind ∉ (quiet.link .s).mask ∧ n.sameKey m = true
    ∧ distinctKeys [.portalState 2 .held none none, m] = true := by decide +kernel

/-- A code with no request, a request outside each link's role, a body too long, and targets at their boundaries. -/
theorem witness_TheEngineRefuses :
    (∀ x ∈ [(Link.o, asks 0 0 []), (.o, asks 0x52 1 []), (.t, asks 0x52 1 []), (.s, asks 0x50 1 [0, 0]),
        (.o, asks 0x10 1 [0])].map (fun x => (ask quiet x.1 x.2, x.1, x.2)), x.1.Offers x.2.1 x.2.2)
    ∧ reqCodeOf 0 = none ∧ lengthOk .readPortal [0] = false
    ∧ (∀ x ∈ [(quiet, asks 0x10 0 []), (quiet, asks 0x10 16 [])], (ask x.1 .o x.2).Takes .o .readPortal x.2)
    ∧ (∀ x ∈ [(quiet, asks 0x11 0 []), (quiet, asks 0x11 4 [])], (ask x.1 .o x.2).Takes .o .readBore x.2)
    ∧ (∀ x ∈ [(quiet, asks 0x16 4 [0])], (ask x.1 .o x.2).Takes .o .readPlan x.2)
    ∧ (∀ x ∈ [(quiet, asks 0x12 14 [])], (ask x.1 .o x.2).Takes .o .readZone x.2)
    ∧ ∀ x ∈ [(quiet, asks 0x15 192 [1])], (ask x.1 .o x.2).Takes .o .readLine x.2 :=
  ⟨offers_all _ (by decide +kernel), by decide +kernel, by decide +kernel, takes_all _ _ _ (by decide +kernel),
    takes_all _ _ _ (by decide +kernel), takes_all _ _ _ (by decide +kernel), takes_all _ _ _ (by decide +kernel),
    takes_all _ _ _ (by decide +kernel)⟩

/-- The longest ECHO, and a mask that keeps every kind. -/
theorem witness_LinkChecksActOnTheirOwnLink :
    (∀ x ∈ [(quiet, asks 1 0 (List.replicate 127 5))], (ask x.1 .t x.2).Takes .t .echo x.2)
    ∧ ∀ x ∈ [(quiet, asks 2 0 [0xFF]), (quiet, asks 2 0 [0])], (ask x.1 .s x.2).Takes .s .setNoticeMask x.2 :=
  ⟨takes_all _ _ _ (by decide +kernel), takes_all _ _ _ (by decide +kernel)⟩

/-- The last unit of each kind, and slots on both sides of their bounds. -/
theorem witness_ReadsAnswerTheirRecords :
    (∀ x ∈ [(quiet, asks 0x10 15 [])], (ask x.1 .o x.2).Takes .o .readPortal x.2)
    ∧ (∀ x ∈ [(quiet, asks 0x11 3 [])], (ask x.1 .o x.2).Takes .o .readBore x.2)
    ∧ (∀ x ∈ [(quiet, asks 0x12 13 [])], (ask x.1 .o x.2).Takes .o .readZone x.2)
    ∧ (∀ x ∈ [(quiet, asks 0x13 13 [7]), (quiet, asks 0x13 13 [8])], (ask x.1 .o x.2).Takes .o .readCircuit x.2)
    ∧ (∀ x ∈ [(quiet, asks 0x14 3 [])], (ask x.1 .o x.2).Takes .o .readMeter x.2)
    ∧ (∀ x ∈ [(quiet, asks 0x16 3 [0]), (quiet, asks 0x16 3 [1]), (quiet, asks 0x16 3 [2])],
        (ask x.1 .o x.2).Takes .o .readPlan x.2)
    ∧ (∀ x ∈ [(quiet, asks 0x17 0 [])], (ask x.1 .o x.2).Takes .o .readSchedule x.2)
    ∧ (∀ x ∈ [(quiet, asks 0x18 0 [])], (ask x.1 .o x.2).Takes .o .readClock x.2)
    ∧ (unitsOf 4 15 = some [0, 1, 2, 3] ∧ unitsOf 2 3 = some [0, 1] ∧ finOf 14 13 = some 13 ∧ finOf 8 7 = some 7
      ∧ finOf 4 3 = some 3) :=
  ⟨takes_all _ _ _ (by decide +kernel), takes_all _ _ _ (by decide +kernel), takes_all _ _ _ (by decide +kernel),
    takes_all _ _ _ (by decide +kernel), takes_all _ _ _ (by decide +kernel), takes_all _ _ _ (by decide +kernel),
    takes_all _ _ _ (by decide +kernel), takes_all _ _ _ (by decide +kernel), by decide +kernel⟩

/-- The held cabinet with line 5 in a full period. -/
def pinsRead : State :=
  (heldAt 9100 10000).setLine 5 { (heldAt 9100 10000).line 5 with output := .duty 1000, period := some 1000 }

/-- A tick of the quiet part, and an evaluation that leaves its portal in service over a DIM_OUT line in a period. -/
theorem witness_SettingsChangeOnlyByTheirWrites :
    ((∃ t, exec .burnTick quiet = .next t) ∧ Instr.burnTick ≠ .powerOn ∧ Instr.burnTick ≠ .resetPinRelease
      ∧ ∀ n, Instr.burnTick ≠ .resetPin n)
    ∧ leads (exec (.portalEvaluation 0) pinsRead) (fun t => decide ((t.portal 0).state ≠ .offline)) = true
    ∧ pinsRead.ConditionsFollow ∧ pinsRead.PortalsFit ∧ (pinsRead.line 5).period = some 1000 :=
  ⟨⟨⟨_, rfl⟩, by decide, by decide, fun _ => Instr.noConfusion⟩, by decide +kernel,
    by unfold State.ConditionsFollow; decide +kernel, by unfold State.PortalsFit; decide +kernel, by decide +kernel⟩

/-- Runs at their bounds, over a FLOATING line, a SWITCH_OUT line and DIM_OUT lines at duty 0 and 1000. -/
theorem witness_ReadLineReadsThePins :
    (∀ x ∈ [(pinsRead, asks 0x15 0 [0]), (pinsRead, asks 0x15 0 [33]), (pinsRead, asks 0x15 191 [2]),
        (pinsRead, asks 0x15 0 [32]), (pinsRead, asks 0x15 191 [1])], (ask x.1 .o x.2).Takes .o .readLine x.2)
    ∧ ((pinsRead.line 9).drive = .floating ∧ (pinsRead.line 0).fn = .switchOut ∧ (pinsRead.line 0).drive = .driven
      ∧ (pinsRead.line 0).output = .level false ∧ (pinsRead.line 4).fn = .dimOut ∧ (pinsRead.line 4).drive = .driven
      ∧ (pinsRead.line 4).output = .duty 0 ∧ (pinsRead.line 4).period = some 0
      ∧ (pinsRead.line 5).output = .duty 1000 ∧ (pinsRead.line 5).period = some 1000) :=
  ⟨takes_all _ _ _ (by decide +kernel), by decide +kernel⟩

/-- The schedule of chapter 1. -/
def scheduled : State :=
  { quiet with schedule := [⟨300, 240, 2500⟩, ⟨540, 600, 4500⟩, ⟨1380, 180, 150⟩] }

theorem witness_WhatIsReadCanBeWrittenBack :
    plan.valid = true ∧ scheduled.ScheduleFit ∧ (zoneWith .on .off .on .on 840 11520).legal = true :=
  ⟨by decide +kernel, by unfold State.ScheduleFit; decide +kernel, by decide +kernel⟩

/-- The corrected cabinet where the second meter names line 97, which has no function yet. -/
def secondMeter : State :=
  corrected.setMeter 1 { corrected.meter 1 with line := some 97 }

/-- A body with no meaning, a run in service, a run that takes a meter's line away, one that gives a meter its line. -/
theorem witness_WriteLineSetsARun :
    (∀ x ∈ [(secondMeter, asks 0x20 0 [0, 1, 0]), (heldAt 9100 10000, asks 0x20 0 [1, 1, 0]),
        (secondMeter, asks 0x20 96 [1, 0, 0]), (secondMeter, asks 0x20 97 [95, 4, 1])],
        (ask x.1 .o x.2).Takes .o .writeLine x.2)
    ∧ (∀ s ∈ [secondMeter, heldAt 9100 10000], s.MetersFit)
    ∧ lineSetting (asks 0x20 0 [0, 1, 0]) = none ∧ (lineSetting (asks 0x20 0 [1, 1, 0])).isSome = true
    ∧ (heldAt 9100 10000).lineInService 0 = true ∧ (lineSetting (asks 0x20 96 [1, 0, 0])).isSome = true
    ∧ secondMeter.lineInService 96 = false
    ∧ (lineSetting (asks 0x20 97 [95, 4, 1])).any (fun x => !x.1.any secondMeter.lineInService) = true :=
  ⟨takes_all _ _ _ (by decide +kernel), by unfold State.MetersFit; decide +kernel, by decide +kernel⟩

/-- A gate out of range, a line another meter names, a line changed in service, and setups that pass. -/
theorem witness_WriteMeterSetupRestartsTheMeter :
    (∀ x ∈ [(corrected, asks 0x21 0 [96, 0, 50, 0x1F, 0x40, 4]), (corrected, asks 0x21 1 [96, 1, 0xF4, 0x1F, 0x40, 4]),
        (heldAt 9100 10000, asks 0x21 0 [97, 1, 0xF4, 0x1F, 0x40, 4]), (corrected, asks 0x21 0 [96, 0, 100, 3, 0xE8, 1]),
        (heldAt 9100 10000, asks 0x21 0 [96, 7, 0xD0, 0x27, 0x0F, 16])], (ask x.1 .o x.2).Takes .o .writeMeterSetup x.2)
    ∧ meterSetupOf [96, 0, 50, 0x1F, 0x40, 4] = none ∧ (meterSetupOf [96, 0, 100, 3, 0xE8, 1]).isSome = true
    ∧ (corrected.meter 0).line = some 96 ∧ ((heldAt 9100 10000).portal 0).state ≠ .offline
    ∧ ((heldAt 9100 10000).portal 0).meter = some 0 ∧ (corrected.portal 0).state = .offline :=
  ⟨takes_all _ _ _ (by decide +kernel), by decide +kernel⟩

theorem witness_WritePortalSetupIsForOfflinePortals :
    (∀ x ∈ [(heldAt 9100 10000, asks 0x22 0 [0, 0xFF, 3, 0xE8]), (corrected, asks 0x22 0 [0, 0xFF, 0, 249]),
        (corrected, asks 0x22 0 [4, 3, 0, 250]), (corrected, asks 0x22 0 [3, 0xFF, 0, 250]),
        (corrected, asks 0x22 0 [0xFF, 3, 0x0F, 0xA0])], (ask x.1 .o x.2).Takes .o .writePortalSetup x.2)
    ∧ ((heldAt 9100 10000).portal 0).state ≠ .offline ∧ (corrected.portal 0).state = .offline :=
  ⟨takes_all _ _ _ (by decide +kernel), by decide +kernel⟩

theorem witness_WriteZoneReplacesTheSetup :
    (∀ x ∈ [(corrected, asks 0x23 13 (List.replicate 48 0)), (heldAt 9100 10000, asks 0x23 12 (zoneSetup (corrected.zone 12))),
        (corrected, asks 0x23 0 (zoneSetup (corrected.zone 0))), (corrected, asks 0x23 13 (zoneSetup (corrected.zone 12)))],
        (ask x.1 .o x.2).Takes .o .writeZone x.2)
    ∧ zoneSetupOf (List.replicate 48 0) = none ∧ (zoneSetupOf (zoneSetup (corrected.zone 0))).isSome = true
    ∧ (zoneSetupOf (zoneSetup (corrected.zone 12))).isSome = true ∧ (corrected.portal 0).state = .offline
    ∧ ((heldAt 9100 10000).portal 0).state ≠ .offline :=
  ⟨takes_all _ _ _ (by decide +kernel), by decide +kernel⟩

theorem witness_WritePlanReplacesASlot :
    (∀ x ∈ [(corrected, asks 0x24 15 [2]), (corrected, asks 0x24 1 [0]), (corrected, asks 0x24 1 [1]),
        (corrected, asks 0x24 8 (planData .a (some plan))), (heldAt 9100 10000, asks 0x24 1 (planData .b (some plan))),
        (corrected, asks 0x24 1 (planData .a (some { plan with r1 := 99 })))], (ask x.1 .o x.2).Takes .o .writePlan x.2)
    ∧ unitsOf 4 15 = some [0, 1, 2, 3] ∧ unitsOf 4 1 = some [0] ∧ unitsOf 4 8 = some [3]
    ∧ (planOf (planData .a (some plan))).valid = true
    ∧ (planOf (planData .a (some { plan with r1 := 99 }))).valid = false :=
  ⟨takes_all _ _ _ (by decide +kernel), by decide +kernel⟩

theorem witness_ScheduleClockAndTimeoutAreSet :
    (∀ x ∈ [(quiet, asks 0x25 0 [0]), (quiet, asks 0x25 0 (scheduleData scheduled.schedule)),
        (quiet, asks 0x25 0 [1, 0, 0, 0, 0, 0])], (ask x.1 .o x.2).Takes .o .writeSchedule x.2)
    ∧ (∀ x ∈ [(quiet, asks 0x27 0 [5, 0x9F, 0, 0]), (quiet, asks 0x27 0 [5, 0xA0, 0, 0])],
        (ask x.1 .o x.2).Takes .o .setClock x.2)
    ∧ (∀ x ∈ [(quiet, asks 0x26 3 [0, 9]), (quiet, asks 0x26 3 [0, 10]), (quiet, asks 0x26 1 [2, 0x58]),
        (quiet, asks 0x26 2 [2, 0x59])], (ask x.1 .o x.2).Takes .o .writeBoreSetup x.2)
    ∧ scheduleOf [1, 0, 0, 0, 0, 0] = none ∧ (scheduleOf [0]).isSome = true
    ∧ (scheduleOf (scheduleData scheduled.schedule)).isSome = true :=
  ⟨takes_all _ _ _ (by decide +kernel), takes_all _ _ _ (by decide +kernel), takes_all _ _ _ (by decide +kernel),
    by decide +kernel⟩

/-- The cabinet with its errors and corrected, and a portal in service, all under the interior condition their states
give. -/
theorem witness_CommissionTakesPortalsToHeld :
    (∀ x ∈ [(cabinet 44 .switchOut, asks 0x30 15 []), (corrected, asks 0x30 1 []), (heldAt 9100 10000, asks 0x30 1 [])],
        (ask x.1 .o x.2).Takes .o .commission x.2)
    ∧ (cabinet 44 .switchOut).failures 0 ≠ [] ∧ corrected.failures 0 = [] ∧ (corrected.portal 0).state = .offline
    ∧ ((heldAt 9100 10000).portal 0).state ≠ .offline ∧ corrected.ConditionsFollow :=
  ⟨takes_all _ _ _ (by decide +kernel), by decide +kernel, by decide +kernel, by decide +kernel, by decide +kernel,
    by unfold State.ConditionsFollow; decide +kernel⟩

/-- The held cabinet with P0 in another state, its interior condition and emergency flag to match. -/
def inState (st : PortalState) : State :=
  let s := heldAt 9100 10000
  let s := s.setPortal 0 { s.portal 0 with
    state := st, dryRun := if st = .dryRun then some ⟨3200, none, none⟩ else none }
  s.setBore 0 { s.bore 0 with
    condition := if st = .auto ∨ st = .emergency then .driven else .held, emergency := decide (st = .emergency) }

/-- The held cabinet with a RELEASE pending. -/
def releasing : State :=
  let s := heldAt 9100 10000
  s.setPortal 0 { s.portal 0 with action := some ⟨.release, .o, 18, true, true⟩ }

theorem witness_DeferredRequestsMakeRecords :
    (∀ x ∈ [(inState .auto, asks 0x31 1 []), (inState .held, asks 0x31 3 []), (releasing, asks 0x31 1 [])],
        (ask x.1 .o x.2).Takes .o .hold x.2)
    ∧ (∀ x ∈ [(inState .held, asks 0x32 15 []), (inState .emergency, asks 0x32 1 []), (releasing, asks 0x32 1 [])],
        (ask x.1 .o x.2).Takes .o .release x.2)
    ∧ (∀ x ∈ [(inState .dryRun, asks 0x33 1 [0]), (corrected, asks 0x33 1 [0]), (inState .auto, asks 0x33 1 [2])],
        (ask x.1 .o x.2).Takes .o .stop x.2)
    ∧ (releasing.portal 0).action.isSome = true ∧ ([2] : List Octet) ≠ [0] ∧ ([2] : List Octet) ≠ [1] :=
  ⟨takes_all _ _ _ (by decide +kernel), takes_all _ _ _ (by decide +kernel), takes_all _ _ _ (by decide +kernel),
    by decide +kernel⟩

/-- P0 in AUTO on its own meter with P1 on PARTNER behind it. -/
def followed : State :=
  let s := inState .auto
  let s := s.setPortal 0 { s.portal 0 with source := some .own, access := some 3200 }
  s.setPortal 1 { s.portal 1 with
    state := .held, timer := some 10000, planA := some plan, partner := some 0, source := some .partner
    access := some 3200 }

theorem witness_StopImmediateTakesPortalsOffline :
    (∀ x ∈ [(corrected, asks 0x33 1 [1]), (inState .emergency, asks 0x33 1 [1]), (releasing, asks 0x33 1 [1]),
        (followed, asks 0x33 3 [1])], (ask x.1 .o x.2).Takes .o .stop x.2)
    ∧ (∀ s ∈ [releasing, followed, inState .emergency, corrected], s.ConditionsFollow)
    ∧ (followed.portal 1).source = some .partner ∧ (followed.portal 1).partner = some 0
    ∧ (followed.portal 0).source = some .own :=
  ⟨takes_all _ _ _ (by decide +kernel), by unfold State.ConditionsFollow; decide +kernel, by decide +kernel⟩

/-- The kind and duration on both sides of their bounds, the level at its own. -/
theorem witness_OverridesAreSetAndCleared :
    unitsOf 4 1 = some [0]
    ∧ (∀ x ∈ [(inState .held, asks 0x34 1 [2, 0, 0, 0]), (inState .held, asks 0x34 1 [1, 0, 0, 241]),
        (inState .held, asks 0x34 1 [1, 0, 0, 240]), (inState .auto, asks 0x34 1 [0, 0xEA, 0x61, 0]),
        (inState .auto, asks 0x34 1 [0, 0xEA, 0x60, 1]), (inState .emergency, asks 0x34 1 [0, 0, 0, 0])],
        (ask x.1 .o x.2).Takes .o .overrideSet x.2)
    ∧ ∀ x ∈ [(inState .held, asks 0x35 1 [])], (ask x.1 .o x.2).Takes .o .overrideClear x.2 :=
  ⟨by decide +kernel, takes_all _ _ _ (by decide +kernel), takes_all _ _ _ (by decide +kernel)⟩

theorem witness_DryRunsStartAndStop :
    unitsOf 4 1 = some [0]
    ∧ (∀ x ∈ [(inState .held, asks 0x36 1 [0x27, 0x10, 0xFF, 0xFF]), (inState .held, asks 0x36 1 [0x27, 0x0F, 4, 1]),
        (inState .auto, asks 0x36 1 [0, 0, 0xFF, 0xFF]), (releasing, asks 0x36 1 [0, 0, 0xFF, 0xFF])],
        (ask x.1 .o x.2).Takes .o .dryRunStart x.2)
    ∧ (∀ x ∈ [(inState .dryRun, asks 0x37 1 [0, 0, 5, 0]), (inState .dryRun, asks 0x37 1 [0, 0, 0, 0])],
        (ask x.1 .o x.2).Takes .o .dryRunInput x.2)
    ∧ (∀ x ∈ [(inState .dryRun, asks 0x38 1 []), (inState .emergency, asks 0x38 1 [])],
        (ask x.1 .o x.2).Takes .o .dryRunStop x.2)
    ∧ dryRunInputOf [0x27, 0x10, 0xFF, 0xFF] = none ∧ (dryRunInputOf [0x27, 0x0F, 4, 1]).isSome = true
    ∧ (inState .held).ConditionsFollow ∧ (inState .dryRun).ConditionsFollow :=
  ⟨by decide +kernel, takes_all _ _ _ (by decide +kernel), takes_all _ _ _ (by decide +kernel),
    takes_all _ _ _ (by decide +kernel), by decide +kernel, by decide +kernel,
    by unfold State.ConditionsFollow; decide +kernel, by unfold State.ConditionsFollow; decide +kernel⟩

/-- Zone 0 with slots 0, 4 and 7 named: a lockout, one cleared at once, and one cleared under emergency allocation. -/
theorem witness_CircuitMaintenance :
    (∀ x ∈ [(inState .auto, asks 0x40 0 [0x91, 0]), (inState .held, asks 0x40 0 [0x91, 0x11]),
        (inState .emergency, asks 0x40 0 [0x11, 0x91])], (ask x.1 .o x.2).Takes .o .lockoutModify x.2)
    ∧ (∀ x ∈ [(inState .auto, asks 0x41 0 [0xFF]), (inState .auto, asks 0x41 13 [0])],
        (ask x.1 .o x.2).Takes .o .burnReset x.2)
    ∧ (inState .emergency).underEmergency 0 = true ∧ (inState .held).underEmergency 0 = false
    ∧ ((inState .auto).circuit 0 0).isSome = true ∧ (inState .auto).circuit 0 7 = none :=
  ⟨takes_all _ _ _ (by decide +kernel), takes_all _ _ _ (by decide +kernel), by decide +kernel⟩

theorem witness_TrafficInputsActOnTheSelectedBores :
    unitsOf 2 3 = some [0, 1]
    ∧ (∀ x ∈ [(quiet, asks 0x50 3 [0, 2]), (quiet, asks 0x50 3 [4, 1]), (quiet, asks 0x50 3 [5, 0])],
        (ask x.1 .t x.2).Takes .t .speedReport x.2)
    ∧ (∀ x ∈ [(quiet, asks 0x51 3 [4]), (quiet, asks 0x51 3 [3]), (quiet, asks 0x51 3 [0])],
        (ask x.1 .t x.2).Takes .t .directionSet x.2)
    ∧ DirectionMode.closed.code = 3 :=
  ⟨by decide +kernel, takes_all _ _ _ (by decide +kernel), takes_all _ _ _ (by decide +kernel), by decide +kernel⟩

theorem boundedAnswers {s : State}
    (h : ([Link.o, .t, .s].all fun l => decide ((s.link l).responses.length + (s.owedTo l).length ≤ 8)) = true) :
    s.AnswersBounded := by
  simp only [List.all_cons, List.all_nil, Bool.and_true, Bool.and_eq_true, decide_eq_true_eq] at h
  intro l
  cases l
  · exact h.1
  · exact h.2.1
  · exact h.2.2

/-- A bore already in emergency, one with a RELEASE pending, one with a portal on PARTNER, and one out of service. -/
theorem witness_EmergencySetLightsTheBore :
    (∀ x ∈ [(inState .emergency, asks 0x52 3 []), (releasing, asks 0x52 1 []), (followed, asks 0x52 3 []),
        (corrected, asks 0x52 1 [])], (ask x.1 .s x.2).Takes .s .emergencySet x.2)
    ∧ (∀ s ∈ [releasing, followed, corrected], s.ConditionsFollow)
    ∧ (∀ s ∈ [releasing, followed, corrected], s.ZonesLegal) ∧ releasing.AnswersBounded
    ∧ (releasing.portal 0).action.isSome = true ∧ (releasing.bore 0).emergency = false
    ∧ ((inState .emergency).bore 0).emergency = true :=
  ⟨takes_all _ _ _ (by decide +kernel), by unfold State.ConditionsFollow; decide +kernel,
    by unfold State.ZonesLegal; decide +kernel, boundedAnswers (by decide +kernel), by decide +kernel⟩

theorem witness_EmergencyClearReturnsToAuto :
    (∀ x ∈ [(inState .emergency, asks 0x53 3 []), (quiet, asks 0x53 1 [])], (ask x.1 .s x.2).Takes .s .emergencyClear x.2)
    ∧ unitsOf 2 3 = some [0, 1] ∧ (inState .emergency).ConditionsFollow
    ∧ ((inState .emergency).bore 0).emergency = true ∧ (quiet.bore 0).emergency = false :=
  ⟨takes_all _ _ _ (by decide +kernel), by decide +kernel, by unfold State.ConditionsFollow; decide +kernel,
    by decide +kernel⟩

/-- The four steps of the cascade. -/
theorem witness_TheSourceCascade :
    let alone := followed.setMeter 0 { followed.meter 0 with status := .faulty }
    ((followed.portal 0).meter = some 0 ∧ (followed.meter 0).status = .valid ∧ (followed.meter 0).filtered = some 3200)
    ∧ ((followed.portal 1).meter = none ∧ (followed.portal 1).partner = some 0 ∧ (followed.portal 0).source = some .own)
    ∧ ((Window.mk 300 240 2500).start = 300 ∧ (539 + 1440 - 300) % 1440 < 240 ∧ ¬ (540 + 1440 - 300) % 1440 < 240)
    ∧ ((alone.meter 0).status ≠ .valid ∧ alone.clock = none ∧ alone.selectedPlan 0 = some plan) := by decide +kernel

/-- Evaluations with no action pending in each state, and with a STOP ORDERLY that waits for a contactor. -/
theorem witness_AnEvaluationRunsItsSteps :
    let waiting := (inState .auto).setPortal 0 { (inState .auto).portal 0 with
      action := some ⟨.stopOrderly, .o, 40, true, true⟩ }
    let waiting := waiting.setZone 0 ((waiting.zone 0).modSlot 1 (Circuit.switchOn 9000 2000))
    (∀ s ∈ [inState .held, inState .auto, inState .dryRun, inState .emergency, followed, waiting], s.Settled)
    ∧ (∀ s ∈ [inState .held, inState .auto, inState .dryRun, inState .emergency, followed],
        (s.portal 0).timer = some 10000 ∧ (s.portal 0).state ≠ .offline ∧ s.selectedPlan 0 = some plan
        ∧ (s.portal 0).action = none)
    ∧ (waiting.portal 0).timer = some 10000 ∧ waiting.selectedPlan 0 = some plan
    ∧ (waiting.portal 0).action.map PendingAction.kind = some .stopOrderly ∧ waiting.portalInFlight 0 = true :=
  ⟨settled_all _ (by decide +kernel), by decide +kernel, by decide +kernel⟩

/-- A HOLD in AUTO, a RELEASE in HELD with and without an emergency, a STOP ORDERLY with nothing in flight. -/
theorem witness_PendingActionsTakeEffect :
    let acting (s : State) (kind : ActionKind) := s.setPortal 0 { s.portal 0 with action := some ⟨kind, .o, 17, true, true⟩ }
    let alarmed := releasing.setBore 0 { releasing.bore 0 with emergency := true }
    (∀ s ∈ [acting (inState .auto) .hold, releasing, alarmed, acting (inState .dryRun) .stopOrderly], s.Settled)
    ∧ (∀ s ∈ [acting (inState .auto) .hold, releasing, alarmed, acting (inState .dryRun) .stopOrderly],
        s.ConditionsFollow)
    ∧ (∀ s ∈ [acting (inState .auto) .hold, releasing, alarmed, acting (inState .dryRun) .stopOrderly],
        (s.portal 0).timer = some 10000 ∧ (s.portal 0).action.isSome = true ∧ s.selectedPlan 0 = some plan)
    ∧ (releasing.bore 0).emergency = false ∧ (alarmed.bore 0).emergency = true
    ∧ (acting (inState .dryRun) .stopOrderly).portalInFlight 0 = false :=
  ⟨settled_all _ (by decide +kernel), by unfold State.ConditionsFollow; decide +kernel, by decide +kernel⟩

/-- The five cases: emergency, CLOSED with and without a portal in AUTO, open with and without an entry in AUTO. -/
theorem witness_ABoreEvaluationWorksTheInterior :
    let closed (s : State) := s.setBore 0 { s.bore 0 with mode := .closed }
    (∀ s ∈ [inState .emergency, closed (inState .auto), closed (inState .held), inState .auto, inState .held], s.Settled)
    ∧ ((inState .emergency).bore 0).emergency = true ∧ ((inState .auto).bore 0).mode ≠ .closed
    ∧ (inState .auto).selectedPlan 0 = some plan ∧ roleOf .forward 0 = .entry
    ∧ ((inState .auto).portal 0).state = .auto ∧ ((inState .auto).portal 1).state ≠ .auto
    ∧ (∀ p, ((inState .held).portal p).state ≠ .auto) :=
  ⟨settled_all _ (by decide +kernel), by decide +kernel⟩

/-- A gate that ends in each status, at the ring's bound; the pin of a METER_IN line with and without a configured meter, of
another line, and a detector one period before an edge. -/
theorem witness_MetersCountAndJudge :
    let gate (st : MeterStatus) := corrected.setMeter 0 { corrected.meter 0 with
      status := st, gateCount := 6000, ring := List.replicate 16 ⟨1, 2500, .valid⟩ }
    (∀ s ∈ [gate .starting, gate .valid, gate .faulty, corrected], s.Settled)
    ∧ ((gate .faulty).meter 0).gateEnd = some 7500 ∧ ((gate .faulty).meter 0).ring.length ≤ 16
    ∧ (corrected.meter 1).gateEnd = none ∧ (corrected.meter 0).line = some 96 ∧ (corrected.line 96).fn = .meterIn
    ∧ (corrected.line 96).edge = some ⟨true, 0⟩ ∧ (corrected.line 95).fn ≠ .meterIn
    ∧ ((corrected.setLine 96 { corrected.line 96 with edge := some ⟨false, 19⟩ }).line 96).edge = some ⟨false, 19⟩
    ∧ corrected.MetersFit ∧ (corrected.setLine 96 { corrected.line 96 with edge := some ⟨false, 19⟩ }).MetersFit :=
  ⟨settled_all _ (by decide +kernel), by decide +kernel, by decide +kernel, by decide +kernel, by decide +kernel,
    by decide +kernel, by decide +kernel, by decide +kernel, by decide +kernel, by unfold State.MetersFit; decide +kernel,
    by unfold State.MetersFit; decide +kernel⟩

/-- A line that agrees, one that has disagreed 18 times and one that has 19 times. -/
theorem witness_ASampleDebouncesEveryFeedbackLine :
    let counted (n : Nat) := (inState .auto).setLine 40 { (inState .auto).line 40 with count := some n }
    (∀ s ∈ [counted 0, counted 18, counted 19], s.Settled) ∧ (∀ s ∈ [counted 0, counted 18, counted 19], s.InputsFit)
    ∧ ((counted 19).line 40).debounced = some false ∧ ((1#192 <<< 40).getLsbD 40 = true)
    ∧ (counted 19).supervised 0 = true ∧ ((counted 19).circuit 0 3).bind Circuit.feedback = some 40 :=
  ⟨settled_all _ (by decide +kernel), by unfold State.InputsFit; decide +kernel, by decide +kernel, by decide +kernel,
    by decide +kernel, by decide +kernel⟩

theorem witness_AFeedbackChangeReachesItsCircuits :
    let counted (n : Nat) := (inState .auto).setLine 40 { (inState .auto).line 40 with count := some n }
    (∀ s ∈ [counted 18, counted 19], s.Settled) ∧ ((counted 19).line 40).fn = .feedbackIn
    ∧ ((counted 19).line 40).count = some 19 ∧ ((counted 19).line 40).debounced = some false
    ∧ ¬ ((counted 18).line 40).count = some 19 :=
  ⟨settled_all _ (by decide +kernel), by decide +kernel⟩

/-- A settle in each direction with feedback absent and present, and a loss in each kind. -/
theorem witness_CircuitTimersExpire :
    let timed (st : CircuitState) (k : TimerKind) (z : Fin 8) (seen : Bool) :=
      let s := (inState .auto).setZone 0 (((inState .auto).zone 0).modSlot z fun c =>
        { c with state := st, timer := some ⟨k, 9500⟩ })
      s.setLine 37 { s.line 37 with debounced := some seen }
    (∀ s ∈ [timed .switchingOn .settle 0 true, timed .switchingOn .settle 0 false, timed .switchingOff .settle 0 true,
        timed .switchingOff .settle 0 false, timed .on .loss 0 false, timed .on .loss 4 false], s.Settled)
    ∧ ((timed .switchingOn .settle 0 true).circuit 0 0).bind Circuit.timer = some ⟨.settle, 9500⟩
    ∧ ((timed .on .loss 4 false).circuit 0 4).any Circuit.available = true
    ∧ ((timed .on .loss 4 false).circuit 0 0).any (fun c => c.timer.isNone) = true :=
  ⟨settled_all _ (by decide +kernel), by decide +kernel⟩

theorem witness_TheTimersOfThePart :
    let s := (inState .auto).setPortal 0 { (inState .auto).portal 0 with override := some ⟨.freeze, 1, some 69100⟩ }
    (∀ t ∈ [s, { s with clock := some ⟨1439, 65535, 60000⟩ }], t.Settled)
    ∧ (s.portal 0).override = some ⟨.freeze, 1, some 69100⟩ ∧ (s.portal 1).override = none
    ∧ (s.bore 0).staleTimer = some 121800 ∧ (s.bore 1).staleTimer = none ∧ s.clock = none :=
  ⟨settled_all _ (by decide +kernel), by decide +kernel⟩

/-- The first point, a segment of the plan's curve and the last point. -/
theorem witness_TheCurveValue :
    plan.valid = true ∧ plan.curve.head? = some ⟨0, 400⟩ ∧ plan.curve.getLast? = some ⟨6000, 24000⟩
    ∧ plan.curve[2]? = some ⟨2000, 9000⟩ ∧ plan.curve[3]? = some ⟨4000, 18000⟩ ∧ curveValue 3200 plan.curve = 14400 := by
  decide +kernel

theorem witness_TheOrderOfTheDemands :
    plan.valid = true ∧ demandsFor plan .entry 60000 600 = ⟨60000, 24000, 9000⟩
    ∧ demandsFor plan .exit 0 60000 = ⟨60000, 60000, 60000⟩ ∧ (inState .dryRun).LevelsBounded
    ∧ (inState .dryRun).selectedPlan 0 = some plan ∧ (inState .dryRun).previewPlan 0 ⟨3200, none, some .b⟩ = some plan :=
  ⟨by decide +kernel, by decide +kernel, by decide +kernel, by unfold State.LevelsBounded; decide +kernel,
    by decide +kernel, by decide +kernel⟩

/-- Steps up and down at their floors, at the demand's edge, and at the largest R. -/
theorem witness_ARampStepMovesTowardsTheDemand :
    let at_ (r : Nat) := zoneWith .off .off .off .off 0 r
    ((at_ 0).ramp false 10 1 60000).ramped = 50 ∧ ((at_ 60000).ramp false 1000 200 0).ramped = 48000
    ∧ ((at_ 49).ramp false 10 1 50).ramped = 50 ∧ ((at_ 50).ramp false 10 1 49).ramped = 49 := by decide +kernel

/-- Zones for each branch: one in flight, one that switches on, one with none left, one that switches off, one in the
band. -/
theorem witness_ASwitchingDecisionIssuesOneCommand :
    let flight := (zoneWith .off .off .on .off 333 6250).modSlot 3 (Circuit.switchOn 0 500)
    (flight.legal = true ∧ flight.anyInFlight = true)
    ∧ (zoneWith .off .off .on .off 333 6250).legal = true ∧ (zoneWith .on .on .on .on 333 20000).legal = true
    ∧ (zoneWith .on .off .on .on 50 8661).legal = true ∧ (zoneWith .on .off .on .on 132 9021).legal = true
    ∧ (zoneWith .off .off .off .off 132 9).legal = true ∧ (zoneWith .on .off .on .on 50 8661).lastOn = some 0
    ∧ (zoneWith .off .off .on .off 333 6250).firstOff = some 3 := by decide +kernel

theorem witness_TheCommonDimLevel :
    (zoneWith .off .off .on .off 333 6250).legal = true ∧ (zoneWith .off .off .on .off 333 6250).cd = 3000
    ∧ (corrected.zone 13).legal = true ∧ (corrected.zone 13).cd = 0 := by decide +kernel

/-- What `State.LinesFollow` asks of one supervised circuit, to evaluate. -/
def lineFollows (s : State) (x : Fin 14 × Fin 8 × Circuit) : Bool :=
  let y := s.line x.2.2.output
  match x.2.2.kind with
  | .switched => y.fn == .switchOut && y.drive == .driven && y.output == .level x.2.2.active
  | .dimmed => y.fn == .dimOut && y.drive == .driven && y.output == .duty x.2.2.level

theorem linesFollow_of {s : State} (h1 : s.namings.Nodup) (h2 : s.supervisedCircuits.all (lineFollows s) = true)
    (h3 : ∀ i, (∀ x ∈ s.supervisedCircuits, x.2.2.output ≠ i) →
      (s.line i).drive = .floating ∧ (s.line i).output = .none) : s.LinesFollow := by
  refine ⟨h1, fun x hx => ?_, h3⟩
  have := List.all_eq_true.mp h2 x hx
  unfold lineFollows at this
  cases hk : x.2.2.kind <;> simp only [hk, Bool.and_eq_true, beq_iff_eq] at this <;> exact ⟨this.1.1, this.1.2, this.2⟩

/-- The cabinet in emergency: what EMERGENCY_SET leaves of the held one, at the next event. -/
def alight : State :=
  afterOutcome quiet (exec (.emergencySet .s) (ask (heldAt 9100 10000) .s (asks 0x52 1 [])))

/-! A state that meets the premises of each invariant's statement, and takes a step. -/

theorem witness_EveryStepKeepsTheLinksOrdered :
    alight.LinksOrdered ∧ ∃ t, step alight = .next t :=
  ⟨fun l => by cases l <;> decide +kernel, _, rfl⟩

theorem witness_EveryStepKeepsTheAnswersBounded :
    alight.AnswersBounded ∧ ∃ t, step alight = .next t :=
  ⟨boundedAnswers (by decide +kernel), _, rfl⟩

theorem witness_EveryStepKeepsTheLevelsBounded :
    alight.LevelsBounded ∧ ∃ t, step alight = .next t :=
  ⟨by unfold State.LevelsBounded; decide +kernel, _, rfl⟩

theorem witness_EveryStepKeepsTheMetersFit :
    alight.MetersFit ∧ ∃ t, step alight = .next t :=
  ⟨by unfold State.MetersFit; decide +kernel, _, rfl⟩

theorem witness_EveryStepKeepsTheScheduleFit :
    scheduled.ScheduleFit ∧ ∃ t, step scheduled = .next t :=
  ⟨by unfold State.ScheduleFit; decide +kernel, _, rfl⟩

theorem witness_EveryStepKeepsThePortalsFit :
    alight.PortalsFit ∧ ∃ t, step alight = .next t :=
  ⟨by unfold State.PortalsFit; decide +kernel, _, rfl⟩

theorem witness_EveryStepKeepsPartnersOwn :
    (followed.PortalsFit ∧ followed.PartnersOwn) ∧ ∃ t, step followed = .next t :=
  ⟨⟨by unfold State.PortalsFit; decide +kernel, by unfold State.PartnersOwn; decide +kernel⟩, _, rfl⟩

theorem witness_EveryStepKeepsTheConditions :
    alight.ConditionsFollow ∧ ∃ t, step alight = .next t :=
  ⟨by unfold State.ConditionsFollow; decide +kernel, _, rfl⟩

theorem witness_EveryStepKeepsTheZonesLegal :
    (alight.ZonesLegal ∧ alight.ConditionsFollow ∧ alight.DimsRight) ∧ ∃ t, step alight = .next t :=
  ⟨⟨by unfold State.ZonesLegal; decide +kernel, by unfold State.ConditionsFollow; decide +kernel,
    by unfold State.DimsRight; decide +kernel⟩, _, rfl⟩

theorem witness_EveryStepKeepsAnEmergencyLit :
    (alight.ZonesLegal ∧ alight.ConditionsFollow ∧ alight.EmergencyLit ∧ alight.underEmergency 0 = true) ∧ ∃ t, step alight = .next t :=
  ⟨⟨by unfold State.ZonesLegal; decide +kernel, by unfold State.ConditionsFollow; decide +kernel, by unfold State.EmergencyLit; decide +kernel, by decide +kernel⟩, _, rfl⟩

theorem witness_EveryStepKeepsTheLinesFollowing :
    (alight.PortalsFit ∧ alight.ConditionsFollow ∧ alight.LinesFollow ∧ alight.InputsFit) ∧ ∃ t, step alight = .next t :=
  ⟨⟨by unfold State.PortalsFit; decide +kernel, by unfold State.ConditionsFollow; decide +kernel,
    linesFollow_of (by decide +kernel) (by decide +kernel) (by decide +kernel),
    by unfold State.InputsFit; decide +kernel⟩, _, rfl⟩

theorem witness_EveryStepLeavesNoTransmitterIdle :
    alight.NothingLeftIdle ∧ ∃ t, step alight = .next t :=
  ⟨Or.inr (settled_of (by decide +kernel)).2, _, rfl⟩

theorem witness_ResetAndPower :
    State.reset.inReset = false ∧ ({ State.reset with inReset := true }).inReset = true
    ∧ ∀ n ∈ [10, 1, 2, 9], 10 ≤ n ∨ n < 2 ∨ (2 ≤ n ∧ n < 10) := by
  decide +kernel

end Sys2Proof.Tests
end

section
/-! SUPPORT. Level plans: the curve value over a rising curve (R35), the order of the demands (R44 to R46), and the
demands an evaluation works from a bounded state. -/

namespace Sys2Proof.Machine

/-! ### Rounded division (R2) -/

/-- A fraction of `n`, rounded, is at most `n`. -/
theorem roundDiv_mul_le {k d : Nat} (n : Nat) (h : k ≤ d) : roundDiv (n * k) d ≤ n := by
  obtain rfl | hd := d.eq_zero_or_pos
  · simp [roundDiv]
  · have hmul : n * k ≤ n * d := Nat.mul_le_mul_left n h
    have hlt : 2 * (n * k) + d < (n + 1) * (2 * d) := by
      calc 2 * (n * k) + d < 2 * (n * d) + 2 * d := by omega
        _ = (n + 1) * (2 * d) := by ring
    exact Nat.le_of_lt_succ ((Nat.div_lt_iff_lt_mul (by omega)).mpr hlt)

theorem roundDiv_le_roundDiv {m n : Nat} (d : Nat) (h : m ≤ n) : roundDiv m d ≤ roundDiv n d :=
  Nat.div_le_div_right (by omega)

/-! ### Rising curves (R29) -/

/-- The point `q` may stand before `r` on a curve: its access luminance is lower, its threshold not higher (R29). -/
def Point.Before (q r : Point) : Prop :=
  q.access < r.access ∧ q.threshold ≤ r.threshold

theorem Point.Before.trans {p q r : Point} (h : p.Before q) (k : q.Before r) : p.Before r :=
  ⟨h.1.trans k.1, h.2.trans k.2⟩

/-- On a rising curve every point stands before every later one. -/
theorem pairwise_before_of_curveRises {c : List Point} (h : curveRises c = true) : c.Pairwise Point.Before := by
  have : IsTrans Point Point.Before := ⟨fun _ _ _ => Point.Before.trans⟩
  refine List.IsChain.pairwise ?_
  induction c with
  | nil => exact .nil
  | cons p c ih =>
    cases c with
    | nil => exact .singleton p
    | cons q rest =>
      simp only [curveRises, Bool.and_eq_true, decide_eq_true_eq] at h
      exact .cons_cons h.1 (ih h.2)

/-! ### The curve value (R35) -/

theorem curveValue_of_le_head {a : Nat} {q : Point} (rest : List Point) (h : a ≤ q.access) :
    curveValue a (q :: rest) = q.threshold := by
  cases rest with
  | nil => rfl
  | cons r rest => simp [curveValue, h]

theorem curveValue_segment {a : Nat} {q r : Point} (rest : List Point) (hq : q.access < a) (hr : a < r.access) :
    curveValue a (q :: r :: rest)
      = q.threshold + roundDiv ((r.threshold - q.threshold) * (a - q.access)) (r.access - q.access) := by
  simp [curveValue, hr, Nat.not_le.mpr hq]

theorem curveValue_past {a : Nat} {q r : Point} (rest : List Point) (hqr : q.Before r) (h : r.access ≤ a) :
    curveValue a (q :: r :: rest) = curveValue a (r :: rest) := by
  simp [curveValue, Nat.not_le.mpr (hqr.1.trans_le h), Nat.not_lt.mpr h]

/-- The points before one at or below the access luminance have no part in the curve value. -/
theorem curveValue_append {a : Nat} {q : Point} (pre rest : List Point)
    (hc : (pre ++ q :: rest).Pairwise Point.Before) (h : q.access ≤ a) :
    curveValue a (pre ++ q :: rest) = curveValue a (q :: rest) := by
  induction pre with
  | nil => rfl
  | cons p pre ih =>
    obtain ⟨hp, htail⟩ := List.pairwise_cons.mp hc
    rw [← ih htail]
    cases pre with
    | nil => exact curveValue_past rest (hp q (by simp)) h
    | cons r pre =>
      have hr : r.Before q := (List.pairwise_cons.mp htail).1 q (by simp)
      exact curveValue_past _ (hp r (by simp)) (hr.1.le.trans h)

/-- The curve value is at most whatever bounds the points' thresholds. -/
theorem curveValue_le {a b : Nat} {c : List Point} (h : ∀ q ∈ c, q.threshold ≤ b) : curveValue a c ≤ b := by
  induction c with
  | nil => exact Nat.zero_le b
  | cons q c ih =>
    obtain ⟨hq, hc⟩ := List.forall_mem_cons.mp h
    cases c with
    | nil => exact hq
    | cons r rest =>
      have hr : r.threshold ≤ b := hc r (by simp)
      simp only [curveValue]
      split_ifs with hle hlt
      · exact hq
      · have hrise := roundDiv_mul_le (r.threshold - q.threshold) (show a - q.access ≤ r.access - q.access by omega)
        omega
      · exact ih hc

/-- The curve value is at least the threshold of a point that none of the curve lies below. -/
theorem le_curveValue {a b : Nat} {c : List Point} (hne : c ≠ []) (h : ∀ q ∈ c, b ≤ q.threshold) :
    b ≤ curveValue a c := by
  induction c with
  | nil => exact absurd rfl hne
  | cons q c ih =>
    obtain ⟨hq, hc⟩ := List.forall_mem_cons.mp h
    cases c with
    | nil => exact hq
    | cons r rest =>
      simp only [curveValue]
      split_ifs
      · exact hq
      · exact hq.trans (Nat.le_add_right _ _)
      · exact ih (List.cons_ne_nil r rest) hc

theorem head_le_curveValue {a : Nat} {q : Point} {rest : List Point} (hc : (q :: rest).Pairwise Point.Before) :
    q.threshold ≤ curveValue a (q :: rest) :=
  le_curveValue (List.cons_ne_nil q rest)
    (List.forall_mem_cons.mpr ⟨le_rfl, fun r hr => ((List.pairwise_cons.mp hc).1 r hr).2⟩)

theorem curveValue_le_last {a : Nat} {q : Point} {pre : List Point} (hc : (pre ++ [q]).Pairwise Point.Before) :
    curveValue a (pre ++ [q]) ≤ q.threshold := by
  refine curveValue_le fun r hr => ?_
  obtain hr | hr := List.mem_append.mp hr
  · exact ((List.pairwise_append.mp hc).2.2 r hr q (by simp)).2
  · rw [List.mem_singleton.mp hr]

theorem drop_of_getElem?_eq_some {ps : List Point} {i : Nat} {q : Point} (h : ps[i]? = some q) :
    ps.drop i = q :: ps.drop (i + 1) := by
  obtain ⟨hi, rfl⟩ := List.getElem?_eq_some_iff.mp h
  exact List.drop_eq_getElem_cons hi

/-- From a point at or below the access luminance on, the rest of the curve gives the curve value. -/
theorem curveValue_drop {a i : Nat} {ps : List Point} {q : Point} (hc : ps.Pairwise Point.Before)
    (hi : ps[i]? = some q) (h : q.access ≤ a) : curveValue a ps = curveValue a (q :: ps.drop (i + 1)) := by
  have hsplit : ps = ps.take i ++ q :: ps.drop (i + 1) := by
    rw [← drop_of_getElem?_eq_some hi, List.take_append_drop]
  rw [hsplit] at hc
  conv_lhs => rw [hsplit]
  exact curveValue_append _ _ hc h

/-! ### Valid plans (R29) -/

/-- What R29 asks of a valid plan's curve, speed factors and ratios, as far as its levels need it. -/
theorem Plan.levels_of_valid {p : Plan} (h : p.valid = true) :
    p.curve.Pairwise Point.Before ∧ (∀ q ∈ p.curve, q.threshold ≤ 60000) ∧ (∀ i, p.factors.get i ≤ 1000)
    ∧ p.r1 ≤ 1000 ∧ p.r2 ≤ p.r1 := by
  simp only [Plan.valid, Bool.and_eq_true, List.all_eq_true, decide_eq_true_eq, and_assoc] at h
  obtain ⟨-, -, hpoints, hrises, hfactors, -, -, hr1, -, hr2, -⟩ := h
  exact ⟨pairwise_before_of_curveRises hrises, fun q hq => (hpoints q hq).2,
    fun i => (hfactors i (List.mem_finRange i)).2, hr1, hr2⟩

/-- Settles O43: each case is an equation of `curveValue` on what `curveValue_drop` leaves of the curve. -/
theorem theCurveValue : Obligations.TheCurveValue := by
  intro p a hvalid
  obtain ⟨hrises, hbound, -⟩ := Plan.levels_of_valid hvalid
  refine ⟨fun q hq => ?first, fun q hq => ?last, fun i q r hq hr hlo hhi => ?segment, fun i q hq ha => ?point,
    curveValue_le hbound⟩
  case first =>
    obtain ⟨rest, hcurve⟩ := List.head?_eq_some_iff.mp hq
    rw [hcurve] at hrises ⊢
    exact ⟨curveValue_of_le_head rest, head_le_curveValue hrises⟩
  case last =>
    obtain ⟨pre, hcurve⟩ := List.getLast?_eq_some_iff.mp hq
    rw [hcurve] at hrises ⊢
    exact ⟨curveValue_append pre [] hrises, curveValue_le_last hrises⟩
  case segment =>
    rw [curveValue_drop hrises hq hlo.le, drop_of_getElem?_eq_some hr, curveValue_segment _ hlo hhi, roundDiv]
  case point =>
    rw [curveValue_drop hrises hq ha.ge, curveValue_of_le_head _ ha.le]

/-! ### The demands of a portal (R36, R44 to R46) -/

/-- The order of R46: I, T2, T1, TH within 60 000. -/
def Demands.InOrder (interior : Nat) (d : Demands) : Prop :=
  interior ≤ d.t2 ∧ d.t2 ≤ d.t1 ∧ d.t1 ≤ d.th ∧ d.th ≤ 60000

theorem Plan.thresholdBase_le {p : Plan} (h : p.valid = true) (access : Nat) (speedClass : Fin 5) :
    p.thresholdBase access speedClass ≤ 60000 := by
  obtain ⟨-, hbound, hfactors, -⟩ := Plan.levels_of_valid h
  exact (roundDiv_mul_le _ (hfactors speedClass)).trans (curveValue_le hbound)

theorem demandsFrom_inOrder {p : Plan} (h : p.valid = true) {dth interior : Nat} (hi : interior ≤ dth)
    (hd : dth ≤ 60000) : (demandsFrom p dth interior).InOrder interior := by
  obtain ⟨-, -, -, hr1, hr2⟩ := Plan.levels_of_valid h
  have ht2 : roundDiv (dth * p.r2) 1000 ≤ roundDiv (dth * p.r1) 1000 :=
    roundDiv_le_roundDiv 1000 (Nat.mul_le_mul_left dth hr2)
  exact ⟨le_max_left _ _, max_le_max_left interior ht2, max_le hi (roundDiv_mul_le dth hr1), hd⟩

theorem demandsFor_inOrder {p : Plan} (h : p.valid = true) (role : Role) {base interior : Nat} (hb : base ≤ 60000)
    (hi : interior ≤ 60000) : (demandsFor p role base interior).InOrder interior := by
  cases role with
  | entry => exact demandsFrom_inOrder h (le_max_right _ _) (max_le hb hi)
  | exit => exact demandsFrom_inOrder h le_rfl hi

/-- In the EXIT role every demand is I: the ratios of a valid plan are at most 1000 (R45). -/
theorem demandsFor_exit {p : Plan} (h : p.valid = true) (base interior : Nat) :
    demandsFor p .exit base interior = ⟨interior, interior, interior⟩ := by
  obtain ⟨-, -, -, hr1, hr2⟩ := Plan.levels_of_valid h
  simp only [demandsFor, demandsFrom, max_eq_left (roundDiv_mul_le interior hr1),
    max_eq_left (roundDiv_mul_le interior (hr2.trans hr1))]

/-! ### The demands an evaluation works from a bounded state -/

theorem Portal.valid_of_plan {x : Portal} (h : x.plansValid = true) {k : PlanSlot} {plan : Plan}
    (hk : x.plan k = some plan) : plan.valid = true := by
  simp only [Portal.plansValid, Bool.and_eq_true, Option.all_eq_true] at h
  obtain ⟨⟨ha, hb⟩, -⟩ := h
  cases k with
  | a => exact ha plan hk
  | b => exact hb plan hk

theorem Portal.level_le_of_plansValid {x : Portal} (h : x.plansValid = true) {v : Override}
    (hv : x.override = some v) {lum : Nat} (hl : v.kind.levelField = some lum) : lum ≤ 60000 := by
  simp only [Portal.plansValid, Bool.and_eq_true, Option.all_eq_true, decide_eq_true_eq] at h
  obtain ⟨-, hlevel⟩ := h
  exact hlevel v hv lum hl

/-- A preview's plan stands in one of the portal's two slots (R34). -/
theorem State.exists_slot_of_previewPlan {s : State} {p : Fin 4} {input : DryRunInput} {plan : Plan}
    (h : s.previewPlan p input = some plan) : ∃ k, (s.portal p).plan k = some plan := by
  unfold State.previewPlan at h
  split at h
  · exact ⟨_, h⟩
  · exact ⟨.a, h⟩
  · split at h
    · exact ⟨.b, h⟩
    · exact ⟨.a, h⟩

/-- The demands of an evaluation are those of R44 and R45 for a threshold base of at most 60 000: the override's
level, or that of the plan at the portal's access luminance. -/
theorem State.exists_base_demandsAt {s : State} (p : Fin 4) (h : (s.portal p).plansValid = true) {plan : Plan}
    (hplan : plan.valid = true) (access : Option Nat) :
    ∃ base ≤ 60000, s.demandsAt p plan access
      = demandsFor plan (roleOf (s.bore (boreOf p)).mode p) base (s.bore (boreOf p)).demand := by
  unfold State.demandsAt
  split
  next lum _ _ hover =>
    refine ⟨lum, Portal.level_le_of_plansValid h hover rfl, ?_⟩
    dsimp only
    cases roleOf (s.bore (boreOf p)).mode p <;> rfl
  next =>
    refine ⟨_, Plan.thresholdBase_le hplan (access.getD 0) (s.bore (boreOf p)).speedClass, ?_⟩
    dsimp only
    cases roleOf (s.bore (boreOf p)).mode p <;> rfl

theorem State.demandsAt_inOrder {s : State} (hs : s.LevelsBounded) {p : Fin 4} {plan : Plan} (access : Option Nat)
    (h : s.selectedPlan p = some plan) :
    (s.demandsAt p plan access).InOrder (s.bore (boreOf p)).demand := by
  obtain ⟨hplans, hbores, -⟩ := hs
  have hvalid : plan.valid = true := Portal.valid_of_plan (hplans p) h
  obtain ⟨base, hbase, heq⟩ := State.exists_base_demandsAt p (hplans p) hvalid access
  exact heq ▸ demandsFor_inOrder hvalid _ hbase (hbores _).1

theorem State.previewDemandsAt_inOrder {s : State} (hs : s.LevelsBounded) {p : Fin 4} {input : DryRunInput}
    {plan : Plan} (h : s.previewPlan p input = some plan) :
    (s.previewDemandsAt p input plan).InOrder (s.bore (boreOf p)).demand := by
  obtain ⟨hplans, hbores, -⟩ := hs
  obtain ⟨k, hk⟩ := State.exists_slot_of_previewPlan h
  have hvalid : plan.valid = true := Portal.valid_of_plan (hplans p) hk
  exact demandsFor_inOrder hvalid _ (Plan.thresholdBase_le hvalid _ _) (hbores _).1

/-! ### Emergency allocation leaves the demand (R79) -/

@[simp] theorem Zone.modWhere_demand (z : Zone) (cond : Circuit → Bool) (f : Circuit → Circuit) :
    (z.modWhere cond f).demand = z.demand := rfl

@[simp] theorem Zone.handDim_demand (z : Zone) (dim : Option Nat) : (z.handDim dim).demand = z.demand := by
  cases dim <;> rfl

@[simp] theorem Zone.lightAll_demand (z : Zone) (now : Uptime) : (z.lightAll now).demand = z.demand := by
  simp [Zone.lightAll]

@[simp] theorem Zone.atCapacity_demand (z : Zone) : z.atCapacity.demand = z.demand := rfl

theorem State.evaluatedZone_emergency_demand (s : State) (p : Fin 4) (plan : Plan) (now : Uptime) (j : Fin 3) :
    (s.evaluatedZone p plan .emergency now j).demand = 60000 := by
  simp [State.evaluatedZone]

/-- Settles O44: the plans of a bounded state are valid and its levels in range, so both kinds of demands are those of
`demandsFor`. -/
theorem theOrderOfTheDemands : Obligations.TheOrderOfTheDemands := by
  constructor
  · intro plan role base interior hvalid hbase hint
    refine ⟨demandsFor_inOrder hvalid role hbase hint, ?exit, ?entry⟩
    case exit =>
      rintro rfl
      simp [demandsFor_exit hvalid]
    case entry =>
      rintro rfl
      rfl
  · intro s p hs
    have ⟨_, hbores, _⟩ := hs
    exact ⟨(hbores _).1, fun _ access h => State.demandsAt_inOrder hs access h,
      fun _ _ h => State.previewDemandsAt_inOrder hs h, s.evaluatedZone_emergency_demand p⟩

end Sys2Proof.Machine
end

section

/-! SUPPORT. Adaptation ramps: the ramp step and its bounds (R51). -/

namespace Sys2Proof.Machine

/-! ### Ramp step (R51): its three cases, and that it moves R without passing D -/

theorem rampStep_of_lt {ramped demand : Nat} (rise fall : Nat) (h : ramped < demand) :
    rampStep ramped demand rise fall = min demand (ramped + max 50 (ramped * rise / 1000)) :=
  if_pos h

/-- A fall step larger than R stops at the demand as well, so the truncated difference agrees with the signed one. -/
theorem rampStep_of_gt {ramped demand : Nat} (rise fall : Nat) (h : demand < ramped) :
    (rampStep ramped demand rise fall : Int)
      = max (demand : Int) ((ramped : Int) - max 50 (ramped * fall / 1000 : Nat)) := by
  have hfall : rampStep ramped demand rise fall = max demand (ramped - max 50 (ramped * fall / 1000)) := by
    simp [rampStep, h, h.le]
  rw [hfall]
  omega

@[simp] theorem rampStep_self (demand rise fall : Nat) : rampStep demand demand rise fall = demand := by
  simp [rampStep]

theorem rampStep_mem_Ioc {ramped demand : Nat} (rise fall : Nat) (h : ramped < demand) :
    rampStep ramped demand rise fall ∈ Set.Ioc ramped demand := by
  rw [rampStep_of_lt rise fall h, Set.mem_Ioc]
  omega

theorem rampStep_mem_Ico {ramped demand : Nat} (rise fall : Nat) (h : demand < ramped) :
    rampStep ramped demand rise fall ∈ Set.Ico demand ramped := by
  have hstep := rampStep_of_gt rise fall h
  rw [Set.mem_Ico]
  omega

/-! ### A zone's ramp (R51, R54) -/

@[simp] theorem Zone.ramp_false_ramped (z : Zone) (rise fall demand : Nat) :
    (z.ramp false rise fall demand).ramped = rampStep z.ramped demand rise fall := rfl

/-- Settles O45: R moves by `rampStep`, whose step is at least 50, so that it moves, and which stops at the demand. -/
theorem aRampStepMovesTowardsTheDemand : Obligations.ARampStepMovesTowardsTheDemand := by
  intro z demand rise fall
  refine ⟨rfl, fun hrises => ?rises, fun hfalls => ?falls, fun hheld => ?held⟩
  case rises => exact ⟨rampStep_of_lt rise fall hrises, rampStep_mem_Ioc rise fall hrises⟩
  case falls => exact ⟨rampStep_of_gt rise fall hfalls, (rampStep_mem_Ico rise fall hfalls).symm⟩
  case held =>
    subst hheld
    exact rampStep_self z.ramped rise fall

end Sys2Proof.Machine
end

section
/-! SUPPORT. Circuit allocation: the circuits of a zone through a switching decision and the handing of the common dim
level, and that level's bounds (R74 to R76). -/

namespace Sys2Proof.Machine

/-! ### The circuits of a zone and their sums (R66) -/

theorem Zone.mem_circuits {z : Zone} {c : Circuit} : c ∈ z.circuits ↔ ∃ k, z.slots.get k = some c := by
  have hsize := z.slots.size
  have hrow : c ∈ z.circuits ↔ some c ∈ z.slots.rows := by simp [Zone.circuits]
  rw [hrow, List.mem_iff_getElem]
  exact ⟨fun ⟨i, hi, h⟩ => ⟨⟨i, hsize ▸ hi⟩, h⟩, fun ⟨k, h⟩ => ⟨k, hsize.symm ▸ k.isLt, h⟩⟩

theorem Circuit.inCd_iff {c : Circuit} : c.inCd = true ↔ c.kind = .dimmed ∧ c.available = true := by
  simp [Circuit.inCd, Circuit.isDimmed]

theorem Zone.rating_le_sumOf {z : Zone} {k : Fin 8} {c : Circuit} {f : Circuit → Bool} (hc : z.slots.get k = some c)
    (hf : f c = true) : c.rating ≤ z.sumOf f :=
  List.le_sum_of_mem (List.mem_map_of_mem (List.mem_filter.mpr ⟨Zone.mem_circuits.mpr ⟨k, hc⟩, hf⟩))

theorem Circuit.rating_pos_of_legal {c : Circuit} (h : c.legal = true) : 0 < c.rating := by
  simp only [Circuit.legal, Bool.and_eq_true, decide_eq_true_eq] at h
  obtain ⟨⟨⟨hrating, -⟩, -⟩, -⟩ := h
  exact hrating

theorem Zone.circuit_legal_of_legal {z : Zone} (h : z.legal = true) {k : Fin 8} {c : Circuit}
    (hc : z.slots.get k = some c) : c.legal = true := by
  simp only [Zone.legal, Bool.and_eq_true, List.all_eq_true] at h
  obtain ⟨⟨⟨⟨⟨⟨⟨hcircuits, -⟩, -⟩, -⟩, -⟩, -⟩, -⟩, -⟩ := h
  exact hcircuits c (Zone.mem_circuits.mpr ⟨k, hc⟩)

theorem Zone.minDim_le_of_legal {z : Zone} (h : z.legal = true) : z.minDim ≤ 500 := by
  simp only [Zone.legal, Bool.and_eq_true, decide_eq_true_eq] at h
  obtain ⟨⟨-, hmin⟩, -⟩ := h
  exact hmin

/-! ### The switching decision (R74): at most one command, which leaves the setup -/

@[simp] theorem Circuit.switchOn_rating (now : Uptime) (settle : Nat) (c : Circuit) :
    (c.switchOn now settle).rating = c.rating := by
  unfold Circuit.switchOn
  split <;> rfl

@[simp] theorem Circuit.switchOff_rating (now : Uptime) (settle : Nat) (c : Circuit) :
    (c.switchOff now settle).rating = c.rating := by
  unfold Circuit.switchOff
  split <;> rfl

theorem Zone.switching_cases (now : Uptime) (z : Zone) :
    z.switching now = z
    ∨ (∃ k, z.switching now = z.modSlot k (Circuit.switchOn now z.settle))
    ∨ ∃ k, z.switching now = z.modSlot k (Circuit.switchOff now z.settle) := by
  unfold Zone.switching
  split
  next => exact .inl rfl
  next =>
    split
    next =>
      split
      next k _ => exact .inr (.inl ⟨k, rfl⟩)
      next => exact .inl rfl
    next =>
      split
      next => exact .inl rfl
      next k _ =>
        split
        next => exact .inl rfl
        next =>
          split
          next => exact .inr (.inr ⟨k, rfl⟩)
          next => exact .inl rfl

@[simp] theorem Zone.switching_minDim (now : Uptime) (z : Zone) : (z.switching now).minDim = z.minDim := by
  obtain h | ⟨k, h⟩ | ⟨k, h⟩ := z.switching_cases now <;> rw [h] <;> rfl

/-- A command that leaves ratings leaves those of the zone: each of its circuits is found with its rating before. -/
theorem Zone.exists_of_modSlot {z : Zone} {i k : Fin 8} {f : Circuit → Circuit} (hf : ∀ c, (f c).rating = c.rating)
    {c : Circuit} (hc : (z.modSlot i f).slots.get k = some c) :
    ∃ b, z.slots.get k = some b ∧ b.rating = c.rating := by
  simp only [Zone.modSlot, Tab.get_put] at hc
  split at hc
  next hk =>
    subst hk
    obtain ⟨b, hb, rfl⟩ := Option.map_eq_some_iff.mp hc
    exact ⟨b, hb, (hf b).symm⟩
  next => exact ⟨c, hc, rfl⟩

theorem Zone.exists_of_switching {z : Zone} {now : Uptime} {k : Fin 8} {c : Circuit}
    (hc : (z.switching now).slots.get k = some c) : ∃ b, z.slots.get k = some b ∧ b.rating = c.rating := by
  obtain h | ⟨i, h⟩ | ⟨i, h⟩ := z.switching_cases now <;> rw [h] at hc
  · exact ⟨c, hc, rfl⟩
  · exact Zone.exists_of_modSlot (Circuit.switchOn_rating now z.settle) hc
  · exact Zone.exists_of_modSlot (Circuit.switchOff_rating now z.settle) hc

/-- A legal zone with no Cd after its decision is left no available DIMMED circuit: each would count at least 1. -/
theorem Zone.inCd_switching_of_cd_eq_zero {z : Zone} (h : z.legal = true) {now : Uptime}
    (hcd : (z.switching now).cd = 0) {k : Fin 8} {c : Circuit} (hc : (z.switching now).slots.get k = some c) :
    c.inCd = false := by
  obtain ⟨b, hb, hrating⟩ := Zone.exists_of_switching hc
  have hpos : 0 < b.rating := Circuit.rating_pos_of_legal (Zone.circuit_legal_of_legal h hb)
  by_contra hin
  have hle : c.rating ≤ (z.switching now).cd := Zone.rating_le_sumOf hc (Bool.eq_true_of_not_eq_false hin)
  omega

/-! ### The common dim level (R75) -/

@[simp] theorem dimLevel_eq_none_iff {need cd minDim : Nat} : dimLevel need cd minDim = none ↔ cd = 0 := by
  simp [dimLevel]

theorem dimLevel_of_ne_zero {cd : Nat} (need minDim : Nat) (h : cd ≠ 0) :
    dimLevel need cd minDim =
      some (if 0 < roundDiv (min need cd * 1000) cd ∧ roundDiv (min need cd * 1000) cd < minDim then minDim
        else roundDiv (min need cd * 1000) cd) :=
  if_neg h

theorem dimLevel_le {need cd minDim d : Nat} (hmin : minDim ≤ 1000) (h : dimLevel need cd minDim = some d) :
    d ≤ 1000 := by
  have hcd : cd ≠ 0 := fun h0 => by simp [dimLevel_eq_none_iff.mpr h0] at h
  have hlevel : roundDiv (min need cd * 1000) cd ≤ 1000 :=
    Nat.mul_comm 1000 (min need cd) ▸ roundDiv_mul_le 1000 (min_le_right need cd)
  rw [dimLevel_of_ne_zero need minDim hcd, Option.some.injEq] at h
  subst h
  split
  next => exact hmin
  next => exact hlevel

/-! ### The level handed to the circuits (R76) -/

@[simp] theorem Zone.handDim_dim (z : Zone) (dim : Option Nat) : (z.handDim dim).dim = dim := by
  cases dim <;> rfl

@[simp] theorem Zone.handDim_none_slots (z : Zone) : (z.handDim none).slots = z.slots := rfl

theorem Circuit.setLevel_state_on_iff (d : Nat) (c : Circuit) : (c.setLevel d).state = .on ↔ 0 < d := by
  simp [Circuit.setLevel, Nat.pos_iff_ne_zero]

theorem Zone.exists_of_handDim {z : Zone} {d : Nat} {k : Fin 8} {c : Circuit}
    (hc : (z.handDim (some d)).slots.get k = some c) :
    ∃ b, z.slots.get k = some b ∧ c = if b.inCd then b.setLevel d else b := by
  simp only [Zone.handDim, Zone.modWhere, Tab.get_mapWith, Option.map_eq_some_iff] at hc
  obtain ⟨b, hb, rfl⟩ := hc
  exact ⟨b, hb, rfl⟩

theorem Zone.level_of_handDim {z : Zone} {d : Nat} {k : Fin 8} {c : Circuit}
    (hc : (z.handDim (some d)).slots.get k = some c) (hin : c.inCd = true) :
    c.level = d ∧ (c.state = .on ↔ 0 < d) := by
  obtain ⟨b, -, hcb⟩ := Zone.exists_of_handDim hc
  split at hcb
  next => exact hcb ▸ ⟨rfl, Circuit.setLevel_state_on_iff d b⟩
  next hb => exact absurd (hcb ▸ hin) hb

/-! ### Normal allocation (R75, R76) -/

@[simp] theorem Zone.allocate_dim (now : Uptime) (z : Zone) :
    (z.allocate now).dim
      = dimLevel ((z.switching now).ramped - (z.switching now).son) (z.switching now).cd z.minDim := by
  simp [Zone.allocate]

/-- A normal allocation hands its common dim level to the zone its switching decision leaves. -/
theorem Zone.allocate_eq (now : Uptime) (z : Zone) :
    z.allocate now = (z.switching now).handDim (z.allocate now).dim := by
  simp [Zone.allocate]

/-- Settles O48: the level is `dimLevel` of the zone its switching decision leaves, handed on by `handDim`; an absent
level means a Cd of 0, and so no available DIMMED circuit. -/
theorem theCommonDimLevel : Obligations.TheCommonDimLevel := by
  intro now z hlegal
  refine ⟨fun hcd => ?absent, fun hcd => ?worked, fun d hd => ⟨?bound, fun k c hc hkind havail => ?handed⟩,
    fun hnone k c hc hkind => ?unavailable⟩
  case absent => rw [Zone.allocate_dim, dimLevel_eq_none_iff, hcd]
  case worked => rw [Zone.allocate_dim, Int.toNat_sub, dimLevel_of_ne_zero _ _ hcd, roundDiv]
  case bound =>
    rw [Zone.allocate_dim] at hd
    exact dimLevel_le ((Zone.minDim_le_of_legal hlegal).trans (by omega)) hd
  case handed =>
    rw [Zone.allocate_eq, hd] at hc
    exact Zone.level_of_handDim hc (Circuit.inCd_iff.mpr ⟨hkind, havail⟩)
  case unavailable =>
    have hcd : (z.switching now).cd = 0 := by rwa [Zone.allocate_dim, dimLevel_eq_none_iff] at hnone
    rw [Zone.allocate_eq, hnone, Zone.handDim_none_slots] at hc
    have hout : c.inCd = false := Zone.inCd_switching_of_cd_eq_zero hlegal hcd hc
    exact Bool.eq_false_of_not_eq_true fun havail => by simp [Circuit.inCd_iff.mpr ⟨hkind, havail⟩] at hout

end Sys2Proof.Machine
end

section
/-! SUPPORT. What the shared operations leave in each record: one equation for each operation and record. -/

namespace Sys2Proof.Machine

variable (s : State)

/-! ### Notices and responses -/

@[simp] theorem State.portal_raisePortalState (p q : Fin 4) : (s.raisePortalState p).portal q = s.portal q := rfl
@[simp] theorem State.bore_raisePortalState (p : Fin 4) (b : Fin 2) : (s.raisePortalState p).bore b = s.bore b := rfl
@[simp] theorem State.zone_raisePortalState (p : Fin 4) (z : Fin 14) : (s.raisePortalState p).zone z = s.zone z := rfl
@[simp] theorem State.line_raisePortalState (p : Fin 4) (i : Fin 192) : (s.raisePortalState p).line i = s.line i := rfl

@[simp] theorem State.portal_raiseTrafficState (b : Fin 2) (q : Fin 4) : (s.raiseTrafficState b).portal q = s.portal q := rfl
@[simp] theorem State.bore_raiseTrafficState (b c : Fin 2) : (s.raiseTrafficState b).bore c = s.bore c := rfl
@[simp] theorem State.zone_raiseTrafficState (b : Fin 2) (z : Fin 14) : (s.raiseTrafficState b).zone z = s.zone z := rfl
@[simp] theorem State.line_raiseTrafficState (b : Fin 2) (i : Fin 192) : (s.raiseTrafficState b).line i = s.line i := rfl

@[simp] theorem State.portal_raiseFaultChange (z : Fin 14) (x : Zone) (q : Fin 4) :
    (s.raiseFaultChange z x).portal q = s.portal q := by unfold State.raiseFaultChange; split <;> rfl
@[simp] theorem State.bore_raiseFaultChange (z : Fin 14) (x : Zone) (b : Fin 2) :
    (s.raiseFaultChange z x).bore b = s.bore b := by unfold State.raiseFaultChange; split <;> rfl
@[simp] theorem State.zone_raiseFaultChange (z : Fin 14) (x : Zone) (y : Fin 14) :
    (s.raiseFaultChange z x).zone y = s.zone y := by unfold State.raiseFaultChange; split <;> rfl
@[simp] theorem State.line_raiseFaultChange (z : Fin 14) (x : Zone) (i : Fin 192) :
    (s.raiseFaultChange z x).line i = s.line i := by unfold State.raiseFaultChange; split <;> rfl

@[simp] theorem State.portal_answerAction (p : Fin 4) (a : PendingAction) (d : Disposition) (q : Fin 4) :
    (s.answerAction p a d).portal q = s.portal q := by unfold State.answerAction; split <;> rfl
@[simp] theorem State.bore_answerAction (p : Fin 4) (a : PendingAction) (d : Disposition) (b : Fin 2) :
    (s.answerAction p a d).bore b = s.bore b := by unfold State.answerAction; split <;> rfl
@[simp] theorem State.zone_answerAction (p : Fin 4) (a : PendingAction) (d : Disposition) (z : Fin 14) :
    (s.answerAction p a d).zone z = s.zone z := by unfold State.answerAction; split <;> rfl
@[simp] theorem State.line_answerAction (p : Fin 4) (a : PendingAction) (d : Disposition) (i : Fin 192) :
    (s.answerAction p a d).line i = s.line i := by unfold State.answerAction; split <;> rfl

/-! ### The arrangement (R1) -/

theorem interiorOf_ne_zoneOf (b : Fin 2) (p : Fin 4) (j : Fin 3) : interiorOf b ≠ zoneOf p j := by
  simp only [interiorOf, zoneOf, ne_eq, Fin.mk.injEq]
  omega

theorem zoneOf_inj {p q : Fin 4} {j k : Fin 3} : zoneOf p j = zoneOf q k ↔ p = q ∧ j = k := by
  simp only [zoneOf, Fin.ext_iff]
  omega

theorem interiorOf_inj {b c : Fin 2} : interiorOf b = interiorOf c ↔ b = c := by
  simp only [interiorOf, Fin.ext_iff]
  omega

@[simp] theorem ownerOf_zoneOf (p : Fin 4) (j : Fin 3) : ownerOf (zoneOf p j) = .portal p := by
  have h : 3 * p.val + j.val < 12 := by omega
  have hp : (3 * p.val + j.val) / 3 = p.val := by omega
  simp [ownerOf, zoneOf, h, hp]

@[simp] theorem ownerOf_interiorOf (b : Fin 2) : ownerOf (interiorOf b) = .bore b := by
  simp [ownerOf, interiorOf]

/-- Every zone is one of the three of a portal or the interior of a bore. -/
theorem zone_cases (z : Fin 14) : (∃ p j, z = zoneOf p j) ∨ ∃ b, z = interiorOf b := by
  by_cases h : z.val < 12
  · refine .inl ⟨⟨z.val / 3, by omega⟩, ⟨z.val % 3, by omega⟩, ?_⟩
    simp only [zoneOf, Fin.ext_iff]
    omega
  · refine .inr ⟨⟨z.val - 12, by omega⟩, ?_⟩
    simp only [interiorOf, Fin.ext_iff]
    omega

theorem mem_zonesOf {z : Fin 14} {p : Fin 4} : z ∈ zonesOf p ↔ ∃ j, z = zoneOf p j := by
  simp only [zonesOf, List.mem_cons, List.not_mem_nil, or_false]
  constructor
  · rintro (h | h | h) <;> exact ⟨_, h⟩
  · rintro ⟨j, rfl⟩
    fin_cases j <;> simp

theorem mem_zonesOf_iff_owner {z : Fin 14} {p : Fin 4} : z ∈ zonesOf p ↔ ownerOf z = .portal p := by
  rw [mem_zonesOf]
  constructor
  · rintro ⟨j, rfl⟩
    exact ownerOf_zoneOf p j
  · intro h
    obtain ⟨q, j, rfl⟩ | ⟨b, rfl⟩ := zone_cases z
    · rw [ownerOf_zoneOf, Owner.portal.injEq] at h
      exact ⟨j, h ▸ rfl⟩
    · simp at h

theorem interiorOf_notMem_zonesOf (b : Fin 2) (p : Fin 4) : interiorOf b ∉ zonesOf p := by
  simp [mem_zonesOf_iff_owner]

theorem nodup_zonesOf (p : Fin 4) : (zonesOf p).Nodup := by
  simp [zonesOf, zoneOf_inj]

theorem mem_portalsOf {p : Fin 4} {b : Fin 2} : p ∈ portalsOf b ↔ boreOf p = b := by
  simp only [portalsOf, boreOf, List.mem_cons, List.not_mem_nil, or_false, Fin.ext_iff]
  omega

/-! ### The shortfall test (R77) -/

/-- A zone record whose shortfall flag is that of the shortfall test (R77). -/
def Zone.tested (z : Zone) : Zone :=
  { z with shortfall := decide (z.capacity < z.ramped) }

theorem State.zone_testShortfall (z y : Fin 14) :
    (s.testShortfall z).zone y = if y = z then (s.zone z).tested else s.zone y := by
  by_cases h : (s.zone z).shortfall = decide ((s.zone z).capacity < (s.zone z).ramped)
  · have htested : (s.zone z).tested = s.zone z := by
      unfold Zone.tested
      rw [← h]
    have hsame : s.testShortfall z = s := if_pos h
    rw [hsame, htested]
    split
    next hy => rw [hy]
    next => rfl
  · have hset : s.testShortfall z = (s.setZone z (s.zone z).tested).raise
        (.shortfall z (s.zone z).tested.shortfall (s.zone z).ramped (s.zone z).capacity) := if_neg h
    rw [hset, State.zone_raise, State.zone_setZone]

@[simp] theorem State.portal_testShortfall (z : Fin 14) (q : Fin 4) : (s.testShortfall z).portal q = s.portal q := by
  unfold State.testShortfall; dsimp only; split <;> rfl
@[simp] theorem State.bore_testShortfall (z : Fin 14) (b : Fin 2) : (s.testShortfall z).bore b = s.bore b := by
  unfold State.testShortfall; dsimp only; split <;> rfl
@[simp] theorem State.lines_testShortfall (z : Fin 14) : (s.testShortfall z).lines = s.lines := by
  unfold State.testShortfall; dsimp only; split <;> rfl
@[simp] theorem State.uptime_testShortfall (z : Fin 14) : (s.testShortfall z).uptime = s.uptime :=
  (s.acts_testShortfall z).uptime

/-! ### Allocation (R69, R79) -/

@[simp] theorem State.portal_allocateNormal (z : Fin 14) (q : Fin 4) : (s.allocateNormal z).portal q = s.portal q := by
  simp [State.allocateNormal]
@[simp] theorem State.bore_allocateNormal (z : Fin 14) (b : Fin 2) : (s.allocateNormal z).bore b = s.bore b := by
  simp [State.allocateNormal]

theorem State.zone_allocateNormal (z y : Fin 14) :
    (s.allocateNormal z).zone y = if y = z then ((s.zone z).allocate s.uptime).tested else s.zone y := by
  rw [State.allocateNormal, State.zone_testShortfall, State.zone_putZone_self, State.zone_putZone]
  split <;> rfl

/-- A zone record set to capacity and lit, with its shortfall test (R57, R58, R79). -/
def Zone.litUp (now : Uptime) (z : Zone) : Zone :=
  (z.atCapacity.lightAll now).tested

@[simp] theorem State.portal_light (z : Fin 14) (q : Fin 4) : (s.light z).portal q = s.portal q := by
  simp [State.light]
@[simp] theorem State.bore_light (z : Fin 14) (b : Fin 2) : (s.light z).bore b = s.bore b := by
  simp [State.light]

theorem State.zone_light (z y : Fin 14) :
    (s.light z).zone y = if y = z then (s.zone z).litUp s.uptime else s.zone y := by
  rw [State.light, State.zone_testShortfall, State.zone_putZone_self, State.zone_putZone]
  split <;> rfl

@[simp] theorem State.portal_driveZone (z : Fin 14) (f : Bool) (r l d : Nat) (q : Fin 4) :
    (s.driveZone z f r l d).portal q = s.portal q := by simp [State.driveZone]
@[simp] theorem State.bore_driveZone (z : Fin 14) (f : Bool) (r l d : Nat) (b : Fin 2) :
    (s.driveZone z f r l d).bore b = s.bore b := by simp [State.driveZone]

theorem State.zone_driveZone (z y : Fin 14) (f : Bool) (r l d : Nat) :
    (s.driveZone z f r l d).zone y
      = if y = z then (((s.zone z).ramp f r l d).allocate s.uptime).tested else s.zone y := by
  rw [State.driveZone, State.zone_allocateNormal, State.zone_setZone_self, State.zone_setZone]
  split <;> rfl

@[simp] theorem State.portal_emergencyZone (z : Fin 14) (q : Fin 4) : (s.emergencyZone z).portal q = s.portal q := by
  simp [State.emergencyZone]
@[simp] theorem State.bore_emergencyZone (z : Fin 14) (b : Fin 2) : (s.emergencyZone z).bore b = s.bore b := by
  simp [State.emergencyZone]

theorem State.zone_emergencyZone (z y : Fin 14) :
    (s.emergencyZone z).zone y
      = if y = z then ({ s.zone z with demand := 60000 } : Zone).litUp s.uptime else s.zone y := by
  rw [State.emergencyZone, State.zone_light, State.zone_setZone_self, State.zone_setZone]
  split <;> rfl

@[simp] theorem State.portal_previewZone (z : Fin 14) (d : Nat) (q : Fin 4) :
    (s.previewZone z d).portal q = s.portal q := rfl
@[simp] theorem State.bore_previewZone (z : Fin 14) (d : Nat) (b : Fin 2) :
    (s.previewZone z d).bore b = s.bore b := rfl
theorem State.zone_previewZone (z y : Fin 14) (d : Nat) :
    (s.previewZone z d).zone y
      = if y = z then { s.zone z with preview := some ((s.zone z).previewFor d) } else s.zone y :=
  s.zone_setZone _ _ _

@[simp] theorem State.portal_advanceRotation (z : Fin 14) (q : Fin 4) :
    (s.advanceRotation z).portal q = s.portal q := rfl
@[simp] theorem State.bore_advanceRotation (z : Fin 14) (b : Fin 2) : (s.advanceRotation z).bore b = s.bore b := rfl
theorem State.zone_advanceRotation (z y : Fin 14) :
    (s.advanceRotation z).zone y
      = if y = z then { s.zone z with rotation := (s.zone z).rotation + 1 } else s.zone y :=
  s.zone_setZone _ _ _

/-! ### A zone becoming supervised, and being cleared (R85, R88, R99) -/

@[simp] theorem State.portal_supervise (z : Fin 14) (q : Fin 4) : (s.supervise z).portal q = s.portal q := rfl
@[simp] theorem State.bore_supervise (z : Fin 14) (b : Fin 2) : (s.supervise z).bore b = s.bore b := rfl
theorem State.zone_supervise (z y : Fin 14) :
    (s.supervise z).zone y = if y = z then s.startSupervision (s.zone z) else s.zone y :=
  s.zone_setZone _ _ _
theorem State.lines_supervise (z : Fin 14) :
    (s.supervise z).lines = startOutputs (s.startSupervision (s.zone z)).circuits s.lines := rfl

/-- A zone record as its owner's stop leaves it, the shortfall flag with the rest (R85, R99). -/
def Zone.stopped (z : Zone) : Zone :=
  { z.cleared with shortfall := false }

@[simp] theorem State.portal_clearZone (z : Fin 14) (q : Fin 4) : (s.clearZone z).portal q = s.portal q := by
  unfold State.clearZone; dsimp only; split <;> rfl
@[simp] theorem State.bore_clearZone (z : Fin 14) (b : Fin 2) : (s.clearZone z).bore b = s.bore b := by
  unfold State.clearZone; dsimp only; split <;> rfl
theorem State.zone_clearZone (z y : Fin 14) :
    (s.clearZone z).zone y = if y = z then (s.zone z).stopped else s.zone y := by
  rw [← State.zone_setZone]
  unfold State.clearZone
  dsimp only
  split <;> rfl
theorem State.lines_clearZone (z : Fin 14) :
    (s.clearZone z).lines = stopOutputs (s.zone z).cleared.circuits s.lines := by
  unfold State.clearZone; dsimp only; split <;> rfl

/-! ### An operation on each zone of a portal -/

/-- An operation on single zones, each changed by `g` and no other touched, changes by `g` each zone of a list that
names none twice. -/
theorem State.zone_foldl {f : State → Fin 14 → State} {g : Fin 14 → Zone → Zone}
    (hf : ∀ (t : State) z y, t.uptime = s.uptime → (f t z).zone y = if y = z then g z (t.zone z) else t.zone y)
    (hu : ∀ (t : State) z, (f t z).uptime = t.uptime) (zs : List (Fin 14)) (h : zs.Nodup) (y : Fin 14) :
    (zs.foldl f s).zone y = if y ∈ zs then g y (s.zone y) else s.zone y := by
  suffices H : ∀ t : State, t.uptime = s.uptime →
      (zs.foldl f t).zone y = if y ∈ zs then g y (t.zone y) else t.zone y from H s rfl
  induction zs with
  | nil => intro t _; simp
  | cons z zs ih =>
    intro t ht
    obtain ⟨hz, hzs⟩ := List.nodup_cons.mp h
    rw [List.foldl_cons, ih hzs _ ((hu t z).trans ht), hf t z y ht]
    by_cases hy : y = z
    · subst hy; simp [hz]
    · simp [hy]

/-- A view of the state that an operation keeps is kept where it is repeated. -/
theorem foldl_keeps {α β : Type} {f : State → α → State} {v : State → β} (hf : ∀ t a, v (f t a) = v t) (as : List α)
    (s : State) : v (as.foldl f s) = v s := by
  induction as generalizing s with
  | nil => rfl
  | cons a as ih => exact (ih _).trans (hf s a)

/-! ### Sources (R16 to R21) -/

@[simp] theorem State.bore_pullOffOne (q : Fin 4) (b : Fin 2) : (s.pullOffOne q).bore b = s.bore b := rfl
@[simp] theorem State.bores_pullOff (p : Fin 4) : (s.pullOff p).bores = s.bores :=
  foldl_keeps (f := State.pullOffOne) (v := State.bores) (fun _ _ => rfl) _ s
@[simp] theorem State.zones_pullOff (p : Fin 4) : (s.pullOff p).zones = s.zones :=
  foldl_keeps (f := State.pullOffOne) (v := State.zones) (fun _ _ => rfl) _ s
@[simp] theorem State.lines_pullOff (p : Fin 4) : (s.pullOff p).lines = s.lines :=
  foldl_keeps (f := State.pullOffOne) (v := State.lines) (fun _ _ => rfl) _ s

theorem State.portal_pullOffOne (q r : Fin 4) :
    (s.pullOffOne q).portal r
      = if r = q then (s.portal q).withSource (s.lateCascade q).1 (s.lateCascade q).2 else s.portal r :=
  s.portal_setPortal _ _ _

/-- Another portal's record has no part in the later steps of a portal's cascade. -/
theorem State.lateCascade_pullOffOne {q r : Fin 4} (h : r ≠ q) : (s.pullOffOne q).lateCascade r = s.lateCascade r := by
  have hplan : (s.pullOffOne q).selectedPlan r = s.selectedPlan r := by
    simp [State.selectedPlan, State.selectSlot, State.portal_pullOffOne, h]
  have hsched : (s.pullOffOne q).scheduled = s.scheduled := rfl
  unfold State.lateCascade
  rw [hplan, hsched]

theorem State.mem_followersOf {p q : Fin 4} :
    q ∈ s.followersOf p ↔ (s.portal q).source = some .partner ∧ (s.portal q).partner = some p := by
  simp [State.followersOf]

theorem State.nodup_followersOf (p : Fin 4) : (s.followersOf p).Nodup :=
  (List.nodup_finRange 4).filter _

/-- Each follower takes the later steps of its own cascade; no other portal changes (R21). -/
theorem State.portal_pullOff (p r : Fin 4) :
    (s.pullOff p).portal r
      = if (s.portal r).source = some .partner ∧ (s.portal r).partner = some p then
          (s.portal r).withSource (s.lateCascade r).1 (s.lateCascade r).2
        else s.portal r := by
  have key : ∀ (qs : List (Fin 4)), qs.Nodup → ∀ t : State,
      (qs.foldl State.pullOffOne t).portal r
        = if r ∈ qs then (t.portal r).withSource (t.lateCascade r).1 (t.lateCascade r).2 else t.portal r := by
    intro qs
    induction qs with
    | nil => intro _ t; simp
    | cons q qs ih =>
      intro hn t
      obtain ⟨hq, hqs⟩ := List.nodup_cons.mp hn
      rw [List.foldl_cons, ih hqs, State.portal_pullOffOne]
      by_cases hr : r = q
      · subst hr; simp [hq]
      · simp [hr, State.lateCascade_pullOffOne t hr]
  have h := key _ (s.nodup_followersOf p) s
  simp only [State.mem_followersOf] at h
  exact h

/-- The four fields that a stored source can change. -/
theorem Portal.withSource_eq (x : Portal) (src : Source) (acc : Option Nat) :
    x.withSource src acc = { x with source := some src, access := acc
                                    night := if src = .blind then false else x.night
                                    lowCount := if src = .blind then 0 else x.lowCount } := by
  unfold Portal.withSource
  split <;> rfl

theorem State.lateCascade_source (p : Fin 4) :
    (s.lateCascade p).1 = .schedule ∨ (s.lateCascade p).1 = .blind := by
  unfold State.lateCascade
  split <;> simp

theorem State.bores_setSource (p : Fin 4) (src : Source) (acc : Option Nat) : (s.setSource p src acc).bores = s.bores := by
  simp only [State.setSource]
  split <;> split <;> simp
theorem State.zones_setSource (p : Fin 4) (src : Source) (acc : Option Nat) : (s.setSource p src acc).zones = s.zones := by
  simp only [State.setSource]
  split <;> split <;> simp
theorem State.lines_setSource (p : Fin 4) (src : Source) (acc : Option Nat) : (s.setSource p src acc).lines = s.lines := by
  simp only [State.setSource]
  split <;> split <;> simp
@[simp] theorem State.bore_setSource (p : Fin 4) (src : Source) (acc : Option Nat) (b : Fin 2) :
    (s.setSource p src acc).bore b = s.bore b := by
  simp [State.bore, State.bores_setSource]
@[simp] theorem State.zone_setSource (p : Fin 4) (src : Source) (acc : Option Nat) (z : Fin 14) :
    (s.setSource p src acc).zone z = s.zone z := by
  simp [State.zone, State.zones_setSource]
@[simp] theorem State.line_setSource (p : Fin 4) (src : Source) (acc : Option Nat) (i : Fin 192) :
    (s.setSource p src acc).line i = s.line i := by
  simp [State.line, State.lines_setSource]

theorem State.bores_dropSource (p : Fin 4) : (s.dropSource p).bores = s.bores := by
  simp only [State.dropSource]
  split <;> split <;> simp
theorem State.zones_dropSource (p : Fin 4) : (s.dropSource p).zones = s.zones := by
  simp only [State.dropSource]
  split <;> split <;> simp
theorem State.lines_dropSource (p : Fin 4) : (s.dropSource p).lines = s.lines := by
  simp only [State.dropSource]
  split <;> split <;> simp
@[simp] theorem State.bore_dropSource (p : Fin 4) (b : Fin 2) : (s.dropSource p).bore b = s.bore b := by
  simp [State.bore, State.bores_dropSource]
@[simp] theorem State.zone_dropSource (p : Fin 4) (z : Fin 14) : (s.dropSource p).zone z = s.zone z := by
  simp [State.zone, State.zones_dropSource]
@[simp] theorem State.line_dropSource (p : Fin 4) (i : Fin 192) : (s.dropSource p).line i = s.line i := by
  simp [State.line, State.lines_dropSource]

/-- Another portal's later steps see neither the record of `p` nor the links. -/
theorem State.lateCascade_congr {s t : State} {r : Fin 4} (hp : t.portal r = s.portal r)
    (hb : t.bore (boreOf r) = s.bore (boreOf r)) (hc : t.clock = s.clock) (hs : t.schedule = s.schedule) :
    t.lateCascade r = s.lateCascade r := by
  simp only [State.lateCascade, State.scheduled, State.selectedPlan, State.selectSlot, hp, hb, hc, hs]

/-- A record that differs from another in what a source cascade stores alone. -/
def Portal.Resourced (x y : Portal) : Prop :=
  y = { x with source := y.source, access := y.access, night := y.night, lowCount := y.lowCount }

theorem Portal.Resourced.refl (x : Portal) : x.Resourced x := rfl

theorem Portal.Resourced.trans {x y z : Portal} (h : x.Resourced y) (k : y.Resourced z) : x.Resourced z := by
  unfold Portal.Resourced at *
  rw [k, h]

theorem Portal.resourced_withSource (x : Portal) (src : Source) (acc : Option Nat) :
    x.Resourced (x.withSource src acc) := by
  rw [Portal.withSource_eq]; rfl

theorem State.resourced_pullOff (p r : Fin 4) : (s.portal r).Resourced ((s.pullOff p).portal r) := by
  rw [State.portal_pullOff]
  split
  · exact Portal.resourced_withSource _ _ _
  · exact .refl _

/-- The portal record `p` as its own cascade leaves it, before any pull-off. -/
theorem State.setSource_cases (p : Fin 4) (src : Source) (acc : Option Nat) :
    ∃ t, (∀ r, t.portal r = (s.setPortal p ((s.portal p).withSource src acc)).portal r) ∧ t.bores = s.bores
      ∧ t.clock = s.clock ∧ t.schedule = s.schedule
      ∧ s.setSource p src acc = if (s.portal p).source = some .own ∧ src ≠ .own then t.pullOff p else t := by
  unfold State.setSource
  by_cases h : (s.portal p).source = some src
  · exact ⟨s.setPortal p ((s.portal p).withSource src acc), fun _ => rfl, rfl, rfl, rfl, by simp [h]⟩
  · exact ⟨(s.setPortal p ((s.portal p).withSource src acc)).raise (.source p (some src) acc),
      fun _ => rfl, rfl, rfl, rfl, by simp [h]⟩

theorem State.resourced_setSource (p : Fin 4) (src : Source) (acc : Option Nat) (r : Fin 4) :
    (s.portal r).Resourced ((s.setSource p src acc).portal r) := by
  obtain ⟨t, ht, -, -, -, heq⟩ := s.setSource_cases p src acc
  have h : (s.portal r).Resourced (t.portal r) := by
    rw [ht, State.portal_setPortal]
    split
    next hr => exact hr ▸ Portal.resourced_withSource _ _ _
    next => exact .refl _
  rw [heq]
  split
  · exact h.trans (t.resourced_pullOff p r)
  · exact h

/-- What a stored source does to another portal: it is pulled off where it follows one that leaves OWN (R21). -/
theorem State.portal_setSource_ne {p r : Fin 4} (h : r ≠ p) (src : Source) (acc : Option Nat) :
    (s.setSource p src acc).portal r
      = if ((s.portal p).source = some .own ∧ src ≠ .own)
            ∧ (s.portal r).source = some .partner ∧ (s.portal r).partner = some p then
          (s.portal r).withSource (s.lateCascade r).1 (s.lateCascade r).2
        else s.portal r := by
  obtain ⟨t, ht, hb, hc, hs, heq⟩ := s.setSource_cases p src acc
  have hr : t.portal r = s.portal r := by rw [ht, State.portal_setPortal_ne _ h]
  have hlate : t.lateCascade r = s.lateCascade r :=
    State.lateCascade_congr hr (by rw [State.bore, hb]; rfl) hc hs
  rw [heq]
  by_cases hown : (s.portal p).source = some .own ∧ src ≠ .own
  · rw [if_pos hown, State.portal_pullOff, hr, hlate]
    simp only [hown, true_and, ne_eq, not_false_eq_true]
  · rw [if_neg hown, hr, if_neg (fun h => hown h.1)]

/-- What a stored source does to its own portal, which is not its own partner. -/
theorem State.portal_setSource_self {p : Fin 4} {src : Source} {acc : Option Nat}
    (h : ¬(src = .partner ∧ (s.portal p).partner = some p)) :
    (s.setSource p src acc).portal p = (s.portal p).withSource src acc := by
  obtain ⟨t, ht, -, -, -, heq⟩ := s.setSource_cases p src acc
  have hp : t.portal p = (s.portal p).withSource src acc := by rw [ht, State.portal_setPortal_self]
  rw [heq]
  split
  · rw [State.portal_pullOff, hp, Portal.withSource_eq, if_neg]
    simpa using h
  · exact hp

theorem State.portal_dropSource (p r : Fin 4) :
    (s.dropSource p).portal r
      = if r = p then { s.portal p with source := none, access := none }
        else if (s.portal p).source = some .own
            ∧ (s.portal r).source = some .partner ∧ (s.portal r).partner = some p then
          (s.portal r).withSource (s.lateCascade r).1 (s.lateCascade r).2
        else s.portal r := by
  obtain ⟨t, ht, hb, hc, hs, heq⟩ : ∃ t : State,
      (∀ r, t.portal r = (s.setPortal p { s.portal p with source := none, access := none }).portal r)
      ∧ t.bores = s.bores ∧ t.clock = s.clock ∧ t.schedule = s.schedule
      ∧ s.dropSource p = if (s.portal p).source = some .own then t.pullOff p else t := by
    unfold State.dropSource
    by_cases h : (s.portal p).source.isSome
    · exact ⟨(s.setPortal p { s.portal p with source := none, access := none }).raise (.source p none none),
        fun _ => rfl, rfl, rfl, rfl, by simp [h]⟩
    · exact ⟨s.setPortal p { s.portal p with source := none, access := none }, fun _ => rfl, rfl, rfl, rfl,
        by simp [h]⟩
  rw [heq]
  by_cases hr : r = p
  · subst hr
    have hself : t.portal r = { s.portal r with source := none, access := none } := by
      rw [ht, State.portal_setPortal_self]
    split
    · rw [State.portal_pullOff, hself]; simp
    · rw [hself]; simp
  · have hne : t.portal r = s.portal r := by rw [ht, State.portal_setPortal_ne _ hr]
    have hlate : t.lateCascade r = s.lateCascade r :=
      State.lateCascade_congr hne (by rw [State.bore, hb]; rfl) hc hs
    rw [if_neg hr]
    split
    next hown => rw [State.portal_pullOff, hne, hlate]; simp only [hown, true_and]
    next hown => rw [hne, if_neg (fun h => hown h.1)]

/-! ### The interior condition (R139 to R142) -/

theorem State.conditionFor_congr {s t : State} {b : Fin 2}
    (h : ∀ p, boreOf p = b → (t.portal p).state = (s.portal p).state) : t.conditionFor b = s.conditionFor b := by
  have hmem : ∀ p ∈ portalsOf b, (t.portal p).state = (s.portal p).state := fun p hp => h p (mem_portalsOf.mp hp)
  simp only [portalsOf, List.forall_mem_cons, List.not_mem_nil, false_implies, implies_true, and_true] at hmem
  simp only [State.conditionFor, portalsOf, List.any_cons, List.any_nil, hmem.1, hmem.2]
  rfl

@[simp] theorem State.portal_setCondition (b : Fin 2) (c : Condition) (p : Fin 4) :
    (s.setCondition b c).portal p = s.portal p := rfl
@[simp] theorem State.zone_setCondition (b : Fin 2) (c : Condition) (z : Fin 14) :
    (s.setCondition b c).zone z = s.zone z := rfl
theorem State.bore_setCondition (b d : Fin 2) (c : Condition) :
    (s.setCondition b c).bore d = if d = b then { s.bore b with condition := c } else s.bore d :=
  s.bore_setBore _ _ _

@[simp] theorem State.portal_lightInterior (b : Fin 2) (p : Fin 4) : (s.lightInterior b).portal p = s.portal p := by
  unfold State.lightInterior; split <;> simp
@[simp] theorem State.bore_lightInterior (b d : Fin 2) : (s.lightInterior b).bore d = s.bore d := by
  unfold State.lightInterior; split <;> simp
theorem State.zone_lightInterior (b : Fin 2) (y : Fin 14) :
    (s.lightInterior b).zone y
      = if y = interiorOf b ∧ (s.bore b).emergency = true then (s.zone y).litUp s.uptime else s.zone y := by
  unfold State.lightInterior
  by_cases h : (s.bore b).emergency = true
  · by_cases hy : y = interiorOf b
    · subst hy; simp [h, State.zone_light]
    · simp [h, State.zone_light, hy]
  · simp [h]

@[simp] theorem State.portal_workCondition (b : Fin 2) (p : Fin 4) : (s.workCondition b).portal p = s.portal p := by
  unfold State.workCondition
  split <;> simp

theorem State.bore_workCondition (b d : Fin 2) :
    (s.workCondition b).bore d
      = if d = b then { s.bore b with condition := s.conditionFor b } else s.bore d := by
  unfold State.workCondition
  split
  all_goals
    next h1 h2 =>
      rw [h2]
      first
        | (simp [State.bore_setCondition]; done)
        | (rw [← h1]
           split
           · next hd => rw [hd]
           · rfl)

/-- The interior zone as the work on its condition leaves it: a condition that rises from RELEASED makes the zone
supervised, one that rises to DRIVEN in emergency lights it, one that falls to RELEASED clears it (R140 to R142). -/
def Zone.conditionWorked (s : State) (b : Fin 2) (z : Zone) : Zone :=
  match (s.bore b).condition, s.conditionFor b with
  | .released, .held => s.startSupervision z
  | .released, .driven =>
    if (s.bore b).emergency then (s.startSupervision z).litUp s.uptime else s.startSupervision z
  | .held, .driven => if (s.bore b).emergency then z.litUp s.uptime else z
  | .held, .released => z.stopped
  | .driven, .released => z.stopped
  | _, _ => z

theorem State.zone_workCondition (b : Fin 2) (y : Fin 14) :
    (s.workCondition b).zone y = if y = interiorOf b then (s.zone y).conditionWorked s b else s.zone y := by
  have hstart : ∀ c x, (s.setCondition b c).startSupervision x = s.startSupervision x := fun _ _ => rfl
  by_cases hy : y = interiorOf b
  · subst hy
    rw [if_pos rfl]
    unfold State.workCondition Zone.conditionWorked
    split <;> simp_all [State.zone_supervise, State.zone_lightInterior, State.zone_clearZone,
      State.bore_setCondition, State.Acts.uptime (State.acts_supervise _ _), State.Acts.uptime (State.acts_setCondition _ _ _)]
  · rw [if_neg hy]
    unfold State.workCondition
    split <;> simp [State.zone_supervise, State.zone_lightInterior, State.zone_clearZone, hy]

/-! ### Changes of a portal's state -/

theorem State.portal_setPortalState (p q : Fin 4) (st : PortalState) :
    (s.setPortalState p st).portal q = if q = p then { s.portal p with state := st } else s.portal q :=
  s.portal_setPortal _ _ _
@[simp] theorem State.bore_setPortalState (p : Fin 4) (st : PortalState) (b : Fin 2) :
    (s.setPortalState p st).bore b = s.bore b := rfl
@[simp] theorem State.zone_setPortalState (p : Fin 4) (st : PortalState) (z : Fin 14) :
    (s.setPortalState p st).zone z = s.zone z := rfl
@[simp] theorem State.line_setPortalState (p : Fin 4) (st : PortalState) (i : Fin 192) :
    (s.setPortalState p st).line i = s.line i := rfl

theorem State.portal_removeAction (p q : Fin 4) :
    (s.removeAction p).portal q = if q = p then { s.portal p with action := none } else s.portal q :=
  s.portal_setPortal _ _ _
@[simp] theorem State.bore_removeAction (p : Fin 4) (b : Fin 2) : (s.removeAction p).bore b = s.bore b := rfl
@[simp] theorem State.zone_removeAction (p : Fin 4) (z : Fin 14) : (s.removeAction p).zone z = s.zone z := rfl
@[simp] theorem State.line_removeAction (p : Fin 4) (i : Fin 192) : (s.removeAction p).line i = s.line i := rfl

theorem State.portal_abandonAction (p q : Fin 4) :
    (s.abandonAction p).portal q = if q = p then { s.portal p with action := none } else s.portal q := by
  unfold State.abandonAction
  split
  next h =>
    split
    next hq => rw [hq, ← h]
    next => rfl
  next => simp [State.portal_removeAction]
@[simp] theorem State.bore_abandonAction (p : Fin 4) (b : Fin 2) : (s.abandonAction p).bore b = s.bore b := by
  unfold State.abandonAction; split <;> simp
@[simp] theorem State.zone_abandonAction (p : Fin 4) (z : Fin 14) : (s.abandonAction p).zone z = s.zone z := by
  unfold State.abandonAction; split <;> simp
@[simp] theorem State.line_abandonAction (p : Fin 4) (i : Fin 192) : (s.abandonAction p).line i = s.line i := by
  unfold State.abandonAction; split <;> simp

@[simp] theorem State.portal_dropPreviews (p q : Fin 4) : (s.dropPreviews p).portal q = s.portal q := rfl
@[simp] theorem State.bore_dropPreviews (p : Fin 4) (b : Fin 2) : (s.dropPreviews p).bore b = s.bore b := rfl
@[simp] theorem State.line_dropPreviews (p : Fin 4) (i : Fin 192) : (s.dropPreviews p).line i = s.line i := rfl
theorem State.zone_dropPreviews (p : Fin 4) (y : Fin 14) :
    (s.dropPreviews p).zone y = if y ∈ zonesOf p then { s.zone y with preview := none } else s.zone y :=
  s.zone_foldl (g := fun _ x => { x with preview := none }) (fun _ _ _ _ => State.zone_setZone _ _ _ _)
    (fun _ _ => rfl) _ (nodup_zonesOf p) y

theorem State.zone_clearZones (p : Fin 4) (y : Fin 14) :
    ((zonesOf p).foldl State.clearZone s).zone y = if y ∈ zonesOf p then (s.zone y).stopped else s.zone y :=
  s.zone_foldl (g := fun _ => Zone.stopped) (fun t z y _ => t.zone_clearZone z y)
    (fun t z => (t.acts_clearZone z).uptime) _ (nodup_zonesOf p) y

theorem State.zone_lightZones (p : Fin 4) (y : Fin 14) :
    ((zonesOf p).foldl State.light s).zone y = if y ∈ zonesOf p then (s.zone y).litUp s.uptime else s.zone y :=
  s.zone_foldl (g := fun _ x => x.litUp s.uptime) (fun t z y hu => by rw [t.zone_light z y, hu])
    (fun t z => (t.acts_light z).uptime) _ (nodup_zonesOf p) y

theorem State.zone_testZones (p : Fin 4) (y : Fin 14) :
    ((zonesOf p).foldl State.testShortfall s).zone y = if y ∈ zonesOf p then (s.zone y).tested else s.zone y :=
  s.zone_foldl (g := fun _ => Zone.tested) (fun t z y _ => t.zone_testShortfall z y)
    (fun t z => (t.acts_testShortfall z).uptime) _ (nodup_zonesOf p) y

theorem State.portal_enterOffline (p q : Fin 4) :
    (s.enterOffline p).portal q
      = if q = p then { (s.portal p).toOffline with source := none, access := none }
        else if (s.portal p).source = some .own
            ∧ (s.portal q).source = some .partner ∧ (s.portal q).partner = some p then
          (s.portal q).withSource (s.lateCascade q).1 (s.lateCascade q).2
        else s.portal q := by
  have hclear : ∀ t : State, ((zonesOf p).foldl State.clearZone t).portal q = t.portal q := fun t =>
    foldl_keeps (f := State.clearZone) (v := fun t => t.portal q) (fun t z => t.portal_clearZone z q) _ t
  simp only [State.enterOffline, State.portal_workCondition, State.portal_raisePortalState, hclear,
    State.portal_dropSource]
  by_cases h : q = p
  · simp [h]
  · have hlate : (s.setPortal p (s.portal p).toOffline).lateCascade q = s.lateCascade q :=
      State.lateCascade_congr (State.portal_setPortal_ne _ h _) rfl rfl rfl
    have hsrc : (s.portal p).toOffline.source = (s.portal p).source := rfl
    simp only [h, if_false, State.portal_setPortal_ne _ h, State.portal_setPortal_self, hlate, hsrc]

theorem State.bore_enterOffline (p : Fin 4) (b : Fin 2) :
    (s.enterOffline p).bore b
      = if b = boreOf p then { s.bore b with condition := (s.enterOffline p).conditionFor b } else s.bore b := by
  have hclear : ∀ t : State, ((zonesOf p).foldl State.clearZone t).bore b = t.bore b := fun t =>
    foldl_keeps (f := State.clearZone) (v := fun t => t.bore b) (fun t z => t.bore_clearZone z b) _ t
  have hc : ∀ t : State, (t.workCondition (boreOf p)).conditionFor b = t.conditionFor b := fun t =>
    State.conditionFor_congr fun q _ => by rw [State.portal_workCondition]
  simp only [State.enterOffline, State.bore_workCondition, hc, State.bore_raisePortalState]
  by_cases h : b = boreOf p
  · subst h; simp [hclear]
  · simp [hclear, h]

theorem State.portal_enterEmergency (p q : Fin 4) :
    (s.enterEmergency p).portal q
      = if q = p then { s.portal p with action := none, dryRun := none, state := .emergency } else s.portal q := by
  have hlight : ∀ t : State, ((zonesOf p).foldl State.light t).portal q = t.portal q := fun t =>
    foldl_keeps (f := State.light) (v := fun t => t.portal q) (fun t z => t.portal_light z q) _ t
  simp only [State.enterEmergency, hlight, State.portal_raisePortalState, State.portal_setPortalState,
    State.portal_dropPreviews, State.portal_setPortal, State.portal_abandonAction]
  split <;> simp

theorem State.bore_enterEmergency (p : Fin 4) (b : Fin 2) : (s.enterEmergency p).bore b = s.bore b := by
  have hlight : ∀ t : State, ((zonesOf p).foldl State.light t).bore b = t.bore b := fun t =>
    foldl_keeps (f := State.light) (v := fun t => t.bore b) (fun t z => t.bore_light z b) _ t
  simp [State.enterEmergency, hlight]

theorem State.zone_enterEmergency (p : Fin 4) (y : Fin 14) :
    (s.enterEmergency p).zone y
      = if y ∈ zonesOf p then ({ s.zone y with preview := none } : Zone).litUp s.uptime else s.zone y := by
  simp only [State.enterEmergency, State.zone_lightZones, State.zone_raisePortalState, State.zone_setPortalState,
    State.zone_dropPreviews, State.zone_setPortal, State.zone_abandonAction]
  have hraise : ∀ (t : State), ((t.setPortalState p .emergency).raisePortalState p).uptime = t.uptime := fun _ => rfl
  simp only [hraise, (State.acts_dropPreviews _ p).uptime, State.setPortal_uptime, (s.acts_abandonAction p).uptime]
  split <;> simp_all

theorem State.portal_enterHeld (p q : Fin 4) :
    (s.enterHeld p).portal q
      = if q = p then { s.portal p with state := .held, timer := some (msAfter s.uptime 1000) } else s.portal q := by
  simp [State.enterHeld, zonesOf, State.portal_setPortal]

theorem State.bore_enterHeld (p : Fin 4) (b : Fin 2) :
    (s.enterHeld p).bore b
      = if b = boreOf p then { s.bore b with condition := (s.enterHeld p).conditionFor b } else s.bore b := by
  have hc : ∀ t : State, (t.workCondition (boreOf p)).conditionFor b = t.conditionFor b := fun t =>
    State.conditionFor_congr fun q _ => by rw [State.portal_workCondition]
  simp only [State.enterHeld, State.bore_workCondition, hc, State.bore_raisePortalState]
  by_cases h : b = boreOf p
  · subst h; simp [zonesOf]
  · simp [zonesOf, h]

/-! ### The steps of a portal's evaluation (R107) -/

@[simp] theorem State.portal_actHeld (p q : Fin 4) : (s.actHeld p).portal q = s.portal q :=
  foldl_keeps (f := State.testShortfall) (v := fun u => u.portal q) (fun u z => u.portal_testShortfall z q) _ s

@[simp] theorem State.bore_actHeld (p : Fin 4) (b : Fin 2) : (s.actHeld p).bore b = s.bore b :=
  foldl_keeps (f := State.testShortfall) (v := fun u => u.bore b) (fun u z => u.bore_testShortfall z b) _ s

@[simp] theorem State.portal_act (p : Fin 4) (plan : Plan) (q : Fin 4) : (s.act p plan).portal q = s.portal q := by
  unfold State.act
  split
  · rfl
  · simp
  · unfold State.actDryRun
    split
    · simp
    · split <;> simp
  · simp [State.actAuto]
  · exact foldl_keeps (f := State.emergencyZone) (v := fun u => u.portal q) (fun u z => u.portal_emergencyZone z q) _ s

@[simp] theorem State.bore_act (p : Fin 4) (plan : Plan) (b : Fin 2) : (s.act p plan).bore b = s.bore b := by
  unfold State.act
  split
  · rfl
  · simp
  · unfold State.actDryRun
    split
    · simp
    · split <;> simp
  · simp [State.actAuto]
  · exact foldl_keeps (f := State.emergencyZone) (v := fun u => u.bore b) (fun u z => u.bore_emergencyZone z b) _ s

/-- A portal record after step 4: the night test, passed over on BLIND (R38, R39). -/
def Portal.nightTested (plan : Plan) (x : Portal) : Portal :=
  if x.source = some .blind then x
  else
    match x.access with
    | none => x
    | some access => x.nightTest plan access

theorem State.portal_testNight (p q : Fin 4) (plan : Plan) :
    (s.testNight p plan).portal q = if q = p then (s.portal p).nightTested plan else s.portal q := by
  have hturn : ∀ t : State, ((zonesOf p).foldl State.advanceRotation t).portal q = t.portal q := fun t =>
    foldl_keeps (f := State.advanceRotation) (v := fun u => u.portal q) (fun _ _ => rfl) _ t
  have hsame : s.portal q = if q = p then s.portal p else s.portal q := by
    split
    next h => rw [h]
    next => rfl
  unfold State.testNight Portal.nightTested
  by_cases hblind : (s.portal p).source = some .blind
  · simpa only [hblind, if_true] using hsame
  · cases ha : (s.portal p).access with
    | none => simpa only [hblind, if_false, ha] using hsame
    | some a =>
      simp only [hblind, if_false, ha]
      split
      · rw [hturn, State.portal_setPortal]
      · rw [State.portal_setPortal]

@[simp] theorem State.bore_testNight (p : Fin 4) (plan : Plan) (b : Fin 2) :
    (s.testNight p plan).bore b = s.bore b := by
  have hturn : ∀ t : State, ((zonesOf p).foldl State.advanceRotation t).bore b = t.bore b := fun t =>
    foldl_keeps (f := State.advanceRotation) (v := fun u => u.bore b) (fun _ _ => rfl) _ t
  unfold State.testNight
  dsimp only
  split
  · rfl
  · split
    · rfl
    · split
      · rw [hturn]; rfl
      · rfl

/-- The night test changes the night flag and its count alone. -/
theorem Portal.nightTested_eq (plan : Plan) (x : Portal) :
    x.nightTested plan
      = { x with night := (x.nightTested plan).night, lowCount := (x.nightTested plan).lowCount } := by
  have htest : ∀ a, x.nightTest plan a
      = { x with night := (x.nightTest plan a).night, lowCount := (x.nightTest plan a).lowCount } := fun a => by
    unfold Portal.nightTest
    dsimp only
    split
    · rfl
    · split <;> rfl
  unfold Portal.nightTested
  split
  · rfl
  · split
    · rfl
    · exact htest _

theorem Portal.resourced_nightTested (plan : Plan) (x : Portal) : x.Resourced (x.nightTested plan) := by
  rw [Portal.nightTested_eq]
  rfl

theorem State.portal_storeRole (p q : Fin 4) :
    (s.storeRole p).portal q = if q = p then { s.portal p with role := some (s.roleNow p) } else s.portal q :=
  s.portal_setPortal _ _ _
@[simp] theorem State.bore_storeRole (p : Fin 4) (b : Fin 2) : (s.storeRole p).bore b = s.bore b := rfl
theorem State.portal_selectPlan (p q : Fin 4) :
    (s.selectPlan p).portal q
      = if q = p then { s.portal p with planInUse := some (s.selectSlot p) } else s.portal q :=
  s.portal_setPortal _ _ _
@[simp] theorem State.bore_selectPlan (p : Fin 4) (b : Fin 2) : (s.selectPlan p).bore b = s.bore b := rfl

/-- The first record as steps 2 to 5 of an evaluation can leave it: plan in use, source, access luminance, night flag,
count and role (R107). -/
def Portal.Judged (x y : Portal) : Prop :=
  y = { x with planInUse := y.planInUse, source := y.source, access := y.access, night := y.night,
               lowCount := y.lowCount, role := y.role }

theorem State.portal_evaluateSteps (p q : Fin 4) : (s.portal q).Judged ((s.evaluateSteps p).portal q) := by
  unfold State.evaluateSteps
  split
  · rfl
  next plan _ =>
    have hsource := (s.selectPlan p).resourced_setSource p ((s.selectPlan p).cascade p).1
      ((s.selectPlan p).cascade p).2 q
    simp only [State.portal_act, State.portal_storeRole, State.portal_testNight, State.runCascade]
    rw [State.portal_selectPlan] at hsource
    unfold Portal.Judged
    split
    next hq =>
      subst hq
      rw [Portal.nightTested_eq, hsource]
      simp
    next hq =>
      rw [if_neg hq] at hsource
      rw [hsource]

@[simp] theorem State.bore_evaluateSteps (p : Fin 4) (b : Fin 2) : (s.evaluateSteps p).bore b = s.bore b := by
  unfold State.evaluateSteps
  split <;> simp [State.runCascade]

/-! ### The steps of a bore's evaluation (R143) -/

@[simp] theorem State.portal_interiorNightEntry (b : Fin 2) (was : Bool) (q : Fin 4) :
    (s.interiorNightEntry b was).portal q = s.portal q := by
  unfold State.interiorNightEntry
  split <;> rfl

@[simp] theorem State.bore_interiorNightEntry (b c : Fin 2) (was : Bool) :
    (s.interiorNightEntry b was).bore c = s.bore c := by
  unfold State.interiorNightEntry
  split <;> rfl

@[simp] theorem State.portal_actInterior (b : Fin 2) (c : InteriorCase) (was : Bool) (q : Fin 4) :
    (s.actInterior b c was).portal q = s.portal q := by
  unfold State.actInterior
  split
  · dsimp only
    split
    · simp
    · unfold State.driveInterior
      split <;> simp
  · simp
  · rfl

@[simp] theorem State.bore_actInterior (b : Fin 2) (c : InteriorCase) (was : Bool) (d : Fin 2) :
    (s.actInterior b c was).bore d = s.bore d := by
  unfold State.actInterior
  split
  · dsimp only
    split
    · simp
    · unfold State.driveInterior
      split <;> simp
  · simp
  · rfl

@[simp] theorem State.portal_evaluateBore (b : Fin 2) (q : Fin 4) : (s.evaluateBore b).portal q = s.portal q := by
  simp [State.evaluateBore]

theorem State.bore_evaluateBore (b d : Fin 2) :
    (s.evaluateBore b).bore d
      = if d = b then (s.bore b).withInterior (s.interiorCase b) else s.bore d := by
  simp [State.evaluateBore, State.bore_setBore]

end Sys2Proof.Machine
end

section
/-! SUPPORT. What a command can do: every one but those of reset is an event, and a property that the effect of each
keeps is kept by every step. -/

namespace Sys2Proof.Machine

/-! ### Every command but those of reset is an event -/

/-- The command is one of the part's reset or power (R158). -/
def ofReset : Instr → Bool
  | .powerOn | .resetPin _ | .resetPinRelease => true
  | _ => false

theorem ofReset_eq_false {c : Instr} :
    ofReset c = false ↔ c ≠ .powerOn ∧ c ≠ .resetPinRelease ∧ ∀ n, c ≠ .resetPin n := by
  cases c <;> simp [ofReset]

/-- The effect of a take on an arbitrated state (R167). -/
def takeEffect (l : Link) (mine : Request → Bool) (act : Handler) (s : State) : State :=
  match s.nextRequest l with
  | none => s
  | some r => if mine r then (act r (s.popRequest l)).1.respond l r (act r (s.popRequest l)).2 else s

theorem State.take_eq_event (s : State) (l : Link) (mine : Request → Bool) (act : Handler) :
    s.take l mine act = s.event (takeEffect l mine act) := rfl

theorem State.takeFor_eq_event (s : State) (l : Link) (c : ReqCode) (act : Handler) :
    s.takeFor l c act = s.event (takeEffect l (Request.isFor c) (checked l c act)) := rfl

theorem exec_event {c : Instr} (h : ofReset c = false) : ∃ f, ∀ s, exec c s = .next (s.event f) := by
  cases c
  case powerOn | resetPin | resetPinRelease => simp [ofReset] at h
  case rxOctet | gapTimerExpiry | linkRestart | lineReturnsToMark | transmissionEnd | portalEvaluation
      | boreEvaluation | gateExpiry | meterEdge | feedbackChange | settleExpiry | lossExpiry | burnTick
      | overrideExpiry | staleExpiry | minuteAdvance | feedbackSample | pwmPeriodStart =>
    exact ⟨_, fun _ => rfl⟩
  case unknownCode l =>
    exact ⟨takeEffect l (fun r => (reqCodeOf r.code).isNone) fun r s => (s, some (Reply.alone r .unknown)),
      fun _ => rfl⟩
  all_goals exact ⟨takeEffect _ _ _, fun _ => rfl⟩

/-- Every command answers a next state. -/
theorem exec_next (c : Instr) (s : State) : ∃ t, exec c s = .next t := by
  by_cases h : ofReset c = false
  · obtain ⟨f, hf⟩ := exec_event h
    exact ⟨_, hf s⟩
  · cases c <;> first | exact absurd rfl h | exact ⟨_, rfl⟩

/-- Settles O1. -/
theorem stepTakesTheFrontCommand : Obligations.StepTakesTheFrontCommand :=
  fun _ _ => rfl

/-- Settles O2: a tick arbitrates before and after the millisecond passes. -/
theorem anEmptyQueueRunsTheClock : Obligations.AnEmptyQueueRunsTheClock := by
  intro s hempty
  refine ⟨fun hheld => ?held, fun hawake c hdue => ?due, fun hawake hnone => ?tick⟩
  case held => simp [step, hempty, hheld]
  case due => simp [step, hempty, hawake, hdue]
  case tick => simp [step, hempty, hawake, hnone, State.tick, State.event]

/-- Settles O49: an awake part ends each event by an arbitration, which leaves nothing to arbitrate. -/
theorem everyStepLeavesNoTransmitterIdle : Obligations.EveryStepLeavesNoTransmitterIdle := by
  have hevent : ∀ (s : State) f, s.NothingLeftIdle → (s.event f).NothingLeftIdle := fun s f h => by
    cases hr : s.inReset with
    | true => rw [State.event_held hr]; exact h
    | false => exact .inr (State.event_arbitrated hr f)
  have hexec : ∀ c (s t : State), s.NothingLeftIdle → exec c s = .next t → t.NothingLeftIdle := by
    intro c s t h hst
    by_cases hc : ofReset c = false
    · obtain ⟨f, hf⟩ := exec_event hc
      rw [hf, Host.Outcome.next.injEq] at hst
      exact hst ▸ hevent s f h
    · cases c
      case powerOn =>
        rw [exec, execPowerOn, Host.Outcome.next.injEq] at hst
        subst hst
        split
        · exact .inl rfl
        · exact .inr (State.arbitrate_arbitrate _)
      case resetPinRelease =>
        rw [exec, execResetPinRelease, Host.Outcome.next.injEq] at hst
        subst hst
        split
        · exact .inr (State.arbitrate_arbitrate _)
        · exact h
      case resetPin n =>
        rw [exec, execResetPin, Host.Outcome.next.injEq] at hst
        subst hst
        split
        · exact .inl rfl
        · exact h.imp id fun harb => congrArg (fun u : State => { u with draws := resetDraws n s.draws }) harb
      all_goals exact absurd rfl hc
  intro s t h hst
  unfold step at hst
  split at hst
  next c rest _ =>
    refine hexec c { s with pending := rest } t (h.imp id fun harb => ?_) hst
    exact congrArg (fun u : State => { u with pending := rest }) harb
  next =>
    split at hst
    · exact Host.Outcome.next.inj hst ▸ h
    · split at hst
      next c _ => exact hexec c s t h hst
      next => exact Host.Outcome.next.inj hst ▸ hevent s _ h

/-! ### A property that every command keeps -/

/-- What an expiry or a sample changes beside the records: the time base, the clock and the pins (R26, R27). -/
def State.retimed (s : State) (uptime : Uptime) (clock : Option Clock) (burnDue sampleDue periodDue : Uptime)
    (pins : BitVec 192) : State :=
  { s with uptime := uptime, clock := clock, burnDue := burnDue, sampleDue := sampleDue, periodDue := periodDue,
           pins := pins }

/-- The events of the links but the takes keep the property. -/
structure KeptByLinks (P : State → Prop) : Prop where
  arbitrate : ∀ s, P s → P s.arbitrate
  receive : ∀ s l o e, P s → P (s.setLink l ((s.link l).rxOctet s.uptime o e))
  gap : ∀ s l os gap, (s.link l).framer = .collect os gap → P s → P (s.setLink l { s.link l with framer := .hunt })
  restart : ∀ s l, (s.link l).framer ≠ .brk → P s →
    P { s.setLink l (s.link l).restarted with portals := s.portals.mapWith fun _ x => x.unowed l }
  mark : ∀ s l, (s.link l).framer = .brk → P s →
    P (s.setLink l (LinkRec.beginNext s.uptime { s.link l with framer := .hunt }))
  sent : ∀ s l f e, (s.link l).transmitter = .sending f e → P s → P (s.setLink l ((s.link l).beginNext s.uptime))

/-- The effects of the expiries, the samples and the evaluations keep the property. -/
structure KeptByEvents (P : State → Prop) : Prop where
  retimed : ∀ s u c bd sd pd pins, P s → P (s.retimed u c bd sd pd pins)
  portalEvaluation : ∀ s p e, (s.portal p).timer = some e → P s →
    P ((s.setPortal p { s.portal p with timer := some (msAfter e 1000) }).evaluatePortal p)
  boreEvaluation : ∀ s b e, P s → P ((s.setBore b { s.bore b with timer := e }).evaluateBore b)
  gate : ∀ s m e, (s.meter m).gateEnd = some e → P s → P (s.endGate m e)
  edge : ∀ s x d, (s.line x.line).fn = .meterIn → (s.line x.line).edge = some d → P s → P (s.readPin x d)
  sample : ∀ s which pins, P s → P (s.sampleLines which pins)
  settle : ∀ s z k e, s.timerOf .settle z k = some e → P s → P (s.putCircuit z k (Circuit.settled (s.slotFeedback z k)))
  loss : ∀ s z k e, s.timerOf .loss z k = some e → P s → P (s.putCircuit z k Circuit.lost)
  burn : ∀ s, P s → P { s with zones := s.zones.mapWith fun z x => x.modWhere (s.commandActive z) Circuit.burned }
  override : ∀ s p v, (s.portal p).override = some v → P s → P (s.endOverride p v)
  stale : ∀ s b, P s → P ((s.setBore b (s.bore b).goneStale).raiseTrafficState b)
  period : ∀ s, P s → P { s with lines := s.lines.mapWith fun _ x => x.periodStart }

/-- The effects of the configuration writes keep the property. -/
structure KeptByWrites (P : State → Prop) : Prop where
  writeLine : ∀ s fn invert i, s.lineInService i = false → P s → P (s.writeLine fn invert i)
  meterSetup : ∀ s m body u, meterSetupOf body = some u → s.lineTaken m u.line = false →
    (s.meterInService m && u.line != (s.meter m).line) = false → P s →
    P ((s.setMeter m ((s.meter m).withSetup u)).restartMeter m)
  portalSetup : ∀ s p body m q f, (s.portal p).state = .offline → portalSetupOf body = some (m, q, f) → P s →
    P (s.setPortal p { s.portal p with meter := m, partner := q, factor := f })
  zoneSetup : ∀ s z body u, zoneSetupOf body = some u → s.zoneWritable z = true → P s →
    P ((s.setZone z ((s.zone z).withSetup u)).raiseFaultChange z (s.zone z))
  plan : ∀ s p body w, planWriteOf body = some w → P s → P (s.writePlan w p).1
  schedule : ∀ s body ws, scheduleOf body = some ws → P s → P { s with schedule := ws }
  boreSetup : ∀ s b n, P s → P (s.setBore b { s.bore b with staleTimeout := n })
  clock : ∀ s c, P s → P { s with clock := c }

/-- The effects of the control, maintenance and traffic requests on one unit keep the property. -/
structure KeptByControl (P : State → Prop) : Prop where
  commission : ∀ s p, P s → P (s.commissionOne p).1
  stop : ∀ s p, P s → P (State.stopOne p s).1
  setOverride : ∀ s p body v n, overrideKindOf body = some v → P s → P (State.overrideOne v.1 v.2 n p s).1
  clearOverride : ∀ s p, P s → P (State.unoverrideOne p s).1
  dryRun : ∀ s p x, P s → P (State.dryRunOne x p s).1
  dryInput : ∀ s p x, P s → P (State.dryInputOne x p s).1
  dryStop : ∀ s p, P s → P (State.dryStopOne p s).1
  lockout : ∀ s z a b, P s → P ((s.putZone z ((s.zone z).lockoutModify s.uptime (s.underEmergency z) (slotsOf a)
    (slotsOf b))).raiseFaultChange z (s.zone z))
  burnReset : ∀ s z a, P s → P (s.setZone z ((s.zone z).modSlots (slotsOf a) fun c => { c with burn := 0 }))
  report : ∀ s b cls f g, P s → P (State.reportOne cls f g b s).1
  direction : ∀ s b mode, P s → P (State.directionOne mode b s).1
  emergency : ∀ s b, P s → P (State.emergencyOne b s).1
  clear : ∀ s b, P s → P (State.clearOne b s).1

/-- Every command keeps the property `P`. Within a take by the engine of link `l` the property is `Q l`: the request
has left its queue and its response is not yet placed. -/
structure Kept (P : State → Prop) (Q : Link → State → Prop) : Prop extends KeptByLinks P, KeptByEvents P where
  coldStart : ∀ s held, P s → P (s.coldStart held)
  drawn : ∀ s n, P s → P { s with draws := n }
  pop : ∀ s l r, s.nextRequest l = some r → P s → Q l (s.popRequest l)
  writes : ∀ l, KeptByWrites (Q l)
  control : ∀ l, KeptByControl (Q l)
  draws : ∀ l s n, Q l s → Q l { s with draws := n }
  mask : ∀ s l o, Q l s → Q l (s.setLink l ((s.link l).withMask (noticeMaskOf o)))
  defer : ∀ s l kind r us, s.nextRequest l = some r → P s →
    Q l (visitAll (State.deferOne kind l r) us (s.popRequest l)).1
  respond : ∀ s l r x, Q l s → P (s.respond l r x)

/-! ### Takes -/

theorem checked_keeps {Q : State → Prop} {l : Link} {c : ReqCode} {act : Handler} {r : Request} {s : State} (hs : Q s)
    (h : Q (act r s).1) : Q (checked l c act r s).1 := by
  unfold checked
  split
  · split
    · exact h
    · exact hs
  · exact hs

theorem onUnit_keeps {Q : State → Prop} {n : Nat} {act : Fin n → Handler} {r : Request} {s : State} (hs : Q s)
    (h : ∀ u, Q (act u r s).1) : Q (onUnit n act r s).1 := by
  unfold onUnit
  split
  · exact hs
  · exact h _

theorem readUnits_state {n : Nat} {data : State → Fin n → List Octet} {r : Request} {s : State} :
    (readUnits n data r s).1 = s := by
  unfold readUnits
  split <;> rfl

theorem visitAll_keeps_prop {n : Nat} {α : Type} {f : Fin n → State → State × Option α} {Q : State → Prop}
    (hf : ∀ u s, Q s → Q (f u s).1) (us : List (Fin n)) (s : State) : Q s → Q (visitAll f us s).1 :=
  visitAll_keeps (R := fun s t => Q s → Q t) (fun _ => id) (fun _ _ _ h k => k ∘ h) hf us s

theorem overUnits_keeps {Q : State → Prop} {n : Nat} {d : Option Disposition}
    {visit : Fin n → State → State × Disposition} {r : Request} {s : State} (hs : Q s)
    (h : ∀ u s, Q s → Q (visit u s).1) : Q (overUnits n d visit r s).1 := by
  unfold overUnits
  split
  · exact hs
  · split
    · exact hs
    · exact visitAll_keeps_prop h _ s hs

theorem event_keeps {P : State → Prop} (harb : ∀ s, P s → P s.arbitrate) {f : State → State}
    (hf : ∀ s, P s → P (f s)) (s : State) (h : P s) : P (s.event f) := by
  unfold State.event
  split
  · exact h
  · exact harb _ (hf _ (harb _ h))

/-! ### Lines in service stay so as others are written (R155) -/

theorem State.lineInService_congr {s t : State} (hp : t.portals = s.portals) (hb : t.bores = s.bores)
    (hz : t.zones = s.zones) (hm : ∀ m, (t.meter m).line = (s.meter m).line) (i : Fin 192) :
    t.lineInService i = s.lineInService i := by
  simp only [State.lineInService, State.supervisedCircuits, State.supervised, State.meterInService, State.inService,
    State.portal, State.bore, State.zone, hp, hb, hz, hm]
  rfl

/-- What a restart leaves of a meter's setup: everything (R13). -/
theorem Meter.restarted_setup (now : Uptime) (configured : Bool) (x : Meter) :
    (x.restarted now configured).line = x.line ∧ (x.restarted now configured).gate = x.gate
    ∧ (x.restarted now configured).span = x.span ∧ (x.restarted now configured).weight = x.weight := by
  cases configured <;> exact ⟨rfl, rfl, rfl, rfl⟩

/-- Writing a line changes its record, and by a restart the meter that names it; no other record (R155). -/
theorem State.writeLine_cases (fn : LineFn) (invert : Bool) (s : State) (i : Fin 192) :
    (((s.line i).fn = fn ∧ (s.line i).invert = invert) ∧ s.writeLine fn invert i = s)
    ∨ ¬((s.line i).fn = fn ∧ (s.line i).invert = invert)
      ∧ (s.writeLine fn invert i = s.setLine i (Line.written fn invert)
          ∧ (((s.line i).fn = .meterIn ↔ fn = .meterIn) ∨ s.meterOf i = none)
        ∨ ∃ m, ¬((s.line i).fn = .meterIn ↔ fn = .meterIn) ∧ s.meterOf i = some m
            ∧ s.writeLine fn invert i = (s.setLine i (Line.written fn invert)).restartMeter m) := by
  have hof : (s.setLine i (Line.written fn invert)).meterOf i = s.meterOf i := rfl
  unfold State.writeLine
  by_cases hsame : (s.line i).fn = fn ∧ (s.line i).invert = invert
  · exact .inl ⟨hsame, if_pos hsame⟩
  · refine .inr ⟨hsame, ?_⟩
    simp only [if_neg hsame, hof]
    split
    next hcross =>
      cases hm : s.meterOf i with
      | none => exact .inl ⟨rfl, .inr rfl⟩
      | some m => exact .inr ⟨m, by tauto, rfl, rfl⟩
    next hcross => exact .inl ⟨rfl, .inl (by tauto)⟩

theorem State.lineInService_writeLine (fn : LineFn) (invert : Bool) (s : State) (i j : Fin 192) :
    (s.writeLine fn invert i).lineInService j = s.lineInService j := by
  obtain ⟨-, h⟩ | ⟨-, ⟨h, -⟩ | ⟨m, -, -, h⟩⟩ := State.writeLine_cases fn invert s i <;> rw [h]
  · exact State.lineInService_congr rfl rfl rfl (fun _ => rfl) j
  · refine State.lineInService_congr (s := s) (t := (s.setLine i (Line.written fn invert)).restartMeter m) rfl rfl rfl (fun q => ?_) j
    simp only [State.restartMeter, State.raiseMeterState, State.meter_raise, State.meter_setMeter]
    split
    next hq => subst hq; exact (Meter.restarted_setup _ _ _).1
    next => rfl

namespace Kept

variable {P : State → Prop} {Q : Link → State → Prop} (k : Kept P Q)
include k

theorem event {f : State → State} (hf : ∀ s, P s → P (f s)) (s : State) (h : P s) : P (s.event f) :=
  event_keeps k.arbitrate hf s h

theorem take_from {l : Link} {mine : Request → Bool} {act : Handler}
    (ha : ∀ r s, s.nextRequest l = some r → P s → Q l (act r (s.popRequest l)).1) (s : State) (h : P s) :
    P (s.take l mine act) := by
  refine k.event (fun t ht => ?_) s h
  split
  · exact ht
  next r hr =>
    split
    · exact k.respond _ l r _ (ha r t hr ht)
    · exact ht

theorem take {l : Link} {mine : Request → Bool} {act : Handler} (ha : ∀ r s, Q l s → Q l (act r s).1) (s : State)
    (h : P s) : P (s.take l mine act) :=
  k.take_from (fun r t hr ht => ha r _ (k.pop t l r hr ht)) s h

theorem takeFor {l : Link} {c : ReqCode} {act : Handler} (ha : ∀ r s, Q l s → Q l (act r s).1) (s : State)
    (h : P s) : P (s.takeFor l c act) :=
  k.take (fun r t ht => checked_keeps ht (ha r t ht)) s h

theorem deferAll (l : Link) (kind : ActionKind) (r : Request) (s : State) (hr : s.nextRequest l = some r) (h : P s) :
    Q l (deferAll kind l r (s.popRequest l)).1 := by
  unfold Machine.deferAll
  split
  · exact k.pop s l r hr h
  · exact k.defer s l kind r _ hr h

/-- A run of lines none of which is in service, written one by one: no write puts another in service (R155). -/
theorem writeRun (l : Link) (fn : LineFn) (invert : Bool) (run : List (Fin 192)) (s : State)
    (hrun : ∀ i ∈ run, s.lineInService i = false) (h : Q l s) : Q l (run.foldl (State.writeLine fn invert) s) := by
  induction run generalizing s with
  | nil => exact h
  | cons i run ih =>
    obtain ⟨hi, hrest⟩ := List.forall_mem_cons.mp hrun
    refine ih _ (fun j hj => ?_) ((k.writes l).writeLine s fn invert i hi h)
    rw [State.lineInService_writeLine]
    exact hrest j hj

/-- Every command keeps the property: one case for each command, by the effect of its meaning. -/
theorem exec (c : Instr) (s : State) (h : P s) : ∃ t, exec c s = .next t ∧ P t := by
  cases c
  case powerOn =>
    refine ⟨_, rfl, ?_⟩
    split
    · exact k.coldStart s true h
    · exact k.arbitrate _ (k.coldStart s false h)
  case resetPin n =>
    refine ⟨_, rfl, ?_⟩
    have hd : P { s with draws := resetDraws n s.draws } := k.drawn s _ h
    split
    · exact k.coldStart _ true hd
    · exact hd
  case resetPinRelease =>
    refine ⟨_, rfl, ?_⟩
    split
    · exact k.arbitrate _ (k.coldStart s false h)
    · exact h
  case rxOctet l o e => exact ⟨_, rfl, k.event (fun t ht => k.receive t l o e ht) s h⟩
  case gapTimerExpiry l =>
    refine ⟨_, rfl, k.event (fun t ht => ?_) s h⟩
    split
    · exact ht
    next os gap hf => exact k.gap (t.reach gap) l os gap hf (k.retimed t _ _ _ _ _ _ ht)
    · exact ht
  case linkRestart l =>
    refine ⟨_, rfl, k.event (fun t ht => ?_) s h⟩
    split
    · exact ht
    next hf => exact k.restart t l hf ht
  case lineReturnsToMark l =>
    refine ⟨_, rfl, k.event (fun t ht => ?_) s h⟩
    split
    next hf => exact k.mark t l hf ht
    · exact ht
  case transmissionEnd l =>
    refine ⟨_, rfl, k.event (fun t ht => ?_) s h⟩
    split
    · exact ht
    next f e hf => exact k.sent t l f e hf ht
    · exact ht
  case unknownCode l => exact ⟨_, rfl, k.take (fun _ _ ht => ht) s h⟩
  case echo l => exact ⟨_, rfl, k.takeFor (fun _ _ ht => ht) s h⟩
  case setNoticeMask l => exact ⟨_, rfl, k.takeFor (fun r t ht => k.mask t l _ ht) s h⟩
  case readPortal l => exact ⟨_, rfl, k.takeFor (fun _ _ ht => readUnits_state.symm ▸ ht) s h⟩
  case readBore l => exact ⟨_, rfl, k.takeFor (fun _ _ ht => readUnits_state.symm ▸ ht) s h⟩
  case readZone l => exact ⟨_, rfl, k.takeFor (fun _ _ ht => onUnit_keeps ht fun _ => ht) s h⟩
  case readCircuit l =>
    refine ⟨_, rfl, k.takeFor (fun _ _ ht => onUnit_keeps ht fun _ => ?_) s h⟩
    split <;> exact ht
  case readMeter l => exact ⟨_, rfl, k.takeFor (fun _ _ ht => onUnit_keeps ht fun _ => ht) s h⟩
  case readLine l =>
    refine ⟨_, rfl, k.takeFor (fun _ t ht => ?_) s h⟩
    dsimp only
    split
    · exact ht
    · exact k.draws l t _ ht
  case readPlan l =>
    refine ⟨_, rfl, k.takeFor (fun _ _ ht => onUnit_keeps ht fun _ => ?_) s h⟩
    split <;> exact ht
  case readSchedule l => exact ⟨_, rfl, k.takeFor (fun _ _ ht => ht) s h⟩
  case readClock l => exact ⟨_, rfl, k.takeFor (fun _ _ ht => ht) s h⟩
  case writeLine l =>
    refine ⟨_, rfl, k.takeFor (fun r t ht => ?_) s h⟩
    split
    · exact ht
    next run fn invert _ =>
      split
      · exact ht
      next hrun => exact k.writeRun l fn invert run t (by simpa using hrun) ht
  case writeMeterSetup l =>
    refine ⟨_, rfl, k.takeFor (fun r t ht => onUnit_keeps ht fun m => ?_) s h⟩
    split
    · exact ht
    next u hu =>
      split
      · exact ht
      next htaken =>
        split
        · exact ht
        next hserv => exact (k.writes l).meterSetup t m _ u hu (by simpa using htaken) (by simpa using hserv) ht
  case writePortalSetup l =>
    refine ⟨_, rfl, k.takeFor (fun r t ht => onUnit_keeps ht fun p => ?_) s h⟩
    split
    · exact ht
    next hoff =>
      split
      · exact ht
      next m q f hbody => exact (k.writes l).portalSetup t p _ m q f (not_not.mp hoff) hbody ht
  case writeZone l =>
    refine ⟨_, rfl, k.takeFor (fun r t ht => onUnit_keeps ht fun z => ?_) s h⟩
    split
    · exact ht
    next u hu =>
      split
      next hw => exact (k.writes l).zoneSetup t z _ u hu hw ht
      · exact ht
  case writePlan l =>
    refine ⟨_, rfl, k.takeFor (fun r t ht => ?_) s h⟩
    split
    · exact overUnits_keeps ht fun _ _ => id
    next w hw => exact overUnits_keeps ht fun p u => (k.writes l).plan u p _ w hw
  case writeSchedule l =>
    refine ⟨_, rfl, k.takeFor (fun r t ht => ?_) s h⟩
    split
    · exact ht
    next ws hws => exact (k.writes l).schedule t _ ws hws ht
  case writeBoreSetup l =>
    exact ⟨_, rfl, k.takeFor (fun r t ht => overUnits_keeps ht fun b u => (k.writes l).boreSetup u b _) s h⟩
  case setClock l =>
    refine ⟨_, rfl, k.takeFor (fun r t ht => ?_) s h⟩
    dsimp only
    split
    · exact (k.writes l).clock t _ ht
    · exact ht
  case commission l =>
    refine ⟨_, rfl, k.takeFor (fun r t ht => ?_) s h⟩
    split
    · exact ht
    · exact visitAll_keeps_prop (fun p u => (k.control l).commission u p) _ t ht
  case hold l =>
    refine ⟨_, rfl, k.take_from (fun r t hr ht => checked_keeps (k.pop t l r hr ht) (k.deferAll l _ r t hr ht)) s h⟩
  case release l =>
    refine ⟨_, rfl, k.take_from (fun r t hr ht => checked_keeps (k.pop t l r hr ht) (k.deferAll l _ r t hr ht)) s h⟩
  case stopOrderly l =>
    refine ⟨_, rfl, k.take_from (fun r t hr ht => checked_keeps (k.pop t l r hr ht) ?_) s h⟩
    split
    · exact k.deferAll l _ r t hr ht
    · exact overUnits_keeps (k.pop t l r hr ht) fun _ _ => id
  case stopImmediate l =>
    refine ⟨_, rfl, k.take (fun r t ht => checked_keeps ht ?_) s h⟩
    exact overUnits_keeps ht fun p u => (k.control l).stop u p
  case overrideSet l =>
    refine ⟨_, rfl, k.takeFor (fun r t ht => ?_) s h⟩
    dsimp only
    split
    · exact overUnits_keeps ht fun _ _ => id
    next kind clamped hv => exact overUnits_keeps ht fun p u => (k.control l).setOverride u p _ (kind, clamped) _ hv
  case overrideClear l =>
    exact ⟨_, rfl, k.takeFor (fun r t ht => overUnits_keeps ht fun p u => (k.control l).clearOverride u p) s h⟩
  case dryRunStart l =>
    refine ⟨_, rfl, k.takeFor (fun r t ht => ?_) s h⟩
    split
    · exact overUnits_keeps ht fun _ _ => id
    · exact overUnits_keeps ht fun p u => (k.control l).dryRun u p _
  case dryRunInput l =>
    refine ⟨_, rfl, k.takeFor (fun r t ht => ?_) s h⟩
    split
    · exact overUnits_keeps ht fun _ _ => id
    · exact overUnits_keeps ht fun p u => (k.control l).dryInput u p _
  case dryRunStop l =>
    exact ⟨_, rfl, k.takeFor (fun r t ht => overUnits_keeps ht fun p u => (k.control l).dryStop u p) s h⟩
  case lockoutModify l =>
    exact ⟨_, rfl, k.takeFor (fun r t ht => onUnit_keeps ht fun z => (k.control l).lockout t z _ _ ht) s h⟩
  case burnReset l =>
    exact ⟨_, rfl, k.takeFor (fun r t ht => onUnit_keeps ht fun z => (k.control l).burnReset t z _ ht) s h⟩
  case speedReport l =>
    refine ⟨_, rfl, k.takeFor (fun r t ht => ?_) s h⟩
    dsimp only
    split
    · exact overUnits_keeps ht fun _ _ => id
    · exact overUnits_keeps ht fun b u => (k.control l).report u b _ _ _
  case directionSet l =>
    refine ⟨_, rfl, k.takeFor (fun r t ht => ?_) s h⟩
    split
    · exact overUnits_keeps ht fun _ _ => id
    · exact overUnits_keeps ht fun b u => (k.control l).direction u b _
  case emergencySet l =>
    exact ⟨_, rfl, k.takeFor (fun r t ht => overUnits_keeps ht fun b u => (k.control l).emergency u b) s h⟩
  case emergencyClear l =>
    exact ⟨_, rfl, k.takeFor (fun r t ht => overUnits_keeps ht fun b u => (k.control l).clear u b) s h⟩
  case portalEvaluation p =>
    refine ⟨_, rfl, k.event (fun t ht => ?_) s h⟩
    split
    · exact ht
    next e he => exact k.portalEvaluation (t.reach e) p e he (k.retimed t _ _ _ _ _ _ ht)
  case boreEvaluation b =>
    exact ⟨_, rfl, k.event (fun t ht => k.boreEvaluation (t.reach _) b _ (k.retimed t _ _ _ _ _ _ ht)) s h⟩
  case gateExpiry m =>
    refine ⟨_, rfl, k.event (fun t ht => ?_) s h⟩
    split
    · exact ht
    next e he => exact k.gate (t.reach e) m e he (k.retimed t _ _ _ _ _ _ ht)
  case meterEdge x =>
    refine ⟨_, rfl, k.event (fun t ht => ?_) s h⟩
    split
    next d hfn hd =>
      split
      · exact ht
      · exact k.edge t x d hfn hd ht
    · exact ht
  case feedbackChange i =>
    refine ⟨_, rfl, k.event (fun t ht => ?_) s h⟩
    split
    · exact k.sample _ _ _ (k.retimed t _ t.clock t.burnDue t.sampleDue t.periodDue _ ht)
    · exact ht
  case settleExpiry z i =>
    refine ⟨_, rfl, k.event (fun t ht => ?_) s h⟩
    split
    · exact ht
    next e he => exact k.settle (t.reach e) z i e he (k.retimed t _ _ _ _ _ _ ht)
  case lossExpiry z i =>
    refine ⟨_, rfl, k.event (fun t ht => ?_) s h⟩
    split
    · exact ht
    next e he => exact k.loss (t.reach e) z i e he (k.retimed t _ _ _ _ _ _ ht)
  case burnTick =>
    exact ⟨_, rfl, k.event (fun t ht => k.retimed _ _ t.clock _ t.sampleDue t.periodDue t.pins (k.burn t ht)) s h⟩
  case overrideExpiry p =>
    refine ⟨_, rfl, k.event (fun t ht => ?_) s h⟩
    split
    · exact ht
    next v hv =>
      split
      · exact ht
      next e he => exact k.override (t.reach e) p v hv (k.retimed t _ _ _ _ _ _ ht)
  case staleExpiry b =>
    refine ⟨_, rfl, k.event (fun t ht => ?_) s h⟩
    split
    · exact ht
    next e he => exact k.stale (t.reach e) b (k.retimed t _ _ _ _ _ _ ht)
  case minuteAdvance =>
    refine ⟨_, rfl, k.event (fun t ht => ?_) s h⟩
    split
    · exact ht
    next c hc => exact k.retimed t _ _ t.burnDue t.sampleDue t.periodDue t.pins ht
  case feedbackSample pins =>
    exact ⟨_, rfl, k.event (fun t ht => k.sample _ _ _ (k.retimed t _ t.clock t.burnDue _ t.periodDue pins ht)) s h⟩
  case pwmPeriodStart =>
    exact ⟨_, rfl, k.event (fun t ht => k.retimed _ _ t.clock t.burnDue t.sampleDue _ t.pins (k.period t ht)) s h⟩

/-- A property that every command keeps, and in which the waiting commands have no part, is kept by every step. -/
theorem step (hpending : ∀ s q, P s → P { s with pending := q }) (s t : State) (h : P s)
    (hst : Machine.step s = .next t) : P t := by
  have hexec : ∀ c u, P u → Machine.exec c u = .next t → P t := by
    intro c u hu hct
    obtain ⟨v, hv, hPv⟩ := k.exec c u hu
    rw [hct, Host.Outcome.next.injEq] at hv
    exact hv ▸ hPv
  unfold Machine.step at hst
  split at hst
  next c rest _ => exact hexec c _ (hpending s rest h) hst
  next =>
    split at hst
    · exact Host.Outcome.next.inj hst ▸ h
    · split at hst
      next c _ => exact hexec c s h hst
      next =>
        have htick : P s.tick := k.event (fun u hu => k.retimed u _ _ _ _ _ _ hu) s h
        exact Host.Outcome.next.inj hst ▸ htick

end Kept

end Sys2Proof.Machine
end

section
/-! SUPPORT. What the shared operations leave of the settings: a line's function and input state, a portal's setup and
plans, a bore's direction and stale timeout, a zone's setup. One relation, `State.Works`, one lemma for each operation. -/

namespace Sys2Proof.Machine

/-! ### Settings of a record -/

/-- The two line records agree but for their drive, output value and PWM period. -/
def Line.SameSetting (x y : Line) : Prop :=
  y = { x with drive := y.drive, output := y.output, period := y.period }

theorem Line.SameSetting.trans {x y z : Line} (h : x.SameSetting y) (k : y.SameSetting z) : x.SameSetting z := by
  unfold Line.SameSetting at *
  rw [k, h]

/-- The two portal records agree in their setup and plans (R15, R28). -/
structure Portal.SameSetup (x y : Portal) : Prop where
  meter : y.meter = x.meter
  partner : y.partner = x.partner
  factor : y.factor = x.factor
  planA : y.planA = x.planA
  planB : y.planB = x.planB

theorem Portal.SameSetup.refl (x : Portal) : x.SameSetup x := ⟨rfl, rfl, rfl, rfl, rfl⟩

theorem Portal.SameSetup.trans {x y z : Portal} (h : x.SameSetup y) (k : y.SameSetup z) : x.SameSetup z :=
  ⟨k.meter.trans h.meter, k.partner.trans h.partner, k.factor.trans h.factor, k.planA.trans h.planA,
   k.planB.trans h.planB⟩

/-- The two bore records agree in their direction mode and stale timeout (R129). -/
structure Bore.SameSetup (x y : Bore) : Prop where
  mode : y.mode = x.mode
  staleTimeout : y.staleTimeout = x.staleTimeout

theorem Bore.SameSetup.refl (x : Bore) : x.SameSetup x := ⟨rfl, rfl⟩

theorem Bore.SameSetup.trans {x y z : Bore} (h : x.SameSetup y) (k : y.SameSetup z) : x.SameSetup z :=
  ⟨k.mode.trans h.mode, k.staleTimeout.trans h.staleTimeout⟩

/-- The two zone records agree in their setup, the rotation start apart, which night entries turn (R62, R68). -/
structure Zone.SameSetup (x y : Zone) : Prop where
  order : y.order = x.order
  settle : y.settle = x.settle
  hysteresis : y.hysteresis = x.hysteresis
  minDim : y.minDim = x.minDim
  circuits : ∀ k, (y.slots.get k).map Circuit.setup = (x.slots.get k).map Circuit.setup

theorem Zone.SameSetup.refl (x : Zone) : x.SameSetup x := ⟨rfl, rfl, rfl, rfl, fun _ => rfl⟩

theorem Zone.SameSetup.trans {x y z : Zone} (h : x.SameSetup y) (k : y.SameSetup z) : x.SameSetup z :=
  ⟨k.order.trans h.order, k.settle.trans h.settle, k.hysteresis.trans h.hysteresis, k.minDim.trans h.minDim,
   fun i => (k.circuits i).trans (h.circuits i)⟩

/-- A record changed in its working fields alone keeps its setup. -/
theorem Zone.SameSetup.working (x : Zone) (r : Fin 8) (d m : Nat) (dim : Option Nat) (f : Bool) (v : Option Preview) :
    x.SameSetup { x with rotation := r, demand := d, ramped := m, dim := dim, shortfall := f, preview := v } :=
  ⟨rfl, rfl, rfl, rfl, fun _ => rfl⟩

/-! ### Commands to circuits leave their setup -/

@[simp] theorem Circuit.setup_switchOn (now : Uptime) (n : Nat) (c : Circuit) : (c.switchOn now n).setup = c.setup := by
  unfold Circuit.switchOn; split <;> rfl
@[simp] theorem Circuit.setup_switchOff (now : Uptime) (n : Nat) (c : Circuit) : (c.switchOff now n).setup = c.setup := by
  unfold Circuit.switchOff; split <;> rfl
@[simp] theorem Circuit.setup_setLevel (n : Nat) (c : Circuit) : (c.setLevel n).setup = c.setup := rfl
@[simp] theorem Circuit.setup_outOfService (st : CircuitState) (c : Circuit) : (c.outOfService st).setup = c.setup := rfl
@[simp] theorem Circuit.setup_stopped (c : Circuit) : c.stopped.setup = c.setup := by
  unfold Circuit.stopped; split <;> rfl
@[simp] theorem Circuit.setup_startLoss (now : Uptime) (n : Nat) (c : Circuit) : (c.startLoss now n).setup = c.setup := rfl
@[simp] theorem Circuit.setup_cancelLoss (c : Circuit) : c.cancelLoss.setup = c.setup := rfl
@[simp] theorem Circuit.setup_lockOut (c : Circuit) : c.lockOut.setup = c.setup := by
  unfold Circuit.lockOut; split <;> rfl
@[simp] theorem Circuit.setup_unlock (c : Circuit) : c.unlock.setup = c.setup := by
  unfold Circuit.unlock; split <;> rfl
@[simp] theorem Circuit.setup_lit (now : Uptime) (n : Nat) (c : Circuit) : (c.lit now n).setup = c.setup := by
  unfold Circuit.lit; split <;> simp
@[simp] theorem Circuit.setup_settled (b : Bool) (c : Circuit) : (c.settled b).setup = c.setup := by
  cases b <;> simp only [Circuit.settled] <;> split <;> rfl
@[simp] theorem Circuit.setup_lost (c : Circuit) : c.lost.setup = c.setup := by
  unfold Circuit.lost; split <;> rfl
@[simp] theorem Circuit.setup_burned (c : Circuit) : c.burned.setup = c.setup := rfl
@[simp] theorem Circuit.setup_feedbackChanged (now : Uptime) (n : Nat) (b : Bool) (c : Circuit) :
    (c.feedbackChanged now n b).setup = c.setup := by
  unfold Circuit.feedbackChanged
  split <;> split <;> cases b <;> simp
@[simp] theorem Circuit.setup_takeSample (s : State) (w : Fin 192 → Bool) (pins : BitVec 192) (n : Nat) (c : Circuit) :
    (c.takeSample s w pins n).setup = c.setup := by
  unfold Circuit.takeSample
  split
  · rfl
  · split <;> simp

/-! ### Operations on a zone record leave its setup -/

theorem Zone.SameSetup.slots {x : Zone} {slots : Tab 8 (Option Circuit)}
    (h : ∀ k, (slots.get k).map Circuit.setup = (x.slots.get k).map Circuit.setup) :
    x.SameSetup { x with slots := slots } :=
  ⟨rfl, rfl, rfl, rfl, h⟩

theorem Zone.sameSetup_modSlot (x : Zone) (k : Fin 8) {f : Circuit → Circuit} (hf : ∀ c, (f c).setup = c.setup) :
    x.SameSetup (x.modSlot k f) := by
  refine .slots fun j => ?_
  rw [Tab.get_put]
  split
  next h => subst h; simp [Function.comp_def, hf]
  next => rfl

theorem Zone.sameSetup_modWhere (x : Zone) (p : Circuit → Bool) {f : Circuit → Circuit}
    (hf : ∀ c, (f c).setup = c.setup) : x.SameSetup (x.modWhere p f) := by
  refine .slots fun j => ?_
  simp only [Tab.get_mapWith, Option.map_map]
  congr 1
  funext c
  simp only [Function.comp_apply]
  split <;> simp [hf]

theorem Zone.sameSetup_modSlots (x : Zone) (ks : List (Fin 8)) {f : Circuit → Circuit}
    (hf : ∀ c, (f c).setup = c.setup) : x.SameSetup (x.modSlots ks f) := by
  refine .slots fun j => ?_
  simp only [Tab.get_mapWith]
  split <;> simp [Function.comp_def, hf]

theorem Zone.sameSetup_handDim (x : Zone) (dim : Option Nat) : x.SameSetup (x.handDim dim) := by
  cases dim with
  | none => exact .working x _ _ _ _ _ _
  | some level =>
    exact (x.sameSetup_modWhere Circuit.inCd (Circuit.setup_setLevel level)).trans (.working _ _ _ _ _ _ _)

theorem Zone.sameSetup_switching (now : Uptime) (x : Zone) : x.SameSetup (x.switching now) := by
  obtain h | ⟨k, h⟩ | ⟨k, h⟩ := x.switching_cases now <;> rw [h]
  · exact .refl x
  · exact x.sameSetup_modSlot k (Circuit.setup_switchOn now _)
  · exact x.sameSetup_modSlot k (Circuit.setup_switchOff now _)

theorem Zone.sameSetup_allocate (now : Uptime) (x : Zone) : x.SameSetup (x.allocate now) :=
  (x.sameSetup_switching now).trans (Zone.sameSetup_handDim _ _)

theorem Zone.sameSetup_atCapacity (x : Zone) : x.SameSetup x.atCapacity := .working x _ _ _ _ _ _

theorem Zone.sameSetup_lightAll (now : Uptime) (x : Zone) : x.SameSetup (x.lightAll now) :=
  (x.sameSetup_modWhere _ (Circuit.setup_switchOn now _)).trans (Zone.sameSetup_handDim _ _)

theorem Zone.sameSetup_cleared (x : Zone) : x.SameSetup x.cleared :=
  (Zone.SameSetup.slots (x := x) (slots := x.cleared.slots) fun k => by
    simp [Zone.cleared, Function.comp_def]).trans (.working _ _ _ _ _ _ _)

theorem Zone.sameSetup_lockoutModify (now : Uptime) (e : Bool) (x : Zone) (sets clears : List (Fin 8)) :
    x.SameSetup (x.lockoutModify now e sets clears) := by
  have hmod : x.SameSetup ((x.modSlots sets Circuit.lockOut).modSlots clears Circuit.unlock) :=
    (x.sameSetup_modSlots sets Circuit.setup_lockOut).trans (Zone.sameSetup_modSlots _ _ Circuit.setup_unlock)
  unfold Zone.lockoutModify
  cases e with
  | false => exact hmod
  | true =>
    have hlit := hmod.trans (Zone.sameSetup_modSlots _ ((x.modSlots sets Circuit.lockOut).lockedAmong clears)
      (Circuit.setup_lit now ((x.modSlots sets Circuit.lockOut).modSlots clears Circuit.unlock).settle))
    simp only [if_true, Zone.lightFreed]
    split
    · exact hlit.trans (.working _ _ _ _ _ _ _)
    · exact hlit

/-! ### The lines of circuits (R149) -/

/-- A change of a line that each circuit of a list makes to its output line keeps settings where each does. -/
theorem sameSetting_foldl {f : Tab 192 Line → Circuit → Tab 192 Line}
    (hf : ∀ (t : Tab 192 Line) (c : Circuit) i, (t.get i).SameSetting ((f t c).get i)) (cs : List Circuit) (t : Tab 192 Line) (i : Fin 192) :
    (t.get i).SameSetting ((cs.foldl f t).get i) := by
  induction cs generalizing t with
  | nil => rfl
  | cons c cs ih => exact (hf t c i).trans (ih _)

theorem sameSetting_put {t : Tab 192 Line} {p : Prop} [Decidable p] {j : Fin 192} {x : Line}
    (h : (t.get j).SameSetting x) (i : Fin 192) : (t.get i).SameSetting ((if p then t.put j x else t).get i) := by
  split
  · rw [Tab.get_put]
    split
    next hi => exact hi ▸ h
    next => rfl
  · rfl

theorem sameSetting_followOutputs (cs : List Circuit) (t : Tab 192 Line) (i : Fin 192) :
    (t.get i).SameSetting ((followOutputs cs t).get i) :=
  sameSetting_foldl (fun _ _ i => sameSetting_put (by rfl) i) cs t i

theorem sameSetting_startOutputs (cs : List Circuit) (t : Tab 192 Line) (i : Fin 192) :
    (t.get i).SameSetting ((startOutputs cs t).get i) :=
  sameSetting_foldl (fun _ _ i => sameSetting_put (by rfl) i) cs t i

theorem sameSetting_stopOutputs (cs : List Circuit) (t : Tab 192 Line) (i : Fin 192) :
    (t.get i).SameSetting ((stopOutputs cs t).get i) :=
  sameSetting_foldl (fun _ _ i => sameSetting_put (by rfl) i) cs t i

/-! ### The relation -/

/-- The second state is the first with the working fields of lines, portals, bores and zones possibly changed, notices
raised and responses placed, and nothing else: every setting stays. -/
structure State.Works (s t : State) : Prop where
  acts : s.Acts t
  lines : ∀ i, (s.line i).SameSetting (t.line i)
  portals : ∀ p, (s.portal p).SameSetup (t.portal p)
  bores : ∀ b, (s.bore b).SameSetup (t.bore b)
  zones : ∀ z, (s.zone z).SameSetup (t.zone z)

theorem State.Works.refl (s : State) : s.Works s :=
  ⟨.refl s, fun _ => rfl, fun _ => .refl _, fun _ => .refl _, fun _ => .refl _⟩

theorem State.Works.trans {s t u : State} (h : s.Works t) (k : t.Works u) : s.Works u :=
  ⟨h.acts.trans k.acts, fun i => (h.lines i).trans (k.lines i), fun p => (h.portals p).trans (k.portals p),
   fun b => (h.bores b).trans (k.bores b), fun z => (h.zones z).trans (k.zones z)⟩

theorem State.Works.ite {c : Prop} [Decidable c] {s t u : State} (h : s.Works t) (k : s.Works u) :
    s.Works (if c then t else u) := by
  split
  · exact h
  · exact k

theorem State.Works.foldl {α : Type} {f : State → α → State} (hf : ∀ s a, State.Works s (f s a)) (as : List α) (s : State) :
    s.Works (as.foldl f s) := by
  induction as generalizing s with
  | nil => exact .refl s
  | cons a as ih => exact (hf s a).trans (ih _)

variable (s : State)

/-! ### Writing records, notices and responses -/

theorem State.works_setPortal (p : Fin 4) {x : Portal} (h : (s.portal p).SameSetup x) : s.Works (s.setPortal p x) :=
  { State.Works.refl s with
    acts := s.acts_setPortal p x
    portals := fun q => by
      rw [State.portal_setPortal]
      split
      next hq => exact hq ▸ h
      next => exact .refl _ }

theorem State.works_setBore (b : Fin 2) {x : Bore} (h : (s.bore b).SameSetup x) : s.Works (s.setBore b x) :=
  { State.Works.refl s with
    acts := s.acts_setBore b x
    bores := fun c => by
      rw [State.bore_setBore]
      split
      next hc => exact hc ▸ h
      next => exact .refl _ }

theorem State.works_setZone (z : Fin 14) {x : Zone} (h : (s.zone z).SameSetup x) : s.Works (s.setZone z x) :=
  { State.Works.refl s with
    acts := s.acts_setZone z x
    zones := fun y => by
      rw [State.zone_setZone]
      split
      next hy => exact hy ▸ h
      next => exact .refl _ }

theorem State.works_lines {ls : Tab 192 Line} (h : ∀ i, (s.lines.get i).SameSetting (ls.get i)) :
    s.Works { s with lines := ls } :=
  { State.Works.refl s with
    acts := .records s _ _ _ _
    lines := h }

theorem State.works_putZone (z : Fin 14) {x : Zone} (h : (s.zone z).SameSetup x) : s.Works (s.putZone z x) := by
  refine (s.works_setZone z h).trans (State.works_lines _ fun i => ?_)
  split
  · exact sameSetting_followOutputs _ _ i
  · rfl

theorem State.works_raise (n : Notice) : s.Works (s.raise n) :=
  { State.Works.refl s with acts := s.acts_raise n }

theorem State.works_raisePortalState (p : Fin 4) : s.Works (s.raisePortalState p) := s.works_raise _

theorem State.works_raiseTrafficState (b : Fin 2) : s.Works (s.raiseTrafficState b) := s.works_raise _

theorem State.works_place (l : Link) (r : Response) : s.Works (s.place l r) :=
  { State.Works.refl s with acts := s.acts_place l r }

theorem State.works_raiseFaultChange (z : Fin 14) (was : Zone) : s.Works (s.raiseFaultChange z was) :=
  .ite (.refl s) (s.works_raise _)

theorem State.works_answerAction (p : Fin 4) (a : PendingAction) (d : Disposition) : s.Works (s.answerAction p a d) :=
  .ite (s.works_place _ _) (.refl s)

/-! ### Zones -/

theorem State.works_testShortfall (z : Fin 14) : s.Works (s.testShortfall z) :=
  .ite (.refl s) ((s.works_setZone _ (.working _ _ _ _ _ _ _)).trans (State.works_raise _ _))

theorem State.works_allocateNormal (z : Fin 14) : s.Works (s.allocateNormal z) :=
  (s.works_putZone z (Zone.sameSetup_allocate _ _)).trans (State.works_testShortfall _ z)

theorem State.works_light (z : Fin 14) : s.Works (s.light z) :=
  (s.works_putZone z ((Zone.sameSetup_atCapacity _).trans (Zone.sameSetup_lightAll _ _))).trans
    (State.works_testShortfall _ z)

theorem State.works_supervise (z : Fin 14) : s.Works (s.supervise z) :=
  (s.works_setZone z (Zone.sameSetup_modWhere _ _ (Circuit.setup_startLoss _ _))).trans
    (State.works_lines _ fun i => sameSetting_startOutputs _ _ i)

theorem State.works_clearZone (z : Fin 14) : s.Works (s.clearZone z) := by
  have h : s.Works { s.setZone z (s.zone z).stopped with lines := stopOutputs (s.zone z).cleared.circuits s.lines } :=
    (s.works_setZone z ((Zone.sameSetup_cleared _).trans (.working _ _ _ _ _ _ _))).trans
      (State.works_lines _ fun i => sameSetting_stopOutputs _ _ i)
  exact .ite (h.trans (State.works_raise _ _)) h

theorem State.works_driveZone (z : Fin 14) (frozen : Bool) (rise fall demand : Nat) :
    s.Works (s.driveZone z frozen rise fall demand) :=
  (s.works_setZone z (.working _ _ _ _ _ _ _)).trans (State.works_allocateNormal _ z)

theorem State.works_emergencyZone (z : Fin 14) : s.Works (s.emergencyZone z) :=
  (s.works_setZone z (.working _ _ _ _ _ _ _)).trans (State.works_light _ z)

theorem State.works_previewZone (z : Fin 14) (demand : Nat) : s.Works (s.previewZone z demand) :=
  s.works_setZone z (.working _ _ _ _ _ _ _)

theorem State.works_advanceRotation (z : Fin 14) : s.Works (s.advanceRotation z) :=
  s.works_setZone z (.working _ _ _ _ _ _ _)

theorem State.works_putCircuit (z : Fin 14) (k : Fin 8) {f : Circuit → Circuit} (hf : ∀ c, (f c).setup = c.setup) :
    s.Works (s.putCircuit z k f) :=
  (s.works_putZone z (Zone.sameSetup_modSlot _ k hf)).trans (State.works_raiseFaultChange _ z _)

/-! ### Sources -/

theorem Portal.sameSetup_withSource (x : Portal) (src : Source) (acc : Option Nat) : x.SameSetup (x.withSource src acc) := by
  rw [Portal.withSource_eq]
  exact ⟨rfl, rfl, rfl, rfl, rfl⟩

theorem State.works_pullOff (p : Fin 4) : s.Works (s.pullOff p) :=
  .foldl (fun t q => (t.works_setPortal q (Portal.sameSetup_withSource _ _ _)).trans (State.works_raise _ _)) _ s

theorem State.works_setSource (p : Fin 4) (source : Source) (access : Option Nat) :
    s.Works (s.setSource p source access) := by
  have h : s.Works (s.setPortal p ((s.portal p).withSource source access)) :=
    s.works_setPortal p (Portal.sameSetup_withSource _ _ _)
  unfold State.setSource
  refine .ite (State.Works.trans ?_ (State.works_pullOff _ p)) ?_ <;>
    exact .ite h (h.trans (State.works_raise _ _))

theorem State.works_dropSource (p : Fin 4) : s.Works (s.dropSource p) := by
  have h : s.Works (s.setPortal p { s.portal p with source := none, access := none }) :=
    s.works_setPortal p (by exact ⟨rfl, rfl, rfl, rfl, rfl⟩)
  unfold State.dropSource
  refine .ite (State.Works.trans ?_ (State.works_pullOff _ p)) ?_ <;>
    exact .ite (h.trans (State.works_raise _ _)) h

/-! ### The interior condition -/

theorem State.works_setCondition (b : Fin 2) (c : Condition) : s.Works (s.setCondition b c) :=
  s.works_setBore b (by exact ⟨rfl, rfl⟩)

theorem State.works_lightInterior (b : Fin 2) : s.Works (s.lightInterior b) :=
  .ite (s.works_light _) (.refl s)

theorem State.works_workCondition (b : Fin 2) : s.Works (s.workCondition b) := by
  unfold State.workCondition
  split
  · exact .refl s
  · exact (s.works_setCondition _ _).trans (State.works_supervise _ _)
  · exact ((s.works_setCondition _ _).trans (State.works_supervise _ _)).trans (State.works_lightInterior _ _)
  · exact (s.works_setCondition _ _).trans (State.works_clearZone _ _)
  · exact .refl s
  · exact (s.works_setCondition _ _).trans (State.works_lightInterior _ _)
  · exact (s.works_setCondition _ _).trans (State.works_clearZone _ _)
  · exact s.works_setCondition _ _
  · exact .refl s

/-! ### Changes of a portal's state -/

theorem State.works_setPortalState (p : Fin 4) (st : PortalState) : s.Works (s.setPortalState p st) :=
  s.works_setPortal p (by exact ⟨rfl, rfl, rfl, rfl, rfl⟩)

theorem State.works_removeAction (p : Fin 4) : s.Works (s.removeAction p) :=
  s.works_setPortal p (by exact ⟨rfl, rfl, rfl, rfl, rfl⟩)

theorem State.works_abandonAction (p : Fin 4) : s.Works (s.abandonAction p) := by
  unfold State.abandonAction
  split
  · exact .refl s
  · exact (s.works_answerAction _ _ _).trans (State.works_removeAction _ _)

theorem State.works_dropPreviews (p : Fin 4) : s.Works (s.dropPreviews p) :=
  .foldl (fun t z => t.works_setZone z (.working _ _ _ _ _ _ _)) _ s

theorem State.works_enterOffline (p : Fin 4) : s.Works (s.enterOffline p) :=
  ((((s.works_setPortal p (by exact ⟨rfl, rfl, rfl, rfl, rfl⟩)).trans
    (State.works_dropSource _ p)).trans (.foldl State.works_clearZone _ _)).trans
    (State.works_raisePortalState _ p)).trans (State.works_workCondition _ _)

theorem State.works_enterEmergency (p : Fin 4) : s.Works (s.enterEmergency p) :=
  (((((s.works_abandonAction p).trans (State.works_setPortal _ p (by exact ⟨rfl, rfl, rfl, rfl, rfl⟩))).trans
    (State.works_dropPreviews _ p)).trans (State.works_setPortalState _ p _)).trans
    (State.works_raisePortalState _ p)).trans (.foldl State.works_light _ _)

theorem State.works_enterHeld (p : Fin 4) : s.Works (s.enterHeld p) :=
  (((s.works_setPortal p (by exact ⟨rfl, rfl, rfl, rfl, rfl⟩)).trans (.foldl State.works_supervise _ _)).trans
    (State.works_raisePortalState _ p)).trans (State.works_workCondition _ _)

/-! ### Evaluations -/

theorem State.works_holdNow (p : Fin 4) (a : PendingAction) : s.Works (s.holdNow p a) :=
  ((((s.works_setPortalState p _).trans (State.works_raisePortalState _ p)).trans (State.works_removeAction _ p)).trans
    (State.works_answerAction _ p a _)).trans (State.works_workCondition _ _)

theorem State.works_releaseNow (p : Fin 4) (a : PendingAction) : s.Works (s.releaseNow p a) :=
  .ite
    ((((s.works_removeAction p).trans (State.works_answerAction _ p a _)).trans (State.works_enterEmergency _ p)).trans
      (State.works_workCondition _ _))
    (((((s.works_setPortalState p _).trans (State.works_raisePortalState _ p)).trans
      (State.works_removeAction _ p)).trans (State.works_answerAction _ p a _)).trans (State.works_workCondition _ _))

theorem State.works_stopNow (p : Fin 4) (a : PendingAction) : s.Works (s.stopNow p a) :=
  .ite (.refl s)
    (((s.works_enterOffline p).trans (State.works_removeAction _ p)).trans (State.works_answerAction _ p a _))

theorem State.works_takeAction (p : Fin 4) : s.Works (s.takeAction p) := by
  unfold State.takeAction
  split
  · exact .refl s
  · split
    · exact s.works_holdNow p _
    · exact s.works_releaseNow p _
    · exact s.works_stopNow p _

theorem Portal.sameSetup_nightTest (plan : Plan) (a : Nat) (x : Portal) : x.SameSetup (x.nightTest plan a) := by
  unfold Portal.nightTest
  dsimp only
  split
  · exact ⟨rfl, rfl, rfl, rfl, rfl⟩
  · split <;> exact ⟨rfl, rfl, rfl, rfl, rfl⟩

theorem State.works_testNight (p : Fin 4) (plan : Plan) : s.Works (s.testNight p plan) := by
  unfold State.testNight
  refine .ite (.refl s) ?_
  split
  · exact .refl s
  next access _ =>
    have h := s.works_setPortal p (Portal.sameSetup_nightTest plan access (s.portal p))
    exact .ite (h.trans (.foldl State.works_advanceRotation _ _)) h

theorem State.works_actHeld (p : Fin 4) : s.Works (s.actHeld p) := .foldl State.works_testShortfall _ s

theorem State.works_actDryRun (p : Fin 4) : s.Works (s.actDryRun p) := by
  unfold State.actDryRun
  split
  · exact s.works_actHeld p
  · split
    · exact s.works_actHeld p
    · exact (((s.works_previewZone _ _).trans (State.works_previewZone _ _ _)).trans
        (State.works_previewZone _ _ _)).trans (State.works_actHeld _ p)

theorem State.works_act (p : Fin 4) (plan : Plan) : s.Works (s.act p plan) := by
  unfold State.act
  split
  · exact .refl s
  · exact s.works_actHeld p
  · exact s.works_actDryRun p
  · exact ((s.works_driveZone _ _ _ _ _).trans (State.works_driveZone _ _ _ _ _ _)).trans
      (State.works_driveZone _ _ _ _ _ _)
  · exact .foldl State.works_emergencyZone _ s

theorem State.works_selectPlan (p : Fin 4) : s.Works (s.selectPlan p) :=
  s.works_setPortal p (by exact ⟨rfl, rfl, rfl, rfl, rfl⟩)

theorem State.works_storeRole (p : Fin 4) : s.Works (s.storeRole p) :=
  s.works_setPortal p (by exact ⟨rfl, rfl, rfl, rfl, rfl⟩)

theorem State.works_evaluateSteps (p : Fin 4) : s.Works (s.evaluateSteps p) := by
  unfold State.evaluateSteps
  split
  · exact .refl s
  · exact ((((s.works_selectPlan p).trans (State.works_setSource _ p _ _)).trans (State.works_testNight _ p _)).trans
      (State.works_storeRole _ p)).trans (State.works_act _ p _)

theorem State.works_evaluatePortal (p : Fin 4) : s.Works (s.evaluatePortal p) :=
  .ite (s.works_takeAction p) ((s.works_takeAction p).trans (State.works_evaluateSteps _ p))

theorem Bore.sameSetup_withInterior (x : Bore) (c : InteriorCase) : x.SameSetup (x.withInterior c) := by
  cases c <;> exact ⟨rfl, rfl⟩

theorem State.works_actInterior (b : Fin 2) (c : InteriorCase) (was : Bool) : s.Works (s.actInterior b c was) := by
  have hdrive : ∀ t : State, t.Works (t.driveInterior b c) := fun t => by
    unfold State.driveInterior
    split <;> exact t.works_driveZone _ _ _ _ _
  have hturn : s.Works (s.interiorNightEntry b was) := .ite (s.works_advanceRotation _) (.refl s)
  unfold State.actInterior
  split
  · exact hturn.trans (.ite ((State.works_setZone _ _ (.working _ _ _ _ _ _ _)).trans (State.works_light _ _)) (hdrive _))
  · exact (s.works_setZone _ (.working _ _ _ _ _ _ _)).trans (State.works_testShortfall _ _)
  · exact .refl s

theorem State.works_evaluateBore (b : Fin 2) : s.Works (s.evaluateBore b) :=
  (s.works_setBore b (Bore.sameSetup_withInterior _ _)).trans (State.works_actInterior _ b _ _)

/-! ### One unit of a request -/

theorem State.works_commissionOne (p : Fin 4) : s.Works (s.commissionOne p).1 := by
  unfold State.commissionOne
  split
  · exact .refl s
  · split
    · exact s.works_enterHeld p
    · exact .refl s

theorem State.works_stopOne (p : Fin 4) : s.Works (State.stopOne p s).1 := by
  unfold State.stopOne
  split
  case h_1 | h_5 => exact .refl s
  all_goals exact (s.works_abandonAction p).trans (State.works_enterOffline _ p)

theorem State.works_overrideOne (kind : OverrideKind) (f : Bool) (n : Nat) (p : Fin 4) :
    s.Works (State.overrideOne kind f n p s).1 := by
  unfold State.overrideOne
  split
  case h_3 | h_4 => exact s.works_setPortal p (by exact ⟨rfl, rfl, rfl, rfl, rfl⟩)
  all_goals exact .refl s

theorem State.works_unoverrideOne (p : Fin 4) : s.Works (State.unoverrideOne p s).1 := by
  unfold State.unoverrideOne
  split
  case h_1 | h_2 => exact .refl s
  all_goals
    split
    · exact s.works_setPortal p (by exact ⟨rfl, rfl, rfl, rfl, rfl⟩)
    · exact .refl s

theorem State.works_dryRunOne (x : DryRunInput) (p : Fin 4) : s.Works (State.dryRunOne x p s).1 := by
  unfold State.dryRunOne
  split
  case h_5 =>
    split
    · exact .refl s
    · split
      · exact .refl s
      · exact ((s.works_setPortal p (by exact ⟨rfl, rfl, rfl, rfl, rfl⟩)).trans (State.works_raisePortalState _ p)).trans
          (State.works_workCondition _ _)
  all_goals exact .refl s

theorem State.works_dryInputOne (x : DryRunInput) (p : Fin 4) : s.Works (State.dryInputOne x p s).1 := by
  unfold State.dryInputOne
  split
  case h_4 => exact s.works_setPortal p (by exact ⟨rfl, rfl, rfl, rfl, rfl⟩)
  all_goals exact .refl s

theorem State.works_dryStopOne (p : Fin 4) : s.Works (State.dryStopOne p s).1 := by
  unfold State.dryStopOne
  split
  case h_4 =>
    exact (((s.works_setPortal p (by exact ⟨rfl, rfl, rfl, rfl, rfl⟩)).trans (State.works_dropPreviews _ p)).trans
      (State.works_raisePortalState _ p)).trans (State.works_workCondition _ _)
  all_goals exact .refl s

theorem State.works_deferOne (kind : ActionKind) (l : Link) (r : Request) (p : Fin 4) :
    s.Works (State.deferOne kind l r p s).1 := by
  unfold State.deferOne
  split
  · exact .refl s
  · exact .refl s
  · split
    · exact .refl s
    · exact s.works_setPortal p (by exact ⟨rfl, rfl, rfl, rfl, rfl⟩)

theorem State.works_lockout (z : Fin 14) (sets clears : List (Fin 8)) :
    s.Works ((s.putZone z ((s.zone z).lockoutModify s.uptime (s.underEmergency z) sets clears)).raiseFaultChange z
      (s.zone z)) :=
  (s.works_putZone z (Zone.sameSetup_lockoutModify _ _ _ _ _)).trans (State.works_raiseFaultChange _ _ _)

theorem State.works_burnReset (z : Fin 14) (ks : List (Fin 8)) :
    s.Works (s.setZone z ((s.zone z).modSlots ks fun c => { c with burn := 0 })) :=
  s.works_setZone z (Zone.sameSetup_modSlots _ _ fun _ => rfl)

theorem State.works_reportOne (cls : Fin 5) (f g : Bool) (b : Fin 2) : s.Works (State.reportOne cls f g b s).1 := by
  have h : s.Works (s.setBore b ((s.bore b).reported s.uptime cls g)) := s.works_setBore b (by exact ⟨rfl, rfl⟩)
  exact .ite (h.trans (State.works_raiseTrafficState _ b)) h

theorem State.works_reachPortal (p : Fin 4) : s.Works (s.reachPortal p) := by
  unfold State.reachPortal
  split
  case h_4 | h_5 => exact .refl s
  all_goals exact s.works_enterEmergency p

theorem State.works_emergencyOne (b : Fin 2) : s.Works (State.emergencyOne b s).1 := by
  have hint : ∀ t : State, t.Works (t.emergencyInterior b) := fun t =>
    .ite ((t.works_workCondition b).trans (State.works_light _ _)) (t.works_workCondition b)
  unfold State.emergencyOne
  split
  · exact .refl s
  · exact (((s.works_setBore b (by exact ⟨rfl, rfl⟩)).trans (.foldl State.works_reachPortal _ _)).trans (hint _)).trans
      (State.works_raiseTrafficState _ b)

theorem State.works_clearOne (b : Fin 2) : s.Works (State.clearOne b s).1 := by
  have hret : ∀ (t : State) p, t.Works (t.returnPortal p) := fun t p =>
    .ite ((t.works_setPortalState _ _).trans (State.works_raisePortalState _ p)) (.refl t)
  unfold State.clearOne
  split
  · exact (((s.works_setBore b (by exact ⟨rfl, rfl⟩)).trans (.foldl hret _ _)).trans (State.works_workCondition _ b)).trans
      (State.works_raiseTrafficState _ b)
  · exact .refl s

theorem State.works_endOverride (p : Fin 4) (v : Override) : s.Works (s.endOverride p v) :=
  (s.works_setPortal p (by exact ⟨rfl, rfl, rfl, rfl, rfl⟩)).trans (State.works_raise _ _)

theorem State.works_goneStale (b : Fin 2) : s.Works ((s.setBore b (s.bore b).goneStale).raiseTrafficState b) :=
  (s.works_setBore b (by exact ⟨rfl, rfl⟩)).trans (State.works_raiseTrafficState _ b)

theorem State.works_burn :
    s.Works { s with zones := s.zones.mapWith fun z x => x.modWhere (s.commandActive z) Circuit.burned } :=
  { State.Works.refl s with
    acts := .records s _ _ _ _
    zones := fun z => by
      change (s.zone z).SameSetup (Tab.get _ z)
      rw [Tab.get_mapWith]
      exact Zone.sameSetup_modWhere _ _ Circuit.setup_burned }

theorem State.works_period : s.Works { s with lines := s.lines.mapWith fun _ x => x.periodStart } :=
  s.works_lines fun i => by
    rw [Tab.get_mapWith]
    unfold Line.periodStart
    split <;> rfl

end Sys2Proof.Machine
end

section
/-! SUPPORT. The links: request queues in order (R166), notices by kind and subject (R174, R175), and the order of every
link record through every step (R165, R172). -/

namespace Sys2Proof.Machine

/-! ### The request queue (R166) -/

/-- Urgent requests stand first exactly where none stands behind one that is not. -/
theorem urgentFirst_iff {q : List Request} :
    urgentFirst q = true ↔ q.Pairwise fun a b => b.urgent = true → a.urgent = true := by
  induction q with
  | nil => simp [urgentFirst]
  | cons r q ih =>
    cases hr : r.urgent with
    | true =>
      have hsame : urgentFirst (r :: q) = urgentFirst q := by simp [urgentFirst, hr]
      simp [hsame, ih, hr]
    | false =>
      have hpair : (∀ x ∈ q, x.urgent = false) → q.Pairwise fun a b => b.urgent = true → a.urgent = true :=
        fun h => List.pairwise_of_forall_mem_list fun a _ b hb hu => by simp [h b hb] at hu
      simp only [List.pairwise_cons, hr, Bool.false_eq_true, imp_false, Bool.not_eq_true, urgentFirst,
        List.dropWhile_cons_of_neg, not_false_eq_true, List.all_cons, Bool.not_false, Bool.true_and,
        List.all_eq_true, Bool.not_eq_true']
      exact ⟨fun h => ⟨h, hpair h⟩, fun h => h.1⟩

theorem joinQueue_full {q : List Request} (h : 8 ≤ q.length) (r : Request) : joinQueue q r = q :=
  if_pos h

theorem joinQueue_tail {q : List Request} (h : q.length < 8) {r : Request} (hr : r.urgent = false) :
    joinQueue q r = q ++ [r] := by
  simp [joinQueue, Nat.not_le.mpr h, hr]

theorem joinQueue_urgent {q : List Request} (h : q.length < 8) {r : Request} (hr : r.urgent = true) :
    joinQueue q r = q.takeWhile Request.urgent ++ r :: q.dropWhile Request.urgent := by
  simp [joinQueue, Nat.not_le.mpr h, hr]

theorem length_joinQueue_le {q : List Request} (h : q.length ≤ 8) (r : Request) : (joinQueue q r).length ≤ 8 := by
  have hsplit : (q.takeWhile Request.urgent).length + (q.dropWhile Request.urgent).length = q.length := by
    rw [← List.length_append, List.takeWhile_append_dropWhile]
  unfold joinQueue
  split
  · exact h
  · split
    · rw [List.length_append, List.length_cons]; omega
    · rw [List.length_append, List.length_singleton]; omega

theorem urgentFirst_joinQueue {q : List Request} (h : urgentFirst q = true) (r : Request) :
    urgentFirst (joinQueue q r) = true := by
  have hq := urgentFirst_iff.mp h
  by_cases hfull : 8 ≤ q.length
  · rwa [joinQueue_full hfull]
  · rw [urgentFirst_iff]
    cases hr : r.urgent with
    | false =>
      rw [joinQueue_tail (Nat.not_le.mp hfull) hr]
      exact List.pairwise_append.mpr ⟨hq, by simp, fun a _ b hb hu => by simp_all⟩
    | true =>
      have hlast : ∀ x ∈ q.dropWhile Request.urgent, x.urgent = false := by
        simpa [urgentFirst] using h
      have hfirst : ∀ x ∈ q.takeWhile Request.urgent, x.urgent = true := fun x hx => List.mem_takeWhile_imp hx
      rw [joinQueue_urgent (Nat.not_le.mp hfull) hr, List.pairwise_append, List.pairwise_cons]
      exact ⟨hq.sublist (List.takeWhile_sublist _), ⟨fun _ _ _ => hr, hq.sublist (List.dropWhile_sublist _)⟩,
        fun a ha _ _ _ => hfirst a ha⟩

theorem takeWhile_urgent_append {a b : List Request} (ha : ∀ x ∈ a, x.urgent = true) (hb : ∀ x ∈ b, x.urgent = false) :
    (a ++ b).takeWhile Request.urgent = a ∧ (a ++ b).dropWhile Request.urgent = b := by
  have hhead : b.takeWhile Request.urgent = [] ∧ b.dropWhile Request.urgent = b := by
    cases b with
    | nil => simp
    | cons x b => simp [hb x (by simp)]
  rw [List.takeWhile_append_of_pos ha, List.dropWhile_append_of_pos ha, hhead.1, hhead.2]
  simp

/-- Settles O9. -/
theorem theRequestQueueKeepsItsOrder : Obligations.TheRequestQueueKeepsItsOrder := by
  refine fun q r => ⟨fun h => joinQueue_full h r, fun hlen hr => joinQueue_tail hlen hr, fun hlen hr a b hq ha hb => ?_,
    fun h => length_joinQueue_le h r, fun h => urgentFirst_joinQueue h r⟩
  obtain ⟨htake, hdrop⟩ := takeWhile_urgent_append ha hb
  rw [joinQueue_urgent hlen hr, hq, htake, hdrop]

/-! ### Notices by kind and subject (R175) -/

theorem Notice.sameKey_iff {m n : Notice} : m.sameKey n = true ↔ m.kind = n.kind ∧ m.subject = n.subject := by
  simp [Notice.sameKey]

theorem Notice.sameKey_comm (m n : Notice) : m.sameKey n = n.sameKey m := by
  rw [Bool.eq_iff_iff, Notice.sameKey_iff, Notice.sameKey_iff, eq_comm, eq_comm (a := m.subject)]

theorem Notice.sameKey_congr {m n : Notice} (h : m.sameKey n = true) (x : Notice) : m.sameKey x = n.sameKey x := by
  obtain ⟨hkind, hsubject⟩ := Notice.sameKey_iff.mp h
  simp only [Notice.sameKey, hkind, hsubject]

theorem distinctKeys_iff {q : List Notice} : distinctKeys q = true ↔ q.Pairwise fun m n => m.sameKey n = false := by
  induction q with
  | nil => simp [distinctKeys]
  | cons n q ih => simp [distinctKeys, ih]

theorem placeNotice_append {n : Notice} {q : List Notice} (h : ∀ m ∈ q, n.sameKey m = false) :
    placeNotice n q = q ++ [n] := by
  have hnone : q.any (Notice.sameKey n) = false := by simpa using h
  simp [placeNotice, hnone]

/-- In a queue with one entry for each kind and subject, the entry of the notice's own gives way to it. -/
theorem placeNotice_replace {n m : Notice} {a b : List Notice} (hm : n.sameKey m = true)
    (hd : distinctKeys (a ++ m :: b) = true) : placeNotice n (a ++ m :: b) = a ++ n :: b := by
  obtain ⟨-, hmb, hab⟩ := List.pairwise_append.mp (distinctKeys_iff.mp hd)
  obtain ⟨hb, -⟩ := List.pairwise_cons.mp hmb
  have hother : ∀ x, m.sameKey x = false → (if n.sameKey x = true then n else x) = x := fun x hx => by
    rw [Notice.sameKey_congr hm, hx]; rfl
  have ha : a.map (fun x => if n.sameKey x = true then n else x) = a := by
    refine (List.map_congr_left fun x hx => hother x ?_).trans (List.map_id a)
    rw [Notice.sameKey_comm]
    exact hab x hx m (by simp)
  have hb' : b.map (fun x => if n.sameKey x = true then n else x) = b :=
    (List.map_congr_left fun x hx => hother x (hb x hx)).trans (List.map_id b)
  simp [placeNotice, hm, ha, hb']

theorem distinctKeys_placeNotice {q : List Notice} (h : distinctKeys q = true) (n : Notice) :
    distinctKeys (placeNotice n q) = true := by
  have hq := distinctKeys_iff.mp h
  rw [distinctKeys_iff]
  by_cases hany : q.any (Notice.sameKey n) = true
  · obtain ⟨m, hm, hnm⟩ := List.any_eq_true.mp hany
    obtain ⟨a, b, rfl⟩ := List.append_of_mem hm
    rw [placeNotice_replace hnm h]
    obtain ⟨ha, hmb, hab⟩ := List.pairwise_append.mp hq
    obtain ⟨hb, hbb⟩ := List.pairwise_cons.mp hmb
    refine List.pairwise_append.mpr ⟨ha, List.pairwise_cons.mpr ⟨fun x hx => ?_, hbb⟩, fun x hx y hy => ?_⟩
    · rw [Notice.sameKey_congr hnm]
      exact hb x hx
    · obtain rfl | hy := List.mem_cons.mp hy
      · rw [Notice.sameKey_comm, Notice.sameKey_congr hnm, Notice.sameKey_comm]
        exact hab x hx m (by simp)
      · exact hab x hx y (by simp [hy])
  · have hnone : ∀ m ∈ q, n.sameKey m = false := by simpa using hany
    rw [placeNotice_append hnone]
    refine List.pairwise_append.mpr ⟨hq, by simp, fun x hx y hy => ?_⟩
    rw [List.mem_singleton.mp hy, Notice.sameKey_comm]
    exact hnone x hx

theorem mem_placeNotice {n x : Notice} {q : List Notice} (h : x ∈ placeNotice n q) : x = n ∨ x ∈ q := by
  unfold placeNotice at h
  split at h
  · obtain ⟨m, hm, rfl⟩ := List.mem_map.mp h
    split
    · exact .inl rfl
    · exact .inr hm
  · simpa [or_comm] using h

/-- A notice placed stands in the queue. -/
theorem mem_placeNotice_self (n : Notice) (q : List Notice) : n ∈ placeNotice n q := by
  unfold placeNotice
  split
  next h =>
    obtain ⟨m, hm, hnm⟩ := List.any_eq_true.mp h
    exact List.mem_map.mpr ⟨m, hm, by simp [hnm]⟩
  next => simp

/-- Settles O12. -/
theorem noticesCoalesce : Obligations.NoticesCoalesce := by
  intro s n k
  rw [State.link_raise]
  refine ⟨fun hmask => ?_, fun hmask hnone => ?_, fun hmask a m b hq hm hd => ?_, fun hd => ?_⟩
  · simp [LinkRec.deliver, hmask]
  · simp [LinkRec.deliver, hmask, placeNotice_append hnone]
  · rw [hq] at hd
    simp [LinkRec.deliver, hmask, hq, placeNotice_replace hm hd]
  · unfold LinkRec.deliver
    dsimp only
    split
    · exact distinctKeys_placeNotice hd n
    · exact hd

/-! ### A link record in order -/

/-- The queues of a link record in order: bounds, urgent requests first, one notice for each kind and subject, of kinds
the mask includes. -/
structure LinkRec.Queued (x : LinkRec) : Prop where
  requests : x.requests.length ≤ 8
  urgent : urgentFirst x.requests = true
  responses : x.responses.length ≤ 8
  distinct : distinctKeys x.notices = true
  kinds : ∀ n ∈ x.notices, n.kind = .coldStart ∨ n.kind ∈ x.mask

theorem LinkRec.ordered_iff {x : LinkRec} :
    x.ordered = true ↔ x.Queued ∧ (x.framer = .brk ↔ x.transmitter = .silent) := by
  have hbrk : ((x.framer == .brk) == (x.transmitter == .silent)) = true
      ↔ (x.framer = .brk ↔ x.transmitter = .silent) := by
    rw [beq_iff_eq, Bool.eq_iff_iff, beq_iff_eq, beq_iff_eq]
  unfold LinkRec.ordered
  rw [Bool.and_eq_true, hbrk]
  simp only [Bool.and_eq_true, decide_eq_true_eq, List.all_eq_true, Bool.or_eq_true, beq_iff_eq,
    List.contains_iff_mem]
  constructor
  · rintro ⟨⟨⟨⟨⟨h1, h2⟩, h3⟩, h4⟩, h5⟩, h6⟩
    exact ⟨⟨h1, h2, h3, h4, h5⟩, h6⟩
  · rintro ⟨⟨h1, h2, h3, h4, h5⟩, h6⟩
    exact ⟨⟨⟨⟨⟨h1, h2⟩, h3⟩, h4⟩, h5⟩, h6⟩

/-- Every way the transmitter's choice can go (R173). -/
theorem LinkRec.beginNext_cases (now : Uptime) (x : LinkRec) :
    (∃ r rest, x.responses = r :: rest ∧ x.beginNext now = { x with
        responses := rest
        transmitter := .sending (.response r) (msAfter now (sendMs (TxFrame.response r).octets.length)) })
    ∨ (∃ n rest, x.responses = [] ∧ x.notices = n :: rest ∧ x.beginNext now = { x with
        notices := rest
        transmitter := .sending (.notice n) (msAfter now (sendMs (TxFrame.notice n).octets.length)) })
    ∨ x.responses = [] ∧ x.notices = [] ∧ x.beginNext now = { x with transmitter := .idle } := by
  unfold LinkRec.beginNext
  cases hr : x.responses with
  | cons r rest => exact .inl ⟨r, rest, rfl, rfl⟩
  | nil =>
    cases hn : x.notices with
    | cons n rest => exact .inr (.inl ⟨n, rest, rfl, rfl, rfl⟩)
    | nil => exact .inr (.inr ⟨rfl, rfl, rfl⟩)

theorem LinkRec.beginNext_ordered {x : LinkRec} (h : x.Queued) (hf : x.framer ≠ .brk) (now : Uptime) :
    (x.beginNext now).ordered = true := by
  obtain ⟨hreq, hurg, hres, hdist, hkinds⟩ := h
  rw [LinkRec.ordered_iff]
  obtain ⟨r, rest, hr, heq⟩ | ⟨n, rest, -, hn, heq⟩ | ⟨-, -, heq⟩ := x.beginNext_cases now <;> rw [heq]
  · rw [hr, List.length_cons] at hres
    exact ⟨⟨hreq, hurg, Nat.le_of_succ_le hres, hdist, hkinds⟩, by simp [hf]⟩
  · rw [hn, distinctKeys_iff, List.pairwise_cons] at hdist
    rw [hn, List.forall_mem_cons] at hkinds
    exact ⟨⟨hreq, hurg, hres, distinctKeys_iff.mpr hdist.2, hkinds.2⟩, by simp [hf]⟩
  · exact ⟨⟨hreq, hurg, hres, hdist, hkinds⟩, by simp [hf]⟩

theorem LinkRec.arbitrate_ordered {x : LinkRec} (h : x.ordered = true) (now : Uptime) :
    (x.arbitrate now).ordered = true := by
  have ⟨hq, hbrk⟩ := LinkRec.ordered_iff.mp h
  unfold LinkRec.arbitrate
  split
  next ht => exact LinkRec.beginNext_ordered hq (fun hf => by simp [hbrk.mp hf] at ht) now
  all_goals exact h

theorem LinkRec.deliver_ordered {x : LinkRec} (h : x.ordered = true) (n : Notice) : (x.deliver n).ordered = true := by
  rw [LinkRec.ordered_iff] at h ⊢
  obtain ⟨⟨hreq, hurg, hres, hdist, hkinds⟩, hbrk⟩ := h
  unfold LinkRec.deliver
  refine ⟨⟨hreq, hurg, hres, ?_, fun m hm => ?_⟩, hbrk⟩
  · dsimp only
    split
    · exact distinctKeys_placeNotice hdist n
    · exact hdist
  · dsimp only at hm ⊢
    split at hm
    next hmask =>
      obtain rfl | hm := mem_placeNotice hm
      · exact .inr hmask
      · exact hkinds m hm
    next => exact hkinds m hm

theorem LinkRec.place_ordered {x : LinkRec} (h : x.ordered = true) (r : Response) : (x.place r).ordered = true := by
  rw [LinkRec.ordered_iff] at h ⊢
  obtain ⟨⟨hreq, hurg, hres, hdist, hkinds⟩, hbrk⟩ := h
  refine ⟨⟨hreq, hurg, ?_, hdist, hkinds⟩, hbrk⟩
  unfold LinkRec.place
  dsimp only
  split
  · rw [List.length_append, List.length_singleton]; omega
  · exact hres

/-- What an octet received leaves of a link record: a framer in BREAK exactly where it was, and a request joined to the
queue at most (R162, R164). -/
theorem LinkRec.rxOctet_cases (now : Uptime) (x : LinkRec) (o : Octet) (e : Bool) :
    ∃ f q, x.rxOctet now o e = { x with framer := f, requests := q } ∧ (f = .brk ↔ x.framer = .brk)
      ∧ (q = x.requests ∨ ∃ r, q = joinQueue x.requests r) := by
  unfold LinkRec.rxOctet
  split
  next hf =>
    split
    · exact ⟨_, _, rfl, by simp [hf], .inl rfl⟩
    · exact ⟨x.framer, x.requests, rfl, by simp [hf], .inl rfl⟩
  next os gap hf =>
    split
    · exact ⟨_, _, rfl, by simp [hf], .inl rfl⟩
    · unfold LinkRec.collectOctet
      split
      · split <;> exact ⟨_, _, rfl, by simp [hf], .inl rfl⟩
      · split
        · unfold LinkRec.frameComplete
          split
          · exact ⟨_, _, rfl, by simp [hf], .inl rfl⟩
          · exact ⟨_, _, rfl, by simp [hf], .inr ⟨_, rfl⟩⟩
        · exact ⟨_, _, rfl, by simp [hf], .inl rfl⟩
  next hf => exact ⟨x.framer, x.requests, rfl, by simp [hf], .inl rfl⟩

theorem LinkRec.rxOctet_ordered {x : LinkRec} (h : x.ordered = true) (now : Uptime) (o : Octet) (e : Bool) :
    (x.rxOctet now o e).ordered = true := by
  obtain ⟨f, q, heq, hf, hq⟩ := x.rxOctet_cases now o e
  rw [LinkRec.ordered_iff] at h ⊢
  obtain ⟨⟨hreq, hurg, hres, hdist, hkinds⟩, hbrk⟩ := h
  rw [heq]
  obtain rfl | ⟨r, rfl⟩ := hq
  · exact ⟨⟨hreq, hurg, hres, hdist, hkinds⟩, hf.trans hbrk⟩
  · exact ⟨⟨length_joinQueue_le hreq r, urgentFirst_joinQueue hurg r, hres, hdist, hkinds⟩, hf.trans hbrk⟩

theorem LinkRec.restarted_ordered {x : LinkRec} (h : x.ordered = true) : x.restarted.ordered = true := by
  rw [LinkRec.ordered_iff] at h ⊢
  obtain ⟨⟨-, -, -, hdist, hkinds⟩, -⟩ := h
  have hnotices : distinctKeys x.restarted.notices = true
      ∧ ∀ n ∈ x.restarted.notices, n.kind = .coldStart ∨ n.kind ∈ x.mask := by
    change distinctKeys (requeueCut _ _ _) = true ∧ ∀ n ∈ requeueCut _ _ _, _
    unfold requeueCut
    split
    case h_4 n _ _ =>
      split
      · exact ⟨hdist, hkinds⟩
      next hnone =>
        split
        next hmask =>
          rw [distinctKeys_iff, List.pairwise_cons, ← distinctKeys_iff, List.forall_mem_cons]
          exact ⟨⟨by simpa using hnone, hdist⟩, hmask, hkinds⟩
        · exact ⟨hdist, hkinds⟩
    all_goals exact ⟨hdist, hkinds⟩
  exact ⟨⟨by simp [LinkRec.restarted], rfl, by simp [LinkRec.restarted], hnotices.1, hnotices.2⟩,
    by simp [LinkRec.restarted]⟩

theorem LinkRec.withMask_ordered {x : LinkRec} (h : x.ordered = true) (mask : List NoticeKind) :
    (x.withMask mask).ordered = true := by
  rw [LinkRec.ordered_iff] at h ⊢
  obtain ⟨⟨hreq, hurg, hres, hdist, -⟩, hbrk⟩ := h
  refine ⟨⟨hreq, hurg, hres, ?_, fun n hn => ?_⟩, hbrk⟩
  · exact distinctKeys_iff.mpr ((distinctKeys_iff.mp hdist).sublist List.filter_sublist)
  · obtain ⟨-, hkind⟩ := List.mem_filter.mp hn
    simpa [LinkRec.withMask] using hkind

theorem LinkRec.popped_ordered {x : LinkRec} (h : x.ordered = true) :
    LinkRec.ordered { x with requests := x.requests.tail } = true := by
  rw [LinkRec.ordered_iff] at h ⊢
  obtain ⟨⟨hreq, hurg, hres, hdist, hkinds⟩, hbrk⟩ := h
  exact ⟨⟨by simp; omega, urgentFirst_iff.mpr ((urgentFirst_iff.mp hurg).sublist (List.tail_sublist _)), hres, hdist,
    hkinds⟩, hbrk⟩

theorem LinkRec.cold_ordered (mask : List NoticeKind) : (LinkRec.cold mask).ordered = true := by
  rw [LinkRec.ordered_iff]
  exact ⟨⟨by simp [LinkRec.cold], rfl, by simp [LinkRec.cold], rfl, by simp [LinkRec.cold, Notice.kind]⟩, by simp [LinkRec.cold]⟩

end Sys2Proof.Machine
end

section
/-! SUPPORT. Which operations raise notices and place no response, and what the others place for what they remove: the
responses and owed answers of a link (R109, R125, R172). -/

namespace Sys2Proof.Machine

/-! ### Operations that change no link but in its notices -/

theorem State.onlyNotices.refl (s : State) : s.onlyNotices s := fun _ => rfl

theorem State.onlyNotices.trans {s t u : State} (h : s.onlyNotices t) (k : t.onlyNotices u) : s.onlyNotices u := by
  intro l
  rw [k l, h l]

theorem State.onlyNotices.of_links {s t : State} (h : t.links = s.links) : s.onlyNotices t := by
  intro l
  have hl : t.link l = s.link l := by rw [State.link, h]; rfl
  rw [hl]

theorem State.onlyNotices.ite {c : Prop} [Decidable c] {s t u : State} (h : s.onlyNotices t) (k : s.onlyNotices u) :
    s.onlyNotices (if c then t else u) := by
  split
  · exact h
  · exact k

theorem State.onlyNotices.foldl {α : Type} {f : State → α → State} (hf : ∀ (s : State) a, s.onlyNotices (f s a))
    (as : List α) (s : State) : s.onlyNotices (as.foldl f s) := by
  induction as generalizing s with
  | nil => exact .refl s
  | cons a as ih => exact (hf s a).trans (ih _)

theorem State.onlyNotices.responses {s t : State} (h : s.onlyNotices t) (l : Link) :
    (t.link l).responses = (s.link l).responses := by
  rw [h l]

variable (s : State)

theorem State.notices_raise (n : Notice) : s.onlyNotices (s.raise n) := by
  intro l
  rw [State.link_raise]
  rfl

theorem State.notices_raisePortalState (p : Fin 4) : s.onlyNotices (s.raisePortalState p) := s.notices_raise _

theorem State.notices_raiseTrafficState (b : Fin 2) : s.onlyNotices (s.raiseTrafficState b) := s.notices_raise _

theorem State.notices_setPortal (p : Fin 4) (x : Portal) : s.onlyNotices (s.setPortal p x) := .of_links rfl

theorem State.notices_setBore (b : Fin 2) (x : Bore) : s.onlyNotices (s.setBore b x) := .of_links rfl

theorem State.notices_setZone (z : Fin 14) (x : Zone) : s.onlyNotices (s.setZone z x) := .of_links rfl

theorem State.notices_putZone (z : Fin 14) (x : Zone) : s.onlyNotices (s.putZone z x) := .of_links rfl

theorem State.notices_raiseFaultChange (z : Fin 14) (x : Zone) : s.onlyNotices (s.raiseFaultChange z x) :=
  .ite (.refl s) (s.notices_raise _)

theorem State.notices_testShortfall (z : Fin 14) : s.onlyNotices (s.testShortfall z) :=
  .ite (.refl s) ((s.notices_setZone _ _).trans (State.notices_raise _ _))

theorem State.notices_allocateNormal (z : Fin 14) : s.onlyNotices (s.allocateNormal z) :=
  (s.notices_putZone _ _).trans (State.notices_testShortfall _ z)

theorem State.notices_light (z : Fin 14) : s.onlyNotices (s.light z) :=
  (s.notices_putZone _ _).trans (State.notices_testShortfall _ z)

theorem State.notices_supervise (z : Fin 14) : s.onlyNotices (s.supervise z) := .of_links rfl

theorem State.notices_clearZone (z : Fin 14) : s.onlyNotices (s.clearZone z) :=
  .ite (State.onlyNotices.trans (t := { s.setZone z _ with lines := _ }) (.of_links rfl) (State.notices_raise _ _))
    (.of_links rfl)

theorem State.notices_driveZone (z : Fin 14) (f : Bool) (r l d : Nat) : s.onlyNotices (s.driveZone z f r l d) :=
  (s.notices_setZone z _).trans (State.notices_allocateNormal _ z)

theorem State.notices_emergencyZone (z : Fin 14) : s.onlyNotices (s.emergencyZone z) :=
  (s.notices_setZone z _).trans (State.notices_light _ z)

theorem State.notices_putCircuit (z : Fin 14) (k : Fin 8) (f : Circuit → Circuit) : s.onlyNotices (s.putCircuit z k f) :=
  (s.notices_putZone z _).trans (State.notices_raiseFaultChange _ z _)

theorem State.notices_pullOff (p : Fin 4) : s.onlyNotices (s.pullOff p) :=
  .foldl (fun t q => (t.notices_setPortal q _).trans (State.notices_raise _ _)) _ s

theorem State.notices_setSource (p : Fin 4) (source : Source) (access : Option Nat) :
    s.onlyNotices (s.setSource p source access) := by
  have h : s.onlyNotices (s.setPortal p ((s.portal p).withSource source access)) := s.notices_setPortal _ _
  unfold State.setSource
  refine .ite (State.onlyNotices.trans ?_ (State.notices_pullOff _ p)) ?_ <;>
    exact .ite h (h.trans (State.notices_raise _ _))

theorem State.notices_dropSource (p : Fin 4) : s.onlyNotices (s.dropSource p) := by
  have h : s.onlyNotices (s.setPortal p { s.portal p with source := none, access := none }) := s.notices_setPortal _ _
  unfold State.dropSource
  refine .ite (State.onlyNotices.trans ?_ (State.notices_pullOff _ p)) ?_ <;>
    exact .ite (h.trans (State.notices_raise _ _)) h

theorem State.notices_setCondition (b : Fin 2) (c : Condition) : s.onlyNotices (s.setCondition b c) := .of_links rfl

theorem State.notices_lightInterior (b : Fin 2) : s.onlyNotices (s.lightInterior b) :=
  .ite (s.notices_light _) (.refl s)

theorem State.notices_workCondition (b : Fin 2) : s.onlyNotices (s.workCondition b) := by
  unfold State.workCondition
  split
  · exact .refl s
  · exact (s.notices_setCondition _ _).trans (State.notices_supervise _ _)
  · exact ((s.notices_setCondition _ _).trans (State.notices_supervise _ _)).trans (State.notices_lightInterior _ _)
  · exact (s.notices_setCondition _ _).trans (State.notices_clearZone _ _)
  · exact .refl s
  · exact (s.notices_setCondition _ _).trans (State.notices_lightInterior _ _)
  · exact (s.notices_setCondition _ _).trans (State.notices_clearZone _ _)
  · exact s.notices_setCondition _ _
  · exact .refl s

theorem State.notices_setPortalState (p : Fin 4) (st : PortalState) : s.onlyNotices (s.setPortalState p st) := .of_links rfl

theorem State.notices_removeAction (p : Fin 4) : s.onlyNotices (s.removeAction p) := .of_links rfl

theorem State.notices_dropPreviews (p : Fin 4) : s.onlyNotices (s.dropPreviews p) :=
  .foldl (fun t z => t.notices_setZone z _) _ s

theorem State.notices_enterOffline (p : Fin 4) : s.onlyNotices (s.enterOffline p) :=
  ((((s.notices_setPortal p _).trans (State.notices_dropSource _ p)).trans (.foldl State.notices_clearZone _ _)).trans
    (State.notices_raisePortalState _ p)).trans (State.notices_workCondition _ _)

theorem State.notices_enterHeld (p : Fin 4) : s.onlyNotices (s.enterHeld p) :=
  (((s.notices_setPortal p _).trans (.foldl State.notices_supervise _ _)).trans (State.notices_raisePortalState _ p)).trans
    (State.notices_workCondition _ _)

theorem State.notices_testNight (p : Fin 4) (plan : Plan) : s.onlyNotices (s.testNight p plan) := by
  unfold State.testNight
  refine .ite (.refl s) ?_
  split
  · exact .refl s
  · exact .ite ((s.notices_setPortal p _).trans (.foldl (fun t z => t.notices_setZone z _) _ _))
      (s.notices_setPortal p _)

theorem State.notices_actHeld (p : Fin 4) : s.onlyNotices (s.actHeld p) := .foldl State.notices_testShortfall _ s

theorem State.notices_previewZone (z : Fin 14) (d : Nat) : s.onlyNotices (s.previewZone z d) := .of_links rfl

theorem State.notices_actDryRun (p : Fin 4) : s.onlyNotices (s.actDryRun p) := by
  unfold State.actDryRun
  split
  · exact s.notices_actHeld p
  · split
    · exact s.notices_actHeld p
    · exact (((s.notices_previewZone _ _).trans (State.notices_previewZone _ _ _)).trans
        (State.notices_previewZone _ _ _)).trans (State.notices_actHeld _ p)

theorem State.notices_act (p : Fin 4) (plan : Plan) : s.onlyNotices (s.act p plan) := by
  unfold State.act
  split
  · exact .refl s
  · exact s.notices_actHeld p
  · exact s.notices_actDryRun p
  · exact ((s.notices_driveZone _ _ _ _ _).trans (State.notices_driveZone _ _ _ _ _ _)).trans
      (State.notices_driveZone _ _ _ _ _ _)
  · exact .foldl State.notices_emergencyZone _ s

theorem State.notices_evaluateSteps (p : Fin 4) : s.onlyNotices (s.evaluateSteps p) := by
  unfold State.evaluateSteps
  split
  · exact .refl s
  · exact ((((s.notices_setPortal p _).trans (State.notices_setSource _ p _ _)).trans (State.notices_testNight _ p _)).trans
      (State.notices_setPortal _ p _)).trans (State.notices_act _ p _)

theorem State.notices_actInterior (b : Fin 2) (c : InteriorCase) (was : Bool) : s.onlyNotices (s.actInterior b c was) := by
  have hdrive : ∀ t : State, t.onlyNotices (t.driveInterior b c) := fun t => by
    unfold State.driveInterior
    split <;> exact t.notices_driveZone _ _ _ _ _
  have hturn : s.onlyNotices (s.interiorNightEntry b was) := .ite (s.notices_setZone _ _) (.refl s)
  unfold State.actInterior
  split
  · exact hturn.trans (.ite ((State.notices_setZone _ _ _).trans (State.notices_light _ _)) (hdrive _))
  · exact (s.notices_setZone _ _).trans (State.notices_testShortfall _ _)
  · exact .refl s

theorem State.notices_evaluateBore (b : Fin 2) : s.onlyNotices (s.evaluateBore b) :=
  (s.notices_setBore b _).trans (State.notices_actInterior _ b _ _)

theorem State.notices_commissionOne (p : Fin 4) : s.onlyNotices (s.commissionOne p).1 := by
  unfold State.commissionOne
  split
  · exact .refl s
  · split
    · exact s.notices_enterHeld p
    · exact .refl s

theorem State.notices_dryRunOne (x : DryRunInput) (p : Fin 4) : s.onlyNotices (State.dryRunOne x p s).1 := by
  unfold State.dryRunOne
  split
  case h_5 =>
    split
    · exact .refl s
    · split
      · exact .refl s
      · exact ((s.notices_setPortal p _).trans (State.notices_raisePortalState _ p)).trans
          (State.notices_workCondition _ _)
  all_goals exact .refl s

theorem State.notices_dryStopOne (p : Fin 4) : s.onlyNotices (State.dryStopOne p s).1 := by
  unfold State.dryStopOne
  split
  case h_4 =>
    exact (((s.notices_setPortal p _).trans (State.notices_dropPreviews _ p)).trans
      (State.notices_raisePortalState _ p)).trans (State.notices_workCondition _ _)
  all_goals exact .refl s

theorem State.notices_reportOne (cls : Fin 5) (f g : Bool) (b : Fin 2) : s.onlyNotices (State.reportOne cls f g b s).1 :=
  .ite ((s.notices_setBore b _).trans (State.notices_raiseTrafficState _ b)) (s.notices_setBore b _)

theorem State.notices_directionOne (mode : DirectionMode) (b : Fin 2) : s.onlyNotices (State.directionOne mode b s).1 :=
  .ite (.refl s) ((s.notices_setBore b _).trans (State.notices_raiseTrafficState _ b))

theorem State.notices_clearOne (b : Fin 2) : s.onlyNotices (State.clearOne b s).1 := by
  have hret : ∀ (t : State) p, t.onlyNotices (t.returnPortal p) := fun t p =>
    .ite ((t.notices_setPortalState _ _).trans (State.notices_raisePortalState _ p)) (.refl t)
  unfold State.clearOne
  split
  · exact (((s.notices_setBore b _).trans (.foldl hret _ _)).trans (State.notices_workCondition _ b)).trans
      (State.notices_raiseTrafficState _ b)
  · exact .refl s

theorem State.notices_restartMeter (m : Fin 4) : s.onlyNotices (s.restartMeter m) :=
  State.onlyNotices.trans (t := s.setMeter m _) (.of_links rfl) (State.notices_raise _ _)

theorem State.notices_endGate (m : Fin 4) (e : Uptime) : s.onlyNotices (s.endGate m e) :=
  .ite (.of_links rfl) (State.onlyNotices.trans (t := s.setMeter m _) (.of_links rfl) (State.notices_raise _ _))

theorem State.notices_writeLine (fn : LineFn) (invert : Bool) (i : Fin 192) : s.onlyNotices (s.writeLine fn invert i) := by
  obtain ⟨-, h⟩ | ⟨-, ⟨h, -⟩ | ⟨m, -, -, h⟩⟩ := State.writeLine_cases fn invert s i <;> rw [h]
  · exact .refl s
  · exact .of_links rfl
  · exact State.onlyNotices.trans (t := s.setLine i _) (.of_links rfl) (State.notices_restartMeter _ m)

theorem State.readPin_links (x : PinReading) (d : EdgeDetector) :
    (s.readPin x d).links = s.links ∧ (s.readPin x d).portals = s.portals := by
  obtain h | ⟨-, m, -, h⟩ := s.readPin_cases x d <;> rw [h] <;> exact ⟨rfl, rfl⟩

theorem State.links_lockout (z : Fin 14) (x y : Zone) : s.onlyNotices ((s.putZone z x).raiseFaultChange z y) :=
  (s.notices_putZone z x).trans (State.notices_raiseFaultChange _ z y)

/-! ### What a link holds and is owed (R109, R172) -/

/-- The portal owes the answer of its pending action to the link (R109). -/
def Portal.owes (x : Portal) (l : Link) : Bool :=
  x.action.any fun a => a.link == l && a.answerOwed

/-- The responses in a link's list and the answers owed to it. -/
def State.load (s : State) (l : Link) : Nat :=
  (s.link l).responses.length + (s.owedTo l).length

theorem State.owedTo_eq (l : Link) : s.owedTo l = (List.finRange 4).filter fun p => (s.portal p).owes l := rfl

theorem State.length_owedTo_le (l : Link) : (s.owedTo l).length ≤ 4 :=
  (List.length_filter_le _ _).trans (by simp)

theorem State.owedTo_subset {s t : State} {l : Link} (h : ∀ p, (t.portal p).owes l = true → (s.portal p).owes l = true) :
    (t.owedTo l).length ≤ (s.owedTo l).length :=
  (List.monotone_filter_right _ h).length_le

theorem State.owedTo_congr {s t : State} {l : Link} (h : ∀ p, (t.portal p).action = (s.portal p).action) :
    t.owedTo l = s.owedTo l := by
  simp only [State.owedTo_eq, Portal.owes, h]

/-- A portal that owed an answer and owes none now makes one fewer. -/
theorem State.length_owedTo_lt {s t : State} {p : Fin 4} {l : Link}
    (hother : ∀ q, q ≠ p → (t.portal q).owes l = (s.portal q).owes l) (hs : (s.portal p).owes l = true)
    (ht : (t.portal p).owes l = false) : (t.owedTo l).length + 1 = (s.owedTo l).length := by
  have hnodup : (s.owedTo l).Nodup := (List.nodup_finRange 4).filter _
  have herase : t.owedTo l = (s.owedTo l).erase p := by
    rw [hnodup.erase_eq_filter p, State.owedTo_eq, State.owedTo_eq, List.filter_filter]
    refine List.filter_congr fun q _ => ?_
    by_cases hq : q = p
    · simp [hq, ht]
    · simp [hq, hother q hq]
  have hmem : p ∈ s.owedTo l := List.mem_filter.mpr ⟨List.mem_finRange p, hs⟩
  rw [herase, List.length_erase_of_mem hmem]
  have := List.length_pos_of_mem hmem
  omega

theorem LinkRec.length_place_le (x : LinkRec) (r : Response) : (x.place r).responses.length ≤ x.responses.length + 1 := by
  unfold LinkRec.place
  dsimp only
  split
  · simp
  · exact Nat.le_succ _

/-- Every link's load stays or falls. -/
def State.Unloads (s t : State) : Prop :=
  ∀ l, t.load l ≤ s.load l

theorem State.Unloads.trans {s t u : State} (h : s.Unloads t) (k : t.Unloads u) : s.Unloads u :=
  fun l => (k l).trans (h l)

theorem State.Unloads.refl (s : State) : s.Unloads s := fun _ => le_rfl

/-- Notices and records other than pending actions do not load a link. -/
theorem State.Unloads.of_notices {s t : State} (h : s.onlyNotices t)
    (ha : ∀ p, (t.portal p).action = (s.portal p).action) : s.Unloads t := fun l => by
  rw [State.load, State.load, h.responses, State.owedTo_congr ha]

theorem State.Unloads.of_notices_removed {s t : State} (h : s.onlyNotices t)
    (ha : ∀ p l, (t.portal p).owes l = true → (s.portal p).owes l = true) : s.Unloads t := fun l => by
  rw [State.load, State.load, h.responses]
  exact Nat.add_le_add_left (State.owedTo_subset fun p => ha p l) _

theorem State.Unloads.foldl {α : Type} {f : State → α → State} (hf : ∀ (s : State) a, s.Unloads (f s a)) (as : List α)
    (s : State) : s.Unloads (as.foldl f s) := by
  induction as generalizing s with
  | nil => exact .refl s
  | cons a as ih => exact (hf s a).trans (ih _)

/-- The answer of a pending action takes the room its portal held for it (R172): in whatever order the record goes and
the answer is placed. -/
theorem State.unloads_answer {s t : State} {p : Fin 4} {a : PendingAction} (d : Disposition)
    (hother : ∀ q, q ≠ p → (t.portal q).action = (s.portal q).action) (hs : (s.portal p).action = some a)
    (ht : (t.portal p).action = none) (hlinks : ∀ l, (t.link l).responses = ((s.answerAction p a d).link l).responses) :
    s.Unloads t := by
  intro l
  have hsub : (t.owedTo l).length ≤ (s.owedTo l).length := State.owedTo_subset fun q hq => by
    by_cases hqp : q = p
    · simp [hqp, Portal.owes, ht] at hq
    · rwa [Portal.owes, hother q hqp] at hq
  unfold State.load
  rw [hlinks l]
  unfold State.answerAction
  split
  next howed =>
    rw [State.link_place]
    split
    next hl =>
      have howed' : a.answerOwed = true := (Bool.and_eq_true _ _ ▸ howed).1
      have hlt := State.length_owedTo_lt (s := s) (t := t) (p := p) (l := l)
        (fun q hq => by rw [Portal.owes, hother q hq]; rfl) (by simp [Portal.owes, hs, hl, howed'])
        (by simp [Portal.owes, ht])
      have := LinkRec.length_place_le (s.link l)
        { tag := a.tag, code := a.kind.request.octet, target := BitVec.ofNat 8 (2 ^ p.val), frame := d, each := [d],
          data := [] }
      rw [← hl]
      omega
    next => omega
  next => omega

theorem State.unloads_abandonAction (p : Fin 4) : s.Unloads (s.abandonAction p) := by
  cases h : (s.portal p).action with
  | none =>
    have hsame : s.abandonAction p = s := by simp [State.abandonAction, h]
    rw [hsame]
    exact .refl s
  | some a =>
    have heq : s.abandonAction p = (s.answerAction p a .abandoned).removeAction p := by simp [State.abandonAction, h]
    refine State.unloads_answer .abandoned (fun q hq => ?_) h ?_ (fun l => ?_)
    · simp [State.portal_abandonAction, hq]
    · simp [State.portal_abandonAction]
    · rw [heq]; rfl

theorem Portal.Resourced.action {x y : Portal} (h : x.Resourced y) : y.action = x.action := by
  rw [h]

theorem State.action_enterOffline (p q : Fin 4) : ((s.enterOffline p).portal q).action = (s.portal q).action := by
  rw [State.portal_enterOffline]
  split
  next hq => rw [hq]; rfl
  next =>
    split
    · exact (Portal.resourced_withSource _ _ _).action
    · rfl

theorem State.unloads_enterOffline (p : Fin 4) : s.Unloads (s.enterOffline p) :=
  .of_notices (s.notices_enterOffline p) (s.action_enterOffline p)

theorem State.unloads_enterEmergency (p : Fin 4) : s.Unloads (s.enterEmergency p) := by
  refine (s.unloads_abandonAction p).trans (.of_notices ?_ fun q => ?_)
  · exact ((((State.notices_setPortal _ p _).trans (State.notices_dropPreviews _ p)).trans
      (State.notices_setPortalState _ p _)).trans (State.notices_raisePortalState _ p)).trans
      (.foldl State.notices_light _ _)
  · rw [State.portal_enterEmergency, State.portal_abandonAction]
    split <;> rfl

theorem State.unloads_workCondition (b : Fin 2) : s.Unloads (s.workCondition b) :=
  .of_notices (s.notices_workCondition b) fun p => by rw [State.portal_workCondition]

/-- A record that goes first and an answer placed then. -/
theorem State.unloads_remove_answer {p : Fin 4} {a : PendingAction} (h : (s.portal p).action = some a) (d : Disposition) :
    s.Unloads ((s.removeAction p).answerAction p a d) := by
  refine State.unloads_answer d (fun q hq => ?_) h ?_ (fun l => ?_)
  · simp [State.portal_removeAction, hq]
  · simp [State.portal_removeAction]
  · unfold State.answerAction
    split <;> rfl

theorem State.unloads_takeAction (p : Fin 4) : s.Unloads (s.takeAction p) := by
  have hstate : ∀ st, s.Unloads ((s.setPortalState p st).raisePortalState p) := fun st =>
    .of_notices ((s.notices_setPortalState p st).trans (State.notices_raisePortalState _ p)) fun q => by
      rw [State.portal_raisePortalState, State.portal_setPortalState]
      split
      next hq => rw [hq]
      next => rfl
  have haction : ∀ st, (((s.setPortalState p st).raisePortalState p).portal p).action = (s.portal p).action := fun st => by
    simp [State.portal_setPortalState]
  unfold State.takeAction
  split
  · exact .refl s
  next a ha =>
    split
    · exact (hstate .held).trans ((State.unloads_remove_answer _ ((haction _).trans ha) .done).trans
        (State.unloads_workCondition _ _))
    · unfold State.releaseNow
      split
      · exact (s.unloads_remove_answer ha .done).trans ((State.unloads_enterEmergency _ p).trans
          (State.unloads_workCondition _ _))
      · exact (hstate .auto).trans ((State.unloads_remove_answer _ ((haction _).trans ha) .done).trans
          (State.unloads_workCondition _ _))
    · unfold State.stopNow
      split
      · exact .refl s
      · exact (s.unloads_enterOffline p).trans
          (State.unloads_remove_answer _ ((s.action_enterOffline p p).trans ha) .done)

theorem State.action_evaluateSteps (p q : Fin 4) : ((s.evaluateSteps p).portal q).action = (s.portal q).action := by
  rw [s.portal_evaluateSteps p q]

theorem State.unloads_evaluatePortal (p : Fin 4) : s.Unloads (s.evaluatePortal p) := by
  unfold State.evaluatePortal
  dsimp only
  split
  · exact s.unloads_takeAction p
  · exact (s.unloads_takeAction p).trans
      (.of_notices (State.notices_evaluateSteps _ p) (State.action_evaluateSteps _ p))

end Sys2Proof.Machine
end

section
/-! SUPPORT. Invariants of the links: their order (R165, R166, R172, R175), and responses with owed answers (R172). -/

namespace Sys2Proof.Machine

/-! ### Properties that work leaves -/

/-- A property kept by the work of the shared operations and by a direction set is kept by the control requests. -/
theorem KeptByControl.ofWorks {P : State → Prop} (hw : ∀ s t, State.Works s t → P s → P t)
    (hdir : ∀ s b mode, P s → P (State.directionOne mode b s).1) : KeptByControl P where
  commission s p := hw _ _ (s.works_commissionOne p)
  stop s p := hw _ _ (s.works_stopOne p)
  setOverride s p _ v n _ := hw _ _ (s.works_overrideOne v.1 v.2 n p)
  clearOverride s p := hw _ _ (s.works_unoverrideOne p)
  dryRun s p x := hw _ _ (s.works_dryRunOne x p)
  dryInput s p x := hw _ _ (s.works_dryInputOne x p)
  dryStop s p := hw _ _ (s.works_dryStopOne p)
  lockout s z _ _ := hw _ _ (s.works_lockout z _ _)
  burnReset s z _ := hw _ _ (s.works_burnReset z _)
  report s b cls f g := hw _ _ (s.works_reportOne cls f g b)
  direction := hdir
  emergency s b := hw _ _ (s.works_emergencyOne b)
  clear s b := hw _ _ (s.works_clearOne b)

theorem visitAll_works {n : Nat} {α : Type} {f : Fin n → State → State × Option α} (hf : ∀ u s, State.Works s (f u s).1)
    (us : List (Fin n)) (s : State) : s.Works (visitAll f us s).1 :=
  visitAll_keeps State.Works.refl (fun _ _ _ => State.Works.trans) hf us s

theorem State.works_respond (s : State) (l : Link) (r : Request) (x : Option Reply) : s.Works (s.respond l r x) := by
  unfold State.respond
  split
  · exact .refl s
  · exact .ite (s.works_place _ _) (.refl s)

theorem State.acts_directionOne (s : State) (mode : DirectionMode) (b : Fin 2) :
    s.Acts (State.directionOne mode b s).1 :=
  .ite (.refl s) ((s.acts_setBore b _).trans (State.acts_raiseTrafficState _ b))

/-! ### The order of the links -/

theorem State.LinksOrdered.of_grows {s t : State} (h : ∀ l, LinkRec.Grows (s.link l) (t.link l)) (hs : s.LinksOrdered) :
    t.LinksOrdered := fun l =>
  (h l).keeps (P := fun x => x.ordered = true) (fun _ n hx => LinkRec.deliver_ordered hx n)
    (fun _ r hx => LinkRec.place_ordered hx r) (hs l)

theorem State.LinksOrdered.of_links {s t : State} (h : t.links = s.links) (hs : s.LinksOrdered) : t.LinksOrdered := fun l => by
  rw [State.link, h]
  exact hs l

theorem State.LinksOrdered.of_notices {s t u : State} (hs : s.LinksOrdered) (h : t.links = s.links)
    (hu : ∀ l, LinkRec.Grows (t.link l) (u.link l)) : u.LinksOrdered :=
  State.LinksOrdered.of_grows hu (State.LinksOrdered.of_links h hs)

theorem State.LinksOrdered.setLink {s : State} (hs : s.LinksOrdered) (l : Link) {x : LinkRec} (hx : x.ordered = true) :
    (s.setLink l x).LinksOrdered := fun k => by
  rw [State.link_setLink]
  split
  · exact hx
  · exact hs k

theorem State.LinksOrdered.restartMeter {s : State} (hs : s.LinksOrdered) (m : Fin 4) : (s.restartMeter m).LinksOrdered :=
  State.LinksOrdered.of_notices (t := s.setMeter m _) hs rfl (State.acts_raise _ _).links

theorem coldLinks_ordered (s : State) (held : Bool) : (s.coldStart held).LinksOrdered := by
  intro l
  cases l <;> exact LinkRec.cold_ordered _

theorem linksOrdered_kept : Kept State.LinksOrdered fun _ => State.LinksOrdered where
  arbitrate s hs l := by
    rw [State.link_arbitrate]
    exact LinkRec.arbitrate_ordered (hs l) _
  receive s l o e hs := hs.setLink l (LinkRec.rxOctet_ordered (hs l) _ o e)
  gap s l os gap hf hs := hs.setLink l (by
    have h := hs l
    rw [LinkRec.ordered_iff] at h ⊢
    obtain ⟨⟨h1, h2, h3, h4, h5⟩, hbrk⟩ := h
    rw [hf] at hbrk
    exact ⟨⟨h1, h2, h3, h4, h5⟩, by simpa using hbrk⟩)
  restart s l _ hs := State.LinksOrdered.of_links (s := s.setLink l (s.link l).restarted) rfl
    (hs.setLink l (LinkRec.restarted_ordered (hs l)))
  mark s l _ hs := hs.setLink l (by
    obtain ⟨⟨h1, h2, h3, h4, h5⟩, -⟩ := LinkRec.ordered_iff.mp (hs l)
    exact LinkRec.beginNext_ordered (x := { s.link l with framer := .hunt }) ⟨h1, h2, h3, h4, h5⟩ (by simp) _)
  sent s l f e ht hs := hs.setLink l (by
    obtain ⟨hq, hbrk⟩ := LinkRec.ordered_iff.mp (hs l)
    exact LinkRec.beginNext_ordered hq (fun hf => by simp [hbrk.mp hf] at ht) _)
  retimed _ _ _ _ _ _ _ := State.LinksOrdered.of_links rfl
  portalEvaluation s p e _ :=
    State.LinksOrdered.of_grows ((s.acts_setPortal p _).trans (State.acts_evaluatePortal _ p)).links
  boreEvaluation s b e := State.LinksOrdered.of_grows ((s.acts_setBore b _).trans (State.acts_evaluateBore _ b)).links
  gate s m e _ hs := by
    unfold State.endGate
    dsimp only
    split
    · exact State.LinksOrdered.of_links rfl hs
    · exact State.LinksOrdered.of_notices (t := s.setMeter m _) hs rfl (State.acts_raise _ _).links
  edge s x d _ _ := State.LinksOrdered.of_links (s.readPin_links x d).1
  sample _ _ _ := State.LinksOrdered.of_links rfl
  settle s z k e _ := State.LinksOrdered.of_grows (s.works_putCircuit z k (Circuit.setup_settled _)).acts.links
  loss s z k e _ := State.LinksOrdered.of_grows (s.works_putCircuit z k Circuit.setup_lost).acts.links
  burn s := State.LinksOrdered.of_links rfl
  override s p v _ := State.LinksOrdered.of_grows (s.works_endOverride p v).acts.links
  stale s b := State.LinksOrdered.of_grows (s.works_goneStale b).acts.links
  period s := State.LinksOrdered.of_links rfl
  coldStart s held _ := coldLinks_ordered s held
  drawn _ _ := State.LinksOrdered.of_links rfl
  pop s l r _ hs := hs.setLink l (LinkRec.popped_ordered (hs l))
  writes _ :=
    { writeLine := fun s fn invert i _ hs => by
        obtain ⟨-, h⟩ | ⟨-, ⟨h, -⟩ | ⟨m, -, -, h⟩⟩ := State.writeLine_cases fn invert s i <;> rw [h]
        · exact hs
        · exact State.LinksOrdered.of_links rfl hs
        · exact State.LinksOrdered.restartMeter (s := s.setLine i _) (State.LinksOrdered.of_links rfl hs) m
      meterSetup := fun s m _ u _ _ _ hs =>
        State.LinksOrdered.restartMeter (s := s.setMeter m _) (State.LinksOrdered.of_links rfl hs) m
      portalSetup := fun _ _ _ _ _ _ _ _ => State.LinksOrdered.of_links rfl
      zoneSetup := fun s z _ u _ _ =>
        State.LinksOrdered.of_grows ((s.acts_setZone z _).trans (State.acts_raiseFaultChange _ z _)).links
      plan := fun s p _ w _ => by
        unfold State.writePlan
        split <;> exact State.LinksOrdered.of_links rfl
      schedule := fun _ _ _ _ => State.LinksOrdered.of_links rfl
      boreSetup := fun _ _ _ => State.LinksOrdered.of_links rfl
      clock := fun _ _ => State.LinksOrdered.of_links rfl }
  control _ := .ofWorks (fun _ _ h => State.LinksOrdered.of_grows h.acts.links) fun s b mode =>
    State.LinksOrdered.of_grows (s.acts_directionOne mode b).links
  draws _ _ _ := State.LinksOrdered.of_links rfl
  mask s l o hs := hs.setLink l (LinkRec.withMask_ordered (hs l) _)
  defer s l kind r us _ hs :=
    State.LinksOrdered.of_grows (visitAll_works (fun u t => t.works_deferOne kind l r u) us _).acts.links
      (hs.setLink l (LinkRec.popped_ordered (hs l)))
  respond s l r x := State.LinksOrdered.of_grows (s.works_respond l r x).acts.links

/-- Settles O50: every effect of a command keeps each link record in order. -/
theorem everyStepKeepsTheLinksOrdered : Obligations.EveryStepKeepsTheLinksOrdered :=
  linksOrdered_kept.step fun _ _ => State.LinksOrdered.of_links rfl

/-! ### Responses and owed answers (R172) -/

theorem AnswersBounded.of_unloads {s t : State} (h : s.Unloads t) (hs : s.AnswersBounded) : t.AnswersBounded :=
  fun l => (h l).trans (hs l)

theorem State.Unloads.of_records {s t : State} (hl : t.links = s.links) (hp : t.portals = s.portals) : s.Unloads t :=
  .of_notices (.of_links hl) fun p => by rw [State.portal, hp]; rfl

theorem State.Unloads.setPortal {s : State} {p : Fin 4} {x : Portal} (hx : x.action = (s.portal p).action) :
    s.Unloads (s.setPortal p x) :=
  .of_notices (s.notices_setPortal p x) fun q => by
    rw [State.portal_setPortal]
    split
    next hq => rw [hq, hx]
    next => rfl

/-- A link record written with no more responses does not load its link. -/
theorem State.Unloads.setLink {s : State} {l : Link} {x : LinkRec}
    (hx : x.responses.length ≤ (s.link l).responses.length) : s.Unloads (s.setLink l x) := fun k => by
  unfold State.load
  rw [State.link_setLink]
  split
  next hk => subst hk; exact Nat.add_le_add_right hx _
  next => exact le_rfl

theorem LinkRec.beginNext_responses (now : Uptime) (x : LinkRec) :
    (x.beginNext now).responses.length ≤ x.responses.length := by
  obtain ⟨r, rest, hr, heq⟩ | ⟨n, rest, -, -, heq⟩ | ⟨-, -, heq⟩ := x.beginNext_cases now <;> rw [heq]
  simp [hr]

theorem State.unloads_arbitrate (s : State) : s.Unloads s.arbitrate := fun l => by
  unfold State.load
  rw [State.link_arbitrate]
  refine Nat.add_le_add_right ?_ _
  unfold LinkRec.arbitrate
  split
  · exact LinkRec.beginNext_responses _ _
  all_goals exact le_rfl

/-- The restart empties the link's list, and no other link's answers change; those owed to it are no longer (R116). -/
theorem State.unloads_restart (s : State) (l : Link) :
    s.Unloads { s.setLink l (s.link l).restarted with portals := s.portals.mapWith fun _ x => x.unowed l } := fun k => by
  have hresp : State.Unloads s (s.setLink l (s.link l).restarted) := .setLink (Nat.zero_le _)
  refine (Nat.add_le_add_left (State.owedTo_subset fun p hp => ?_) _).trans (hresp k)
  change Portal.owes (Tab.get _ p) k = true at hp
  rw [Tab.get_mapWith] at hp
  change (s.portal p).owes k = true
  revert hp
  change ((s.portal p).unowed l).owes k = true → _
  unfold Portal.owes Portal.unowed
  cases (s.portal p).action with
  | none => simp
  | some a =>
    simp only [Option.map_some, Option.any_some]
    split <;> simp

/-- The property within a take of link `l`: one answer may yet be placed in its list. -/
def State.RoomFor (l : Link) (s : State) : Prop :=
  s.AnswersBounded ∧ s.load l ≤ 7

theorem State.RoomFor.of_unloads {l : Link} {s t : State} (h : s.Unloads t) (hs : s.RoomFor l) : t.RoomFor l :=
  ⟨AnswersBounded.of_unloads h hs.1, (h l).trans hs.2⟩

/-- What a deferred request does to the links: no list changes, and only its own link is owed more (R109). -/
def State.DefersTo (l : Link) (s t : State) : Prop :=
  (∀ k, (t.link k).responses = (s.link k).responses)
  ∧ ∀ k, k ≠ l → ∀ p, (t.portal p).owes k = true → (s.portal p).owes k = true

theorem State.defersTo_deferOne (kind : ActionKind) (l : Link) (r : Request) (p : Fin 4) (s : State) :
    s.DefersTo l (State.deferOne kind l r p s).1 := by
  have hsame : s.DefersTo l s := ⟨fun _ => rfl, fun _ _ _ => id⟩
  unfold State.deferOne
  split
  · exact hsame
  · exact hsame
  · split
    · exact hsame
    · refine ⟨fun _ => rfl, fun k hk q hq => ?_⟩
      rw [State.portal_setPortal] at hq
      split at hq
      · simp [Portal.owes, Ne.symm hk] at hq
      · exact hq

theorem State.defersTo_visitAll (kind : ActionKind) (l : Link) (r : Request) (us : List (Fin 4)) (s : State) :
    s.DefersTo l (visitAll (State.deferOne kind l r) us s).1 :=
  visitAll_keeps (fun _ => ⟨fun _ => rfl, fun _ _ _ => id⟩)
    (fun _ _ _ h k => ⟨fun j => (k.1 j).trans (h.1 j), fun j hj p hp => h.2 j hj p (k.2 j hj p hp)⟩)
    (State.defersTo_deferOne kind l r) us s

theorem State.nextRequest_responses {s : State} {l : Link} {r : Request} (h : s.nextRequest l = some r) :
    (s.link l).responses.length < 4 := by
  unfold State.nextRequest at h
  split at h
  · assumption
  · cases h

theorem State.unloads_reachPortal (s : State) (p : Fin 4) : s.Unloads (s.reachPortal p) := by
  unfold State.reachPortal
  split
  case h_4 | h_5 => exact .refl s
  all_goals exact s.unloads_enterEmergency p

theorem State.unloads_emergencyOne (s : State) (b : Fin 2) : s.Unloads (State.emergencyOne b s).1 := by
  have hint : ∀ t : State, t.Unloads (t.emergencyInterior b) := fun t => by
    unfold State.emergencyInterior
    dsimp only
    split
    · exact (t.unloads_workCondition b).trans (.of_notices (State.notices_light _ _) fun p => by rw [State.portal_light])
    · exact t.unloads_workCondition b
  have hbore : ∀ x, s.Unloads (s.setBore b x) := fun _ => .of_records rfl rfl
  unfold State.emergencyOne
  split
  · exact .refl s
  · exact (((hbore _).trans (.foldl State.unloads_reachPortal _ _)).trans (hint _)).trans
      (.of_notices (State.notices_raiseTrafficState _ b) fun _ => rfl)

theorem State.unloads_stopOne (s : State) (p : Fin 4) : s.Unloads (State.stopOne p s).1 := by
  unfold State.stopOne
  split
  case h_1 | h_5 => exact .refl s
  all_goals exact (s.unloads_abandonAction p).trans (State.unloads_enterOffline _ p)

theorem State.action_enterHeld (s : State) (p q : Fin 4) : ((s.enterHeld p).portal q).action = (s.portal q).action := by
  rw [State.portal_enterHeld]
  split
  next h => rw [h]
  next => rfl

theorem State.unloads_commissionOne (s : State) (p : Fin 4) : s.Unloads (s.commissionOne p).1 := by
  refine .of_notices (s.notices_commissionOne p) fun q => ?_
  unfold State.commissionOne
  split
  · rfl
  · split
    · exact s.action_enterHeld p q
    · rfl

theorem State.unloads_dryRunOne (s : State) (x : DryRunInput) (p : Fin 4) : s.Unloads (State.dryRunOne x p s).1 := by
  refine .of_notices (s.notices_dryRunOne x p) fun q => ?_
  unfold State.dryRunOne
  split
  case h_5 =>
    split
    · rfl
    · split
      · rfl
      · simp only [State.portal_workCondition, State.portal_raisePortalState, State.portal_setPortal]
        split
        next h => rw [h]
        next => rfl
  all_goals rfl

theorem State.unloads_dryStopOne (s : State) (p : Fin 4) : s.Unloads (State.dryStopOne p s).1 := by
  refine .of_notices (s.notices_dryStopOne p) fun q => ?_
  unfold State.dryStopOne
  split
  case h_4 =>
    simp only [State.portal_workCondition, State.portal_raisePortalState, State.portal_dropPreviews,
      State.portal_setPortal]
    split
    next h => rw [h]
    next => rfl
  all_goals rfl

theorem State.unloads_clearOne (s : State) (b : Fin 2) : s.Unloads (State.clearOne b s).1 := by
  refine .of_notices (s.notices_clearOne b) fun q => ?_
  have hret : ∀ (t : State) p, ((t.returnPortal p).portal q).action = (t.portal q).action := fun t p => by
    unfold State.returnPortal
    split
    · rw [State.portal_raisePortalState, State.portal_setPortalState]
      split
      next h => rw [h]
      next => rfl
    · rfl
  unfold State.clearOne
  split
  · simp only [State.portal_raiseTrafficState, State.portal_workCondition]
    exact foldl_keeps (f := State.returnPortal) (v := fun t => (t.portal q).action) hret _ _
  · rfl

theorem answersBounded_writes (l : Link) : KeptByWrites (State.RoomFor l) where
  writeLine s fn invert i _ := State.RoomFor.of_unloads (.of_notices (s.notices_writeLine fn invert i) fun p => by
    obtain ⟨-, h⟩ | ⟨-, ⟨h, -⟩ | ⟨m, -, -, h⟩⟩ := State.writeLine_cases fn invert s i <;> rw [h] <;> rfl)
  meterSetup s m _ u _ _ _ := State.RoomFor.of_unloads
    (.of_notices (State.onlyNotices.trans (t := s.setMeter m _) (.of_links rfl) (State.notices_restartMeter _ m))
      fun _ => rfl)
  portalSetup _ _ _ _ _ _ _ _ := State.RoomFor.of_unloads (.setPortal rfl)
  zoneSetup s z _ u _ _ := State.RoomFor.of_unloads
    (.of_notices ((s.notices_setZone z _).trans (State.notices_raiseFaultChange _ z _)) fun p => by simp)
  plan s p _ w _ := by
    unfold State.writePlan
    split
    case h_4 | h_5 => exact id
    all_goals exact State.RoomFor.of_unloads (.setPortal (by unfold Portal.withPlan; split <;> rfl))
  schedule _ _ _ _ := State.RoomFor.of_unloads (.of_records rfl rfl)
  boreSetup _ _ _ := State.RoomFor.of_unloads (.of_records rfl rfl)
  clock _ _ := State.RoomFor.of_unloads (.of_records rfl rfl)

theorem answersBounded_control (l : Link) : KeptByControl (State.RoomFor l) where
  commission s p := State.RoomFor.of_unloads (s.unloads_commissionOne p)
  stop s p := State.RoomFor.of_unloads (s.unloads_stopOne p)
  setOverride s p _ v n _ := State.RoomFor.of_unloads <| by
    unfold State.overrideOne
    split
    case h_3 | h_4 => exact .setPortal rfl
    all_goals exact .refl s
  clearOverride s p := State.RoomFor.of_unloads <| by
    unfold State.unoverrideOne
    split
    case h_1 | h_2 => exact .refl s
    all_goals
      split
      · exact .setPortal rfl
      · exact .refl s
  dryRun s p x := State.RoomFor.of_unloads (s.unloads_dryRunOne x p)
  dryInput s p x := State.RoomFor.of_unloads <| by
    unfold State.dryInputOne
    split
    case h_4 => exact .setPortal rfl
    all_goals exact .refl s
  dryStop s p := State.RoomFor.of_unloads (s.unloads_dryStopOne p)
  lockout s z _ _ := State.RoomFor.of_unloads (.of_notices (s.links_lockout z _ _) fun p => by simp)
  burnReset s z _ := State.RoomFor.of_unloads (.of_records rfl rfl)
  report s b cls f g := State.RoomFor.of_unloads (.of_notices (s.notices_reportOne cls f g b) fun p => by
    unfold State.reportOne
    dsimp only
    split <;> rfl)
  direction s b mode := State.RoomFor.of_unloads (.of_notices (s.notices_directionOne mode b) fun p => by
    unfold State.directionOne
    dsimp only
    split <;> rfl)
  emergency s b := State.RoomFor.of_unloads (s.unloads_emergencyOne b)
  clear s b := State.RoomFor.of_unloads (s.unloads_clearOne b)

theorem reset_answersBounded : State.reset.AnswersBounded := by
  intro l
  cases l <;> decide

theorem answersBounded_kept : Kept State.AnswersBounded State.RoomFor where
  arbitrate s := AnswersBounded.of_unloads s.unloads_arbitrate
  receive s l o e := AnswersBounded.of_unloads (.setLink (by
    obtain ⟨f, q, h, -⟩ := (s.link l).rxOctet_cases s.uptime o e
    rw [h]))
  gap s l os gap _ := AnswersBounded.of_unloads (.setLink le_rfl)
  restart s l _ := AnswersBounded.of_unloads (s.unloads_restart l)
  mark s l _ := AnswersBounded.of_unloads (.setLink (LinkRec.beginNext_responses _ _))
  sent s l f e _ := AnswersBounded.of_unloads (.setLink (LinkRec.beginNext_responses _ _))
  retimed _ _ _ _ _ _ _ := AnswersBounded.of_unloads (.of_records rfl rfl)
  portalEvaluation s p e _ := AnswersBounded.of_unloads
    (State.Unloads.trans (t := s.setPortal p { s.portal p with timer := some (msAfter e 1000) }) (.setPortal rfl)
      (State.unloads_evaluatePortal _ p))
  boreEvaluation s b e := AnswersBounded.of_unloads
    (.of_notices ((s.notices_setBore b _).trans (State.notices_evaluateBore _ b)) fun p => by simp)
  gate s m e _ := AnswersBounded.of_unloads (.of_notices (s.notices_endGate m e) fun p => by
    unfold State.endGate
    dsimp only
    split <;> rfl)
  edge s x d _ _ := AnswersBounded.of_unloads (.of_records (s.readPin_links x d).1 (s.readPin_links x d).2)
  sample _ _ _ := AnswersBounded.of_unloads (.of_records rfl rfl)
  settle s z k e _ := AnswersBounded.of_unloads (.of_notices (s.notices_putCircuit z k _) fun p => by simp [State.putCircuit])
  loss s z k e _ := AnswersBounded.of_unloads (.of_notices (s.notices_putCircuit z k _) fun p => by simp [State.putCircuit])
  burn s := AnswersBounded.of_unloads (.of_records rfl rfl)
  override s p v _ := AnswersBounded.of_unloads (.of_notices
    ((s.notices_setPortal p _).trans (State.notices_raise _ _)) fun q => by
      rw [State.endOverride, State.portal_raise, State.portal_setPortal]
      split
      next h => rw [h]
      next => rfl)
  stale s b := AnswersBounded.of_unloads (.of_notices
    ((s.notices_setBore b _).trans (State.notices_raiseTrafficState _ b)) fun _ => rfl)
  period s := AnswersBounded.of_unloads (.of_records rfl rfl)
  coldStart s held _ := AnswersBounded.of_unloads (s := State.reset) (.of_records rfl rfl) reset_answersBounded
  drawn _ _ := AnswersBounded.of_unloads (.of_records rfl rfl)
  pop s l r hr hs := by
    have h : s.Unloads (s.popRequest l) := .setLink le_rfl
    refine ⟨AnswersBounded.of_unloads h hs, (h l).trans ?_⟩
    have := State.nextRequest_responses hr
    have := s.length_owedTo_le l
    unfold State.load
    omega
  writes := answersBounded_writes
  control := answersBounded_control
  draws _ _ _ := State.RoomFor.of_unloads (.of_records rfl rfl)
  mask s l o := State.RoomFor.of_unloads (.setLink le_rfl)
  defer s l kind r us hr hs := by
    have hpop : s.Unloads (s.popRequest l) := .setLink le_rfl
    obtain ⟨hresp, howed⟩ := State.defersTo_visitAll kind l r us (s.popRequest l)
    have hown : (visitAll (State.deferOne kind l r) us (s.popRequest l)).1.load l ≤ 7 := by
      have h4 := State.length_owedTo_le (visitAll (State.deferOne kind l r) us (s.popRequest l)).1 l
      have h3 := State.nextRequest_responses hr
      have hpopped : ((s.popRequest l).link l).responses = (s.link l).responses := by
        simp [State.link_popRequest]
      unfold State.load
      rw [hresp, hpopped]
      omega
    refine ⟨fun k => ?_, hown⟩
    by_cases hk : k = l
    · subst hk
      exact hown.trans (by omega)
    · refine (Nat.add_le_add (congrArg List.length (hresp k)).le (State.owedTo_subset (howed k hk))).trans ?_
      exact (hpop k).trans (hs k)
  respond s l r x hs := by
    intro k
    have hplace : ∀ y : Response, ((s.place l y).link k).responses.length + ((s.place l y).owedTo k).length ≤ 8 := by
      intro y
      have howed : (s.place l y).owedTo k = s.owedTo k := State.owedTo_congr fun _ => rfl
      rw [howed, State.link_place]
      split
      next hk =>
        subst hk
        have h7 := hs.2
        have := LinkRec.length_place_le (s.link k) y
        unfold State.load at h7
        omega
      next => exact hs.1 k
    unfold State.respond
    split
    · exact hs.1 k
    · split
      · exact hplace _
      · exact hs.1 k

/-- Settles O51: a take starts with fewer than 4 responses and at most 4 answers owed, and an answer takes the room that
was held for it. -/
theorem everyStepKeepsTheAnswersBounded : Obligations.EveryStepKeepsTheAnswersBounded :=
  answersBounded_kept.step fun _ _ => AnswersBounded.of_unloads (.of_records rfl rfl)

end Sys2Proof.Machine
end

section
/-! SUPPORT. What the changes of a portal's state, the evaluations and the emergencies leave in each zone and bore
record, one equation for each. -/

namespace Sys2Proof.Machine

variable (s : State)

/-! ### Supervision starts by the settings alone (R88) -/

theorem State.feedbackPresent_congr {s t : State} (h : ∀ i, (s.line i).SameSetting (t.line i)) (c : Circuit) :
    t.feedbackPresent c = s.feedbackPresent c := by
  unfold State.feedbackPresent
  split
  · rfl
  next i _ => rw [h i]

theorem State.startSupervision_congr {s t : State} (h : s.Works t) : t.startSupervision = s.startSupervision := by
  funext x
  unfold State.startSupervision
  congr 1
  · funext c
    rw [State.feedbackPresent_congr h.lines]
  · rw [h.acts.uptime]

/-! ### The interior zone as its condition changes (R140 to R142) -/

/-- The interior zone as the change of its condition leaves it: one that rises from RELEASED makes the zone supervised,
one that rises to DRIVEN in emergency lights it, one that falls to RELEASED clears it (R140 to R142). -/
def State.reconditioned (s : State) (was now : Condition) (emergency : Bool) (z : Zone) : Zone :=
  match was, now with
  | .released, .held => s.startSupervision z
  | .released, .driven => if emergency then (s.startSupervision z).litUp s.uptime else s.startSupervision z
  | .held, .driven => if emergency then z.litUp s.uptime else z
  | .held, .released => z.stopped
  | .driven, .released => z.stopped
  | .released, .released | .held, .held | .driven, .driven | .driven, .held => z

theorem Zone.conditionWorked_eq (b : Fin 2) (z : Zone) :
    z.conditionWorked s b = s.reconditioned (s.bore b).condition (s.conditionFor b) (s.bore b).emergency z := by
  unfold Zone.conditionWorked State.reconditioned
  cases (s.bore b).condition <;> cases s.conditionFor b <;> rfl

@[simp] theorem State.reconditioned_same (c : Condition) (e : Bool) (z : Zone) : s.reconditioned c c e z = z := by
  cases c <;> rfl

/-- What the work on an interior condition leaves in a zone, after work that has left the bore's record. -/
theorem State.zone_workCondition_after {s t : State} (h : s.Works t) {b : Fin 2} (hb : t.bore b = s.bore b)
    (y : Fin 14) :
    (t.workCondition b).zone y
      = if y = interiorOf b then
          s.reconditioned (s.bore b).condition (t.conditionFor b) (s.bore b).emergency (t.zone y)
        else t.zone y := by
  rw [State.zone_workCondition, Zone.conditionWorked_eq, hb]
  unfold State.reconditioned
  rw [State.startSupervision_congr h, h.acts.uptime]

@[simp] theorem State.conditionFor_workCondition (b c : Fin 2) : (s.workCondition b).conditionFor c = s.conditionFor c :=
  State.conditionFor_congr fun q _ => by rw [State.portal_workCondition]

/-! ### Changes of a portal's state -/

theorem State.zone_enterOffline (p : Fin 4) (y : Fin 14) :
    (s.enterOffline p).zone y
      = if y ∈ zonesOf p then (s.zone y).stopped
        else if y = interiorOf (boreOf p) then
          s.reconditioned (s.bore (boreOf p)).condition ((s.enterOffline p).conditionFor (boreOf p))
            (s.bore (boreOf p)).emergency (s.zone y)
        else s.zone y := by
  have hworks : s.Works
      (((zonesOf p).foldl State.clearZone ((s.setPortal p (s.portal p).toOffline).dropSource p)).raisePortalState p) :=
    (((s.works_setPortal p (by exact ⟨rfl, rfl, rfl, rfl, rfl⟩)).trans (State.works_dropSource _ p)).trans
      (.foldl State.works_clearZone _ _)).trans (State.works_raisePortalState _ p)
  have hbore : ∀ t : State, ((zonesOf p).foldl State.clearZone t).bore (boreOf p) = t.bore (boreOf p) := fun t =>
    foldl_keeps (f := State.clearZone) (v := fun t => t.bore (boreOf p)) (fun t z => t.bore_clearZone z _) _ t
  unfold State.enterOffline
  dsimp only
  rw [State.zone_workCondition_after hworks (by simp [hbore]), State.conditionFor_workCondition]
  simp only [State.zone_raisePortalState, State.zone_clearZones, State.zone_dropSource, State.zone_setPortal]
  by_cases hy : y = interiorOf (boreOf p)
  · subst hy
    simp [interiorOf_notMem_zonesOf]
  · simp [hy]

theorem State.zone_superviseZones (p : Fin 4) (y : Fin 14) :
    ((zonesOf p).foldl State.supervise s).zone y
      = if y ∈ zonesOf p then s.startSupervision (s.zone y) else s.zone y := by
  have key : ∀ zs : List (Fin 14), zs.Nodup → ∀ t : State, s.Works t →
      (zs.foldl State.supervise t).zone y = if y ∈ zs then s.startSupervision (t.zone y) else t.zone y := by
    intro zs
    induction zs with
    | nil => intro _ t _; simp
    | cons z zs ih =>
      intro hn t ht
      obtain ⟨hz, hzs⟩ := List.nodup_cons.mp hn
      rw [List.foldl_cons, ih hzs _ (ht.trans (t.works_supervise z)), State.zone_supervise,
        State.startSupervision_congr ht]
      by_cases hy : y = z
      · subst hy; simp [hz]
      · simp [hy]
  exact key _ (nodup_zonesOf p) s (.refl s)

theorem State.zone_enterHeld (p : Fin 4) (y : Fin 14) :
    (s.enterHeld p).zone y
      = if y ∈ zonesOf p then s.startSupervision (s.zone y)
        else if y = interiorOf (boreOf p) then
          s.reconditioned (s.bore (boreOf p)).condition ((s.enterHeld p).conditionFor (boreOf p))
            (s.bore (boreOf p)).emergency (s.zone y)
        else s.zone y := by
  have hset : s.Works (s.setPortal p { s.portal p with state := .held, timer := some (msAfter s.uptime 1000) }) :=
    s.works_setPortal p ⟨rfl, rfl, rfl, rfl, rfl⟩
  have hworks := (hset.trans (.foldl State.works_supervise (zonesOf p) _)).trans (State.works_raisePortalState _ p)
  have hbore : ∀ t : State, ((zonesOf p).foldl State.supervise t).bore (boreOf p) = t.bore (boreOf p) := fun t =>
    foldl_keeps (f := State.supervise) (v := fun t => t.bore (boreOf p)) (fun _ _ => rfl) _ t
  unfold State.enterHeld
  dsimp only
  rw [State.zone_workCondition_after hworks (by simp [hbore]), State.conditionFor_workCondition]
  simp only [State.zone_raisePortalState, State.zone_superviseZones, State.startSupervision_congr hset,
    State.zone_setPortal]
  by_cases hy : y = interiorOf (boreOf p)
  · subst hy
    simp [interiorOf_notMem_zonesOf]
  · simp [hy]

/-! ### Emergency set and clear (R117, R118, R136, R137) -/

theorem State.portal_reachPortal (p q : Fin 4) :
    (s.reachPortal p).portal q
      = if q = p ∧ ((s.portal p).state = .auto ∨ (s.portal p).state = .held ∨ (s.portal p).state = .dryRun) then
          { s.portal p with action := none, dryRun := none, state := .emergency }
        else s.portal q := by
  unfold State.reachPortal
  split <;> simp_all [State.portal_enterEmergency]

@[simp] theorem State.bore_reachPortal (p : Fin 4) (b : Fin 2) : (s.reachPortal p).bore b = s.bore b := by
  unfold State.reachPortal
  split <;> simp [State.bore_enterEmergency]

theorem State.zone_reachPortal (p : Fin 4) (y : Fin 14) :
    (s.reachPortal p).zone y
      = if y ∈ zonesOf p ∧ ((s.portal p).state = .auto ∨ (s.portal p).state = .held ∨ (s.portal p).state = .dryRun) then
          ({ s.zone y with preview := none } : Zone).litUp s.uptime
        else s.zone y := by
  unfold State.reachPortal
  split <;> simp_all [State.zone_enterEmergency]

/-- An operation on each portal of a bore, in the order of their numbers. -/
theorem foldl_portalsOf {α : Type} (f : α → Fin 4 → α) (b : Fin 2) (a : α) :
    (portalsOf b).foldl f a = f (f a ⟨2 * b.val, by omega⟩) ⟨2 * b.val + 1, by omega⟩ := rfl

theorem nodup_portalsOf (b : Fin 2) : (portalsOf b).Nodup := by
  simp [portalsOf]

/-- A portal record reached by an emergency set of its bore (R117). -/
def Portal.reached (x : Portal) : Portal :=
  match x.state with
  | .auto | .held | .dryRun => { x with action := none, dryRun := none, state := .emergency }
  | .offline | .emergency => x

/-- The portal is one that an emergency set reaches (R117). -/
def Portal.reachable (x : Portal) : Bool :=
  match x.state with
  | .auto | .held | .dryRun => true
  | .offline | .emergency => false

theorem State.portal_reachPortal' (p q : Fin 4) :
    (s.reachPortal p).portal q = if q = p then (s.portal p).reached else s.portal q := by
  rw [State.portal_reachPortal]
  unfold Portal.reached
  by_cases hq : q = p
  · subst hq
    cases h : (s.portal q).state <;> simp
  · simp [hq]

theorem State.zone_reachPortal' (p : Fin 4) (y : Fin 14) :
    (s.reachPortal p).zone y
      = if y ∈ zonesOf p ∧ (s.portal p).reachable = true then
          ({ s.zone y with preview := none } : Zone).litUp s.uptime
        else s.zone y := by
  rw [State.zone_reachPortal]
  unfold Portal.reachable
  cases h : (s.portal p).state <;> simp

theorem State.portal_reachPortals (b : Fin 2) (q : Fin 4) :
    ((portalsOf b).foldl State.reachPortal s).portal q
      = if boreOf q = b then (s.portal q).reached else s.portal q := by
  have key : ∀ ps : List (Fin 4), ps.Nodup → ∀ t : State,
      (ps.foldl State.reachPortal t).portal q = if q ∈ ps then (t.portal q).reached else t.portal q := by
    intro ps
    induction ps with
    | nil => intro _ t; simp
    | cons p ps ih =>
      intro hn t
      obtain ⟨hp, hps⟩ := List.nodup_cons.mp hn
      rw [List.foldl_cons, ih hps, State.portal_reachPortal']
      by_cases hq : q = p
      · subst hq; simp [hp]
      · simp [hq]
  have h := key _ (nodup_portalsOf b) s
  simp only [mem_portalsOf] at h
  exact h

@[simp] theorem State.bore_reachPortals (b c : Fin 2) :
    ((portalsOf b).foldl State.reachPortal s).bore c = s.bore c :=
  foldl_keeps (f := State.reachPortal) (v := fun t => t.bore c) (fun t p => t.bore_reachPortal p c) _ s

theorem State.zone_reachPortals (b : Fin 2) (y : Fin 14) :
    ((portalsOf b).foldl State.reachPortal s).zone y
      = match ownerOf y with
        | .portal p =>
          if boreOf p = b ∧ (s.portal p).reachable = true then
            ({ s.zone y with preview := none } : Zone).litUp s.uptime
          else s.zone y
        | .bore _ => s.zone y := by
  have key : ∀ ps : List (Fin 4), ps.Nodup → ∀ t : State, t.uptime = s.uptime →
      (ps.foldl State.reachPortal t).zone y
        = match ownerOf y with
          | .portal p =>
            if p ∈ ps ∧ (t.portal p).reachable = true then
              ({ t.zone y with preview := none } : Zone).litUp s.uptime
            else t.zone y
          | .bore _ => t.zone y := by
    intro ps
    induction ps with
    | nil => intro _ t _; cases ownerOf y <;> simp
    | cons p ps ih =>
      intro hn t ht
      obtain ⟨hp, hps⟩ := List.nodup_cons.mp hn
      rw [List.foldl_cons, ih hps _ ((t.acts_reachPortal p).uptime.trans ht), State.zone_reachPortal']
      simp only [mem_zonesOf_iff_owner]
      cases hy : ownerOf y with
      | bore c => simp
      | portal q =>
        simp only [Owner.portal.injEq, State.portal_reachPortal']
        by_cases hq : q = p
        · subst hq; simp [hp, ht]
        · simp [hq]
  have h := key _ (nodup_portalsOf b) s rfl
  simp only [mem_portalsOf] at h
  exact h

theorem State.portal_emergencyInterior (b : Fin 2) (q : Fin 4) : (s.emergencyInterior b).portal q = s.portal q := by
  unfold State.emergencyInterior
  dsimp only
  split <;> simp

theorem State.bore_emergencyInterior (b c : Fin 2) :
    (s.emergencyInterior b).bore c
      = if c = b then { s.bore b with condition := s.conditionFor b } else s.bore c := by
  unfold State.emergencyInterior
  dsimp only
  split <;> simp [State.bore_workCondition]

/-- The interior zone at step 4 of an emergency set: lit where its condition is or rises to DRIVEN (R136, R140). -/
theorem State.zone_emergencyInterior (b : Fin 2) (y : Fin 14) :
    (s.emergencyInterior b).zone y
      = if y = interiorOf b then
          if (s.bore b).condition = .driven ∧ s.conditionFor b = .driven then (s.zone y).litUp s.uptime
          else s.reconditioned (s.bore b).condition (s.conditionFor b) (s.bore b).emergency (s.zone y)
        else s.zone y := by
  unfold State.emergencyInterior
  dsimp only
  rw [State.bore_workCondition, if_pos rfl]
  by_cases hd : (s.bore b).condition = .driven ∧ s.conditionFor b = .driven
  · rw [if_pos hd, State.zone_light, (s.acts_workCondition b).uptime, State.zone_workCondition]
    simp only [State.zone_workCondition, Zone.conditionWorked_eq, hd.1, hd.2, State.reconditioned_same]
    by_cases hy : y = interiorOf b
    · subst hy; simp
    · simp [hy]
  · rw [if_neg hd, State.zone_workCondition, Zone.conditionWorked_eq]
    simp [hd]

theorem State.portal_emergencyOne (b : Fin 2) (h : (s.bore b).emergency = false) (q : Fin 4) :
    (State.emergencyOne b s).1.portal q = if boreOf q = b then (s.portal q).reached else s.portal q := by
  simp only [State.emergencyOne, h, Bool.false_eq_true, if_false, State.portal_raiseTrafficState,
    State.portal_emergencyInterior, State.portal_reachPortals, State.portal_setBore]

theorem State.bore_emergencyOne (b : Fin 2) (h : (s.bore b).emergency = false) (c : Fin 2) :
    (State.emergencyOne b s).1.bore c
      = if c = b then { s.bore b with emergency := true, demand := 60000
                                      condition := (State.emergencyOne b s).1.conditionFor b } else s.bore c := by
  have hcond : ∀ t : State, ((t.emergencyInterior b).raiseTrafficState b).conditionFor b = t.conditionFor b := fun t =>
    State.conditionFor_congr fun q _ => by rw [State.portal_raiseTrafficState, State.portal_emergencyInterior]
  simp only [State.emergencyOne, h, Bool.false_eq_true, if_false, State.bore_raiseTrafficState,
    State.bore_emergencyInterior, State.bore_reachPortals, State.bore_setBore_self, hcond]
  split
  · rfl
  next hc => rw [State.bore_setBore_ne _ hc]

theorem State.zone_emergencyOne (b : Fin 2) (h : (s.bore b).emergency = false) (y : Fin 14) :
    (State.emergencyOne b s).1.zone y
      = match ownerOf y with
        | .portal p =>
          if boreOf p = b ∧ (s.portal p).reachable = true then
            ({ s.zone y with preview := none } : Zone).litUp s.uptime
          else s.zone y
        | .bore c =>
          if c = b then
            if (s.bore b).condition = .driven ∧ (State.emergencyOne b s).1.conditionFor b = .driven then
              (s.zone y).litUp s.uptime
            else
              s.reconditioned (s.bore b).condition ((State.emergencyOne b s).1.conditionFor b) true (s.zone y)
          else s.zone y := by
  have hcond : ∀ t : State, ((t.emergencyInterior b).raiseTrafficState b).conditionFor b = t.conditionFor b := fun t =>
    State.conditionFor_congr fun q _ => by rw [State.portal_raiseTrafficState, State.portal_emergencyInterior]
  have hset : s.Works (s.setBore b { s.bore b with emergency := true, demand := 60000 }) :=
    s.works_setBore b ⟨rfl, rfl⟩
  have hreach := State.Works.foldl State.works_reachPortal (portalsOf b)
    (s.setBore b { s.bore b with emergency := true, demand := 60000 })
  have hrec : ∀ was now e z, State.reconditioned ((portalsOf b).foldl State.reachPortal
      (s.setBore b { s.bore b with emergency := true, demand := 60000 })) was now e z = s.reconditioned was now e z :=
    fun was now e z => by
      unfold State.reconditioned
      rw [State.startSupervision_congr (hset.trans hreach), (hset.trans hreach).acts.uptime]
  have hup := (hset.trans hreach).acts.uptime
  simp only [State.emergencyOne, h, Bool.false_eq_true, if_false, State.zone_raiseTrafficState, hcond,
    State.zone_emergencyInterior, State.bore_reachPortals, State.bore_setBore_self, hrec, hup, State.zone_reachPortals,
    State.zone_setBore, State.portal_setBore, State.setBore_uptime]
  obtain ⟨p, j, rfl⟩ | ⟨c, rfl⟩ := zone_cases y
  · simp [(interiorOf_ne_zoneOf b p j).symm] <;> rfl
  · simp [interiorOf_inj]

/-- A portal record that an emergency clear returns to AUTO (R118). -/
def Portal.returned (x : Portal) : Portal :=
  if x.state = .emergency then { x with state := .auto } else x

theorem State.portal_returnPortals (b : Fin 2) (q : Fin 4) :
    ((portalsOf b).foldl State.returnPortal s).portal q
      = if boreOf q = b then (s.portal q).returned else s.portal q := by
  have hone : ∀ (t : State) p, (t.returnPortal p).portal q = if q = p then (t.portal p).returned else t.portal q :=
    fun t p => by
      unfold State.returnPortal Portal.returned
      split
      · rw [State.portal_raisePortalState, State.portal_setPortalState]
      · split
        next hq => rw [hq]
        next => rfl
  have key : ∀ ps : List (Fin 4), ps.Nodup → ∀ t : State,
      (ps.foldl State.returnPortal t).portal q = if q ∈ ps then (t.portal q).returned else t.portal q := by
    intro ps
    induction ps with
    | nil => intro _ t; simp
    | cons p ps ih =>
      intro hn t
      obtain ⟨hp, hps⟩ := List.nodup_cons.mp hn
      rw [List.foldl_cons, ih hps, hone]
      by_cases hq : q = p
      · subst hq; simp [hp]
      · simp [hq]
  have h := key _ (nodup_portalsOf b) s
  simp only [mem_portalsOf] at h
  exact h

theorem State.bore_returnPortals (b c : Fin 2) :
    ((portalsOf b).foldl State.returnPortal s).bore c = s.bore c :=
  foldl_keeps (f := State.returnPortal) (v := fun t => t.bore c)
    (fun t p => by unfold State.returnPortal; split <;> simp) _ s

theorem State.zone_returnPortals (b : Fin 2) (y : Fin 14) :
    ((portalsOf b).foldl State.returnPortal s).zone y = s.zone y :=
  foldl_keeps (f := State.returnPortal) (v := fun t => t.zone y)
    (fun t p => by unfold State.returnPortal; split <;> simp) _ s

theorem State.works_returnPortals (b : Fin 2) : s.Works ((portalsOf b).foldl State.returnPortal s) :=
  .foldl (fun t p => .ite ((t.works_setPortalState _ _).trans (State.works_raisePortalState _ p)) (.refl t)) _ s

theorem State.portal_clearOne (b : Fin 2) (h : (s.bore b).emergency = true) (q : Fin 4) :
    (State.clearOne b s).1.portal q = if boreOf q = b then (s.portal q).returned else s.portal q := by
  simp only [State.clearOne, h, if_true, State.portal_raiseTrafficState, State.portal_workCondition,
    State.portal_returnPortals, State.portal_setBore]

theorem State.bore_clearOne (b : Fin 2) (h : (s.bore b).emergency = true) (c : Fin 2) :
    (State.clearOne b s).1.bore c
      = if c = b then { s.bore b with emergency := false, demand := (s.bore b).base
                                      condition := (State.clearOne b s).1.conditionFor b } else s.bore c := by
  have hcond : ∀ t : State, ((t.workCondition b).raiseTrafficState b).conditionFor b = t.conditionFor b := fun t =>
    State.conditionFor_congr fun q _ => by rw [State.portal_raiseTrafficState, State.portal_workCondition]
  simp only [State.clearOne, h, if_true, State.bore_raiseTrafficState, State.bore_workCondition,
    State.bore_returnPortals, State.bore_setBore_self, hcond]
  split
  · rfl
  next hc => rw [State.bore_setBore_ne _ hc]

theorem State.zone_clearOne (b : Fin 2) (h : (s.bore b).emergency = true) (y : Fin 14) :
    (State.clearOne b s).1.zone y
      = if y = interiorOf b then
          s.reconditioned (s.bore b).condition ((State.clearOne b s).1.conditionFor b) false (s.zone y)
        else s.zone y := by
  have hcond : ∀ t : State, ((t.workCondition b).raiseTrafficState b).conditionFor b = t.conditionFor b := fun t =>
    State.conditionFor_congr fun q _ => by rw [State.portal_raiseTrafficState, State.portal_workCondition]
  have hworks : s.Works ((portalsOf b).foldl State.returnPortal
      (s.setBore b { s.bore b with emergency := false, demand := (s.bore b).base })) :=
    (s.works_setBore b (by exact ⟨rfl, rfl⟩)).trans (State.works_returnPortals _ b)
  have hrec : ∀ was now e z, State.reconditioned ((portalsOf b).foldl State.returnPortal
      (s.setBore b { s.bore b with emergency := false, demand := (s.bore b).base })) was now e z
        = s.reconditioned was now e z := fun was now e z => by
    unfold State.reconditioned
    rw [State.startSupervision_congr hworks, hworks.acts.uptime]
  simp only [State.clearOne, h, if_true, State.zone_raiseTrafficState, hcond, State.zone_workCondition,
    Zone.conditionWorked_eq, State.bore_returnPortals, State.bore_setBore_self, hrec, State.zone_returnPortals,
    State.zone_setBore]

/-! ### Evaluations -/

/-- Zone j of a portal after step 6 of an evaluation that acts in `acting` (R107). -/
def State.actedZone (s : State) (p : Fin 4) (plan : Plan) (acting : PortalState) (j : Fin 3) (z : Zone) : Zone :=
  match acting with
  | .offline => z
  | .held => z.tested
  | .dryRun =>
    match (s.portal p).dryRun with
    | none => z.tested
    | some x =>
      match s.previewPlan p x with
      | none => z.tested
      | some q => Zone.tested { z with preview := some (z.previewFor ((s.previewDemands p x q).at j)) }
  | .auto => ((z.ramp (s.portal p).frozen plan.riseStep plan.fallStep ((s.liveDemands p plan).at j)).allocate s.uptime).tested
  | .emergency => ({ z with demand := 60000 } : Zone).litUp s.uptime

theorem State.zone_actAuto (p : Fin 4) (plan : Plan) (j : Fin 3) :
    (s.actAuto p plan).zone (zoneOf p j)
      = (((s.zone (zoneOf p j)).ramp (s.portal p).frozen plan.riseStep plan.fallStep
          ((s.liveDemands p plan).at j)).allocate s.uptime).tested := by
  have hup : ∀ (t : State) z f r l d, (t.driveZone z f r l d).uptime = t.uptime := fun t z f r l d =>
    (t.acts_driveZone z f r l d).uptime
  simp only [State.actAuto, State.zone_driveZone, zoneOf_inj, hup, true_and]
  fin_cases j <;> simp [Demands.at]

theorem State.zone_actEmergency (p : Fin 4) (y : Fin 14) :
    (s.actEmergency p).zone y
      = if y ∈ zonesOf p then ({ s.zone y with demand := 60000 } : Zone).litUp s.uptime else s.zone y :=
  s.zone_foldl (f := State.emergencyZone) (g := fun _ x => ({ x with demand := 60000 } : Zone).litUp s.uptime)
    (fun t z y hu => by rw [t.zone_emergencyZone z y, hu]) (fun t z => (t.acts_emergencyZone z).uptime) _
    (nodup_zonesOf p) y

theorem State.zone_actDryRun (p : Fin 4) (plan : Plan) (j : Fin 3) :
    (s.actDryRun p).zone (zoneOf p j) = s.actedZone p plan .dryRun j (s.zone (zoneOf p j)) := by
  have hmem : zoneOf p j ∈ zonesOf p := mem_zonesOf.mpr ⟨j, rfl⟩
  unfold State.actDryRun State.actedZone
  cases hx : (s.portal p).dryRun with
  | none => simp only [State.actHeld, State.zone_testZones, hmem, if_true]
  | some x =>
    cases hq : s.previewPlan p x with
    | none => simp only [hq, State.actHeld, State.zone_testZones, hmem, if_true]
    | some q =>
      simp only [hq, State.actHeld, State.zone_testZones, hmem, if_true, State.zone_previewZone, zoneOf_inj, true_and]
      fin_cases j <;> simp [Demands.at]

theorem State.zone_act (p : Fin 4) (plan : Plan) (j : Fin 3) :
    (s.act p plan).zone (zoneOf p j)
      = s.actedZone p plan (s.portal p).actingState j (s.zone (zoneOf p j)) := by
  have hmem : zoneOf p j ∈ zonesOf p := mem_zonesOf.mpr ⟨j, rfl⟩
  unfold State.act
  cases h : (s.portal p).actingState with
  | offline => rfl
  | held => simp only [State.actHeld, State.zone_testZones, hmem, if_true, State.actedZone]
  | dryRun => exact s.zone_actDryRun p plan j
  | auto => exact s.zone_actAuto p plan j
  | emergency => simp only [State.zone_actEmergency, hmem, if_true, State.actedZone]

theorem State.zone_act_ne (p : Fin 4) (plan : Plan) {y : Fin 14} (hy : y ∉ zonesOf p) :
    (s.act p plan).zone y = s.zone y := by
  have hne : ∀ j, y ≠ zoneOf p j := fun j h => hy (mem_zonesOf.mpr ⟨j, h⟩)
  have hheld : ∀ t : State, (t.actHeld p).zone y = t.zone y := fun t => by
    rw [State.actHeld, State.zone_testZones, if_neg hy]
  unfold State.act
  split
  · rfl
  · exact hheld s
  · unfold State.actDryRun
    split
    · exact hheld s
    · split
      · exact hheld s
      · simp only [hheld, State.zone_previewZone, hne, if_false]
  · simp only [State.actAuto, State.zone_driveZone, hne, if_false]
  · rw [State.zone_actEmergency, if_neg hy]

theorem State.zone_testNight (p : Fin 4) (plan : Plan) (y : Fin 14) :
    (s.testNight p plan).zone y
      = if y ∈ zonesOf p ∧ ((s.portal p).nightTested plan).night = true ∧ (s.portal p).night = false then
          { s.zone y with rotation := (s.zone y).rotation + 1 }
        else s.zone y := by
  have hturn : ∀ t : State, ((zonesOf p).foldl State.advanceRotation t).zone y
      = if y ∈ zonesOf p then { t.zone y with rotation := (t.zone y).rotation + 1 } else t.zone y := fun t =>
    t.zone_foldl (f := State.advanceRotation) (g := fun _ x => { x with rotation := x.rotation + 1 })
      (fun t z y _ => t.zone_advanceRotation z y) (fun _ _ => rfl) _ (nodup_zonesOf p) y
  have hstay : (s.portal p).nightTested plan = s.portal p →
      ¬(y ∈ zonesOf p ∧ ((s.portal p).nightTested plan).night = true ∧ (s.portal p).night = false) := fun h => by
    rw [h]
    rintro ⟨-, h1, h2⟩
    simp [h2] at h1
  by_cases hblind : (s.portal p).source = some .blind
  · have hsame : (s.portal p).nightTested plan = s.portal p := by simp [Portal.nightTested, hblind]
    rw [if_neg (hstay hsame)]
    simp [State.testNight, hblind]
  · cases ha : (s.portal p).access with
    | none =>
      have hsame : (s.portal p).nightTested plan = s.portal p := by simp [Portal.nightTested, hblind, ha]
      rw [if_neg (hstay hsame)]
      simp [State.testNight, hblind, ha]
    | some a =>
      have htest : (s.portal p).nightTested plan = (s.portal p).nightTest plan a := by
        simp [Portal.nightTested, hblind, ha]
      simp only [State.testNight, hblind, if_false, ha, htest]
      split
      next hn =>
        rw [hturn]
        simp only [Bool.and_eq_true, Bool.not_eq_true'] at hn
        simp [hn.1, hn.2]
      next hn =>
        simp only [Bool.and_eq_true, Bool.not_eq_true'] at hn
        rw [if_neg (fun h => hn h.2)]
        rfl

/-- The zone of a bore's interior after steps 2 to 6 of its evaluation (R143). -/
def State.actedInterior (s : State) (b : Fin 2) (c : InteriorCase) (was : Bool) (z : Zone) : Zone :=
  match (s.bore b).condition with
  | .driven =>
    let y := if (s.bore b).interiorNight && !was then { z with rotation := z.rotation + 1 } else z
    match c with
    | .emergency => ({ y with demand := (s.bore b).demand } : Zone).litUp s.uptime
    | .closedAuto x | .entryAuto x =>
      ((y.ramp false x.plan.riseStep x.plan.fallStep (s.bore b).demand).allocate s.uptime).tested
    | .closedIdle | .noEntry => ((y.ramp true 0 0 (s.bore b).demand).allocate s.uptime).tested
  | .held => Zone.tested { z with demand := (s.bore b).demand }
  | .released => z

theorem State.zone_interiorNightEntry (b : Fin 2) (was : Bool) (y : Fin 14) :
    (s.interiorNightEntry b was).zone y
      = if y = interiorOf b ∧ ((s.bore b).interiorNight && !was) = true then
          { s.zone y with rotation := (s.zone y).rotation + 1 }
        else s.zone y := by
  unfold State.interiorNightEntry
  by_cases hn : ((s.bore b).interiorNight && !was) = true
  · rw [if_pos hn, State.zone_advanceRotation]
    by_cases hy : y = interiorOf b
    · subst hy; simp [hn]
    · simp [hy]
  · simp [hn]

theorem State.zone_actInterior (b : Fin 2) (c : InteriorCase) (was : Bool) (y : Fin 14) :
    (s.actInterior b c was).zone y = if y = interiorOf b then s.actedInterior b c was (s.zone y) else s.zone y := by
  have hup : (s.interiorNightEntry b was).uptime = s.uptime := (s.acts_interiorNightEntry b was).uptime
  unfold State.actInterior State.actedInterior
  by_cases hy : y = interiorOf b
  · subst hy
    cases (s.bore b).condition with
    | released => simp
    | held => simp [State.zone_testShortfall]
    | driven =>
      cases c <;>
        simp [State.zone_light, State.driveInterior, InteriorCase.rates, State.zone_driveZone, hup,
          State.zone_interiorNightEntry]
  · cases (s.bore b).condition with
    | released => simp
    | held => simp [State.zone_testShortfall, State.zone_setZone, hy]
    | driven =>
      cases c <;>
        simp [State.zone_light, State.driveInterior, InteriorCase.rates, State.zone_driveZone, hy,
          State.zone_interiorNightEntry, State.zone_setZone]

end Sys2Proof.Machine
end

section
/-! SUPPORT. Invariants of the inputs: the meters (R3, R4, R10, R13) and the schedule (R24, R25). -/

namespace Sys2Proof.Machine

/-! ### Properties of the records alone -/

/-- The second state has the records of the first, but for its links and for what its pending actions are owed. -/
structure State.SameRecords (s t : State) : Prop where
  lines : t.lines = s.lines
  meters : t.meters = s.meters
  schedule : t.schedule = s.schedule
  bores : t.bores = s.bores
  zones : t.zones = s.zones
  portals : ∀ p, t.portal p = { s.portal p with action := (t.portal p).action }
  actions : ∀ p, (t.portal p).action.map PendingAction.kind = (s.portal p).action.map PendingAction.kind

theorem State.SameRecords.of_eq {s t : State} (hl : t.lines = s.lines) (hm : t.meters = s.meters)
    (hs : t.schedule = s.schedule) (hb : t.bores = s.bores) (hz : t.zones = s.zones) (hp : t.portals = s.portals) :
    s.SameRecords t := by
  have hportal : ∀ p, t.portal p = s.portal p := fun p => congrArg (fun ps => Tab.get ps p) hp
  exact ⟨hl, hm, hs, hb, hz, fun p => by rw [hportal], fun p => by rw [hportal]⟩

/-- A property of the records, kept by each effect that changes one. -/
structure KeptByWork (P : State → Prop) : Prop where
  same : ∀ s t, s.SameRecords t → P s → P t
  cold : P State.reset
  events : ∀ s p e, (s.portal p).timer = some e → P s →
    P ((s.setPortal p { s.portal p with timer := some (msAfter e 1000) }).evaluatePortal p)
  boreEvaluation : ∀ s b e, P s → P ((s.setBore b { s.bore b with timer := e }).evaluateBore b)
  gate : ∀ s m e, (s.meter m).gateEnd = some e → P s → P (s.endGate m e)
  edge : ∀ s x d, (s.line x.line).fn = .meterIn → (s.line x.line).edge = some d → P s → P (s.readPin x d)
  sample : ∀ s which pins, P s → P (s.sampleLines which pins)
  settle : ∀ s z k e, s.timerOf .settle z k = some e → P s → P (s.putCircuit z k (Circuit.settled (s.slotFeedback z k)))
  loss : ∀ s z k e, s.timerOf .loss z k = some e → P s → P (s.putCircuit z k Circuit.lost)
  burn : ∀ s, P s → P { s with zones := s.zones.mapWith fun z x => x.modWhere (s.commandActive z) Circuit.burned }
  override : ∀ s p v, (s.portal p).override = some v → P s → P (s.endOverride p v)
  stale : ∀ s b, P s → P ((s.setBore b (s.bore b).goneStale).raiseTrafficState b)
  period : ∀ s, P s → P { s with lines := s.lines.mapWith fun _ x => x.periodStart }
  writes : KeptByWrites P
  control : KeptByControl P
  defer : ∀ s kind l r p, P s → P (State.deferOne kind l r p s).1

/-- What a link restart does to the portals: the answers owed to the link are owed no longer (R116). -/
theorem State.portal_restart (s : State) (l : Link) (x : LinkRec) (p : Fin 4) :
    ({ s.setLink l x with portals := s.portals.mapWith fun _ y => y.unowed l } : State).portal p
      = (s.portal p).unowed l :=
  Tab.get_mapWith _ _ p

/-- A link restart leaves the records but for what actions are owed (R116). -/
theorem State.sameRecords_restart (s : State) (l : Link) (x : LinkRec) :
    s.SameRecords { s.setLink l x with portals := s.portals.mapWith fun _ y => y.unowed l } where
  lines := rfl
  meters := rfl
  schedule := rfl
  bores := rfl
  zones := rfl
  portals p := by
    rw [State.portal_restart]
    rfl
  actions p := by
    rw [State.portal_restart]
    unfold Portal.unowed
    cases (s.portal p).action with
    | none => rfl
    | some a => simp only [Option.map_some]; split <;> rfl

namespace KeptByWork

variable {P : State → Prop} (k : KeptByWork P)
include k

theorem of_eq {s t : State} (hl : t.lines = s.lines) (hm : t.meters = s.meters)
    (hs : t.schedule = s.schedule) (hb : t.bores = s.bores) (hz : t.zones = s.zones) (hp : t.portals = s.portals)
    (h : P s) : P t :=
  k.same s t (.of_eq hl hm hs hb hz hp) h

/-- What the links hold, time and the draws have no part in a property of the records. -/
theorem kept : Kept P fun _ => P where
  arbitrate _ := k.of_eq rfl rfl rfl rfl rfl rfl
  receive _ _ _ _ := k.of_eq rfl rfl rfl rfl rfl rfl
  gap _ _ _ _ _ := k.of_eq rfl rfl rfl rfl rfl rfl
  restart s l _ := k.same s _ (s.sameRecords_restart l _)
  mark _ _ _ := k.of_eq rfl rfl rfl rfl rfl rfl
  sent _ _ _ _ _ := k.of_eq rfl rfl rfl rfl rfl rfl
  retimed _ _ _ _ _ _ _ := k.of_eq rfl rfl rfl rfl rfl rfl
  portalEvaluation := k.events
  boreEvaluation := k.boreEvaluation
  gate := k.gate
  edge := k.edge
  sample := k.sample
  settle := k.settle
  loss := k.loss
  burn := k.burn
  override := k.override
  stale := k.stale
  period := k.period
  coldStart s held _ := k.of_eq (s := State.reset) rfl rfl rfl rfl rfl rfl k.cold
  drawn _ _ := k.of_eq rfl rfl rfl rfl rfl rfl
  pop _ _ _ _ := k.of_eq rfl rfl rfl rfl rfl rfl
  writes _ := k.writes
  control _ := k.control
  draws _ _ _ := k.of_eq rfl rfl rfl rfl rfl rfl
  mask _ _ _ := k.of_eq rfl rfl rfl rfl rfl rfl
  defer s l kind r us _ h :=
    visitAll_keeps_prop (fun p t => k.defer t kind l r p) us _ (k.of_eq (s := s) rfl rfl rfl rfl rfl rfl h)
  respond s l r x h := by
    unfold State.respond
    split
    · exact h
    · split
      · exact k.of_eq (s := s) rfl rfl rfl rfl rfl rfl h
      · exact h

theorem keptByStep (s t : State) (h : P s) (hst : Machine.step s = .next t) : P t :=
  k.kept.step (fun _ _ => k.of_eq rfl rfl rfl rfl rfl rfl) s t h hst

end KeptByWork

/-- A property of settings: the work of the shared operations keeps it. -/
theorem KeptByWork.ofWorks {P : State → Prop} (same : ∀ s t, s.SameRecords t → P s → P t) (cold : P State.reset)
    (works : ∀ s t, State.Works s t → P s → P t)
    (gate : ∀ s m e, (s.meter m).gateEnd = some e → P s → P (s.endGate m e))
    (edge : ∀ s x d, (s.line x.line).fn = .meterIn → (s.line x.line).edge = some d → P s → P (s.readPin x d))
    (sample : ∀ s which pins, P s → P (s.sampleLines which pins)) (writes : KeptByWrites P)
    (direction : ∀ s b mode, P s → P (State.directionOne mode b s).1) : KeptByWork P where
  same := same
  cold := cold
  events s p e _ := works _ _ ((s.works_setPortal p (by exact ⟨rfl, rfl, rfl, rfl, rfl⟩)).trans
    (State.works_evaluatePortal _ p))
  boreEvaluation s b e := works _ _ ((s.works_setBore b (by exact ⟨rfl, rfl⟩)).trans (State.works_evaluateBore _ b))
  gate := gate
  edge := edge
  sample := sample
  settle s z k _ _ := works _ _ (s.works_putCircuit z k (Circuit.setup_settled _))
  loss s z k _ _ := works _ _ (s.works_putCircuit z k Circuit.setup_lost)
  burn s := works _ _ s.works_burn
  override s p v _ := works _ _ (s.works_endOverride p v)
  stale s b := works _ _ (s.works_goneStale b)
  period s := works _ _ s.works_period
  writes := writes
  control := .ofWorks works direction
  defer s kind l r p := works _ _ (s.works_deferOne kind l r p)

/-! ### A meter record in its ranges (R3, R10, R11) -/

/-- The setup of a meter record lies in its ranges (R13). -/
def Meter.setupInRange (x : Meter) : Prop :=
  x.gate % 100 = 0 ∧ 100 ≤ x.gate ∧ x.gate ≤ 2000 ∧ 1000 ≤ x.span ∧ x.span ≤ 9999 ∧ 1 ≤ x.weight ∧ x.weight ≤ 16

theorem Meter.inRange_iff (x : Meter) :
    x.inRange = true ↔ x.setupInRange ∧ x.invalidCount ≤ 3 ∧ x.validCount ≤ 5
      ∧ (∀ f, x.filtered = some f → f ≤ x.span) ∧ x.gateCount ≤ 65535 ∧ x.ring.length ≤ 16 := by
  simp only [Meter.inRange, Meter.setupInRange, Bool.and_eq_true, decide_eq_true_eq, beq_iff_eq, Option.all_eq_true,
    and_assoc]

theorem sampleValue_le {gate span count v : Nat} (h : sampleValue gate span count = some v) :
    v ≤ span := by
  unfold sampleValue at h
  split at h
  case h_1 | h_2 => cases h
  case h_3 => cases h; exact Nat.zero_le _
  case h_5 => cases h; exact le_rfl
  case h_4 hflag =>
    cases h
    have hcount : count * 1000 ≤ 11000 * gate := by
      unfold sampleFlag at hflag
      split at hflag <;> try cases hflag
      split at hflag <;> try cases hflag
      split at hflag
      · assumption
      · split at hflag <;> cases hflag
    rw [Nat.mul_comm]
    exact roundDiv_mul_le span (by omega)

theorem filterStep_le {weight f v span : Nat} (hw : weight ≤ 16) (hf : f ≤ span) (hv : v ≤ span) :
    filterStep weight f v ≤ span := by
  have h1 : f * (16 - weight) ≤ span * (16 - weight) := Nat.mul_le_mul_right _ hf
  have h2 : v * weight ≤ span * weight := Nat.mul_le_mul_right _ hv
  have h3 : span * (16 - weight) + span * weight = span * 16 := by rw [← Nat.mul_add]; congr 1; omega
  unfold filterStep
  omega

theorem length_ringPush_le (ring : List Sample) (x : Sample) : (ringPush ring x).length ≤ 16 := by
  simp only [ringPush, List.length_drop, List.length_append, List.length_singleton]
  omega

/-- What a judged sample leaves of a running meter: ranges, a status with what it asks for, setup and gate. -/
theorem Meter.judge_fits {y : Meter} {v : Option Nat} (hr : y.inRange = true) (hs : y.status ≠ .unconfigured)
    (hg : y.gateEnd.isSome = true) (hf : y.status = .valid → y.filtered.isSome = true) (hv : ∀ a, v = some a → a ≤ y.span) :
    (y.judge v).inRange = true ∧ (y.judge v).fitsStatus = true ∧ (y.judge v).status ≠ .unconfigured
      ∧ (y.judge v).line = y.line := by
  obtain ⟨hsetup, hinv, hval, hfilt, hcount, hring⟩ := y.inRange_iff.mp hr
  have hw : y.weight ≤ 16 := hsetup.2.2.2.2.2.2
  have hi : min 3 (y.invalidCount + 1) ≤ 3 := min_le_left _ _
  have hc : min 5 (y.validCount + 1) ≤ 5 := min_le_left _ _
  simp only [Meter.inRange_iff, Meter.setupInRange] at hsetup ⊢
  cases v with
  | none =>
    unfold Meter.judge Meter.counted Meter.takeInvalid
    cases hst : y.status <;> simp_all [Meter.fitsStatus] <;> split <;> simp_all
  | some a =>
    have ha := hv a rfl
    unfold Meter.judge Meter.counted Meter.takeValid
    cases hst : y.status with
    | unconfigured => exact absurd hst hs
    | starting => simp_all [Meter.fitsStatus]
    | faulty => simp_all [Meter.fitsStatus]; split <;> simp_all
    | valid =>
      have hsome := hf hst
      obtain ⟨f, hfe⟩ := Option.isSome_iff_exists.mp hsome
      have hstep := filterStep_le hw (hfilt f hfe) ha
      simp_all [Meter.fitsStatus]

theorem Meter.gateExpired_fits {x : Meter} {e : Uptime} (hr : x.inRange = true) (hf : x.fitsStatus = true)
    (hg : x.gateEnd.isSome = true) :
    (x.gateExpired e).inRange = true ∧ (x.gateExpired e).fitsStatus = true
      ∧ (x.gateExpired e).status ≠ .unconfigured ∧ x.status ≠ .unconfigured ∧ (x.gateExpired e).line = x.line := by
  have hs : x.status ≠ .unconfigured := fun h => by
    rw [Option.isSome_iff_ne_none] at hg
    simp [Meter.fitsStatus, h, hg] at hf
  obtain ⟨hsetup, hinv, hval, hfilt, hcount, -⟩ := x.inRange_iff.mp hr
  have hy := Meter.judge_fits (y := { x with
      ring := ringPush x.ring ⟨e, x.gateCount, sampleFlag x.gate x.gateCount⟩
      gateCount := 0
      gateEnd := some (msAfter e x.gate) })
    (v := sampleValue x.gate x.span x.gateCount)
    ((Meter.inRange_iff _).mpr ⟨hsetup, hinv, hval, hfilt, Nat.zero_le _, length_ringPush_le _ _⟩) hs rfl
    (fun hv => by
      simp only at hv
      simp only [Meter.fitsStatus, hv, Bool.and_eq_true] at hf
      exact hf.2)
    (fun a ha => sampleValue_le ha)
  exact ⟨hy.1, hy.2.1, hy.2.2.1, hs, hy.2.2.2⟩

/-- A restart leaves a record in its ranges, with the status that its configuration gives (R4, R13). -/
theorem Meter.restarted_fits {x : Meter} (h : x.setupInRange) (now : Uptime) (configured : Bool) :
    (x.restarted now configured).inRange = true ∧ (x.restarted now configured).fitsStatus = true
      ∧ (configured = true ↔ (x.restarted now configured).status ≠ .unconfigured) := by
  refine ⟨(Meter.inRange_iff _).mpr ?_, ?_, ?_⟩ <;>
    cases configured <;> simp_all [Meter.restarted, Meter.started, Meter.unconfigured, Meter.discarded, Meter.fitsStatus,
      Meter.setupInRange]

theorem meterSetupOf_inRange {body : List Octet} {u : MeterSetup} (h : meterSetupOf body = some u) (x : Meter) :
    (x.withSetup u).setupInRange := by
  unfold meterSetupOf at h
  split at h
  · cases h
  · dsimp only at h
    split at h
    next hr =>
      cases h
      exact hr
    · cases h

/-! ### Every step keeps the meters fit -/

/-- Meter `m` is in its ranges and fits its status, which is UNCONFIGURED exactly where the meter is (R3, R4). -/
def State.MeterFits (s : State) (m : Fin 4) : Prop :=
  (s.meter m).inRange = true ∧ (s.meter m).fitsStatus = true
    ∧ (s.meterConfigured m = true ↔ (s.meter m).status ≠ .unconfigured)

/-- No two meters name one line (R13). -/
def State.MeterLinesOwn (s : State) : Prop :=
  ∀ m k, m ≠ k → (s.meter m).line.isSome = true → (s.meter m).line ≠ (s.meter k).line

theorem State.metersFit_iff (s : State) : s.MetersFit ↔ (∀ m, s.MeterFits m) ∧ s.MeterLinesOwn := Iff.rfl

theorem State.meterConfigured_eq (s : State) (m : Fin 4) :
    s.meterConfigured m = (s.meter m).line.any fun i => (s.line i).fn == .meterIn := by
  unfold State.meterConfigured
  cases (s.meter m).line <;> rfl

theorem State.MeterFits.congr {s t : State} {m : Fin 4} (h : s.MeterFits m) (hm : t.meter m = s.meter m)
    (hl : ∀ i, (s.meter m).line = some i → ((t.line i).fn = .meterIn ↔ (s.line i).fn = .meterIn)) : t.MeterFits m := by
  have hconf : t.meterConfigured m = s.meterConfigured m := by
    rw [State.meterConfigured_eq, State.meterConfigured_eq, hm]
    cases hi : (s.meter m).line with
    | none => rfl
    | some i =>
      rw [Option.any_some, Option.any_some, Bool.eq_iff_iff, beq_iff_eq, beq_iff_eq]
      exact hl i hi
  unfold State.MeterFits
  rw [hconf, hm]
  exact h

theorem State.MetersFit.congr {s t : State} (h : s.MetersFit) (hm : t.meters = s.meters)
    (hl : ∀ i, (t.line i).fn = (s.line i).fn) : t.MetersFit := by
  have hmeter : ∀ m, t.meter m = s.meter m := fun m => congrArg (fun ms => Tab.get ms m) hm
  refine ⟨fun m => State.MeterFits.congr (h.1 m) (hmeter m) fun i _ => by rw [hl], fun m k hne hsome => ?_⟩
  rw [hmeter] at hsome ⊢
  rw [hmeter]
  exact h.2 m k hne hsome

theorem Line.SameSetting.fn {x y : Line} (h : x.SameSetting y) : y.fn = x.fn := by
  rw [h]

theorem State.meter_restartMeter (s : State) (m k : Fin 4) :
    (s.restartMeter m).meter k
      = if k = m then (s.meter m).restarted s.uptime (s.meterConfigured m) else s.meter k := by
  rw [State.restartMeter, State.raiseMeterState, State.meter_raise, State.meter_setMeter]

/-- A restart of one meter mends that meter, where the others fit. -/
theorem State.MetersFit.restart {s : State} {m : Fin 4} (hsetup : (s.meter m).setupInRange)
    (hother : ∀ k, k ≠ m → s.MeterFits k) (hlines : s.MeterLinesOwn) : (s.restartMeter m).MetersFit := by
  have hline : ∀ k, ((s.restartMeter m).meter k).line = (s.meter k).line := fun k => by
    rw [State.meter_restartMeter]
    split
    next hk => rw [hk]; exact (Meter.restarted_setup _ _ _).1
    next => rfl
  refine ⟨fun k => ?_, fun k j hne hsome => ?_⟩
  · by_cases hk : k = m
    · subst hk
      have hconf : (s.restartMeter k).meterConfigured k = s.meterConfigured k := by
        rw [State.meterConfigured_eq, State.meterConfigured_eq, hline]
        rfl
      have hfit := Meter.restarted_fits hsetup s.uptime (s.meterConfigured k)
      rw [hconf, State.meter_restartMeter, if_pos rfl]
      exact hfit
    · exact State.MeterFits.congr (hother k hk) (by rw [State.meter_restartMeter, if_neg hk]) fun _ _ => Iff.rfl
  · rw [hline] at hsome ⊢
    rw [hline]
    exact hlines k j hne hsome

theorem State.meterOf_eq_some {s : State} {i : Fin 192} {m : Fin 4} (h : s.meterOf i = some m) :
    (s.meter m).line = some i := by
  simpa using List.find?_some h

theorem State.meterOf_eq_none {s : State} {i : Fin 192} (h : s.meterOf i = none) (m : Fin 4) :
    (s.meter m).line ≠ some i := by
  simpa using List.find?_eq_none.mp h m (List.mem_finRange m)

theorem State.fn_setLine_written (s : State) (i j : Fin 192) (fn : LineFn) (invert : Bool) :
    ((s.setLine i (Line.written fn invert)).line j).fn = if j = i then fn else (s.line j).fn := by
  rw [State.line_setLine]
  split <;> rfl

theorem State.MetersFit.writeLine {s : State} (h : s.MetersFit) (fn : LineFn) (invert : Bool) (i : Fin 192) :
    (s.writeLine fn invert i).MetersFit := by
  have hfn : ∀ m j, (s.meter m).line = some j → (s.meter m).line ≠ some i →
      (((s.setLine i (Line.written fn invert)).line j).fn = .meterIn ↔ (s.line j).fn = .meterIn) := fun m j hj hi => by
    rw [State.fn_setLine_written, if_neg]
    rintro rfl
    exact hi hj
  obtain ⟨-, heq⟩ | ⟨-, ⟨heq, hcross⟩ | ⟨m, -, hm, heq⟩⟩ := State.writeLine_cases fn invert s i <;> rw [heq]
  · exact h
  · refine ⟨fun m => State.MeterFits.congr (h.1 m) rfl fun j hj => ?_, h.2⟩
    by_cases hi : (s.meter m).line = some i
    · obtain hsame | hnone := hcross
      · rw [hi, Option.some.injEq] at hj
        subst hj
        rw [State.fn_setLine_written, if_pos rfl]
        exact hsame.symm
      · exact absurd hi (State.meterOf_eq_none hnone m)
    · exact hfn m j hj hi
  · have hline := State.meterOf_eq_some hm
    refine State.MetersFit.restart ((Meter.inRange_iff _).mp (h.1 m).1).1 (fun k hk => ?_) h.2
    refine State.MeterFits.congr (h.1 k) rfl fun j hj => hfn k j hj fun hki => ?_
    exact h.2 m k (Ne.symm hk) (by rw [hline]; rfl) (hline.trans hki.symm)

theorem State.MetersFit.meterSetup {s : State} (h : s.MetersFit) {m : Fin 4} {body : List Octet} {u : MeterSetup}
    (hu : meterSetupOf body = some u) (htaken : s.lineTaken m u.line = false) :
    ((s.setMeter m ((s.meter m).withSetup u)).restartMeter m).MetersFit := by
  have hfree : u.line.isSome = true → ∀ k, k ≠ m → (s.meter k).line ≠ u.line := fun hsome k hk heq => by
    have : s.lineTaken m u.line = true := by
      simp only [State.lineTaken, hsome, Bool.true_and, List.any_eq_true]
      exact ⟨k, List.mem_finRange k, by simp [hk, heq]⟩
    rw [htaken] at this
    cases this
  refine State.MetersFit.restart ?_ (fun k hk => ?_) fun a b hne hsome => ?_
  · rw [State.meter_setMeter_self]
    exact meterSetupOf_inRange hu _
  · exact State.MeterFits.congr (h.1 k) (State.meter_setMeter_ne _ hk _) fun _ _ => Iff.rfl
  · rw [State.meter_setMeter] at hsome ⊢
    rw [State.meter_setMeter]
    by_cases ha : a = m
    · have hb : b ≠ m := fun hb => hne (ha.trans hb.symm)
      simp only [ha, if_true, hb, if_false] at hsome ⊢
      exact (hfree hsome b hb).symm
    · by_cases hb : b = m
      · simp only [ha, hb, if_true, if_false] at hsome ⊢
        intro heq
        exact hfree (by change (Meter.withSetup (s.meter m) u).line.isSome = true; rw [← heq]; exact hsome) a ha heq
      · simp only [ha, hb, if_false] at hsome ⊢
        exact h.2 a b hne hsome

/-- A meter changed in its own record alone, its line kept, keeps the meters fit where it fits. -/
theorem State.MetersFit.setMeter {s : State} (h : s.MetersFit) {m : Fin 4} {x : Meter} (hx : x.inRange = true)
    (hf : x.fitsStatus = true) (hline : x.line = (s.meter m).line)
    (hs : x.status ≠ .unconfigured ↔ (s.meter m).status ≠ .unconfigured) : (s.setMeter m x).MetersFit := by
  have hlines : ∀ k, ((s.setMeter m x).meter k).line = (s.meter k).line := fun k => by
    rw [State.meter_setMeter]
    split
    next hk => rw [hline, hk]
    next => rfl
  refine ⟨fun k => ?_, fun k j hne hsome => ?_⟩
  · by_cases hk : k = m
    · subst hk
      have hconf : (s.setMeter k x).meterConfigured k = s.meterConfigured k := by
        rw [State.meterConfigured_eq, State.meterConfigured_eq, hlines]
        rfl
      rw [hconf, State.meter_setMeter_self]
      exact ⟨hx, hf, (h.1 k).2.2.trans hs.symm⟩
    · exact State.MeterFits.congr (h.1 k) (State.meter_setMeter_ne _ hk _) fun _ _ => Iff.rfl
  · rw [hlines] at hsome ⊢
    rw [hlines]
    exact h.2 k j hne hsome

theorem State.MetersFit.endGate {s : State} (h : s.MetersFit) {m : Fin 4} {e : Uptime} (he : (s.meter m).gateEnd = some e) :
    (s.endGate m e).MetersFit := by
  obtain ⟨hr, hf, hs, hwas, hline⟩ := Meter.gateExpired_fits (h.1 m).1 (h.1 m).2.1 (e := e) (by rw [he]; rfl)
  have hset := h.setMeter hr hf hline (iff_of_true hs hwas)
  unfold State.endGate
  dsimp only
  split
  · exact hset
  · exact State.MetersFit.congr hset rfl fun _ => rfl

theorem State.MetersFit.readPin {s : State} (h : s.MetersFit) (x : PinReading) (d : EdgeDetector) :
    (s.readPin x d).MetersFit := by
  have hpin : ((s.setPin x.line x.level).setLine x.line
      { s.line x.line with edge := some (d.read ((s.line x.line).raw x.level) x.periods) }).MetersFit :=
    State.MetersFit.congr h rfl fun i => by
      rw [State.line_setLine]
      split
      next hi => rw [hi]
      next => rfl
  obtain heq | ⟨-, m, -, heq⟩ := s.readPin_cases x d <;> rw [heq]
  · exact hpin
  · obtain ⟨hr, hf, -⟩ := h.1 m
    refine State.MetersFit.setMeter hpin ?_ hf rfl Iff.rfl
    rw [Meter.inRange_iff] at hr ⊢
    obtain ⟨hsetup, hinv, hval, hfilt, hcount, hring⟩ := hr
    exact ⟨hsetup, hinv, hval, hfilt, min_le_left _ _, hring⟩

theorem reset_metersFit : State.reset.MetersFit := by
  have hmeter : ∀ m, State.reset.meter m = Meter.cold := fun m => Tab.get_fill _ m
  refine ⟨fun m => ?_, fun m k _ hsome => ?_⟩
  · rw [State.meterConfigured_eq, hmeter]
    exact ⟨by decide, by decide, by decide⟩
  · rw [hmeter] at hsome
    cases hsome

theorem metersFit_kept : KeptByWork State.MetersFit :=
  .ofWorks
    (same := fun _ _ h hs => State.MetersFit.congr hs h.meters fun i => by rw [State.line, h.lines]; rfl)
    (cold := reset_metersFit)
    (works := fun _ _ h hs => State.MetersFit.congr hs h.acts.meters fun i => (h.lines i).fn)
    (gate := fun _ _ _ he hs => hs.endGate he)
    (edge := fun _ x d _ _ hs => hs.readPin x d)
    (sample := fun s which pins hs => State.MetersFit.congr hs rfl fun i => by
      rw [State.line_sampleLines]
      split
      · obtain ⟨heq, -⟩ | ⟨n, -, -, ⟨-, heq⟩ | ⟨-, -, heq⟩ | ⟨-, -, -, heq⟩⟩ :=
          (s.line i).sampled_cases (pins.getLsbD i.val) <;> rw [heq]
      · rfl)
    (writes :=
      { writeLine := fun _ fn invert i _ hs => hs.writeLine fn invert i
        meterSetup := fun _ _ _ _ hu htaken _ hs => hs.meterSetup hu htaken
        portalSetup := fun _ _ _ _ _ _ _ _ hs => State.MetersFit.congr hs rfl fun _ => rfl
        zoneSetup := fun s z _ u _ _ hs => State.MetersFit.congr hs
          ((s.acts_setZone z _).trans (State.acts_raiseFaultChange _ z _)).meters fun _ => by simp
        plan := fun s p _ w _ hs => by
          unfold State.writePlan
          split <;> exact State.MetersFit.congr hs rfl fun _ => rfl
        schedule := fun _ _ _ _ hs => State.MetersFit.congr hs rfl fun _ => rfl
        boreSetup := fun _ _ _ hs => State.MetersFit.congr hs rfl fun _ => rfl
        clock := fun _ _ hs => State.MetersFit.congr hs rfl fun _ => rfl })
    (direction := fun s b mode hs => State.MetersFit.congr hs (s.acts_directionOne mode b).meters fun i => by
      unfold State.directionOne
      dsimp only
      split <;> rfl)

/-- Settles O53: a restart mends the meter whose line or setup changed, and a judged sample stays in the ranges. -/
theorem everyStepKeepsTheMetersFit : Obligations.EveryStepKeepsTheMetersFit :=
  metersFit_kept.keptByStep

/-! ### The schedule (R24, R25) -/

theorem insertWindow_perm (w : Window) (ws : List Window) : (insertWindow w ws).Perm (w :: ws) := by
  induction ws with
  | nil => rfl
  | cons x xs ih =>
    unfold insertWindow
    split
    · rfl
    · exact (ih.cons x).trans (.swap w x xs)

theorem sortWindows_perm (ws : List Window) : (sortWindows ws).Perm ws := by
  induction ws with
  | nil => rfl
  | cons w ws ih => exact (insertWindow_perm w _).trans (ih.cons w)

theorem length_windowsOf (n : Nat) (os : List Octet) : (windowsOf n os).length = n := by
  induction n generalizing os with
  | zero => rfl
  | succ n ih => simp [windowsOf, ih]

theorem State.ScheduleFit.congr {s t : State} (h : s.ScheduleFit) (hs : t.schedule = s.schedule) : t.ScheduleFit := by
  unfold State.ScheduleFit
  rw [hs]
  exact h

theorem scheduleOf_fit {body : List Octet} {ws : List Window} (h : scheduleOf body = some ws) :
    ws.length ≤ 24 ∧ ws.all Window.inRange = true ∧ noOverlap ws = true ∧ noWrapOverlap ws = true := by
  unfold scheduleOf at h
  dsimp only at h
  split at h
  next hc =>
    obtain ⟨hn, hall, hover, hwrap⟩ := hc
    cases h
    have hperm := sortWindows_perm (windowsOf (body.getD 0 0).toNat (body.drop 1))
    refine ⟨?_, ?_, hover, hwrap⟩
    · rw [hperm.length_eq, length_windowsOf]
      exact hn
    · rw [List.all_eq_true] at hall ⊢
      exact fun w hw => hall w (hperm.mem_iff.mp hw)
  · cases h

theorem scheduleFit_kept : KeptByWork State.ScheduleFit :=
  .ofWorks
    (same := fun _ _ h hs => State.ScheduleFit.congr hs h.schedule)
    (cold := ⟨by decide, rfl, rfl, rfl⟩)
    (works := fun _ _ h hs => State.ScheduleFit.congr hs h.acts.schedule)
    (gate := fun s m e _ hs => State.ScheduleFit.congr hs (by
      unfold State.endGate
      dsimp only
      split <;> rfl))
    (edge := fun s x d _ _ hs => State.ScheduleFit.congr hs (by
      obtain heq | ⟨-, m, -, heq⟩ := s.readPin_cases x d <;> rw [heq] <;> rfl))
    (sample := fun _ _ _ hs => State.ScheduleFit.congr hs rfl)
    (writes :=
      { writeLine := fun s fn invert i _ hs => State.ScheduleFit.congr hs (by
          obtain ⟨-, h⟩ | ⟨-, ⟨h, -⟩ | ⟨m, -, -, h⟩⟩ := State.writeLine_cases fn invert s i <;> rw [h] <;> rfl)
        meterSetup := fun _ _ _ _ _ _ _ hs => State.ScheduleFit.congr hs rfl
        portalSetup := fun _ _ _ _ _ _ _ _ hs => State.ScheduleFit.congr hs rfl
        zoneSetup := fun s z _ u _ _ hs => State.ScheduleFit.congr hs
          ((s.acts_setZone z _).trans (State.acts_raiseFaultChange _ z _)).schedule
        plan := fun s p _ w _ hs => by
          unfold State.writePlan
          split <;> exact State.ScheduleFit.congr hs rfl
        schedule := fun _ _ _ hws _ => scheduleOf_fit hws
        boreSetup := fun _ _ _ hs => State.ScheduleFit.congr hs rfl
        clock := fun _ _ hs => State.ScheduleFit.congr hs rfl })
    (direction := fun s b mode hs => State.ScheduleFit.congr hs (s.acts_directionOne mode b).schedule)

/-- Each window ends at or before the start of every later one. -/
theorem pairwise_of_noOverlap {ws : List Window} (h : noOverlap ws = true) :
    ws.Pairwise fun v w => v.start + v.width ≤ w.start := by
  induction ws with
  | nil => exact .nil
  | cons x xs ih =>
    cases xs with
    | nil => simp
    | cons y rest =>
      simp only [noOverlap, Bool.and_eq_true, decide_eq_true_eq] at h
      have htail := ih h.2
      refine List.pairwise_cons.mpr ⟨fun w hw => ?_, htail⟩
      obtain rfl | hw := List.mem_cons.mp hw
      · exact h.1
      · have := (List.pairwise_cons.mp htail).1 w hw
        omega

/-- In a fit schedule every window ends within a day of every earlier one's start. -/
theorem end_le_of_noWrapOverlap {ws : List Window} (hp : ws.Pairwise fun v w => v.start + v.width ≤ w.start)
    (hw : noWrapOverlap ws = true) {v w : Window} (hv : v ∈ ws) (hmem : w ∈ ws) : w.start + w.width ≤ v.start + 1440 := by
  have hne : ws ≠ [] := List.ne_nil_of_mem hv
  have hwrap : (ws.getLast hne).start + (ws.getLast hne).width ≤ (ws.head hne).start + 1440 := by
    simpa [noWrapOverlap, List.head?_eq_some_head hne, List.getLast?_eq_some_getLast hne] using hw
  have hhead : (ws.head hne).start ≤ v.start := by
    obtain ⟨x, xs, rfl⟩ := List.exists_cons_of_ne_nil hne
    obtain rfl | hv := List.mem_cons.mp hv
    · exact le_rfl
    · have := (List.pairwise_cons.mp hp).1 v hv
      simp only [List.head_cons]
      omega
  have hlast : w.start + w.width ≤ (ws.getLast hne).start + (ws.getLast hne).width := by
    rw [← List.dropLast_append_getLast hne, List.mem_append, List.mem_singleton] at hmem
    obtain hmem | rfl := hmem
    · rw [← List.dropLast_append_getLast hne, List.pairwise_append] at hp
      have := hp.2.2 w hmem _ (List.mem_singleton.mpr rfl)
      omega
    · exact le_rfl
  omega

/-- Settles O54: a stored list comes sorted and judged from its write; its windows, each ending at or before the next and
the last within a day of the first, leave no minute to two. -/
theorem everyStepKeepsTheScheduleFit : Obligations.EveryStepKeepsTheScheduleFit := by
  intro s t hs
  obtain ⟨-, hrange, hover, hwrap⟩ := id hs
  have hp := pairwise_of_noOverlap hover
  have hin : ∀ w ∈ s.schedule, w.start ≤ 1439 ∧ 1 ≤ w.width ∧ w.width ≤ 1440 := fun w hw => by
    have := List.all_eq_true.mp hrange w hw
    simp only [Window.inRange, Bool.and_eq_true, decide_eq_true_eq] at this
    exact ⟨this.1.1.1, this.1.1.2, this.1.2⟩
  refine ⟨scheduleFit_kept.keptByStep s t hs, ?_, ?_⟩
  · refine hp.imp_of_mem fun {v w} hv _ h => ?_
    have := hin v hv
    omega
  · refine hp.imp_of_mem fun {v w} hv hw h minute hm hboth => ?_
    have hv' := hin v hv
    have hw' := hin w hw
    have hend := end_le_of_noWrapOverlap hp hwrap hv hw
    simp only [Window.covers, decide_eq_true_eq] at hboth
    omega

end Sys2Proof.Machine
end

section
/-! SUPPORT. Pending actions taking effect, record by record, and the invariants of the portal channels and bore units:
interior conditions (R139), portal records (R105, R109, R114, R117, R118, R123), partners (R21). -/

namespace Sys2Proof.Machine

/-! ### Step 1 of an evaluation, record by record (R110 to R112) -/

section
variable (s : State)

theorem State.portal_holdNow (p : Fin 4) (a : PendingAction) (q : Fin 4) :
    (s.holdNow p a).portal q
      = if q = p then { s.portal p with state := .held, action := none } else s.portal q := by
  simp only [State.holdNow, State.portal_workCondition, State.portal_answerAction, State.portal_removeAction,
    State.portal_raisePortalState, State.portal_setPortalState]
  split <;> simp

theorem State.portal_releaseNow (p : Fin 4) (a : PendingAction) (q : Fin 4) :
    (s.releaseNow p a).portal q
      = if q = p then
          if (s.bore (boreOf p)).emergency then { s.portal p with action := none, dryRun := none, state := .emergency }
          else { s.portal p with state := .auto, action := none }
        else s.portal q := by
  unfold State.releaseNow
  split
  · simp only [State.portal_workCondition, State.portal_enterEmergency, State.portal_answerAction,
      State.portal_removeAction]
    split <;> simp
  · simp only [State.portal_workCondition, State.portal_answerAction, State.portal_removeAction,
      State.portal_raisePortalState, State.portal_setPortalState]
    split <;> simp

/-- A stop of its bore's portal changes no bore but for the condition of its own. -/
theorem State.bore_holdNow (p : Fin 4) (a : PendingAction) (b : Fin 2) :
    (s.holdNow p a).bore b
      = if b = boreOf p then { s.bore b with condition := (s.holdNow p a).conditionFor b } else s.bore b := by
  simp only [State.holdNow, State.bore_workCondition, State.conditionFor_workCondition, State.bore_answerAction,
    State.bore_removeAction, State.bore_raisePortalState, State.bore_setPortalState]
  split
  next h => rw [h]
  next => rfl

theorem State.bore_releaseNow (p : Fin 4) (a : PendingAction) (b : Fin 2) :
    (s.releaseNow p a).bore b
      = if b = boreOf p then { s.bore b with condition := (s.releaseNow p a).conditionFor b } else s.bore b := by
  unfold State.releaseNow
  split
  · simp only [State.bore_workCondition, State.conditionFor_workCondition, State.bore_enterEmergency,
      State.bore_answerAction, State.bore_removeAction]
    split
    next h => rw [h]
    next => rfl
  · simp only [State.bore_workCondition, State.conditionFor_workCondition, State.bore_answerAction,
      State.bore_removeAction, State.bore_raisePortalState, State.bore_setPortalState]
    split
    next h => rw [h]
    next => rfl

theorem State.conditionFor_stopped (p : Fin 4) (a : PendingAction) (d : Disposition) (b : Fin 2) :
    (((s.enterOffline p).removeAction p).answerAction p a d).conditionFor b = (s.enterOffline p).conditionFor b :=
  State.conditionFor_congr fun q _ => by
    rw [State.portal_answerAction, State.portal_removeAction]
    split
    next h => rw [h]
    next => rfl

end

/-! ### Channels: what the portals and bores hold beside sources of traffic and direction -/

/-- The two states have the same portal records, but for what their pending actions are owed, and the same conditions,
emergency flags and interior demands of the bores. -/
structure State.SameChannels (s t : State) : Prop where
  portals : ∀ p, t.portal p = { s.portal p with action := (t.portal p).action }
  actions : ∀ p, (t.portal p).action.map PendingAction.kind = (s.portal p).action.map PendingAction.kind
  condition : ∀ b, (t.bore b).condition = (s.bore b).condition
  emergency : ∀ b, (t.bore b).emergency = (s.bore b).emergency
  demands : ∀ b, (t.bore b).demand = (s.bore b).demand ∧ (t.bore b).base = (s.bore b).base

theorem State.SameChannels.of_portals {s t : State} (hp : ∀ p, t.portal p = s.portal p)
    (hb : ∀ b, t.bore b = s.bore b) : s.SameChannels t :=
  ⟨fun p => by rw [hp], fun p => by rw [hp], fun b => by rw [hb], fun b => by rw [hb],
   fun b => by rw [hb]; exact ⟨rfl, rfl⟩⟩

theorem State.SameChannels.of_eq {s t : State} (hp : t.portals = s.portals) (hb : t.bores = s.bores) : s.SameChannels t :=
  .of_portals (fun p => congrArg (fun ps => Tab.get ps p) hp) fun b => congrArg (fun bs => Tab.get bs b) hb

theorem State.SameChannels.setBore {s : State} {b : Fin 2} {x : Bore} (hc : x.condition = (s.bore b).condition)
    (he : x.emergency = (s.bore b).emergency) (hd : x.demand = (s.bore b).demand) (hi : x.base = (s.bore b).base) :
    s.SameChannels (s.setBore b x) where
  portals _ := rfl
  actions _ := rfl
  condition c := by
    rw [State.bore_setBore]
    split
    next h => rw [h, hc]
    next => rfl
  emergency c := by
    rw [State.bore_setBore]
    split
    next h => rw [h, he]
    next => rfl
  demands c := by
    rw [State.bore_setBore]
    split
    next h => rw [h, hd, hi]; exact ⟨rfl, rfl⟩
    next => exact ⟨rfl, rfl⟩

theorem State.SameChannels.trans {s t u : State} (h : s.SameChannels t) (k : t.SameChannels u) : s.SameChannels u where
  portals p := by rw [k.portals, h.portals]
  actions p := (k.actions p).trans (h.actions p)
  condition b := (k.condition b).trans (h.condition b)
  emergency b := (k.emergency b).trans (h.emergency b)
  demands b := ⟨(k.demands b).1.trans (h.demands b).1, (k.demands b).2.trans (h.demands b).2⟩

/-- A property of the channels, kept by each effect that changes one. -/
structure KeptByChannels (P : State → Prop) : Prop where
  same : ∀ s t, s.SameChannels t → P s → P t
  cold : P State.reset
  portalEvaluation : ∀ s p e, (s.portal p).timer = some e → P s →
    P ((s.setPortal p { s.portal p with timer := some (msAfter e 1000) }).evaluatePortal p)
  boreEvaluation : ∀ s b e, P s → P ((s.setBore b { s.bore b with timer := e }).evaluateBore b)
  override : ∀ s p v, (s.portal p).override = some v → P s → P (s.endOverride p v)
  portalSetup : ∀ s p body m q f, (s.portal p).state = .offline → portalSetupOf body = some (m, q, f) → P s →
    P (s.setPortal p { s.portal p with meter := m, partner := q, factor := f })
  plan : ∀ s p body w, planWriteOf body = some w → P s → P (s.writePlan w p).1
  commission : ∀ s p, P s → P (s.commissionOne p).1
  stop : ∀ s p, P s → P (State.stopOne p s).1
  setOverride : ∀ s p body v n, overrideKindOf body = some v → P s → P (State.overrideOne v.1 v.2 n p s).1
  clearOverride : ∀ s p, P s → P (State.unoverrideOne p s).1
  dryRun : ∀ s p x, P s → P (State.dryRunOne x p s).1
  dryInput : ∀ s p x, P s → P (State.dryInputOne x p s).1
  dryStop : ∀ s p, P s → P (State.dryStopOne p s).1
  emergency : ∀ s b, P s → P (State.emergencyOne b s).1
  clear : ∀ s b, P s → P (State.clearOne b s).1
  defer : ∀ s kind l r p, P s → P (State.deferOne kind l r p s).1

theorem KeptByChannels.keptByWork {P : State → Prop} (k : KeptByChannels P) : KeptByWork P where
  same s t h := k.same s t
    ⟨h.portals, h.actions, fun b => by rw [State.bore, h.bores]; rfl, fun b => by rw [State.bore, h.bores]; rfl,
     fun b => by rw [State.bore, h.bores]; exact ⟨rfl, rfl⟩⟩
  cold := k.cold
  events := k.portalEvaluation
  boreEvaluation := k.boreEvaluation
  gate s m e _ := k.same _ _ (.of_portals
    (fun p => by unfold State.endGate; dsimp only; split <;> rfl)
    fun b => by unfold State.endGate; dsimp only; split <;> rfl)
  edge s x d _ _ := k.same _ _ (.of_eq (s.readPin_links x d).2 (by
    obtain heq | ⟨-, m, -, heq⟩ := s.readPin_cases x d <;> rw [heq] <;> rfl))
  sample _ _ _ := k.same _ _ (.of_eq rfl rfl)
  settle s z i _ _ := k.same _ _ (.of_portals (fun p => by simp [State.putCircuit]) fun b => by simp [State.putCircuit])
  loss s z i _ _ := k.same _ _ (.of_portals (fun p => by simp [State.putCircuit]) fun b => by simp [State.putCircuit])
  burn _ := k.same _ _ (.of_eq rfl rfl)
  override := k.override
  stale s b := k.same _ _ ((State.SameChannels.setBore (x := (s.bore b).goneStale) rfl rfl rfl rfl).trans
    (.of_eq rfl rfl))
  period _ := k.same _ _ (.of_eq rfl rfl)
  writes :=
    { writeLine := fun s fn invert i _ => k.same _ _ (.of_eq
        (by obtain ⟨-, h⟩ | ⟨-, ⟨h, -⟩ | ⟨m, -, -, h⟩⟩ := State.writeLine_cases fn invert s i <;> rw [h] <;> rfl)
        (by obtain ⟨-, h⟩ | ⟨-, ⟨h, -⟩ | ⟨m, -, -, h⟩⟩ := State.writeLine_cases fn invert s i <;> rw [h] <;> rfl))
      meterSetup := fun _ _ _ _ _ _ _ => k.same _ _ (.of_eq rfl rfl)
      portalSetup := k.portalSetup
      zoneSetup := fun _ _ _ _ _ _ => k.same _ _ (.of_portals (fun _ => by simp) fun _ => by simp)
      plan := k.plan
      schedule := fun _ _ _ _ => k.same _ _ (.of_eq rfl rfl)
      boreSetup := fun _ _ _ => k.same _ _ (.setBore rfl rfl rfl rfl)
      clock := fun _ _ => k.same _ _ (.of_eq rfl rfl) }
  control :=
    { commission := k.commission
      stop := k.stop
      setOverride := k.setOverride
      clearOverride := k.clearOverride
      dryRun := k.dryRun
      dryInput := k.dryInput
      dryStop := k.dryStop
      lockout := fun _ _ _ _ => k.same _ _ (.of_portals (fun _ => by simp) fun _ => by simp)
      burnReset := fun _ _ _ => k.same _ _ (.of_eq rfl rfl)
      report := fun s b cls f g => by
        have hset : s.SameChannels (s.setBore b ((s.bore b).reported s.uptime cls g)) := .setBore rfl rfl rfl rfl
        unfold State.reportOne
        dsimp only
        split
        · exact k.same _ _ (hset.trans (.of_eq rfl rfl))
        · exact k.same _ _ hset
      direction := fun s b mode => by
        unfold State.directionOne
        dsimp only
        split
        · exact id
        · exact k.same _ _ ((State.SameChannels.setBore (x := { s.bore b with mode := mode }) rfl rfl rfl rfl).trans
            (.of_eq rfl rfl))
      emergency := k.emergency
      clear := k.clear }
  defer := k.defer

theorem KeptByChannels.keptByStep {P : State → Prop} (k : KeptByChannels P) (s t : State) (h : P s)
    (hst : Machine.step s = .next t) : P t :=
  k.keptByWork.keptByStep s t h hst

/-! ### Every step keeps the interior conditions (R139) -/

theorem State.ConditionsFollow.congr {s t : State} (h : s.ConditionsFollow)
    (hb : ∀ b, (t.bore b).condition = (s.bore b).condition) (hp : ∀ p, (t.portal p).state = (s.portal p).state) :
    t.ConditionsFollow := fun b => by
  rw [hb, h b, State.conditionFor_congr fun p _ => hp p]

/-- Conditions follow after a change of portals of one bore alone, whose condition is worked afresh. -/
theorem State.ConditionsFollow.worked {s t : State} (h : s.ConditionsFollow) {b : Fin 2}
    (hb : ∀ c, c ≠ b → (t.bore c).condition = (s.bore c).condition)
    (hp : ∀ p, boreOf p ≠ b → (t.portal p).state = (s.portal p).state)
    (hc : (t.bore b).condition = t.conditionFor b) : t.ConditionsFollow := fun c => by
  by_cases hcb : c = b
  · exact hcb ▸ hc
  · rw [hb c hcb, h c]
    exact (State.conditionFor_congr fun p hpc => hp p fun hpb => hcb (hpc.symm.trans hpb)).symm

theorem ne_of_boreOf_ne {p q : Fin 4} (h : boreOf q ≠ boreOf p) : q ≠ p := fun hq => h (hq ▸ rfl)

theorem Portal.Resourced.state {x y : Portal} (h : x.Resourced y) : y.state = x.state := by
  rw [h]

theorem Portal.Judged.state {x y : Portal} (h : x.Judged y) : y.state = x.state := by
  rw [h]

theorem State.state_enterOffline_ne (s : State) {p q : Fin 4} (h : q ≠ p) :
    ((s.enterOffline p).portal q).state = (s.portal q).state := by
  rw [State.portal_enterOffline, if_neg h]
  split
  · exact (Portal.resourced_withSource _ _ _).state
  · rfl

theorem State.ConditionsFollow.enterOffline {s : State} (h : s.ConditionsFollow) (p : Fin 4) :
    (s.enterOffline p).ConditionsFollow :=
  h.worked (b := boreOf p)
    (fun c hc => by rw [State.bore_enterOffline, if_neg hc])
    (fun q hq => s.state_enterOffline_ne (ne_of_boreOf_ne hq))
    (by rw [State.bore_enterOffline, if_pos rfl])

theorem State.ConditionsFollow.removeAction {s : State} (h : s.ConditionsFollow) (p : Fin 4) :
    (s.removeAction p).ConditionsFollow :=
  h.congr (fun _ => rfl) fun q => by
    rw [State.portal_removeAction]
    split
    next hq => rw [hq]
    next => rfl

theorem State.ConditionsFollow.abandonAction {s : State} (h : s.ConditionsFollow) (p : Fin 4) :
    (s.abandonAction p).ConditionsFollow :=
  h.congr (fun _ => by simp) fun q => by
    rw [State.portal_abandonAction]
    split
    next hq => rw [hq]
    next => rfl

theorem State.ConditionsFollow.setPortal {s : State} (h : s.ConditionsFollow) {p : Fin 4} {x : Portal}
    (hx : x.state = (s.portal p).state) : (s.setPortal p x).ConditionsFollow :=
  h.congr (fun _ => rfl) fun q => by
    rw [State.portal_setPortal]
    split
    next hq => rw [hq, hx]
    next => rfl

theorem State.ConditionsFollow.takeAction {s : State} (h : s.ConditionsFollow) (p : Fin 4) :
    (s.takeAction p).ConditionsFollow := by
  unfold State.takeAction
  split
  · exact h
  next a _ =>
    split
    · refine h.worked (b := boreOf p) (fun c hc => by rw [State.bore_holdNow, if_neg hc]) (fun q hq => ?_)
        (by rw [State.bore_holdNow, if_pos rfl])
      rw [State.portal_holdNow, if_neg (ne_of_boreOf_ne hq)]
    · refine h.worked (b := boreOf p) (fun c hc => by rw [State.bore_releaseNow, if_neg hc]) (fun q hq => ?_)
        (by rw [State.bore_releaseNow, if_pos rfl])
      rw [State.portal_releaseNow, if_neg (ne_of_boreOf_ne hq)]
    · unfold State.stopNow
      split
      · exact h
      · exact State.ConditionsFollow.congr ((h.enterOffline p).removeAction p) (fun _ => by simp) fun _ => by simp

theorem Bore.condition_withInterior (x : Bore) (c : InteriorCase) : (x.withInterior c).condition = x.condition := by
  cases c <;> rfl

theorem Bore.emergency_withInterior (x : Bore) (c : InteriorCase) : (x.withInterior c).emergency = x.emergency := by
  cases c <;> rfl

/-- A portal put in another state, and its bore's condition worked afresh. -/
theorem State.ConditionsFollow.restated {s t : State} (h : s.ConditionsFollow) {p : Fin 4}
    (hb : ∀ c, t.bore c = s.bore c) (hp : ∀ q, q ≠ p → (t.portal q).state = (s.portal q).state) :
    (t.workCondition (boreOf p)).ConditionsFollow :=
  h.worked (b := boreOf p)
    (fun c hc => by rw [State.bore_workCondition, if_neg hc, hb])
    (fun q hq => by rw [State.portal_workCondition]; exact hp q (ne_of_boreOf_ne hq))
    (by rw [State.bore_workCondition, if_pos rfl, State.conditionFor_workCondition])

theorem reset_conditionsFollow : State.reset.ConditionsFollow := by
  unfold State.ConditionsFollow
  decide

theorem conditionsFollow_kept : KeptByChannels State.ConditionsFollow where
  same s t h hs := hs.congr h.condition fun p => by rw [h.portals]
  cold := reset_conditionsFollow
  portalEvaluation s p e _ hs := by
    have hset : (s.setPortal p { s.portal p with timer := some (msAfter e 1000) }).ConditionsFollow := hs.setPortal rfl
    unfold State.evaluatePortal
    dsimp only
    split
    · exact hset.takeAction p
    · exact State.ConditionsFollow.congr (hset.takeAction p) (fun _ => by rw [State.bore_evaluateSteps])
        fun q => (State.portal_evaluateSteps _ p q).state
  boreEvaluation s b e hs := hs.congr
    (fun c => by
      rw [State.bore_evaluateBore]
      split
      next hc => rw [Bore.condition_withInterior, hc, State.bore_setBore_self]
      next hc => rw [State.bore_setBore_ne _ hc])
    fun q => by rw [State.portal_evaluateBore, State.portal_setBore]
  override s p v _ hs := State.ConditionsFollow.congr (s := s.setPortal p { s.portal p with override := none })
    (hs.setPortal rfl) (fun _ => rfl) fun _ => rfl
  portalSetup s p _ m q f _ _ hs := hs.setPortal rfl
  plan s p _ w _ hs := by
    unfold State.writePlan
    split
    case h_4 | h_5 => exact hs
    all_goals exact hs.setPortal (by unfold Portal.withPlan; split <;> rfl)
  commission s p hs := by
    unfold State.commissionOne
    split
    · exact hs
    · split
      · exact hs.worked (b := boreOf p) (fun c hc => by rw [State.bore_enterHeld, if_neg hc])
          (fun q hq => by rw [State.portal_enterHeld, if_neg (ne_of_boreOf_ne hq)])
          (by rw [State.bore_enterHeld, if_pos rfl])
      · exact hs
  stop s p hs := by
    unfold State.stopOne
    split
    case h_1 | h_5 => exact hs
    all_goals exact State.ConditionsFollow.enterOffline (hs.abandonAction p) p
  setOverride s p _ v n _ hs := by
    unfold State.overrideOne
    split
    case h_3 | h_4 => exact hs.setPortal rfl
    all_goals exact hs
  clearOverride s p hs := by
    unfold State.unoverrideOne
    split
    case h_1 | h_2 => exact hs
    all_goals
      split
      · exact hs.setPortal rfl
      · exact hs
  dryRun s p x hs := by
    unfold State.dryRunOne
    split
    case h_5 =>
      split
      · exact hs
      · split
        · exact hs
        · exact hs.restated (fun _ => rfl) fun q hq => by
            rw [State.portal_raisePortalState, State.portal_setPortal_ne _ hq]
    all_goals exact hs
  dryInput s p x hs := by
    unfold State.dryInputOne
    split
    case h_4 => exact hs.setPortal rfl
    all_goals exact hs
  dryStop s p hs := by
    unfold State.dryStopOne
    split
    case h_4 =>
      exact hs.restated (fun _ => by simp) fun q hq => by
        rw [State.portal_raisePortalState, State.portal_dropPreviews, State.portal_setPortal_ne _ hq]
    all_goals exact hs
  emergency s b hs := by
    cases he : (s.bore b).emergency with
    | true => simpa [State.emergencyOne, he] using hs
    | false =>
      exact hs.worked (b := b) (fun c hc => by rw [s.bore_emergencyOne b he, if_neg hc])
        (fun q hq => by rw [s.portal_emergencyOne b he, if_neg hq])
        (by rw [s.bore_emergencyOne b he, if_pos rfl])
  clear s b hs := by
    cases he : (s.bore b).emergency with
    | false => simpa [State.clearOne, he] using hs
    | true =>
      exact hs.worked (b := b) (fun c hc => by rw [s.bore_clearOne b he, if_neg hc])
        (fun q hq => by rw [s.portal_clearOne b he, if_neg hq])
        (by rw [s.bore_clearOne b he, if_pos rfl])
  defer s kind l r p hs := by
    unfold State.deferOne
    split
    · exact hs
    · exact hs
    · split
      · exact hs
      · exact hs.setPortal rfl

/-- Settles O57: whatever changes a portal's state works its bore's condition afresh. -/
theorem everyStepKeepsTheConditions : Obligations.EveryStepKeepsTheConditions :=
  conditionsFollow_kept.keptByStep

end Sys2Proof.Machine
end

section
/-! SUPPORT. Invariants of the portal records: what fits their states (R105, R109, R114, R117, R118, R123), partners whose
source is OWN (R21), and levels within their bounds (R28, R46, R50). -/

namespace Sys2Proof.Machine

/-! ### A portal record that fits its state -/

/-- What a portal in service holds (R105, R115): a running timer, plan A, and a partner that is not itself. -/
def Portal.ready (x : Portal) (p : Fin 4) : Bool :=
  x.timer.isSome && x.planA.isSome && x.partner != some p

theorem Portal.fits_offline {x : Portal} (h : x.state = .offline) (p : Fin 4) (e : Bool) : x.fits p e = x.cleared := by
  simp [Portal.fits, h]

theorem Portal.fits_held {x : Portal} (h : x.state = .held) (p : Fin 4) (e : Bool) :
    x.fits p e = (x.ready p && x.dryRun.isNone && x.action.all (·.fits .held)) := by
  simp [Portal.fits, Portal.ready, h]

theorem Portal.fits_dryRun {x : Portal} (h : x.state = .dryRun) (p : Fin 4) (e : Bool) :
    x.fits p e = (x.ready p && x.dryRun.isSome && x.action.all (·.fits .dryRun) && !e) := by
  simp [Portal.fits, Portal.ready, h]

theorem Portal.fits_auto {x : Portal} (h : x.state = .auto) (p : Fin 4) (e : Bool) :
    x.fits p e = (x.ready p && x.dryRun.isNone && x.action.all (·.fits .auto) && !e) := by
  simp [Portal.fits, Portal.ready, h]

theorem Portal.fits_emergency {x : Portal} (h : x.state = .emergency) (p : Fin 4) (e : Bool) :
    x.fits p e = (x.ready p && x.dryRun.isNone && x.action.isNone && e) := by
  simp [Portal.fits, Portal.ready, h]

/-- A portal that fits and is in service is ready. -/
theorem Portal.ready_of_fits {x : Portal} {p : Fin 4} {e : Bool} (h : x.fits p e = true) (hs : x.state ≠ .offline) :
    x.ready p = true := by
  cases hst : x.state with
  | offline => exact absurd hst hs
  | held => rw [Portal.fits_held hst] at h; simp_all
  | dryRun => rw [Portal.fits_dryRun hst] at h; simp_all
  | auto => rw [Portal.fits_auto hst] at h; simp_all
  | emergency => rw [Portal.fits_emergency hst] at h; simp_all

theorem Portal.partner_ne_of_ready {x : Portal} {p : Fin 4} (h : x.ready p = true) : x.partner ≠ some p := by
  simp only [Portal.ready, Bool.and_eq_true, bne_iff_ne] at h
  exact h.2

/-- The pending action of a portal that fits is one its state admits. -/
theorem Portal.action_fits {x : Portal} {p : Fin 4} {e : Bool} (h : x.fits p e = true) {a : PendingAction}
    (ha : x.action = some a) : a.fits x.state = true := by
  cases hst : x.state with
  | offline => rw [Portal.fits_offline hst] at h; simp [Portal.cleared, ha] at h
  | held => rw [Portal.fits_held hst] at h; simp_all
  | dryRun => rw [Portal.fits_dryRun hst] at h; simp_all
  | auto => rw [Portal.fits_auto hst] at h; simp_all
  | emergency => rw [Portal.fits_emergency hst] at h; simp_all

theorem PendingAction.state_of_hold {a : PendingAction} {st : PortalState} (hk : a.kind = .hold) (h : a.fits st = true) :
    st = .auto := by
  cases st <;> simp [PendingAction.fits, hk] at h ⊢

theorem PendingAction.state_of_release {a : PendingAction} {st : PortalState} (hk : a.kind = .release)
    (h : a.fits st = true) : st = .held := by
  cases st <;> simp [PendingAction.fits, hk] at h ⊢

theorem PendingAction.fits_congr {a b : PendingAction} (h : a.kind = b.kind) (st : PortalState) : a.fits st = b.fits st := by
  unfold PendingAction.fits
  rw [h]

/-- What an action is owed has no part in what fits. -/
theorem Portal.fits_congr_action {x y : Portal} (h : y = { x with action := y.action })
    (hk : y.action.map PendingAction.kind = x.action.map PendingAction.kind) (p : Fin 4) (e : Bool) :
    y.fits p e = x.fits p e := by
  have hall : ∀ st, y.action.all (·.fits st) = x.action.all (·.fits st) := fun st => by
    cases hy : y.action with
    | none =>
      rw [hy] at hk
      rw [Option.map_eq_none_iff.mp hk.symm]
    | some a =>
      rw [hy, Option.map_some, eq_comm, Option.map_eq_some_iff] at hk
      obtain ⟨b, hb, hbk⟩ := hk
      rw [hb]
      exact PendingAction.fits_congr hbk.symm st
  have hnone : y.action.isNone = x.action.isNone := by
    rw [← Option.isNone_map (f := PendingAction.kind), hk, Option.isNone_map]
  have hstate : y.state = x.state := by rw [h]
  have hready : y.ready p = x.ready p := by rw [h]; rfl
  have hdry : y.dryRun = x.dryRun := by rw [h]
  cases hst : x.state with
  | offline =>
    rw [Portal.fits_offline (hstate.trans hst), Portal.fits_offline hst]
    unfold Portal.cleared
    rw [hnone, h]
  | held => rw [Portal.fits_held (hstate.trans hst), Portal.fits_held hst, hready, hdry, hall]
  | dryRun => rw [Portal.fits_dryRun (hstate.trans hst), Portal.fits_dryRun hst, hready, hdry, hall]
  | auto => rw [Portal.fits_auto (hstate.trans hst), Portal.fits_auto hst, hready, hdry, hall]
  | emergency => rw [Portal.fits_emergency (hstate.trans hst), Portal.fits_emergency hst, hready, hdry, hnone]

/-- What steps 2 to 5 of an evaluation store has no part in what fits a portal in service. -/
theorem Portal.fits_judged {x y : Portal} (h : x.Judged y) (hs : x.state ≠ .offline) (p : Fin 4) (e : Bool) :
    y.fits p e = x.fits p e := by
  have hready : y.ready p = x.ready p := by rw [h]; rfl
  have hdry : y.dryRun = x.dryRun := by rw [h]
  have hact : y.action = x.action := by rw [h]
  cases hst : x.state with
  | offline => exact absurd hst hs
  | held => rw [Portal.fits_held (h.state.trans hst), Portal.fits_held hst, hready, hdry, hact]
  | dryRun => rw [Portal.fits_dryRun (h.state.trans hst), Portal.fits_dryRun hst, hready, hdry, hact]
  | auto => rw [Portal.fits_auto (h.state.trans hst), Portal.fits_auto hst, hready, hdry, hact]
  | emergency => rw [Portal.fits_emergency (h.state.trans hst), Portal.fits_emergency hst, hready, hdry, hact]

/-- A record changed in nothing that its state asks for fits as before. -/
theorem Portal.fits_of_fits {x y : Portal} {p : Fin 4} {e : Bool} (h : x.fits p e = true) (hst : y.state = x.state)
    (hready : x.ready p = true → y.ready p = true) (hdry : y.dryRun.isSome = x.dryRun.isSome)
    (hact : y.action = x.action) (hclear : x.state = .offline → x.cleared = true → y.cleared = true) : y.fits p e = true := by
  have hnone : y.dryRun.isNone = x.dryRun.isNone := by
    rw [← Option.not_isSome, hdry, Option.not_isSome]
  cases hx : x.state with
  | offline =>
    rw [Portal.fits_offline hx] at h
    rw [Portal.fits_offline (hst.trans hx)]
    exact hclear hx h
  | held =>
    rw [Portal.fits_held hx] at h
    rw [Portal.fits_held (hst.trans hx), hnone, hact]
    simp_all
  | dryRun =>
    rw [Portal.fits_dryRun hx] at h
    rw [Portal.fits_dryRun (hst.trans hx), hdry, hact]
    simp_all
  | auto =>
    rw [Portal.fits_auto hx] at h
    rw [Portal.fits_auto (hst.trans hx), hnone, hact]
    simp_all
  | emergency =>
    rw [Portal.fits_emergency hx] at h
    rw [Portal.fits_emergency (hst.trans hx), hnone, hact]
    simp_all

theorem Portal.cleared_dropOverride {x : Portal} (h : x.cleared = true) :
    Portal.cleared { x with override := none } = true := by
  simp_all [Portal.cleared]

theorem Portal.not_cleared {x : Portal} (h : x.cleared = true) (hs : x.timer ≠ none ∨ x.dryRun ≠ none) : False := by
  simp_all [Portal.cleared]

theorem Portal.Resourced.judged {x y : Portal} (h : x.Resourced y) : x.Judged y := by
  unfold Portal.Judged
  rw [h]

theorem Portal.fits_partner {x : Portal} {p : Fin 4} {e : Bool} (h : x.fits p e = true) (hs : x.source ≠ none) :
    x.state ≠ .offline := fun hst => by
  rw [Portal.fits_offline hst] at h
  simp_all [Portal.cleared]

/-! ### Every step keeps the portal records fitting -/

/-- One portal changed to a record that fits, the emergency flags as they were. -/
theorem State.PortalsFit.setOne {s t : State} (h : s.PortalsFit) {p : Fin 4}
    (hb : ∀ b, (t.bore b).emergency = (s.bore b).emergency) (hq : ∀ q, q ≠ p → t.portal q = s.portal q)
    (hp : (t.portal p).fits p (s.bore (boreOf p)).emergency = true) : t.PortalsFit := fun q => by
  rw [hb]
  by_cases hqp : q = p
  · exact hqp ▸ hp
  · rw [hq q hqp]
    exact h q

theorem State.PortalsFit.setPortal {s : State} (h : s.PortalsFit) {p : Fin 4} {x : Portal}
    (hx : x.fits p (s.bore (boreOf p)).emergency = true) : (s.setPortal p x).PortalsFit :=
  h.setOne (p := p) (fun _ => rfl) (fun _ hq => State.portal_setPortal_ne _ hq _) (by rwa [State.portal_setPortal_self])

/-- A portal other than the one that leaves service fits still: it stays, or takes a later step of its cascade. -/
theorem State.fits_enterOffline_ne {s : State} {p q : Fin 4} (hq : q ≠ p) {e : Bool}
    (h : (s.portal q).fits q e = true) : ((s.enterOffline p).portal q).fits q e = true := by
  rw [State.portal_enterOffline, if_neg hq]
  split
  next hf =>
    rw [Portal.fits_judged (Portal.resourced_withSource _ _ _).judged]
    · exact h
    · exact Portal.fits_partner h (by rw [hf.2.1]; simp)
  next => exact h

theorem State.emergency_enterOffline (s : State) (p : Fin 4) (b : Fin 2) :
    ((s.enterOffline p).bore b).emergency = (s.bore b).emergency := by
  rw [State.bore_enterOffline]
  split <;> rfl

/-- A portal that leaves service without a pending action fits OFFLINE (R114). -/
theorem Portal.cleared_toOffline {x : Portal} (h : x.action = none) :
    Portal.cleared { x.toOffline with source := none, access := none } = true := by
  simp [Portal.cleared, Portal.toOffline, h]

theorem State.PortalsFit.stopOne {s : State} (h : s.PortalsFit) (p : Fin 4) : (State.stopOne p s).1.PortalsFit := by
  have hstop : ((s.abandonAction p).enterOffline p).PortalsFit := fun q => by
    rw [State.emergency_enterOffline, State.bore_abandonAction]
    by_cases hq : q = p
    · subst hq
      rw [State.portal_enterOffline, if_pos rfl, Portal.fits_offline rfl]
      exact Portal.cleared_toOffline (by rw [State.portal_abandonAction, if_pos rfl])
    · have hsame : (s.abandonAction p).portal q = s.portal q := by rw [State.portal_abandonAction, if_neg hq]
      exact State.fits_enterOffline_ne hq (by rw [hsame]; exact h q)
  unfold State.stopOne
  split
  case h_1 | h_5 => exact h
  all_goals exact hstop

theorem State.PortalsFit.takeAction {s : State} (h : s.PortalsFit) (p : Fin 4) : (s.takeAction p).PortalsFit := by
  have hp := h p
  unfold State.takeAction
  split
  · exact h
  next a ha =>
    have hfits := Portal.action_fits hp ha
    cases hk : a.kind with
    | hold =>
      have hst := PendingAction.state_of_hold hk hfits
      refine h.setOne (p := p) (fun b => ?_) (fun q hq => by rw [State.portal_holdNow, if_neg hq]) ?_
      · rw [State.bore_holdNow]; split <;> rfl
      · rw [State.portal_holdNow, if_pos rfl, Portal.fits_held rfl]
        rw [Portal.fits_auto hst] at hp
        simp_all [Portal.ready]
    | release =>
      have hst := PendingAction.state_of_release hk hfits
      refine h.setOne (p := p) (fun b => ?_) (fun q hq => by rw [State.portal_releaseNow, if_neg hq]) ?_
      · rw [State.bore_releaseNow]; split <;> rfl
      · rw [State.portal_releaseNow, if_pos rfl]
        rw [Portal.fits_held hst] at hp
        simp only [Bool.and_eq_true, Portal.ready] at hp
        split
        next he => rw [Portal.fits_emergency rfl]; simp [Portal.ready, he]; simp_all
        next he => rw [Portal.fits_auto rfl]; simp [Portal.ready, he]; simp_all
    | stopOrderly =>
      simp only [State.stopNow]
      split
      · exact h
      · intro q
        rw [State.portal_answerAction, State.bore_answerAction, State.bore_removeAction, State.emergency_enterOffline,
          State.portal_removeAction]
        split
        next hq =>
          subst hq
          rw [State.portal_enterOffline, if_pos rfl, Portal.fits_offline rfl]
          rfl
        next hq => exact State.fits_enterOffline_ne hq (h q)

theorem State.PortalsFit.evaluateSteps {s : State} (h : s.PortalsFit) {p : Fin 4} (hp : (s.portal p).state ≠ .offline) :
    (s.evaluateSteps p).PortalsFit := fun q => by
  rw [State.bore_evaluateSteps]
  by_cases hq : (s.portal q).state = .offline
  · have hsame : (s.evaluateSteps p).portal q = s.portal q := by
      have hqp : q ≠ p := fun h => hp (h ▸ hq)
      unfold State.evaluateSteps
      split
      · rfl
      · have hsel : (s.selectPlan p).portal q = s.portal q := by rw [State.portal_selectPlan, if_neg hqp]
        have hsrc : (s.portal q).source ≠ some .partner := fun hsrc =>
          Portal.fits_partner (h q) (by rw [hsrc]; simp) hq
        simp only [State.portal_act, State.portal_storeRole, State.portal_testNight, hqp, if_false, State.runCascade,
          State.portal_setSource_ne _ hqp, hsel, hsrc, false_and, and_false]
    rw [hsame]
    exact h q
  · rw [Portal.fits_judged (s.portal_evaluateSteps p q) hq]
    exact h q

theorem planWriteOf_a {body : List Octet} {plan : Option Plan} (h : planWriteOf body = some (.a, plan)) :
    plan.isSome = true := by
  unfold planWriteOf at h
  split at h
  · cases h
  · split at h
    · split at h <;> simp at h
    · split at h
      · simp only [Option.some.injEq, Prod.mk.injEq] at h
        rw [← h.2]; rfl
      · cases h

theorem State.failures_eq_nil {s : State} {p : Fin 4} (h : s.failures p = []) :
    (s.portal p).planA.isSome = true ∧ (s.portal p).partner ≠ some p := by
  simp only [State.failures, List.append_eq_nil_iff] at h
  obtain ⟨⟨⟨⟨⟨⟨hplan, -⟩, -⟩, -⟩, -⟩, -⟩, hpartner⟩ := h
  constructor
  · by_contra hn
    rw [if_neg hn] at hplan
    cases hplan
  · intro heq
    rw [if_pos heq] at hpartner
    cases hpartner

theorem reset_portalsFit : State.reset.PortalsFit := by
  unfold State.PortalsFit
  decide

theorem portalsFit_kept : KeptByChannels State.PortalsFit where
  same s t h hs p := by
    rw [h.emergency, Portal.fits_congr_action (h.portals p) (h.actions p)]
    exact hs p
  cold := reset_portalsFit
  portalEvaluation s p e he hs := by
    have hset : (s.setPortal p { s.portal p with timer := some (msAfter e 1000) }).PortalsFit :=
      hs.setPortal (Portal.fits_of_fits (hs p) rfl (fun hr => by simpa [Portal.ready, he] using hr) rfl rfl
        fun _ hc => (Portal.not_cleared hc (.inl (by simp [he]))).elim)
    unfold State.evaluatePortal
    dsimp only
    split
    · exact hset.takeAction p
    next hst => exact State.PortalsFit.evaluateSteps (hset.takeAction p) hst
  boreEvaluation s b e hs q := by
    rw [State.portal_evaluateBore, State.bore_evaluateBore]
    split
    next hb => rw [Bore.emergency_withInterior, State.bore_setBore_self, ← hb]; exact hs q
    next hb => rw [State.bore_setBore_ne _ hb]; exact hs q
  override s p v _ hs :=
    State.PortalsFit.setPortal (s := s) (p := p) (x := { s.portal p with override := none }) hs
      (Portal.fits_of_fits (hs p) rfl id rfl rfl fun _ => Portal.cleared_dropOverride)
  portalSetup s p _ m q f hst _ hs := hs.setPortal (by
    have hp := hs p
    rw [Portal.fits_offline hst] at hp
    rw [Portal.fits_offline (x := { s.portal p with meter := m, partner := q, factor := f }) hst]
    exact hp)
  plan s p _ w hw hs := by
    have hset : (s.setPortal p ((s.portal p).withPlan w.1 w.2)).PortalsFit := hs.setPortal (by
      obtain ⟨slot, plan⟩ := w
      refine Portal.fits_of_fits (hs p) ?_ (fun hr => ?_) ?_ ?_ fun _ hc => ?_
      case _ => cases slot <;> rfl
      case _ =>
        cases slot with
        | a =>
          have := planWriteOf_a hw
          simp_all [Portal.ready, Portal.withPlan]
        | b => exact hr
      case _ => cases slot <;> rfl
      case _ => cases slot <;> rfl
      case _ => cases slot <;> exact hc)
    unfold State.writePlan
    split
    case h_4 | h_5 => exact hs
    all_goals exact hset
  commission s p hs := by
    unfold State.commissionOne
    split
    · exact hs
    next hst =>
      rw [not_not] at hst
      split
      next hfail =>
        obtain ⟨hplan, hpartner⟩ := State.failures_eq_nil hfail
        have hp := hs p
        rw [Portal.fits_offline hst] at hp
        refine hs.setOne (p := p) (fun b => ?_) (fun q hq => by rw [State.portal_enterHeld, if_neg hq]) ?_
        · rw [State.bore_enterHeld]; split <;> rfl
        · rw [State.portal_enterHeld, if_pos rfl, Portal.fits_held rfl]
          simp only [Portal.cleared, Bool.and_eq_true, Option.isNone_iff_eq_none] at hp
          simp [Portal.ready, hplan, hpartner, hp]
      · exact hs
  stop s p hs := hs.stopOne p
  setOverride s p _ v n _ hs := by
    unfold State.overrideOne
    split
    case h_3 hst | h_4 hst =>
      exact hs.setPortal (Portal.fits_of_fits (hs p) rfl id rfl rfl fun hoff _ => by simp [hst] at hoff)
    all_goals exact hs
  clearOverride s p hs := by
    have hset : (s.setPortal p { s.portal p with override := none }).PortalsFit :=
      hs.setPortal (Portal.fits_of_fits (hs p) rfl id rfl rfl fun _ => Portal.cleared_dropOverride)
    unfold State.unoverrideOne
    split
    case h_1 | h_2 => exact hs
    all_goals
      split
      · exact hset
      · exact hs
  dryRun s p x hs := by
    have hp := hs p
    unfold State.dryRunOne
    split
    case h_5 hst =>
      split
      · exact hs
      next hact =>
        split
        · exact hs
        next he =>
          refine hs.setOne (p := p) (fun b => ?_) (fun q hq => ?_) ?_
          · rw [State.bore_workCondition]; split <;> simp_all
          · rw [State.portal_workCondition, State.portal_raisePortalState, State.portal_setPortal_ne _ hq]
          · rw [State.portal_workCondition, State.portal_raisePortalState, State.portal_setPortal_self,
              Portal.fits_dryRun rfl]
            rw [Portal.fits_held hst] at hp
            simp_all [Portal.ready]
    all_goals exact hs
  dryInput s p x hs := by
    have hp := hs p
    unfold State.dryInputOne
    split
    case h_4 hst =>
      have hsome : (s.portal p).dryRun.isSome = true := by
        rw [Portal.fits_dryRun hst] at hp
        simp_all
      exact hs.setPortal (Portal.fits_of_fits hp rfl id (by simp [hsome]) rfl
        fun _ hc => (Portal.not_cleared hc (.inr (Option.isSome_iff_ne_none.mp hsome))).elim)
    all_goals exact hs
  dryStop s p hs := by
    have hp := hs p
    unfold State.dryStopOne
    split
    case h_4 hst =>
      refine hs.setOne (p := p) (fun b => ?_) (fun q hq => ?_) ?_
      · rw [State.bore_workCondition]; split <;> simp_all
      · rw [State.portal_workCondition, State.portal_raisePortalState, State.portal_dropPreviews,
          State.portal_setPortal_ne _ hq]
      · rw [State.portal_workCondition, State.portal_raisePortalState, State.portal_dropPreviews,
          State.portal_setPortal_self, Portal.fits_held rfl]
        rw [Portal.fits_dryRun hst] at hp
        have hadmit : (s.portal p).action.all (·.fits .dryRun) = true → (s.portal p).action.all (·.fits .held) = true := by
          cases (s.portal p).action with
          | none => exact fun h => h
          | some a => cases hk : a.kind <;> simp [PendingAction.fits, hk]
        simp only [Bool.and_eq_true, Portal.ready] at hp ⊢
        simp [hp.1.1.1, hadmit hp.1.2]
    all_goals exact hs
  emergency s b hs := by
    cases he : (s.bore b).emergency with
    | true => simpa [State.emergencyOne, he] using hs
    | false =>
      intro q
      have hq := hs q
      rw [s.portal_emergencyOne b he, s.bore_emergencyOne b he]
      by_cases hb : boreOf q = b
      · rw [hb, he] at hq
        simp only [hb, if_true]
        unfold Portal.reached
        split
        next hst => rw [Portal.fits_auto hst] at hq; rw [Portal.fits_emergency rfl]; simp_all [Portal.ready]
        next hst => rw [Portal.fits_held hst] at hq; rw [Portal.fits_emergency rfl]; simp_all [Portal.ready]
        next hst => rw [Portal.fits_dryRun hst] at hq; rw [Portal.fits_emergency rfl]; simp_all [Portal.ready]
        next hst => rw [Portal.fits_offline hst] at hq ⊢; exact hq
        next hst => rw [Portal.fits_emergency hst] at hq; simp at hq
      · simp only [hb, if_false]
        exact hq
  clear s b hs := by
    cases he : (s.bore b).emergency with
    | false => simpa [State.clearOne, he] using hs
    | true =>
      intro q
      have hq := hs q
      rw [s.portal_clearOne b he, s.bore_clearOne b he]
      by_cases hb : boreOf q = b
      · rw [hb, he] at hq
        simp only [hb, if_true]
        unfold Portal.returned
        split
        next hst => rw [Portal.fits_emergency hst] at hq; rw [Portal.fits_auto rfl]; simp_all [Portal.ready]
        next hne =>
          cases hst : (s.portal q).state with
          | offline => rw [Portal.fits_offline hst] at hq ⊢; exact hq
          | held => rw [Portal.fits_held hst] at hq ⊢; exact hq
          | dryRun => rw [Portal.fits_dryRun hst] at hq; simp at hq
          | auto => rw [Portal.fits_auto hst] at hq; simp at hq
          | emergency => exact absurd hst hne
      · simp only [hb, if_false]
        exact hq
  defer s kind l r p hs := by
    have hp := hs p
    unfold State.deferOne
    split
    · exact hs
    · exact hs
    next hv =>
      split
      · exact hs
      next hnone =>
        have hnone : (s.portal p).action = none := by simpa using hnone
        refine hs.setPortal ?_
        set y : Portal := { s.portal p with
          action := some { kind := kind, link := l, tag := r.tag, ackWanted := r.ackWanted, answerOwed := true } }
        cases hst : (s.portal p).state with
        | offline | emergency => cases kind <;> simp [ActionKind.verdict, hst] at hv
        | held =>
          rw [Portal.fits_held hst] at hp
          rw [Portal.fits_held (x := y) hst]
          cases kind <;> simp [ActionKind.verdict, hst] at hv <;> simp_all [Portal.ready, PendingAction.fits, y]
        | dryRun =>
          rw [Portal.fits_dryRun hst] at hp
          rw [Portal.fits_dryRun (x := y) hst]
          cases kind <;> simp [ActionKind.verdict, hst] at hv <;> simp_all [Portal.ready, PendingAction.fits, y]
        | auto =>
          rw [Portal.fits_auto hst] at hp
          rw [Portal.fits_auto (x := y) hst]
          cases kind <;> simp [ActionKind.verdict, hst] at hv <;> simp_all [Portal.ready, PendingAction.fits, y]

/-- Settles O55. -/
theorem everyStepKeepsThePortalsFit : Obligations.EveryStepKeepsThePortalsFit :=
  portalsFit_kept.keptByStep

end Sys2Proof.Machine
end

section
/-! SUPPORT. Invariants of the channels, continued: partners whose source is OWN (R21), plans and interior demands within
their bounds (R28, R40, R46). -/

namespace Sys2Proof.Machine

/-! ### Partners (R21) -/

theorem State.PartnersOwn.congr {s t : State} (h : s.PartnersOwn) (hs : ∀ p, (t.portal p).source = (s.portal p).source)
    (hp : ∀ p, (t.portal p).partner = (s.portal p).partner) : t.PartnersOwn := fun p hsrc => by
  rw [hs] at hsrc
  obtain ⟨q, hq, hown⟩ := h p hsrc
  exact ⟨q, (hp p).trans hq, (hs q).trans hown⟩

theorem State.PartnersOwn.setPortal {s : State} (h : s.PartnersOwn) {p : Fin 4} {x : Portal}
    (hs : x.source = (s.portal p).source) (hp : x.partner = (s.portal p).partner) : (s.setPortal p x).PartnersOwn :=
  h.congr
    (fun q => by
      rw [State.portal_setPortal]
      split
      next hq => rw [hq, hs]
      next => rfl)
    fun q => by
      rw [State.portal_setPortal]
      split
      next hq => rw [hq, hp]
      next => rfl

/-- A portal takes the later steps of its cascade: it follows no partner. -/
theorem State.source_pulledOff_ne_partner (s : State) (x : Portal) (q : Fin 4) :
    (x.withSource (s.lateCascade q).1 (s.lateCascade q).2).source ≠ some .partner := by
  rw [Portal.withSource_eq]
  obtain h | h := s.lateCascade_source q <;> simp [h]

/-- Portal `p` takes a new source, or none, and those that follow it are pulled off where it leaves OWN (R21). -/
theorem State.PartnersOwn.resource {s t : State} (h : s.PartnersOwn) {p : Fin 4} {leaves : Prop} [Decidable leaves]
    (hne : ∀ q, q ≠ p → t.portal q
      = if leaves ∧ (s.portal q).source = some .partner ∧ (s.portal q).partner = some p then
          (s.portal q).withSource (s.lateCascade q).1 (s.lateCascade q).2
        else s.portal q)
    (hleaves : ¬ leaves → (s.portal p).source = some .own → (t.portal p).source = some .own)
    (hself : (t.portal p).source = some .partner →
      ∃ q, q ≠ p ∧ (t.portal p).partner = some q ∧ (s.portal q).source = some .own) : t.PartnersOwn := by
  have hown : ∀ q, q ≠ p → (s.portal q).source = some .own → (t.portal q).source = some .own := fun q hq hsrc => by
    rw [hne q hq, if_neg]
    · exact hsrc
    · rintro ⟨-, hpart, -⟩
      rw [hsrc] at hpart
      cases hpart
  intro r hr
  by_cases hrp : r = p
  · subst hrp
    obtain ⟨q, hq, hpart, hsrc⟩ := hself hr
    exact ⟨q, hpart, hown q hq hsrc⟩
  · rw [hne r hrp] at hr ⊢
    split at hr
    · exact absurd hr (s.source_pulledOff_ne_partner _ r)
    next hstay =>
      rw [if_neg hstay]
      obtain ⟨q, hq, hsrc⟩ := h r hr
      by_cases hqp : q = p
      · subst hqp
        exact ⟨q, hq, hleaves (fun hl => hstay ⟨hl, hr, hq⟩) hsrc⟩
      · exact ⟨q, hq, hown q hqp hsrc⟩

theorem State.PartnersOwn.enterOffline {s : State} (h : s.PartnersOwn) (p : Fin 4) : (s.enterOffline p).PartnersOwn :=
  h.resource (p := p) (leaves := (s.portal p).source = some .own)
    (fun q hq => by rw [State.portal_enterOffline, if_neg hq])
    (fun hn hown => absurd hown hn)
    fun hsrc => by
      rw [State.portal_enterOffline, if_pos rfl] at hsrc
      cases hsrc

theorem State.PartnersOwn.setSource {s : State} (h : s.PartnersOwn) {p : Fin 4} {src : Source} {acc : Option Nat}
    (hpartner : (s.portal p).partner ≠ some p)
    (hself : src = .partner → ∃ q, (s.portal p).partner = some q ∧ (s.portal q).source = some .own) :
    (s.setSource p src acc).PartnersOwn := by
  have hp : (s.setSource p src acc).portal p = (s.portal p).withSource src acc :=
    s.portal_setSource_self fun h => hpartner h.2
  refine h.resource (p := p) (leaves := (s.portal p).source = some .own ∧ src ≠ .own)
    (fun q hq => s.portal_setSource_ne hq src acc) (fun hn hown => ?_) fun hsrc => ?_
  · have : src = .own := by
      by_contra hne
      exact hn ⟨hown, hne⟩
    rw [hp, Portal.withSource_eq, this]
  · rw [hp, Portal.withSource_eq] at hsrc ⊢
    obtain ⟨q, hq, hown⟩ := hself (Option.some.inj hsrc)
    exact ⟨q, fun heq => hpartner (heq ▸ hq), hq, hown⟩

theorem State.partner_of_cascade {s : State} {p : Fin 4} (h : (s.cascade p).1 = .partner) :
    ∃ q, (s.portal p).partner = some q ∧ (s.portal q).source = some .own := by
  unfold State.cascade at h
  split at h
  · cases h
  · split at h
    next a hread =>
      unfold State.partnerReading at hread
      split at hread
      · cases hread
      next q hq =>
        split at hread
        next hown => exact ⟨q, hq, by simpa using hown⟩
        · cases hread
    · obtain hl | hl := s.lateCascade_source p <;> rw [hl] at h <;> cases h

theorem Portal.Judged.partner {x y : Portal} (h : x.Judged y) : y.partner = x.partner := by
  rw [h]

/-- Steps 4 to 6 of an evaluation store no source. -/
theorem State.source_evaluateSteps (s : State) (p q : Fin 4) :
    ((s.evaluateSteps p).portal q).source
      = match s.selectedPlan p with
        | none => (s.portal q).source
        | some _ => (((s.selectPlan p).runCascade p).portal q).source := by
  unfold State.evaluateSteps
  cases s.selectedPlan p with
  | none => rfl
  | some plan =>
    simp only [State.portal_act, State.portal_storeRole, State.portal_testNight]
    split
    next hq =>
      subst hq
      rw [Portal.nightTested_eq]
      simp
    next => rfl

theorem State.PartnersOwn.evaluateSteps {s : State} (h : s.PartnersOwn) {p : Fin 4}
    (hpartner : (s.portal p).partner ≠ some p) : (s.evaluateSteps p).PartnersOwn := by
  cases hplan : s.selectedPlan p with
  | none =>
    have hsame : s.evaluateSteps p = s := by simp [State.evaluateSteps, hplan]
    rw [hsame]
    exact h
  | some plan =>
    have hsel : (s.selectPlan p).PartnersOwn := h.setPortal rfl rfl
    have hself : ((s.selectPlan p).portal p).partner ≠ some p := by
      rw [State.portal_selectPlan, if_pos rfl]
      exact hpartner
    have hrun : ((s.selectPlan p).runCascade p).PartnersOwn := hsel.setSource hself State.partner_of_cascade
    refine hrun.congr (fun q => by rw [State.source_evaluateSteps, hplan]) fun q => ?_
    rw [(s.portal_evaluateSteps p q).partner, State.runCascade,
      ((s.selectPlan p).resourced_setSource p _ _ q).judged.partner, State.portal_selectPlan]
    split
    next hq => rw [hq]
    next => rfl

theorem State.PartnersOwn.takeAction {s : State} (h : s.PartnersOwn) (p : Fin 4) : (s.takeAction p).PartnersOwn := by
  unfold State.takeAction
  split
  · exact h
  next a _ =>
    split
    · exact h.congr (fun q => by rw [State.portal_holdNow]; split <;> simp_all)
        fun q => by rw [State.portal_holdNow]; split <;> simp_all
    · exact h.congr
        (fun q => by
          rw [State.portal_releaseNow]
          split
          next hq => rw [hq]; split <;> rfl
          next => rfl)
        fun q => by
          rw [State.portal_releaseNow]
          split
          next hq => rw [hq]; split <;> rfl
          next => rfl
    · unfold State.stopNow
      split
      · exact h
      · exact State.PartnersOwn.congr (h.enterOffline p)
          (fun q => by rw [State.portal_answerAction, State.portal_removeAction]; split <;> simp_all)
          fun q => by rw [State.portal_answerAction, State.portal_removeAction]; split <;> simp_all

/-- The partner of a portal is not itself while it is in service; PARTNER asks for a partner on OWN. -/
def State.PartnersFit (s : State) : Prop :=
  s.PortalsFit ∧ s.PartnersOwn

theorem reset_partnersOwn : State.reset.PartnersOwn := fun p h => by
  have hcold : State.reset.portal p = Portal.cold := Tab.get_fill _ p
  rw [hcold] at h
  cases h

theorem Portal.source_none_of_offline {x : Portal} {p : Fin 4} {e : Bool} (h : x.fits p e = true)
    (hst : x.state = .offline) : x.source = none := by
  rw [Portal.fits_offline hst] at h
  simp_all [Portal.cleared]

theorem partnersFit_kept : KeptByChannels State.PartnersFit where
  same s t h hs := ⟨portalsFit_kept.same s t h hs.1, hs.2.congr (fun p => by rw [h.portals]) fun p => by rw [h.portals]⟩
  cold := ⟨reset_portalsFit, reset_partnersOwn⟩
  portalEvaluation s p e he hs := by
    refine ⟨portalsFit_kept.portalEvaluation s p e he hs.1, ?_⟩
    have hset : (s.setPortal p { s.portal p with timer := some (msAfter e 1000) }).PartnersOwn := hs.2.setPortal rfl rfl
    have hfit : (s.setPortal p { s.portal p with timer := some (msAfter e 1000) }).PortalsFit :=
      hs.1.setPortal (Portal.fits_of_fits (hs.1 p) rfl (fun hr => by simpa [Portal.ready, he] using hr) rfl rfl
        fun _ hc => (Portal.not_cleared hc (.inl (by simp [he]))).elim)
    unfold State.evaluatePortal
    dsimp only
    split
    · exact hset.takeAction p
    next hst =>
      exact State.PartnersOwn.evaluateSteps (hset.takeAction p)
        (Portal.partner_ne_of_ready (Portal.ready_of_fits (hfit.takeAction p p) hst))
  boreEvaluation s b e hs := ⟨portalsFit_kept.boreEvaluation s b e hs.1,
    hs.2.congr (fun p => by rw [State.portal_evaluateBore, State.portal_setBore])
      fun p => by rw [State.portal_evaluateBore, State.portal_setBore]⟩
  override s p v hv hs := ⟨portalsFit_kept.override s p v hv hs.1,
    State.PartnersOwn.setPortal (s := s) (p := p) (x := { s.portal p with override := none }) hs.2 rfl rfl⟩
  portalSetup s p body m q f hst hbody hs := by
    refine ⟨portalsFit_kept.portalSetup s p body m q f hst hbody hs.1, fun r hr => ?_⟩
    have hnone := Portal.source_none_of_offline (hs.1 p) hst
    have hsource : ∀ k, ((s.setPortal p { s.portal p with meter := m, partner := q, factor := f }).portal k).source
        = (s.portal k).source := fun k => by
      rw [State.portal_setPortal]
      split
      next hk => rw [hk]
      next => rfl
    rw [hsource] at hr
    have hrp : r ≠ p := fun h => by rw [h, hnone] at hr; cases hr
    obtain ⟨k, hk, hown⟩ := hs.2 r hr
    exact ⟨k, by rw [State.portal_setPortal_ne _ hrp]; exact hk, (hsource k).trans hown⟩
  plan s p body w hw hs := by
    refine ⟨portalsFit_kept.plan s p body w hw hs.1, ?_⟩
    have hset : (s.setPortal p ((s.portal p).withPlan w.1 w.2)).PartnersOwn :=
      hs.2.setPortal (by unfold Portal.withPlan; split <;> rfl) (by unfold Portal.withPlan; split <;> rfl)
    unfold State.writePlan
    split
    case h_4 | h_5 => exact hs.2
    all_goals exact hset
  commission s p hs := by
    refine ⟨portalsFit_kept.commission s p hs.1, ?_⟩
    unfold State.commissionOne
    split
    · exact hs.2
    · split
      · exact hs.2.congr (fun q => by rw [State.portal_enterHeld]; split <;> simp_all)
          fun q => by rw [State.portal_enterHeld]; split <;> simp_all
      · exact hs.2
  stop s p hs := by
    refine ⟨portalsFit_kept.stop s p hs.1, ?_⟩
    have habandon : (s.abandonAction p).PartnersOwn :=
      hs.2.congr (fun q => by rw [State.portal_abandonAction]; split <;> simp_all)
        fun q => by rw [State.portal_abandonAction]; split <;> simp_all
    unfold State.stopOne
    split
    case h_1 | h_5 => exact hs.2
    all_goals exact habandon.enterOffline p
  setOverride s p body v n hv hs := by
    refine ⟨portalsFit_kept.setOverride s p body v n hv hs.1, ?_⟩
    unfold State.overrideOne
    split
    case h_3 | h_4 => exact hs.2.setPortal rfl rfl
    all_goals exact hs.2
  clearOverride s p hs := by
    refine ⟨portalsFit_kept.clearOverride s p hs.1, ?_⟩
    unfold State.unoverrideOne
    split
    case h_1 | h_2 => exact hs.2
    all_goals
      split
      · exact hs.2.setPortal rfl rfl
      · exact hs.2
  dryRun s p x hs := by
    refine ⟨portalsFit_kept.dryRun s p x hs.1, ?_⟩
    have hset : (s.setPortal p { s.portal p with dryRun := some x, state := .dryRun }).PartnersOwn :=
      hs.2.setPortal rfl rfl
    unfold State.dryRunOne
    split
    case h_5 =>
      split
      · exact hs.2
      · split
        · exact hs.2
        · exact hset.congr (fun q => by simp) fun q => by simp
    all_goals exact hs.2
  dryInput s p x hs := by
    refine ⟨portalsFit_kept.dryInput s p x hs.1, ?_⟩
    unfold State.dryInputOne
    split
    case h_4 => exact hs.2.setPortal rfl rfl
    all_goals exact hs.2
  dryStop s p hs := by
    refine ⟨portalsFit_kept.dryStop s p hs.1, ?_⟩
    have hset : (s.setPortal p { s.portal p with dryRun := none, state := .held }).PartnersOwn :=
      hs.2.setPortal rfl rfl
    unfold State.dryStopOne
    split
    case h_4 => exact hset.congr (fun q => by simp) fun q => by simp
    all_goals exact hs.2
  emergency s b hs := by
    refine ⟨portalsFit_kept.emergency s b hs.1, ?_⟩
    have hkeep : ∀ x : Portal, x.reached.source = x.source ∧ x.reached.partner = x.partner := fun x => by
      unfold Portal.reached
      split <;> exact ⟨rfl, rfl⟩
    cases he : (s.bore b).emergency with
    | true => simpa [State.emergencyOne, he] using hs.2
    | false =>
      exact hs.2.congr (fun q => by rw [s.portal_emergencyOne b he]; split <;> simp [hkeep])
        fun q => by rw [s.portal_emergencyOne b he]; split <;> simp [hkeep]
  clear s b hs := by
    refine ⟨portalsFit_kept.clear s b hs.1, ?_⟩
    have hkeep : ∀ x : Portal, x.returned.source = x.source ∧ x.returned.partner = x.partner := fun x => by
      unfold Portal.returned
      split <;> exact ⟨rfl, rfl⟩
    cases he : (s.bore b).emergency with
    | false => simpa [State.clearOne, he] using hs.2
    | true =>
      exact hs.2.congr (fun q => by rw [s.portal_clearOne b he]; split <;> simp [hkeep])
        fun q => by rw [s.portal_clearOne b he]; split <;> simp [hkeep]
  defer s kind l r p hs := by
    refine ⟨portalsFit_kept.defer s kind l r p hs.1, ?_⟩
    unfold State.deferOne
    split
    · exact hs.2
    · exact hs.2
    · split
      · exact hs.2
      · exact hs.2.setPortal rfl rfl

/-- Settles O56: a portal that leaves OWN pulls its followers off in the same event, and a portal takes PARTNER only from
a partner on OWN, which is not itself. -/
theorem everyStepKeepsPartnersOwn : Obligations.EveryStepKeepsPartnersOwn :=
  fun s t hfit hown hst => (partnersFit_kept.keptByStep s t ⟨hfit, hown⟩ hst).2

/-! ### Plans and interior demands within their bounds (R28, R40) -/

/-- The plans and override levels of every portal and the interior demands of every bore are within their bounds. -/
def State.ChannelsBounded (s : State) : Prop :=
  (∀ p, (s.portal p).plansValid = true) ∧ ∀ b, (s.bore b).demand ≤ 60000 ∧ (s.bore b).base ≤ 60000

theorem Portal.plansValid_congr {x y : Portal} (ha : y.planA = x.planA) (hb : y.planB = x.planB)
    (ho : y.override = x.override) : y.plansValid = x.plansValid := by
  simp only [Portal.plansValid, ha, hb, ho]

theorem Portal.plansValid_dropOverride {x y : Portal} (h : x.plansValid = true) (ha : y.planA = x.planA)
    (hb : y.planB = x.planB) (ho : y.override = none) : y.plansValid = true := by
  simp only [Portal.plansValid, Bool.and_eq_true] at h
  simp [Portal.plansValid, ha, hb, ho, h.1]

theorem Portal.Judged.plansValid {x y : Portal} (h : x.Judged y) : y.plansValid = x.plansValid :=
  Portal.plansValid_congr (by rw [h]) (by rw [h]) (by rw [h])

theorem Plan.interior_le_of_valid {p : Plan} (h : p.valid = true) (night : Bool) : p.interiorLevel night ≤ 60000 := by
  simp only [Plan.valid, Bool.and_eq_true, decide_eq_true_eq] at h
  unfold Plan.interiorLevel
  split <;> omega

theorem State.mem_offers {s : State} {b : Fin 2} {o : InteriorOffer} (h : o ∈ s.offers b) :
    ∃ p, (s.portal p).plan (s.selectSlot p) = some o.plan := by
  simp only [State.offers, List.mem_filterMap] at h
  obtain ⟨p, -, hp⟩ := h
  split at hp
  · rw [Option.map_eq_some_iff] at hp
    obtain ⟨plan, hplan, rfl⟩ := hp
    exact ⟨p, hplan⟩
  · cases hp

theorem bestOffer_mem {os : List InteriorOffer} {o : InteriorOffer} (h : bestOffer os = some o) : o ∈ os := by
  cases os with
  | nil => cases h
  | cons x xs =>
    simp only [bestOffer, Option.some.injEq] at h
    subst h
    induction xs generalizing x with
    | nil => exact List.mem_singleton.mpr rfl
    | cons y ys ih =>
      have hbetter : betterOffer x y = x ∨ betterOffer x y = y := by
        unfold betterOffer
        split <;> simp
      have := ih (betterOffer x y)
      rw [List.foldl_cons]
      obtain hx | hy := hbetter
      · rw [hx] at this ⊢
        simp only [List.mem_cons] at this ⊢
        tauto
      · rw [hy] at this ⊢
        simp only [List.mem_cons] at this ⊢
        tauto

/-- The offer that an interior case names is one of the bore's offers. -/
theorem State.mem_offers_of_case {s : State} {b : Fin 2} {o : InteriorOffer}
    (h : s.interiorCase b = .closedAuto o ∨ s.interiorCase b = .entryAuto o) : o ∈ s.offers b := by
  unfold State.interiorCase at h
  split at h
  · simp at h
  · split at h
    · split at h
      next x hx =>
        simp only [InteriorCase.closedAuto.injEq, reduceCtorEq, or_false] at h
        exact h ▸ List.mem_of_mem_head? hx
      · simp at h
    · split at h
      next x hx =>
        simp only [InteriorCase.entryAuto.injEq, reduceCtorEq, false_or] at h
        exact h ▸ List.mem_of_mem_filter (bestOffer_mem hx)
      · simp at h

theorem State.ChannelsBounded.plan_of_offer {s : State} (h : s.ChannelsBounded) {b : Fin 2} {o : InteriorOffer}
    (ho : o ∈ s.offers b) : o.plan.valid = true := by
  obtain ⟨p, hp⟩ := State.mem_offers ho
  exact Portal.valid_of_plan (h.1 p) hp

theorem State.ChannelsBounded.withInterior {s : State} (h : s.ChannelsBounded) (b : Fin 2) :
    ((s.bore b).withInterior (s.interiorCase b)).demand ≤ 60000
      ∧ ((s.bore b).withInterior (s.interiorCase b)).base ≤ 60000 := by
  have hb := h.2 b
  cases hc : s.interiorCase b with
  | emergency => exact ⟨le_rfl, hb.2⟩
  | closedAuto o =>
    have := Plan.interior_le_of_valid (h.plan_of_offer (State.mem_offers_of_case (.inl hc))) true
    exact ⟨this, this⟩
  | closedIdle => exact ⟨Nat.zero_le _, Nat.zero_le _⟩
  | entryAuto o =>
    have := Plan.interior_le_of_valid (h.plan_of_offer (State.mem_offers_of_case (.inr hc))) o.night
    exact ⟨this, this⟩
  | noEntry => exact ⟨hb.2, hb.2⟩

theorem State.ChannelsBounded.congr {s t : State} (h : s.ChannelsBounded)
    (hp : ∀ p, (s.portal p).plansValid = true → (t.portal p).plansValid = true)
    (hb : ∀ b, (t.bore b).demand = (s.bore b).demand ∧ (t.bore b).base = (s.bore b).base) : t.ChannelsBounded :=
  ⟨fun p => hp p (h.1 p), fun b => by rw [(hb b).1, (hb b).2]; exact h.2 b⟩

theorem State.ChannelsBounded.setPortal {s : State} (h : s.ChannelsBounded) {p : Fin 4} {x : Portal}
    (hx : x.plansValid = true) : (s.setPortal p x).ChannelsBounded :=
  h.congr
    (fun q hq => by
      rw [State.portal_setPortal]
      split
      · exact hx
      · exact hq)
    fun _ => ⟨rfl, rfl⟩

theorem State.demands_enterOffline (s : State) (p : Fin 4) (b : Fin 2) :
    ((s.enterOffline p).bore b).demand = (s.bore b).demand ∧ ((s.enterOffline p).bore b).base = (s.bore b).base := by
  rw [State.bore_enterOffline]
  split <;> exact ⟨rfl, rfl⟩

theorem State.ChannelsBounded.enterOffline {s : State} (h : s.ChannelsBounded) (p : Fin 4) :
    (s.enterOffline p).ChannelsBounded :=
  h.congr
    (fun q hq => by
      rw [State.portal_enterOffline]
      split
      next hqp => subst hqp; exact Portal.plansValid_dropOverride hq rfl rfl rfl
      next =>
        split
        · rw [(Portal.resourced_withSource _ _ _).judged.plansValid]
          exact hq
        · exact hq)
    (s.demands_enterOffline p)

theorem State.ChannelsBounded.takeAction {s : State} (h : s.ChannelsBounded) (p : Fin 4) :
    (s.takeAction p).ChannelsBounded := by
  unfold State.takeAction
  split
  · exact h
  next a _ =>
    split
    · refine h.congr (fun q hq => ?_) fun b => ?_
      · rw [State.portal_holdNow]
        split
        next hqp => subst hqp; exact hq
        next => exact hq
      · rw [State.bore_holdNow]
        split <;> exact ⟨rfl, rfl⟩
    · refine h.congr (fun q hq => ?_) fun b => ?_
      · rw [State.portal_releaseNow]
        split
        next hqp => subst hqp; split <;> exact hq
        next => exact hq
      · rw [State.bore_releaseNow]
        split <;> exact ⟨rfl, rfl⟩
    · unfold State.stopNow
      split
      · exact h
      · refine State.ChannelsBounded.congr (h.enterOffline p) (fun q hq => ?_) fun b => by simp
        rw [State.portal_answerAction, State.portal_removeAction]
        split
        next hqp => subst hqp; exact hq
        next => exact hq

theorem planWriteOf_valid {body : List Octet} {w : PlanSlot × Option Plan} (h : planWriteOf body = some w) :
    w.2.all Plan.valid = true := by
  unfold planWriteOf at h
  split at h
  · cases h
  · split at h
    · split at h
      · cases h; rfl
      · cases h
    · split at h
      next hvalid => cases h; exact hvalid
      · cases h

theorem overrideKindOf_bounded {body : List Octet} {v : OverrideKind × Bool} (h : overrideKindOf body = some v) :
    v.1.levelField.all (fun lum => decide (lum ≤ 60000)) = true := by
  unfold overrideKindOf at h
  dsimp only at h
  split at h
  · cases h
    simp [OverrideKind.levelField]
  · split at h
    · cases h; rfl
    · cases h

theorem reset_channelsBounded : State.reset.ChannelsBounded := by
  unfold State.ChannelsBounded
  decide

theorem channelsBounded_kept : KeptByChannels State.ChannelsBounded where
  same s t h hs := hs.congr
    (fun p hp => by rw [h.portals]; exact hp) h.demands
  cold := reset_channelsBounded
  portalEvaluation s p e _ hs := by
    have hset : (s.setPortal p { s.portal p with timer := some (msAfter e 1000) }).ChannelsBounded :=
      hs.setPortal (hs.1 p)
    unfold State.evaluatePortal
    dsimp only
    split
    · exact hset.takeAction p
    · refine State.ChannelsBounded.congr (hset.takeAction p) (fun q hq => ?_) fun b => by
        rw [State.bore_evaluateSteps]
        exact ⟨rfl, rfl⟩
      rw [(State.portal_evaluateSteps _ p q).plansValid]
      exact hq
  boreEvaluation s b e hs := by
    have hset : (s.setBore b { s.bore b with timer := e }).ChannelsBounded :=
      hs.congr (fun _ => id) fun c => by
        rw [State.bore_setBore]
        split
        next hc => rw [hc]; exact ⟨rfl, rfl⟩
        next => exact ⟨rfl, rfl⟩
    refine ⟨fun p => by rw [State.portal_evaluateBore]; exact hset.1 p, fun c => ?_⟩
    rw [State.bore_evaluateBore]
    split
    · exact hset.withInterior b
    · exact hset.2 c
  override s p v _ hs := State.ChannelsBounded.setPortal (s := s) (p := p) (x := { s.portal p with override := none }) hs
    (Portal.plansValid_dropOverride (hs.1 p) rfl rfl rfl)
  portalSetup s p _ m q f _ _ hs := hs.setPortal (hs.1 p)
  plan s p _ w hw hs := by
    have hset : (s.setPortal p ((s.portal p).withPlan w.1 w.2)).ChannelsBounded := hs.setPortal (by
      have hp := hs.1 p
      have hvalid := planWriteOf_valid hw
      simp only [Portal.plansValid, Bool.and_eq_true] at hp
      unfold Portal.withPlan
      split <;> simp [Portal.plansValid, hp, hvalid])
    unfold State.writePlan
    split
    case h_4 | h_5 => exact hs
    all_goals exact hset
  commission s p hs := by
    unfold State.commissionOne
    split
    · exact hs
    · split
      · refine hs.congr (fun q hq => ?_) fun b => ?_
        · rw [State.portal_enterHeld]
          split
          next hqp => subst hqp; exact hq
          next => exact hq
        · rw [State.bore_enterHeld]
          split <;> exact ⟨rfl, rfl⟩
      · exact hs
  stop s p hs := by
    have habandon : (s.abandonAction p).ChannelsBounded :=
      hs.congr
        (fun q hq => by
          rw [State.portal_abandonAction]
          split
          next hqp => subst hqp; exact hq
          next => exact hq)
        fun b => by simp
    unfold State.stopOne
    split
    case h_1 | h_5 => exact hs
    all_goals exact habandon.enterOffline p
  setOverride s p _ v n hv hs := by
    have hset : (s.setPortal p { s.portal p with override := some (newOverride s.uptime v.1 n) }).ChannelsBounded :=
      hs.setPortal (by
        have hp := hs.1 p
        simp only [Portal.plansValid, Bool.and_eq_true] at hp
        simp [Portal.plansValid, hp, newOverride]
        simpa using overrideKindOf_bounded hv)
    unfold State.overrideOne
    split
    case h_3 | h_4 => exact hset
    all_goals exact hs
  clearOverride s p hs := by
    have hset : (s.setPortal p { s.portal p with override := none }).ChannelsBounded :=
      hs.setPortal (Portal.plansValid_dropOverride (hs.1 p) rfl rfl rfl)
    unfold State.unoverrideOne
    split
    case h_1 | h_2 => exact hs
    all_goals
      split
      · exact hset
      · exact hs
  dryRun s p x hs := by
    have hset : (s.setPortal p { s.portal p with dryRun := some x, state := .dryRun }).ChannelsBounded :=
      hs.setPortal (hs.1 p)
    unfold State.dryRunOne
    split
    case h_5 =>
      split
      · exact hs
      · split
        · exact hs
        · refine hset.congr (fun q hq => by simpa using hq) fun b => ?_
          rw [State.bore_workCondition]
          split <;> simp_all
    all_goals exact hs
  dryInput s p x hs := by
    unfold State.dryInputOne
    split
    case h_4 => exact hs.setPortal (hs.1 p)
    all_goals exact hs
  dryStop s p hs := by
    have hset : (s.setPortal p { s.portal p with dryRun := none, state := .held }).ChannelsBounded :=
      hs.setPortal (hs.1 p)
    unfold State.dryStopOne
    split
    case h_4 =>
      refine hset.congr (fun q hq => by simpa using hq) fun b => ?_
      rw [State.bore_workCondition]
      split <;> simp_all
    all_goals exact hs
  emergency s b hs := by
    cases he : (s.bore b).emergency with
    | true => simpa [State.emergencyOne, he] using hs
    | false =>
      refine ⟨fun q => ?_, fun c => ?_⟩
      · rw [s.portal_emergencyOne b he]
        split
        · unfold Portal.reached
          split <;> exact hs.1 q
        · exact hs.1 q
      · rw [s.bore_emergencyOne b he]
        split
        · exact ⟨le_rfl, (hs.2 b).2⟩
        · exact hs.2 c
  clear s b hs := by
    cases he : (s.bore b).emergency with
    | false => simpa [State.clearOne, he] using hs
    | true =>
      refine ⟨fun q => ?_, fun c => ?_⟩
      · rw [s.portal_clearOne b he]
        split
        · unfold Portal.returned
          split <;> exact hs.1 q
        · exact hs.1 q
      · rw [s.bore_clearOne b he]
        split
        · exact ⟨(hs.2 b).2, (hs.2 b).2⟩
        · exact hs.2 c
  defer s kind l r p hs := by
    unfold State.deferOne
    split
    · exact hs
    · exact hs
    · split
      · exact hs
      · exact hs.setPortal (hs.1 p)

end Sys2Proof.Machine
end

section
/-! SUPPORT. Invariants of the zones. What a zone record may hold depends on whether the zone is supervised and whether it
is under emergency allocation; the rules that each operation on a zone has to keep are gathered in `ZoneRules`, and the
traversal of the commands is made once. -/

namespace Sys2Proof.Machine

/-! ### Actions and dry runs, zone by zone -/

section
variable (s : State)

theorem State.zone_holdNow (p : Fin 4) (a : PendingAction) (y : Fin 14) :
    (s.holdNow p a).zone y
      = if y = interiorOf (boreOf p) then
          s.reconditioned (s.bore (boreOf p)).condition ((s.holdNow p a).conditionFor (boreOf p))
            (s.bore (boreOf p)).emergency (s.zone y)
        else s.zone y := by
  have hworks : s.Works ((((s.setPortalState p .held).raisePortalState p).removeAction p).answerAction p a .done) :=
    (((s.works_setPortalState p _).trans (State.works_raisePortalState _ p)).trans (State.works_removeAction _ p)).trans
      (State.works_answerAction _ p a _)
  simp only [State.holdNow, State.conditionFor_workCondition]
  rw [State.zone_workCondition_after hworks (by simp)]
  simp

theorem State.zone_releaseNow (p : Fin 4) (a : PendingAction) (y : Fin 14) :
    (s.releaseNow p a).zone y
      = if y = interiorOf (boreOf p) then
          s.reconditioned (s.bore (boreOf p)).condition ((s.releaseNow p a).conditionFor (boreOf p))
            (s.bore (boreOf p)).emergency (s.zone y)
        else if y ∈ zonesOf p ∧ (s.bore (boreOf p)).emergency = true then
          ({ s.zone y with preview := none } : Zone).litUp s.uptime
        else s.zone y := by
  have hint := interiorOf_notMem_zonesOf (boreOf p) p
  by_cases he : (s.bore (boreOf p)).emergency = true
  · have hworks : s.Works (((s.removeAction p).answerAction p a .done).enterEmergency p) :=
      ((s.works_removeAction p).trans (State.works_answerAction _ p a _)).trans (State.works_enterEmergency _ p)
    have hup : ((s.removeAction p).answerAction p a .done).uptime = s.uptime :=
      ((s.acts_removeAction p).trans (State.acts_answerAction _ p a _)).uptime
    simp only [State.releaseNow, he, if_true, State.conditionFor_workCondition]
    rw [State.zone_workCondition_after hworks (by simp [State.bore_enterEmergency]), State.zone_enterEmergency]
    by_cases hy : y = interiorOf (boreOf p)
    · subst hy; simp [hint, he]
    · simp [hy, hup]
  · have hworks : s.Works ((((s.setPortalState p .auto).raisePortalState p).removeAction p).answerAction p a .done) :=
      (((s.works_setPortalState p _).trans (State.works_raisePortalState _ p)).trans
        (State.works_removeAction _ p)).trans (State.works_answerAction _ p a _)
    simp only [State.releaseNow, he]
    simp only [State.conditionFor_workCondition, Bool.false_eq_true, if_false, and_false]
    rw [State.zone_workCondition_after hworks (by simp)]
    simp [he]

/-- A portal restated, its previews dropped or kept, and its bore's condition worked afresh. -/
theorem State.zone_restated {t : State} (hw : s.Works t) {p : Fin 4} (hb : t.bore (boreOf p) = s.bore (boreOf p))
    (hz : t.zone (interiorOf (boreOf p)) = s.zone (interiorOf (boreOf p))) (y : Fin 14) :
    (t.workCondition (boreOf p)).zone y
      = if y = interiorOf (boreOf p) then
          s.reconditioned (s.bore (boreOf p)).condition ((t.workCondition (boreOf p)).conditionFor (boreOf p))
            (s.bore (boreOf p)).emergency (s.zone y)
        else t.zone y := by
  rw [State.conditionFor_workCondition, State.zone_workCondition_after hw hb]
  split
  next hy => subst hy; rw [hz]
  next => rfl

theorem State.interiorCase_emergency_iff (b : Fin 2) :
    s.interiorCase b = .emergency ↔ (s.bore b).emergency = true := by
  unfold State.interiorCase
  split
  next h => simp [h]
  next h =>
    simp only [h, Bool.false_eq_true, iff_false]
    split
    · split <;> simp
    · split <;> simp

end

theorem zoneOf_ne_interior (p : Fin 4) (j : Fin 3) (b : Fin 2) : zoneOf p j ≠ interiorOf b :=
  Ne.symm (interiorOf_ne_zoneOf b p j)

theorem State.timerOf_some {s : State} {kind : TimerKind} {z : Fin 14} {k : Fin 8} {e : Uptime}
    (h : s.timerOf kind z k = some e) :
    ∀ c, (s.zone z).slots.get k = some c → ∃ t, c.timer = some t ∧ t.kind = kind := fun c hc => by
  simp only [State.timerOf, State.circuit, hc, Option.bind_some, Option.bind_eq_some_iff] at h
  obtain ⟨t, ht, hk⟩ := h
  refine ⟨t, ht, ?_⟩
  by_contra hne
  rw [if_neg hne] at hk
  cases hk

theorem Circuit.takeSample_cases (s : State) (which : Fin 192 → Bool) (pins : BitVec 192) (settle : Nat) (c : Circuit) :
    Circuit.takeSample s which pins settle c = c
    ∨ ∃ b, Circuit.takeSample s which pins settle c = c.feedbackChanged s.uptime settle b := by
  unfold Circuit.takeSample
  split
  · exact .inl rfl
  · split
    · exact .inr ⟨_, rfl⟩
    · exact .inl rfl

/-! ### The rules -/

/-- What the operations of the allocator and the supervisor keep of a property of zone records. `C v e` is the property
of a zone that is supervised (`v`) and under emergency allocation (`e`); `B` bounds the demands written. -/
structure ZoneRules (B : Nat → Prop) (C : Bool → Bool → Zone → Prop) : Prop where
  idle : ∀ v e z r f w, C v e z → C v e { z with rotation := r, shortfall := f, preview := w }
  calm : ∀ v e z, C v e z → C true false z
  supervise : ∀ z now cond, (∀ c, cond c = true → c.kind = .dimmed ∧ c.state = .off) → C true false z →
    C true false (z.modWhere cond (Circuit.startLoss now z.settle))
  light : ∀ z now, C true false z → C true true (z.atCapacity.lightAll now)
  stop : ∀ z, C true false z → C false false z.cleared
  demand : ∀ v e z d, B d → C v e z → C v e { z with demand := d }
  ramp : ∀ z f r l d, B d → C true false z → C true false (z.ramp f r l d)
  allocate : ∀ z now, C true false z → C true false (z.allocate now)
  settle : ∀ v e z k b, (∀ c, z.slots.get k = some c → ∃ t, c.timer = some t ∧ t.kind = .settle) → C v e z →
    C v e (z.modSlot k (Circuit.settled b))
  loss : ∀ v e z k, (∀ c, z.slots.get k = some c → ∃ t, c.timer = some t ∧ t.kind = .loss) → C v e z →
    C v e (z.modSlot k Circuit.lost)
  burn : ∀ v e z cond, C v e z → C v e (z.modWhere cond Circuit.burned)
  burnReset : ∀ v e z ks, C v e z → C v e (z.modSlots ks fun c => { c with burn := 0 })
  lockout : ∀ v e z now sets clears, C v e z → C v e (z.lockoutModify now e sets clears)
  sample : ∀ e z now (g : Circuit → Circuit), (∀ c, g c = c ∨ ∃ b, g c = c.feedbackChanged now z.settle b) →
    C true e z → C true e { z with slots := z.slots.mapWith fun _ o => o.map g }

/-- What a property of the channels gives the zones: bounds of the demands. -/
structure ChannelRules (B : Nat → Prop) (F : State → Prop) : Prop where
  kept : KeptByWork F
  timer : ∀ s p e, F s → F (s.setPortal p { s.portal p with timer := e })
  boreTimer : ∀ s b e, F s → F (s.setBore b { s.bore b with timer := e })
  action : ∀ s p, F s → F (s.takeAction p)
  judged : ∀ s t, (∀ p, (s.portal p).Judged (t.portal p)) → (∀ b, t.bore b = s.bore b) → F s → F t
  live : ∀ s p plan j k, F s → (s.portal p).plan k = some plan → B ((s.liveDemands p plan).at j)
  interior : ∀ s b, F s → B ((s.bore b).withInterior (s.interiorCase b)).demand
  cap : B 60000

/-- Every zone holds the property that its supervision and emergency ask for. -/
def State.ZonesIn (C : Bool → Bool → Zone → Prop) (s : State) : Prop :=
  ∀ z, C (s.supervised z) (s.underEmergency z) (s.zone z)

/-- The property of a portal's zone, by the portal's state. -/
def PortalState.zoneIn (C : Bool → Bool → Zone → Prop) (st : PortalState) (z : Zone) : Prop :=
  C (st != .offline) (st == .emergency) z

/-- The property of an interior zone, by the bore's emergency flag and interior condition. -/
def Condition.zoneIn (C : Bool → Bool → Zone → Prop) (c : Condition) (emergency : Bool) (z : Zone) : Prop :=
  C (c != .released) (emergency && c == .driven) z

section
variable {C : Bool → Bool → Zone → Prop}

theorem State.zonesIn_iff (s : State) :
    s.ZonesIn C ↔ (∀ p j, (s.portal p).state.zoneIn C (s.zone (zoneOf p j)))
      ∧ ∀ b, (s.bore b).condition.zoneIn C (s.bore b).emergency (s.zone (interiorOf b)) := by
  have hportal : ∀ p j, C (s.supervised (zoneOf p j)) (s.underEmergency (zoneOf p j)) (s.zone (zoneOf p j))
      ↔ (s.portal p).state.zoneIn C (s.zone (zoneOf p j)) := fun p j => by
    simp only [State.supervised, State.underEmergency, ownerOf_zoneOf, PortalState.zoneIn]
  have hbore : ∀ b, C (s.supervised (interiorOf b)) (s.underEmergency (interiorOf b)) (s.zone (interiorOf b))
      ↔ (s.bore b).condition.zoneIn C (s.bore b).emergency (s.zone (interiorOf b)) := fun b => by
    simp only [State.supervised, State.underEmergency, ownerOf_interiorOf, Condition.zoneIn]
  constructor
  · exact fun h => ⟨fun p j => (hportal p j).mp (h _), fun b => (hbore b).mp (h _)⟩
  · rintro ⟨hp, hb⟩ z
    obtain ⟨p, j, rfl⟩ | ⟨b, rfl⟩ := zone_cases z
    · exact (hportal p j).mpr (hp p j)
    · exact (hbore b).mpr (hb b)

theorem State.ZonesIn.congr {s t : State} (h : s.ZonesIn C) (hp : ∀ p, (t.portal p).state = (s.portal p).state)
    (hb : ∀ b, (t.bore b).condition = (s.bore b).condition ∧ (t.bore b).emergency = (s.bore b).emergency)
    (hz : ∀ z, C (s.supervised z) (s.underEmergency z) (s.zone z) → C (s.supervised z) (s.underEmergency z) (t.zone z)) :
    t.ZonesIn C := fun z => by
  have hsup : t.supervised z = s.supervised z := by
    unfold State.supervised
    split
    · rw [hp]
    · rw [(hb _).1]
  have hem : t.underEmergency z = s.underEmergency z := by
    unfold State.underEmergency
    split
    · rw [hp]
    · rw [(hb _).1, (hb _).2]
  rw [hsup, hem]
  exact hz z (h z)

/-- A zone record changed alone, in what its supervision and emergency ask for. -/
theorem State.ZonesIn.setOne {s t : State} (h : s.ZonesIn C) {z : Fin 14} (hp : ∀ p, t.portal p = s.portal p)
    (hb : ∀ b, t.bore b = s.bore b) (hne : ∀ y, y ≠ z → t.zone y = s.zone y)
    (hz : C (s.supervised z) (s.underEmergency z) (s.zone z) → C (s.supervised z) (s.underEmergency z) (t.zone z)) :
    t.ZonesIn C :=
  h.congr (fun p => by rw [hp]) (fun b => by rw [hb]; exact ⟨rfl, rfl⟩) fun y hy => by
    by_cases hyz : y = z
    · subst hyz; exact hz hy
    · rw [hne y hyz]; exact hy

theorem State.ZonesIn.putCircuit {s : State} (h : s.ZonesIn C) (z : Fin 14) (k : Fin 8) {f : Circuit → Circuit}
    (hf : C (s.supervised z) (s.underEmergency z) (s.zone z) →
      C (s.supervised z) (s.underEmergency z) ((s.zone z).modSlot k f)) : (s.putCircuit z k f).ZonesIn C :=
  h.setOne (z := z) (fun p => by simp [State.putCircuit]) (fun b => by simp [State.putCircuit])
    (fun y hy => by simp [State.putCircuit, State.zone_putZone, hy])
    (by simpa [State.putCircuit] using hf)

end

namespace ZoneRules

variable {B : Nat → Prop} {C : Bool → Bool → Zone → Prop} (r : ZoneRules B C)
include r

theorem tested {v e : Bool} {z : Zone} (h : C v e z) : C v e z.tested :=
  r.idle v e z z.rotation (decide (z.capacity < z.ramped)) z.preview h

theorem litUp {v e : Bool} {z : Zone} (now : Uptime) (h : C v e z) : C true true (z.litUp now) :=
  r.tested (r.light z now (r.calm v e z h))

theorem preview {v e : Bool} {z : Zone} (w : Option Preview) (h : C v e z) : C v e { z with preview := w } :=
  r.idle v e z z.rotation z.shortfall w h

theorem rotation {v e : Bool} {z : Zone} (i : Fin 8) (h : C v e z) : C v e { z with rotation := i } :=
  r.idle v e z i z.shortfall z.preview h

theorem stopped {v e : Bool} {z : Zone} (h : C v e z) : C false false z.stopped :=
  r.idle false false z.cleared z.cleared.rotation false z.cleared.preview (r.stop z (r.calm v e z h))

theorem startSupervision (s : State) {v e : Bool} {z : Zone} (h : C v e z) : C true false (s.startSupervision z) :=
  r.supervise z s.uptime _
    (fun c hc => by
      simp only [Bool.and_eq_true, Circuit.isDimmed, beq_iff_eq] at hc
      exact ⟨hc.1.1, hc.1.2⟩)
    (r.calm v e z h)

/-- The interior zone keeps the property through a change of its condition. -/
theorem reconditioned (s : State) {was now : Condition} {e e' : Bool} {z : Zone} (h : was.zoneIn C e z)
    (he : was = .driven → now = .driven → e' = true → e = true) : now.zoneIn C e' (s.reconditioned was now e' z) := by
  unfold Condition.zoneIn at *
  cases was <;> cases now
  case driven.driven =>
    cases e' with
    | true => rw [he rfl rfl rfl] at h; exact h
    | false => exact r.calm _ _ z h
  case driven.held => cases e' <;> exact r.calm _ _ z h
  case driven.released => cases e' <;> exact r.stopped h
  case held.driven =>
    cases e' with
    | true => exact r.litUp s.uptime h
    | false => exact r.calm _ _ z h
  case held.held => cases e' <;> exact r.calm _ _ z h
  case held.released => cases e' <;> exact r.stopped h
  case released.driven =>
    cases e' with
    | true => exact r.litUp s.uptime (r.startSupervision s h)
    | false => exact r.startSupervision s h
  case released.held => cases e' <;> exact r.startSupervision s h
  case released.released => cases e <;> cases e' <;> exact h

/-! ### One portal moved -/

/-- One portal restated, its zones changed with it, its bore's interior zone reconditioned. -/
theorem moved {s t : State} (h : s.ZonesIn C) {p : Fin 4}
    (hstate : ∀ q, q ≠ p → (t.portal q).state = (s.portal q).state)
    (hzone : ∀ y, y ∉ zonesOf p → y ≠ interiorOf (boreOf p) → t.zone y = s.zone y)
    (hem : ∀ b, (t.bore b).emergency = (s.bore b).emergency)
    (hcond : ∀ b, b ≠ boreOf p → (t.bore b).condition = (s.bore b).condition)
    (hp : ∀ j, (t.portal p).state.zoneIn C (t.zone (zoneOf p j)))
    (hint : t.zone (interiorOf (boreOf p))
      = s.reconditioned (s.bore (boreOf p)).condition (t.bore (boreOf p)).condition (s.bore (boreOf p)).emergency
          (s.zone (interiorOf (boreOf p)))) : t.ZonesIn C := by
  rw [State.zonesIn_iff] at h ⊢
  refine ⟨fun q j => ?_, fun b => ?_⟩
  · by_cases hq : q = p
    · exact hq ▸ hp j
    · rw [hstate q hq, hzone _ (by rw [mem_zonesOf_iff_owner, ownerOf_zoneOf]; simpa using hq)
        (Ne.symm (interiorOf_ne_zoneOf _ _ _))]
      exact h.1 q j
  · rw [hem]
    by_cases hb : b = boreOf p
    · subst hb
      rw [hint]
      exact r.reconditioned s (h.2 _) fun _ _ => id
    · rw [hcond b hb, hzone _ (interiorOf_notMem_zonesOf _ _) (by rwa [ne_eq, interiorOf_inj])]
      exact h.2 b

theorem enterOffline {s : State} (h : s.ZonesIn C) (p : Fin 4) : (s.enterOffline p).ZonesIn C := by
  have hz := (State.zonesIn_iff s).mp h
  have hcond : (((s.enterOffline p).bore (boreOf p))).condition = (s.enterOffline p).conditionFor (boreOf p) := by
    rw [State.bore_enterOffline, if_pos rfl]
  refine r.moved h (p := p) (fun q hq => s.state_enterOffline_ne hq)
    (fun y hy hi => by rw [State.zone_enterOffline, if_neg hy, if_neg hi]) (s.emergency_enterOffline p)
    (fun b hb => by rw [State.bore_enterOffline, if_neg hb]) (fun j => ?_) ?_
  · rw [State.portal_enterOffline, if_pos rfl, State.zone_enterOffline, if_pos (mem_zonesOf.mpr ⟨j, rfl⟩)]
    exact r.stopped (hz.1 p j)
  · rw [State.zone_enterOffline, if_neg (interiorOf_notMem_zonesOf _ _), if_pos rfl, hcond]

theorem enterHeld {s : State} (h : s.ZonesIn C) (p : Fin 4) : (s.enterHeld p).ZonesIn C := by
  have hz := (State.zonesIn_iff s).mp h
  have hcond : (((s.enterHeld p).bore (boreOf p))).condition = (s.enterHeld p).conditionFor (boreOf p) := by
    rw [State.bore_enterHeld, if_pos rfl]
  refine r.moved h (p := p) (fun q hq => by rw [State.portal_enterHeld, if_neg hq])
    (fun y hy hi => by rw [State.zone_enterHeld, if_neg hy, if_neg hi])
    (fun b => by rw [State.bore_enterHeld]; split <;> rfl)
    (fun b hb => by rw [State.bore_enterHeld, if_neg hb]) (fun j => ?_) ?_
  · rw [State.portal_enterHeld, if_pos rfl, State.zone_enterHeld, if_pos (mem_zonesOf.mpr ⟨j, rfl⟩)]
    exact r.startSupervision s (hz.1 p j)
  · rw [State.zone_enterHeld, if_neg (interiorOf_notMem_zonesOf _ _), if_pos rfl, hcond]

theorem takeAction {s : State} (h : s.ZonesIn C) (p : Fin 4) : (s.takeAction p).ZonesIn C := by
  have hz := (State.zonesIn_iff s).mp h
  unfold State.takeAction
  split
  · exact h
  next a _ =>
    split
    · refine r.moved h (p := p) (fun q hq => by rw [State.portal_holdNow, if_neg hq])
        (fun y _ hi => by rw [State.zone_holdNow, if_neg hi])
        (fun b => by rw [State.bore_holdNow]; split <;> rfl)
        (fun b hb => by rw [State.bore_holdNow, if_neg hb]) (fun j => ?_) ?_
      · rw [State.portal_holdNow, if_pos rfl, State.zone_holdNow, if_neg (zoneOf_ne_interior p j _)]
        exact r.calm _ _ _ (hz.1 p j)
      · rw [State.zone_holdNow, if_pos rfl, State.bore_holdNow, if_pos rfl]
    · refine r.moved h (p := p) (fun q hq => by rw [State.portal_releaseNow, if_neg hq])
        (fun y hy hi => by rw [State.zone_releaseNow, if_neg hi, if_neg fun h => hy h.1])
        (fun b => by rw [State.bore_releaseNow]; split <;> rfl)
        (fun b hb => by rw [State.bore_releaseNow, if_neg hb]) (fun j => ?_) ?_
      · rw [State.portal_releaseNow, if_pos rfl, State.zone_releaseNow, if_neg (zoneOf_ne_interior p j _)]
        have hmem : zoneOf p j ∈ zonesOf p := mem_zonesOf.mpr ⟨j, rfl⟩
        by_cases he : (s.bore (boreOf p)).emergency = true
        · simp only [he, hmem, if_true, and_self]
          exact r.litUp s.uptime (r.preview none (hz.1 p j))
        · rw [if_neg he, if_neg fun h => he h.2]
          exact r.calm _ _ _ (hz.1 p j)
      · rw [State.zone_releaseNow, if_pos rfl, State.bore_releaseNow, if_pos rfl]
    · unfold State.stopNow
      split
      · exact h
      · refine State.ZonesIn.congr (r.enterOffline h p) (fun q => ?_) (fun b => by simp) fun z hz => by simpa using hz
        rw [State.portal_answerAction, State.portal_removeAction]
        split
        next hq => rw [hq]
        next => rfl

/-! ### Evaluations -/

theorem actedZone {s : State} {p : Fin 4} {plan : Plan} {j : Fin 3} {z : Zone}
    (hB : B ((s.liveDemands p plan).at j)) (hcap : B 60000) (h : (s.portal p).state.zoneIn C z) :
    (s.portal p).state.zoneIn C (s.actedZone p plan (s.portal p).actingState j z) := by
  unfold Portal.actingState
  cases hst : (s.portal p).state with
  | offline => rw [hst] at h; exact h
  | held => rw [hst] at h; exact r.tested h
  | dryRun =>
    rw [hst] at h
    simp only [State.actedZone]
    split
    · exact r.tested h
    · split
      · exact r.tested h
      · exact r.tested (r.preview _ h)
  | auto =>
    rw [hst] at h
    simp only
    split
    · exact r.tested h
    · exact r.tested (r.allocate _ _ (r.ramp _ _ _ _ _ hB h))
  | emergency =>
    rw [hst] at h
    exact r.litUp s.uptime (r.demand _ _ _ _ hcap h)

theorem evaluateSteps {F : State → Prop} (k : ChannelRules B F) {s : State} (hF : F s) (h : s.ZonesIn C) (p : Fin 4) :
    (s.evaluateSteps p).ZonesIn C := by
  have hz := (State.zonesIn_iff s).mp h
  unfold State.evaluateSteps
  cases hplan : s.selectedPlan p with
  | none => exact h
  | some plan =>
    simp only
    set u := (((s.selectPlan p).runCascade p).testNight p plan).storeRole p with hu
    have hjudged : ∀ q, (s.portal q).Judged (u.portal q) := fun q => by
      have := s.portal_evaluateSteps p q
      unfold State.evaluateSteps at this
      rw [hplan] at this
      simpa only [State.portal_act] using this
    have hbore : ∀ b, u.bore b = s.bore b := fun b => by simp [hu, State.runCascade]
    have hzone : ∀ y, u.zone y = s.zone y ∨ u.zone y = { s.zone y with rotation := (s.zone y).rotation + 1 } := fun y => by
      have hrun : ((s.selectPlan p).runCascade p).zone y = s.zone y := by
        rw [State.runCascade, State.zone_setSource]
        rfl
      have htest : u.zone y = (((s.selectPlan p).runCascade p).testNight p plan).zone y := rfl
      rw [htest, State.zone_testNight, hrun]
      split
      · exact .inr rfl
      · exact .inl rfl
    have hin : u.ZonesIn C := h.congr (fun q => (hjudged q).state) (fun b => by rw [hbore]; exact ⟨rfl, rfl⟩)
      fun y hy => by
        obtain heq | heq := hzone y <;> rw [heq]
        · exact hy
        · exact r.rotation _ hy
    have hlive : ∀ j, B ((u.liveDemands p plan).at j) := fun j => by
      refine k.live u p plan j (s.selectSlot p) (k.judged s u hjudged hbore hF) ?_
      rw [← hplan]
      unfold State.selectedPlan Portal.plan
      rw [hjudged p]
    refine hin.congr (fun q => by rw [State.portal_act]) (fun b => by rw [State.bore_act]; exact ⟨rfl, rfl⟩)
      fun y hy => ?_
    by_cases hmem : y ∈ zonesOf p
    · obtain ⟨j, rfl⟩ := mem_zonesOf.mp hmem
      rw [State.zone_act]
      have := r.actedZone (hlive j) k.cap (((State.zonesIn_iff u).mp hin).1 p j)
      simpa [PortalState.zoneIn, State.supervised, State.underEmergency] using this
    · rw [State.zone_act_ne _ _ _ hmem]
      exact hy

theorem evaluateBore {F : State → Prop} (k : ChannelRules B F) {s : State} (hF : F s) (h : s.ZonesIn C) (b : Fin 2) :
    (s.evaluateBore b).ZonesIn C := by
  refine h.congr (fun q => by rw [State.portal_evaluateBore]) (fun c => ?_) fun y hy => ?_
  · rw [State.bore_evaluateBore]
    split
    next hc => rw [Bore.condition_withInterior, Bore.emergency_withInterior, hc]; exact ⟨rfl, rfl⟩
    next => exact ⟨rfl, rfl⟩
  · have hB := k.interior s b hF
    unfold State.evaluateBore
    simp only [State.zone_actInterior, State.zone_setBore]
    split
    next hyb =>
      subst hyb
      simp only [State.supervised, State.underEmergency, ownerOf_interiorOf] at hy ⊢
      unfold State.actedInterior
      simp only [State.bore_setBore_self, Bore.condition_withInterior, State.setBore_uptime]
      cases hc : (s.bore b).condition with
      | released => rw [hc] at hy; exact hy
      | held =>
        rw [hc] at hy
        exact r.tested (r.demand _ _ _ _ hB hy)
      | driven =>
        rw [hc] at hy
        have hturn : ∀ n : Bool, C true ((s.bore b).emergency)
            (if n then { s.zone (interiorOf b) with rotation := (s.zone (interiorOf b)).rotation + 1 }
             else s.zone (interiorOf b)) := fun n => by
          have hy' : C true (s.bore b).emergency (s.zone (interiorOf b)) := by
            rwa [show (Condition.driven != .released) = true from rfl, beq_self_eq_true, Bool.and_true] at hy
          cases n with
          | true => exact r.rotation _ hy'
          | false => exact hy'
        by_cases he : (s.bore b).emergency = true
        · have hcase := (s.interiorCase_emergency_iff b).mpr he
          rw [hcase] at hB ⊢
          simp only [he]
          exact r.litUp _ (r.demand _ _ _ _ hB (hturn _))
        · have hcase : s.interiorCase b ≠ .emergency := fun hem => he ((s.interiorCase_emergency_iff b).mp hem)
          rw [Bool.not_eq_true] at he
          rw [he] at hturn ⊢
          generalize s.interiorCase b = ic at hcase hB ⊢
          cases ic with
          | emergency => exact absurd rfl hcase
          | closedAuto o => exact r.tested (r.allocate _ _ (r.ramp _ _ _ _ _ hB (hturn _)))
          | closedIdle => exact r.tested (r.allocate _ _ (r.ramp _ _ _ _ _ hB (hturn _)))
          | entryAuto o => exact r.tested (r.allocate _ _ (r.ramp _ _ _ _ _ hB (hturn _)))
          | noEntry => exact r.tested (r.allocate _ _ (r.ramp _ _ _ _ _ hB (hturn _)))
    next => exact hy

/-! ### Emergencies -/

theorem emergencyOne {s : State} (h : s.ZonesIn C) (b : Fin 2) : (State.emergencyOne b s).1.ZonesIn C := by
  cases he : (s.bore b).emergency with
  | true => simpa [State.emergencyOne, he] using h
  | false =>
    have hz := (State.zonesIn_iff s).mp h
    rw [State.zonesIn_iff]
    refine ⟨fun q j => ?_, fun c => ?_⟩
    · have hq := hz.1 q j
      rw [s.portal_emergencyOne b he, s.zone_emergencyOne b he, ownerOf_zoneOf]
      by_cases hb : boreOf q = b
      · simp only [hb, if_true, true_and]
        unfold Portal.reached Portal.reachable
        cases hst : (s.portal q).state with
        | offline => simp only [Bool.false_eq_true, if_false]; rwa [hst] at hq ⊢
        | emergency => simp only [Bool.false_eq_true, if_false]; rwa [hst] at hq ⊢
        | held => exact r.litUp s.uptime (r.preview none hq)
        | dryRun => exact r.litUp s.uptime (r.preview none hq)
        | auto => exact r.litUp s.uptime (r.preview none hq)
      · simp only [hb, if_false, false_and]
        exact hq
    · have hc := hz.2 c
      rw [s.bore_emergencyOne b he, s.zone_emergencyOne b he, ownerOf_interiorOf]
      by_cases hcb : c = b
      · subst hcb
        simp only [if_true]
        split
        next hd =>
          rw [hd.2]
          exact r.litUp s.uptime hc
        next hd => exact r.reconditioned s hc fun h1 h2 _ => absurd ⟨h1, h2⟩ hd
      · simp only [hcb, if_false]
        exact hc

theorem clearOne {s : State} (h : s.ZonesIn C) (b : Fin 2) : (State.clearOne b s).1.ZonesIn C := by
  cases he : (s.bore b).emergency with
  | false => simpa [State.clearOne, he] using h
  | true =>
    have hz := (State.zonesIn_iff s).mp h
    rw [State.zonesIn_iff]
    refine ⟨fun q j => ?_, fun c => ?_⟩
    · have hq := hz.1 q j
      rw [s.portal_clearOne b he, s.zone_clearOne b he, if_neg (zoneOf_ne_interior q j b)]
      by_cases hb : boreOf q = b
      · simp only [hb, if_true]
        unfold Portal.returned
        split
        · exact r.calm _ _ _ hq
        · exact hq
      · simp only [hb, if_false]
        exact hq
    · have hc := hz.2 c
      rw [s.bore_clearOne b he, s.zone_clearOne b he]
      by_cases hcb : c = b
      · subst hcb
        simp only [if_true]
        exact r.reconditioned s hc fun _ _ h => by cases h
      · rw [if_neg hcb, if_neg (by rwa [interiorOf_inj])]
        exact hc

/-! ### Every command -/

theorem restated {s t : State} (h : s.ZonesIn C) {p : Fin 4} (hw : s.Works t) (hb : ∀ b, t.bore b = s.bore b)
    (hstate : ∀ q, q ≠ p → (t.portal q).state = (s.portal q).state)
    (hzone : ∀ y, y ∉ zonesOf p → t.zone y = s.zone y)
    (hp : ∀ j, (t.portal p).state.zoneIn C (t.zone (zoneOf p j))) : (t.workCondition (boreOf p)).ZonesIn C := by
  have hz := s.zone_restated hw (p := p) (hb _) (hzone _ (interiorOf_notMem_zonesOf _ _))
  refine r.moved h (p := p) (fun q hq => by rw [State.portal_workCondition]; exact hstate q hq)
    (fun y hy hi => by rw [hz, if_neg hi]; exact hzone y hy)
    (fun b => by
      rw [State.bore_workCondition]
      split
      next hbp => subst hbp; rw [← hb]
      next => rw [hb])
    (fun b hne => by rw [State.bore_workCondition, if_neg hne, hb]) (fun j => ?_) ?_
  · rw [State.portal_workCondition, hz, if_neg (zoneOf_ne_interior p j _)]
    exact hp j
  · rw [hz, if_pos rfl, State.bore_workCondition, if_pos rfl, State.conditionFor_workCondition]

/-- A property of zones that the operations keep is kept by every command, beside the property of channels it uses. -/
theorem keptByWork {F : State → Prop} (k : ChannelRules B F) (cold : C false false Zone.cold)
    (write : ∀ s z body u, zoneSetupOf body = some u → s.zoneWritable z = true → F s →
      C (s.supervised z) (s.underEmergency z) (s.zone z) →
      C (s.supervised z) (s.underEmergency z) ((s.zone z).withSetup u)) :
    KeptByWork fun s => F s ∧ s.ZonesIn C where
  same s t h hs := ⟨k.kept.same s t h hs.1, hs.2.congr (fun p => by rw [h.portals])
    (fun b => by rw [State.bore, h.bores]; exact ⟨rfl, rfl⟩) fun z hz => by rw [State.zone, h.zones]; exact hz⟩
  cold := ⟨k.kept.cold, fun z => by
    have hzone : State.reset.zone z = Zone.cold := Tab.get_fill _ z
    have hsup : State.reset.supervised z = false := by revert z; decide
    have hem : State.reset.underEmergency z = false := by revert z; decide
    rw [hzone, hsup, hem]
    exact cold⟩
  events s p e he hs := by
    refine ⟨k.kept.events s p e he hs.1, ?_⟩
    have hset : (s.setPortal p { s.portal p with timer := some (msAfter e 1000) }).ZonesIn C :=
      hs.2.congr
        (fun q => by
          rw [State.portal_setPortal]
          split
          next hq => rw [hq]
          next => rfl)
        (fun _ => ⟨rfl, rfl⟩) fun _ => id
    unfold State.evaluatePortal
    dsimp only
    split
    · exact r.takeAction hset p
    · exact r.evaluateSteps k (k.action _ p (k.timer s p _ hs.1)) (r.takeAction hset p) p
  boreEvaluation s b e hs := by
    refine ⟨k.kept.boreEvaluation s b e hs.1, r.evaluateBore k (k.boreTimer s b e hs.1) (hs.2.congr (fun _ => rfl)
      (fun c => ?_) fun _ => id) b⟩
    rw [State.bore_setBore]
    split
    next hc => rw [hc]; exact ⟨rfl, rfl⟩
    next => exact ⟨rfl, rfl⟩
  gate s m e he hs := ⟨k.kept.gate s m e he hs.1, hs.2.congr
    (fun q => by unfold State.endGate; dsimp only; split <;> rfl)
    (fun b => by unfold State.endGate; dsimp only; split <;> exact ⟨rfl, rfl⟩)
    fun z => by unfold State.endGate; dsimp only; split <;> exact id⟩
  edge s x d hfn hd hs := by
    refine ⟨k.kept.edge s x d hfn hd hs.1, ?_⟩
    obtain heq | ⟨-, m, -, heq⟩ := s.readPin_cases x d <;> rw [heq] <;>
      exact hs.2.congr (fun _ => rfl) (fun _ => ⟨rfl, rfl⟩) fun _ => id
  sample s which pins hs := ⟨k.kept.sample s which pins hs.1,
    hs.2.congr (fun _ => rfl) (fun _ => ⟨rfl, rfl⟩) fun z hz => by
      rw [State.zone_sampleLines]
      split
      next hsup =>
        rw [hsup] at hz ⊢
        exact r.sample _ _ s.uptime _ (fun c => Circuit.takeSample_cases s which pins _ c) hz
      next => exact hz⟩
  settle s z i e he hs := ⟨k.kept.settle s z i e he hs.1,
    hs.2.putCircuit z i (r.settle _ _ _ i _ (State.timerOf_some he))⟩
  loss s z i e he hs := ⟨k.kept.loss s z i e he hs.1,
    hs.2.putCircuit z i (r.loss _ _ _ i (State.timerOf_some he))⟩
  burn s hs := ⟨k.kept.burn s hs.1, hs.2.congr (fun _ => rfl) (fun _ => ⟨rfl, rfl⟩) fun z hz => by
    change C _ _ (Tab.get _ z)
    rw [Tab.get_mapWith]
    exact r.burn _ _ _ _ hz⟩
  override s p v hv hs := ⟨k.kept.override s p v hv hs.1, hs.2.congr
    (fun q => by
      rw [State.endOverride, State.portal_raise, State.portal_setPortal]
      split
      next hq => rw [hq]
      next => rfl)
    (fun _ => ⟨rfl, rfl⟩) fun _ => id⟩
  stale s b hs := ⟨k.kept.stale s b hs.1, hs.2.congr (fun _ => rfl)
    (fun c => by
      rw [State.bore_raiseTrafficState, State.bore_setBore]
      split
      next hc => rw [hc]; exact ⟨rfl, rfl⟩
      next => exact ⟨rfl, rfl⟩)
    fun _ => id⟩
  period s hs := ⟨k.kept.period s hs.1, hs.2.congr (fun _ => rfl) (fun _ => ⟨rfl, rfl⟩) fun _ => id⟩
  writes :=
    { writeLine := fun s fn invert i hi hs => by
        refine ⟨k.kept.writes.writeLine s fn invert i hi hs.1, ?_⟩
        obtain ⟨-, h⟩ | ⟨-, ⟨h, -⟩ | ⟨m, -, -, h⟩⟩ := State.writeLine_cases fn invert s i <;> rw [h] <;>
          exact hs.2.congr (fun _ => rfl) (fun _ => ⟨rfl, rfl⟩) fun _ => id
      meterSetup := fun s m body u hu ht hl hs => ⟨k.kept.writes.meterSetup s m body u hu ht hl hs.1,
        hs.2.congr (fun _ => rfl) (fun _ => ⟨rfl, rfl⟩) fun _ => id⟩
      portalSetup := fun s p body m q f hst hb hs => ⟨k.kept.writes.portalSetup s p body m q f hst hb hs.1,
        hs.2.congr
          (fun q => by
            rw [State.portal_setPortal]
            split
            next hq => rw [hq]
            next => rfl)
          (fun _ => ⟨rfl, rfl⟩) fun _ => id⟩
      zoneSetup := fun s z body u hu hw hs => ⟨k.kept.writes.zoneSetup s z body u hu hw hs.1,
        hs.2.setOne (z := z) (fun _ => by simp) (fun _ => by simp) (fun y hy => by simp [State.zone_setZone, hy])
          fun hz => by simpa using write s z body u hu hw hs.1 hz⟩
      plan := fun s p body w hw hs => by
        refine ⟨k.kept.writes.plan s p body w hw hs.1, ?_⟩
        have hset : (s.setPortal p ((s.portal p).withPlan w.1 w.2)).ZonesIn C := hs.2.congr
          (fun q => by
            rw [State.portal_setPortal]
            split
            next hq => rw [hq]; unfold Portal.withPlan; split <;> rfl
            next => rfl)
          (fun _ => ⟨rfl, rfl⟩) fun _ => id
        unfold State.writePlan
        split
        case h_4 | h_5 => exact hs.2
        all_goals exact hset
      schedule := fun s body ws hws hs => ⟨k.kept.writes.schedule s body ws hws hs.1,
        hs.2.congr (fun _ => rfl) (fun _ => ⟨rfl, rfl⟩) fun _ => id⟩
      boreSetup := fun s b n hs => ⟨k.kept.writes.boreSetup s b n hs.1, hs.2.congr (fun _ => rfl)
        (fun c => by
          rw [State.bore_setBore]
          split
          next hc => rw [hc]; exact ⟨rfl, rfl⟩
          next => exact ⟨rfl, rfl⟩)
        fun _ => id⟩
      clock := fun s c hs => ⟨k.kept.writes.clock s c hs.1,
        hs.2.congr (fun _ => rfl) (fun _ => ⟨rfl, rfl⟩) fun _ => id⟩ }
  control :=
    { commission := fun s p hs => by
        refine ⟨k.kept.control.commission s p hs.1, ?_⟩
        unfold State.commissionOne
        split
        · exact hs.2
        · split
          · exact r.enterHeld hs.2 p
          · exact hs.2
      stop := fun s p hs => by
        refine ⟨k.kept.control.stop s p hs.1, ?_⟩
        have habandon : (s.abandonAction p).ZonesIn C := hs.2.congr
          (fun q => by
            rw [State.portal_abandonAction]
            split
            next hq => rw [hq]
            next => rfl)
          (fun b => by simp) fun z => by simp
        unfold State.stopOne
        split
        case h_1 | h_5 => exact hs.2
        all_goals exact r.enterOffline habandon p
      setOverride := fun s p body v n hv hs => by
        refine ⟨k.kept.control.setOverride s p body v n hv hs.1, ?_⟩
        have hset : (s.setPortal p { s.portal p with override := some (newOverride s.uptime v.1 n) }).ZonesIn C :=
          hs.2.congr
            (fun q => by
              rw [State.portal_setPortal]
              split
              next hq => rw [hq]
              next => rfl)
            (fun _ => ⟨rfl, rfl⟩) fun _ => id
        unfold State.overrideOne
        split
        case h_3 | h_4 => exact hset
        all_goals exact hs.2
      clearOverride := fun s p hs => by
        refine ⟨k.kept.control.clearOverride s p hs.1, ?_⟩
        have hset : (s.setPortal p { s.portal p with override := none }).ZonesIn C :=
          hs.2.congr
            (fun q => by
              rw [State.portal_setPortal]
              split
              next hq => rw [hq]
              next => rfl)
            (fun _ => ⟨rfl, rfl⟩) fun _ => id
        unfold State.unoverrideOne
        split
        case h_1 | h_2 => exact hs.2
        all_goals
          split
          · exact hset
          · exact hs.2
      dryRun := fun s p x hs => by
        refine ⟨k.kept.control.dryRun s p x hs.1, ?_⟩
        unfold State.dryRunOne
        split
        case h_5 hst =>
          split
          · exact hs.2
          · split
            · exact hs.2
            · refine r.restated hs.2
                ((s.works_setPortal p (by exact ⟨rfl, rfl, rfl, rfl, rfl⟩)).trans (State.works_raisePortalState _ p))
                (fun _ => rfl) (fun q hq => by rw [State.portal_raisePortalState, State.portal_setPortal_ne _ hq])
                (fun _ _ => rfl) fun j => ?_
              rw [State.portal_raisePortalState, State.portal_setPortal_self]
              exact r.calm _ _ _ (((State.zonesIn_iff s).mp hs.2).1 p j)
        all_goals exact hs.2
      dryInput := fun s p x hs => by
        refine ⟨k.kept.control.dryInput s p x hs.1, ?_⟩
        have hset : (s.setPortal p { s.portal p with dryRun := some x }).ZonesIn C :=
          hs.2.congr
            (fun q => by
              rw [State.portal_setPortal]
              split
              next hq => rw [hq]
              next => rfl)
            (fun _ => ⟨rfl, rfl⟩) fun _ => id
        unfold State.dryInputOne
        split
        case h_4 => exact hset
        all_goals exact hs.2
      dryStop := fun s p hs => by
        refine ⟨k.kept.control.dryStop s p hs.1, ?_⟩
        unfold State.dryStopOne
        split
        case h_4 hst =>
          refine r.restated hs.2
            (((s.works_setPortal p (by exact ⟨rfl, rfl, rfl, rfl, rfl⟩)).trans (State.works_dropPreviews _ p)).trans
              (State.works_raisePortalState _ p))
            (fun _ => by simp) (fun q hq => by simp [State.portal_setPortal_ne _ hq])
            (fun y hy => by simp [State.zone_dropPreviews, hy]) fun j => ?_
          simp only [State.portal_raisePortalState, State.portal_dropPreviews, State.portal_setPortal_self,
            State.zone_raisePortalState, State.zone_dropPreviews, State.zone_setPortal,
            mem_zonesOf.mpr ⟨j, rfl⟩, if_true]
          exact r.preview none (r.calm _ _ _ (((State.zonesIn_iff s).mp hs.2).1 p j))
        all_goals exact hs.2
      lockout := fun s z a b hs => ⟨k.kept.control.lockout s z a b hs.1,
        hs.2.setOne (z := z) (fun _ => by simp) (fun _ => by simp) (fun y hy => by simp [State.zone_putZone, hy])
          fun hz => by simpa using r.lockout _ _ _ _ _ _ hz⟩
      burnReset := fun s z a hs => ⟨k.kept.control.burnReset s z a hs.1,
        hs.2.setOne (z := z) (fun _ => rfl) (fun _ => rfl) (fun y hy => by simp [State.zone_setZone, hy])
          fun hz => by simpa using r.burnReset _ _ _ _ hz⟩
      report := fun s b cls f g hs => by
        refine ⟨k.kept.control.report s b cls f g hs.1, hs.2.congr ?_ ?_ ?_⟩
        · intro q; unfold State.reportOne; dsimp only; split <;> rfl
        · intro c
          have hset : ((s.setBore b ((s.bore b).reported s.uptime cls g)).bore c).condition = (s.bore c).condition
              ∧ ((s.setBore b ((s.bore b).reported s.uptime cls g)).bore c).emergency = (s.bore c).emergency := by
            rw [State.bore_setBore]
            split
            next hc => rw [hc]; exact ⟨rfl, rfl⟩
            next => exact ⟨rfl, rfl⟩
          unfold State.reportOne; dsimp only; split <;> exact hset
        · intro z; unfold State.reportOne; dsimp only; split <;> exact id
      direction := fun s b mode hs => by
        refine ⟨k.kept.control.direction s b mode hs.1, hs.2.congr ?_ ?_ ?_⟩
        · intro q; unfold State.directionOne; dsimp only; split <;> rfl
        · intro c
          have hset : ((s.setBore b { s.bore b with mode := mode }).bore c).condition = (s.bore c).condition
              ∧ ((s.setBore b { s.bore b with mode := mode }).bore c).emergency = (s.bore c).emergency := by
            rw [State.bore_setBore]
            split
            next hc => rw [hc]; exact ⟨rfl, rfl⟩
            next => exact ⟨rfl, rfl⟩
          unfold State.directionOne; dsimp only; split
          · exact ⟨rfl, rfl⟩
          · exact hset
        · intro z; unfold State.directionOne; dsimp only; split <;> exact id
      emergency := fun s b hs => ⟨k.kept.control.emergency s b hs.1, r.emergencyOne hs.2 b⟩
      clear := fun s b hs => ⟨k.kept.control.clear s b hs.1, r.clearOne hs.2 b⟩ }
  defer s kind l q p hs := by
    refine ⟨k.kept.defer s kind l q p hs.1, ?_⟩
    unfold State.deferOne
    split
    · exact hs.2
    · exact hs.2
    · split
      · exact hs.2
      · exact hs.2.congr
          (fun q => by
            rw [State.portal_setPortal]
            split
            next hq => rw [hq]
            next => rfl)
          (fun _ => ⟨rfl, rfl⟩) fun _ => id

end ZoneRules

end Sys2Proof.Machine
end

section
/-! SUPPORT. The invariants of the zones: levels within their bounds (R28, R46, R50), legal records (R62, R63, R87, R95),
dim levels and dark zones (R75, R76, R85, R99), zones lit in emergency (R79, R80, R140). -/

namespace Sys2Proof.Machine

/-! ### What commands to circuits leave of a zone record -/

/-- The records agree but for the circuits and the dim level. -/
def Zone.Commanded (x y : Zone) : Prop :=
  y = { x with slots := y.slots, dim := y.dim }

theorem Zone.Commanded.refl (x : Zone) : x.Commanded x := rfl

theorem Zone.Commanded.trans {x y z : Zone} (h : x.Commanded y) (k : y.Commanded z) : x.Commanded z := by
  unfold Zone.Commanded at *
  rw [k, h]

theorem Zone.commanded_modSlot (z : Zone) (k : Fin 8) (f : Circuit → Circuit) : z.Commanded (z.modSlot k f) := rfl

theorem Zone.commanded_modWhere (z : Zone) (p : Circuit → Bool) (f : Circuit → Circuit) : z.Commanded (z.modWhere p f) :=
  rfl

theorem Zone.commanded_modSlots (z : Zone) (ks : List (Fin 8)) (f : Circuit → Circuit) : z.Commanded (z.modSlots ks f) :=
  rfl

theorem Zone.commanded_handDim (z : Zone) (dim : Option Nat) : z.Commanded (z.handDim dim) := by
  cases dim <;> rfl

theorem Zone.commanded_switching (now : Uptime) (z : Zone) : z.Commanded (z.switching now) := by
  obtain h | ⟨k, h⟩ | ⟨k, h⟩ := z.switching_cases now <;> rw [h]
  · exact .refl z
  · exact z.commanded_modSlot k _
  · exact z.commanded_modSlot k _

theorem Zone.commanded_allocate (now : Uptime) (z : Zone) : z.Commanded (z.allocate now) :=
  (z.commanded_switching now).trans (Zone.commanded_handDim _ _)

theorem Zone.commanded_lightAll (now : Uptime) (z : Zone) : z.Commanded (z.lightAll now) :=
  (z.commanded_modWhere _ _).trans (Zone.commanded_handDim _ _)

theorem Zone.commanded_lockoutModify (now : Uptime) (e : Bool) (z : Zone) (sets clears : List (Fin 8)) :
    z.Commanded (z.lockoutModify now e sets clears) := by
  have hmod : z.Commanded ((z.modSlots sets Circuit.lockOut).modSlots clears Circuit.unlock) := rfl
  unfold Zone.lockoutModify
  cases e with
  | false => exact hmod
  | true =>
    simp only [if_true, Zone.lightFreed]
    split <;> rfl

/-! ### Which circuits are commanded (R72, R73) -/

theorem Zone.firstOff_eq_some {z : Zone} {k : Fin 8} (h : z.firstOff = some k) :
    ∃ c, z.slots.get k = some c ∧ c.kind = .switched ∧ c.state = .off := by
  have := List.find?_some h
  rw [Option.any_eq_true] at this
  obtain ⟨c, hc, hk⟩ := this
  simp only [Circuit.isSwitched, Bool.and_eq_true, beq_iff_eq] at hk
  exact ⟨c, hc, hk⟩

theorem Zone.lastOn_eq_some {z : Zone} {k : Fin 8} (h : z.lastOn = some k) :
    ∃ c, z.slots.get k = some c ∧ c.kind = .switched ∧ c.state = .on := by
  have := List.find?_some h
  rw [Option.any_eq_true] at this
  obtain ⟨c, hc, hk⟩ := this
  simp only [Circuit.isSwitched, Bool.and_eq_true, beq_iff_eq] at hk
  exact ⟨c, hc, hk⟩

/-- A switching decision commands nothing, the first circuit in OFF on, or the last one in ON off (R72, R73). -/
theorem Zone.switching_commands (now : Uptime) (z : Zone) :
    z.switching now = z
    ∨ (∃ k, z.firstOff = some k ∧ z.switching now = z.modSlot k (Circuit.switchOn now z.settle))
    ∨ ∃ k, z.lastOn = some k ∧ z.switching now = z.modSlot k (Circuit.switchOff now z.settle) := by
  unfold Zone.switching
  split
  · exact .inl rfl
  · split
    · split
      next k hk => exact .inr (.inl ⟨k, hk, rfl⟩)
      · exact .inl rfl
    · split
      · exact .inl rfl
      next k hk =>
        split
        · exact .inl rfl
        · split
          · exact .inr (.inr ⟨k, hk, rfl⟩)
          · exact .inl rfl

/-! ### A property of every circuit of a zone -/

/-- Every circuit of the zone has the property. -/
def Zone.All (P : Circuit → Prop) (z : Zone) : Prop :=
  ∀ k c, z.slots.get k = some c → P c

theorem Zone.all_circuits {z : Zone} {p : Circuit → Bool} : z.circuits.all p = true ↔ z.All fun c => p c = true := by
  rw [List.all_eq_true]
  constructor
  · exact fun h k c hc => h c (Zone.mem_circuits.mpr ⟨k, hc⟩)
  · intro h c hc
    obtain ⟨k, hk⟩ := Zone.mem_circuits.mp hc
    exact h k c hk

section
variable {P Q : Circuit → Prop} {z : Zone}

theorem Zone.All.map {g : Fin 8 → Circuit → Circuit} {slots : Tab 8 (Option Circuit)} (h : z.All P)
    (hs : ∀ k, slots.get k = (z.slots.get k).map (g k)) (hg : ∀ k c, z.slots.get k = some c → P c → Q (g k c)) :
    Zone.All Q { z with slots := slots } := fun k c hc => by
  rw [hs k, Option.map_eq_some_iff] at hc
  obtain ⟨b, hb, rfl⟩ := hc
  exact hg k b hb (h k b hb)

theorem Zone.All.modWhere (h : z.All P) {cond : Circuit → Bool} {f : Circuit → Circuit}
    (hf : ∀ c, P c → cond c = true → Q (f c)) (hn : ∀ c, P c → cond c = false → Q c) : (z.modWhere cond f).All Q :=
  h.map (g := fun _ c => if cond c then f c else c) (fun k => Tab.get_mapWith _ _ k) fun _ c _ hc => by
    split
    next hcond => exact hf c hc hcond
    next hcond => exact hn c hc (by simpa using hcond)

theorem Zone.All.modSlot (h : z.All P) {k : Fin 8} {f : Circuit → Circuit} (hf : ∀ c, z.slots.get k = some c → P c → P (f c)) :
    (z.modSlot k f).All P :=
  h.map (g := fun j c => if j = k then f c else c)
    (fun j => by
      rw [Tab.get_put]
      split
      next hj => subst hj; simp
      next hj => simp)
    fun j c hc hP => by
      split
      next hj => subst hj; exact hf c hc hP
      next => exact hP

theorem Zone.All.modSlots (h : z.All P) {ks : List (Fin 8)} {f : Circuit → Circuit} (hf : ∀ c, P c → P (f c)) :
    (z.modSlots ks f).All P :=
  h.map (g := fun k c => if k ∈ ks then f c else c)
    (fun k => by
      simp only [Tab.get_mapWith]
      split
      next hk => simp
      next hk => simp)
    fun _ c _ hc => by
      split
      · exact hf c hc
      · exact hc

theorem Zone.All.handDim (h : z.All P) {dim : Option Nat}
    (hf : ∀ level c, dim = some level → P c → c.inCd = true → P (c.setLevel level)) : (z.handDim dim).All P := by
  cases dim with
  | none => exact h
  | some level => exact h.modWhere (fun c hc hcd => hf level c rfl hc hcd) fun _ hc _ => hc

theorem Zone.All.switching (h : z.All P) (now : Uptime)
    (hon : ∀ c, P c → c.kind = .switched → c.state = .off → P (c.switchOn now z.settle))
    (hoff : ∀ c, P c → c.kind = .switched → c.state = .on → P (c.switchOff now z.settle)) : (z.switching now).All P := by
  obtain heq | ⟨k, hk, heq⟩ | ⟨k, hk, heq⟩ := z.switching_commands now <;> rw [heq]
  · exact h
  · obtain ⟨b, hb, hkind, hst⟩ := Zone.firstOff_eq_some hk
    exact h.modSlot fun c hc hP => by
      obtain rfl := Option.some.inj (hb.symm.trans hc)
      exact hon b hP hkind hst
  · obtain ⟨b, hb, hkind, hst⟩ := Zone.lastOn_eq_some hk
    exact h.modSlot fun c hc hP => by
      obtain rfl := Option.some.inj (hb.symm.trans hc)
      exact hoff b hP hkind hst

end

/-! ### LOCKOUT_MODIFY, circuit by circuit (R80, R98) -/

/-- A circuit named by the clear mask, as LOCKOUT_MODIFY leaves it: a locked one goes to OFF and, under emergency
allocation, is lit (R80, R98). -/
def Circuit.freed (now : Uptime) (emergency : Bool) (settle : Nat) (c : Circuit) : Circuit :=
  if c.state = .lockedOut then
    if emergency then (c.outOfService .off).lit now settle else c.outOfService .off
  else c

theorem Zone.slots_lockoutModify (now : Uptime) (e : Bool) (z : Zone) (sets clears : List (Fin 8)) (k : Fin 8) :
    (z.lockoutModify now e sets clears).slots.get k
      = (z.slots.get k).map fun c =>
          let d := if k ∈ sets then c.lockOut else c
          if k ∈ clears then d.freed now e z.settle else d := by
  have hset : (z.modSlots sets Circuit.lockOut).slots.get k
      = (z.slots.get k).map fun c => if k ∈ sets then c.lockOut else c := by
    simp only [Zone.modSlots, Tab.get_mapWith]
    split
    next hk => simp
    next hk => simp
  have hclear : ((z.modSlots sets Circuit.lockOut).modSlots clears Circuit.unlock).slots.get k
      = (z.slots.get k).map fun c =>
          if k ∈ clears then (if k ∈ sets then c.lockOut else c).unlock else if k ∈ sets then c.lockOut else c := by
    simp only [Zone.modSlots, Tab.get_mapWith]
    split <;> split <;> simp [Function.comp_def]
  cases e with
  | false =>
    change ((z.modSlots sets Circuit.lockOut).modSlots clears Circuit.unlock).slots.get k = _
    rw [hclear]
    rfl
  | true =>
    have hfreed : k ∈ (z.modSlots sets Circuit.lockOut).lockedAmong clears ↔
        k ∈ clears ∧ ((z.slots.get k).any fun c => (if k ∈ sets then c.lockOut else c).state == .lockedOut) = true := by
      simp only [Zone.lockedAmong, List.mem_filter, hset, Option.any_map]
    have hslots : (z.lockoutModify now true sets clears).slots.get k
        = (((z.modSlots sets Circuit.lockOut).modSlots clears Circuit.unlock).modSlots
            ((z.modSlots sets Circuit.lockOut).lockedAmong clears) (Circuit.lit now z.settle)).slots.get k := by
      simp only [Zone.lockoutModify, if_true, Zone.lightFreed]
      split <;> rfl
    rw [hslots]
    simp only [Zone.modSlots, Tab.get_mapWith] at hclear ⊢
    rw [hclear]
    cases hc : z.slots.get k with
    | none => simp
    | some c =>
      rw [hc] at hfreed
      simp only [Option.any_some, beq_iff_eq] at hfreed
      simp only [Option.map_some, Circuit.freed, Circuit.unlock]
      simp only [Zone.modSlots] at hfreed
      by_cases hclr : k ∈ clears
      · by_cases hlock : (if k ∈ sets then c.lockOut else c).state = .lockedOut
        · rw [if_pos (hfreed.mpr ⟨hclr, hlock⟩)]
          simp [hclr, hlock]
        · rw [if_neg fun h => hlock (hfreed.mp h).2]
          simp [hclr, hlock]
      · rw [if_neg fun h => hclr (hfreed.mp h).1]
        simp [hclr]

theorem Zone.All.lockoutModify {P : Circuit → Prop} {z : Zone} (h : z.All P) {now : Uptime} {e : Bool}
    {sets clears : List (Fin 8)} (hlock : ∀ c, P c → P c.lockOut) (hfree : ∀ c, P c → P (c.freed now e z.settle)) :
    (z.lockoutModify now e sets clears).All P := by
  have hmap := h.map (Q := P) (slots := (z.lockoutModify now e sets clears).slots)
    (g := fun k c => let d := if k ∈ sets then c.lockOut else c
                     if k ∈ clears then d.freed now e z.settle else d)
    (z.slots_lockoutModify now e sets clears) fun k c _ hc => by
      have hd : P (if k ∈ sets then c.lockOut else c) := by
        split
        · exact hlock c hc
        · exact hc
      dsimp only
      split
      · exact hfree _ hd
      · exact hd
  exact hmap

/-! ### Levels within their bounds (R46, R50) -/

/-- The demand and the ramped level of the zone are at most 60 000 (R46, R50). -/
def Zone.levelsBounded (z : Zone) : Prop :=
  z.demand ≤ 60000 ∧ z.ramped ≤ 60000

theorem Zone.Commanded.levelsBounded {x y : Zone} (h : x.Commanded y) (hx : x.levelsBounded) : y.levelsBounded := by
  rw [h]
  exact hx

theorem levelRules : ZoneRules (· ≤ 60000) fun _ _ => Zone.levelsBounded where
  idle _ _ _ _ _ _ h := h
  calm _ _ _ h := h
  supervise _ _ _ _ h := h
  light z now h := (Zone.commanded_lightAll now z.atCapacity).levelsBounded ⟨h.1, min_le_left _ _⟩
  stop _ _ := ⟨Nat.zero_le _, Nat.zero_le _⟩
  demand _ _ _ _ hd h := ⟨hd, h.2⟩
  ramp z f r l d hd h := by
    refine ⟨hd, ?_⟩
    have hr := h.2
    unfold Zone.ramp rampStep
    dsimp only
    split
    · exact hr
    · split
      · omega
      · split <;> omega
  allocate z now h := (z.commanded_allocate now).levelsBounded h
  settle _ _ _ _ _ _ h := h
  loss _ _ _ _ _ h := h
  burn _ _ _ _ h := h
  burnReset _ _ _ _ h := h
  lockout _ e z now sets clears h := (z.commanded_lockoutModify now e sets clears).levelsBounded h
  sample _ _ _ _ _ h := h

theorem Demands.at_le {interior : Nat} {d : Demands} (h : d.InOrder interior) (j : Fin 3) : d.at j ≤ 60000 := by
  obtain ⟨h1, h2, h3, h4⟩ := h
  unfold Demands.at
  split
  · exact h4
  · split <;> omega

theorem State.ChannelsBounded.liveDemands {s : State} (h : s.ChannelsBounded) {p : Fin 4} {plan : Plan} {k : PlanSlot}
    (hk : (s.portal p).plan k = some plan) : (s.liveDemands p plan).InOrder (s.bore (boreOf p)).demand := by
  have hvalid := Portal.valid_of_plan (h.1 p) hk
  refine demandsFor_inOrder hvalid _ ?_ (h.2 _).1
  unfold State.liveBase
  split
  next lum hlum =>
    obtain ⟨v, hv, hkind⟩ := Option.map_eq_some_iff.mp hlum
    exact Portal.level_le_of_plansValid (h.1 p) hv (by rw [hkind]; rfl)
  · exact Plan.thresholdBase_le hvalid _ _
  · exact Plan.thresholdBase_le hvalid _ _

theorem boundedChannels : ChannelRules (· ≤ 60000) State.ChannelsBounded where
  kept := channelsBounded_kept.keptByWork
  timer s p e h := h.setPortal (h.1 p)
  boreTimer s b e h := h.congr (fun _ => id) fun c => by
    rw [State.bore_setBore]
    split
    next hc => rw [hc]; exact ⟨rfl, rfl⟩
    next => exact ⟨rfl, rfl⟩
  action s p h := h.takeAction p
  judged s t hp hb h := h.congr (fun p hv => by rw [(hp p).plansValid]; exact hv) fun b => by
    rw [hb]
    exact ⟨rfl, rfl⟩
  live s p plan j k h hk := Demands.at_le (h.liveDemands hk) j
  interior s b h := (h.withInterior b).1
  cap := le_rfl

/-- Settles O52: demands are computed from valid plans within 60 000, and R never passes the demand it moves to or the
level it moves from. -/
theorem everyStepKeepsTheLevelsBounded : Obligations.EveryStepKeepsTheLevelsBounded := by
  have hkept := levelRules.keptByWork boundedChannels ⟨Nat.zero_le _, Nat.zero_le _⟩
    fun _ _ _ _ _ _ _ h => h
  intro s t hs hst
  obtain ⟨hp, hb, hz⟩ := hs
  obtain ⟨hc, hz'⟩ := hkept.keptByStep s t ⟨⟨hp, hb⟩, hz⟩ hst
  exact ⟨hc.1, hc.2, hz'⟩

end Sys2Proof.Machine
end

section
/-! SUPPORT. Legal zones (R62, R63, R87, R95), dim levels and dark zones (R75, R76, R85, R99), and zones lit in emergency
(R79, R80, R140), each kept by every operation on a zone. -/

namespace Sys2Proof.Machine

/-! ### Legal circuits -/

/-- The rated contribution and the burn seconds of a circuit in their ranges (R63, R101). -/
def Circuit.inRange (c : Circuit) : Prop :=
  (1 ≤ c.rating ∧ c.rating ≤ 30000) ∧ c.burn ≤ 4294967295

/-- Level and timer of a circuit fit its kind and state (R87, R89, R95). -/
def Circuit.runs (c : Circuit) : Prop :=
  match c.kind, c.state with
  | .switched, .switchingOn | .switched, .switchingOff =>
    c.level = 0 ∧ c.feedback.isSome = true ∧ ∃ t, c.timer = some t ∧ t.kind = .settle
  | .switched, .on => c.level = 0 ∧ ∀ t, c.timer = some t → t.kind = .loss
  | .switched, _ => c.level = 0 ∧ c.timer = none
  | .dimmed, .off => c.level = 0 ∧ ∀ t, c.timer = some t → t.kind = .loss
  | .dimmed, .on => (0 < c.level ∧ c.level ≤ 1000) ∧ ∀ t, c.timer = some t → t.kind = .loss
  | .dimmed, .failedDark | .dimmed, .lockedOut => c.level = 0 ∧ c.timer = none
  | .dimmed, _ => False

theorem Circuit.legal_iff {c : Circuit} : c.legal = true ↔ c.inRange ∧ c.runs := by
  unfold Circuit.legal Circuit.inRange Circuit.runs
  rw [Bool.and_eq_true]
  refine and_congr (by simp) ?_
  cases c.kind <;> cases c.state <;> simp [Option.any_eq_true, Option.all_eq_true, and_assoc]

section
variable {c : Circuit}

theorem Circuit.legal_outOfService (h : c.legal = true) {st : CircuitState}
    (hst : st = .off ∨ st = .failedDark ∨ st = .lockedOut ∨ (st = .stuckOn ∧ c.kind = .switched)) :
    (c.outOfService st).legal = true := by
  rw [Circuit.legal_iff] at h ⊢
  refine ⟨h.1, ?_⟩
  cases hk : c.kind <;> rw [hk] at hst
  · obtain rfl | rfl | rfl | ⟨rfl, -⟩ := hst <;> simp [Circuit.runs, Circuit.outOfService, hk]
  · obtain rfl | rfl | rfl | ⟨-, h⟩ := hst
    case inr.inr.inr => cases h
    all_goals simp [Circuit.runs, Circuit.outOfService, hk]

theorem Circuit.level_of_switched (h : c.legal = true) (hk : c.kind = .switched) : c.level = 0 := by
  have hr := (Circuit.legal_iff.mp h).2
  unfold Circuit.runs at hr
  rw [hk] at hr
  cases hs : c.state <;> rw [hs] at hr <;> exact hr.1

theorem Circuit.state_of_inCd (h : c.legal = true) (hcd : c.inCd = true) :
    (c.state = .off ∨ c.state = .on) ∧ ∀ t, c.timer = some t → t.kind = .loss := by
  obtain ⟨hk, ha⟩ := Circuit.inCd_iff.mp hcd
  have hr := (Circuit.legal_iff.mp h).2
  unfold Circuit.runs at hr
  unfold Circuit.available at ha
  rw [hk] at hr
  cases hs : c.state <;> rw [hs] at hr ha
  case off => exact ⟨.inl rfl, hr.2⟩
  case on => exact ⟨.inr rfl, hr.2⟩
  case switchingOn => cases hr
  case switchingOff => cases hr
  all_goals cases ha

theorem Circuit.legal_switchOn (h : c.legal = true) (hk : c.kind = .switched) (now : Uptime) (settle : Nat) :
    (c.switchOn now settle).legal = true := by
  have hlevel := Circuit.level_of_switched h hk
  rw [Circuit.legal_iff] at h ⊢
  unfold Circuit.switchOn
  split
  next hf => exact ⟨h.1, by simp [Circuit.runs, hk, hlevel, hf]⟩
  next => exact ⟨h.1, by simp [Circuit.runs, hk, hlevel]⟩

theorem Circuit.legal_switchOff (h : c.legal = true) (hk : c.kind = .switched) (now : Uptime) (settle : Nat) :
    (c.switchOff now settle).legal = true := by
  have hlevel := Circuit.level_of_switched h hk
  rw [Circuit.legal_iff] at h ⊢
  unfold Circuit.switchOff
  split
  next hf => exact ⟨h.1, by simp [Circuit.runs, hk, hlevel, hf]⟩
  next => exact ⟨h.1, by simp [Circuit.runs, hk, hlevel]⟩

theorem Circuit.legal_setLevel_of (hr : c.inRange) (hk : c.kind = .dimmed) (ht : ∀ t, c.timer = some t → t.kind = .loss)
    {level : Nat} (hlevel : level ≤ 1000) : (c.setLevel level).legal = true := by
  rw [Circuit.legal_iff]
  refine ⟨hr, ?_⟩
  by_cases h0 : level = 0
  · simpa [Circuit.runs, Circuit.setLevel, hk, h0] using ht
  · simpa [Circuit.runs, Circuit.setLevel, hk, h0, hlevel, Nat.pos_of_ne_zero h0] using ht

theorem Circuit.legal_setLevel (h : c.legal = true) (hcd : c.inCd = true) {level : Nat} (hlevel : level ≤ 1000) :
    (c.setLevel level).legal = true :=
  Circuit.legal_setLevel_of (Circuit.legal_iff.mp h).1 (Circuit.inCd_iff.mp hcd).1 (Circuit.state_of_inCd h hcd).2 hlevel

theorem Circuit.legal_stopped (h : c.legal = true) : c.stopped.legal = true := by
  have hr := (Circuit.legal_iff.mp h).2
  unfold Circuit.stopped
  unfold Circuit.runs at hr
  split
  case h_6 hs =>
    refine Circuit.legal_outOfService h (hs ▸ .inr (.inr (.inr ⟨rfl, ?_⟩)))
    cases hk : c.kind with
    | switched => rfl
    | dimmed => rw [hk, hs] at hr; exact hr.elim
  case h_5 hs => exact Circuit.legal_outOfService h (hs ▸ .inr (.inl rfl))
  case h_7 hs => exact Circuit.legal_outOfService h (hs ▸ .inr (.inr (.inl rfl)))
  all_goals exact Circuit.legal_outOfService h (.inl rfl)

/-- A timer of kind LOSS, or none, may stand in a circuit whose state admits a loss timer (R89). -/
theorem Circuit.legal_withTimer (h : c.legal = true)
    (hst : (c.kind = .switched ∧ c.state = .on) ∨ (c.kind = .dimmed ∧ (c.state = .off ∨ c.state = .on)))
    {timer : Option CircuitTimer} (ht : ∀ t, timer = some t → t.kind = .loss) :
    ({ c with timer := timer } : Circuit).legal = true := by
  rw [Circuit.legal_iff] at h ⊢
  obtain ⟨hrange, hr⟩ := h
  refine ⟨hrange, ?_⟩
  obtain ⟨hk, hs⟩ | ⟨hk, hs | hs⟩ := hst <;> simp only [Circuit.runs, hk, hs] at hr ⊢ <;> exact ⟨hr.1, ht⟩

theorem Circuit.loss_of_cancelLoss {t : CircuitTimer} (h : c.cancelLoss.timer = some t)
    (hc : ∀ t, c.timer = some t → t.kind = .loss) : t.kind = .loss := by
  unfold Circuit.cancelLoss at h
  dsimp only at h
  split at h
  · cases h
  · exact hc t h

theorem Circuit.legal_feedbackChanged (h : c.legal = true) (now : Uptime) (settle : Nat) (present : Bool) :
    (c.feedbackChanged now settle present).legal = true := by
  have hr := (Circuit.legal_iff.mp h).2
  unfold Circuit.runs at hr
  unfold Circuit.feedbackChanged
  cases hk : c.kind <;> rw [hk] at hr <;> dsimp only
  case switched =>
    split
    next hs =>
      rw [hs] at hr
      split
      · exact Circuit.legal_withTimer h (.inl ⟨hk, hs⟩) fun t ht => Circuit.loss_of_cancelLoss ht hr.2
      · exact Circuit.legal_withTimer h (.inl ⟨hk, hs⟩) fun t ht => by cases ht; rfl
    next => exact h
  case dimmed =>
    split
    next hs =>
      have hloss : ∀ t, c.timer = some t → t.kind = .loss := by
        obtain hs | hs := hs <;> rw [hs] at hr <;> exact hr.2
      split
      · exact Circuit.legal_withTimer h (.inr ⟨hk, hs⟩) fun t ht => by cases ht; rfl
      · exact Circuit.legal_withTimer h (.inr ⟨hk, hs⟩) fun t ht => Circuit.loss_of_cancelLoss ht hloss
    next => exact h

/-- Only a SWITCHED circuit in flight has a settle timer (R89). -/
theorem Circuit.switched_of_settle (h : c.legal = true) {t : CircuitTimer} (ht : c.timer = some t)
    (hk : t.kind = .settle) : c.kind = .switched ∧ (c.state = .switchingOn ∨ c.state = .switchingOff) := by
  have hr := (Circuit.legal_iff.mp h).2
  have hne : t.kind ≠ .loss := by rw [hk]; decide
  unfold Circuit.runs at hr
  split at hr
  case h_1 hkind hs => exact ⟨hkind, .inl hs⟩
  case h_2 hkind hs => exact ⟨hkind, .inr hs⟩
  case h_3 | h_5 | h_6 => exact absurd (hr.2 t ht) hne
  case h_9 => exact hr.elim
  all_goals rw [ht] at hr; cases hr.2

theorem Circuit.legal_settled (h : c.legal = true) {t : CircuitTimer} (ht : c.timer = some t) (hk : t.kind = .settle)
    (present : Bool) : (c.settled present).legal = true := by
  obtain ⟨hkind, hs | hs⟩ := Circuit.switched_of_settle h ht hk
  · cases present
    · rw [show c.settled false = c.outOfService .failedDark by simp [Circuit.settled, hs]]
      exact Circuit.legal_outOfService h (.inr (.inl rfl))
    · rw [show c.settled true = { c with state := .on, timer := none } by simp [Circuit.settled, hs], Circuit.legal_iff]
      exact ⟨(Circuit.legal_iff.mp h).1, by simp [Circuit.runs, hkind, Circuit.level_of_switched h hkind]⟩
  · cases present
    · rw [show c.settled false = c.outOfService .off by simp [Circuit.settled, hs]]
      exact Circuit.legal_outOfService h (.inl rfl)
    · rw [show c.settled true = c.outOfService .stuckOn by simp [Circuit.settled, hs]]
      exact Circuit.legal_outOfService h (.inr (.inr (.inr ⟨rfl, hkind⟩)))

theorem Circuit.available_of_timer (h : c.legal = true) {t : CircuitTimer} (ht : c.timer = some t) :
    c.available = true := by
  have hr := (Circuit.legal_iff.mp h).2
  unfold Circuit.runs at hr
  unfold Circuit.available
  split at hr
  case h_1 hs | h_2 hs | h_3 hs | h_5 hs | h_6 hs => rw [hs]
  case h_4 => rw [ht] at hr; cases hr.2
  case h_7 | h_8 => rw [ht] at hr; cases hr.2
  case h_9 => exact hr.elim

theorem Circuit.legal_lost (h : c.legal = true) {t : CircuitTimer} (ht : c.timer = some t) : c.lost.legal = true := by
  rw [Circuit.lost, if_pos (Circuit.available_of_timer h ht)]
  exact Circuit.legal_outOfService h (.inr (.inl rfl))

theorem Circuit.legal_withBurn (h : c.legal = true) {n : Nat} (hn : n ≤ 4294967295) :
    ({ c with burn := n } : Circuit).legal = true := by
  rw [Circuit.legal_iff] at h ⊢
  exact ⟨⟨h.1.1, hn⟩, h.2⟩

theorem Circuit.legal_lockOut (h : c.legal = true) : c.lockOut.legal = true := by
  unfold Circuit.lockOut
  split
  · exact h
  · exact Circuit.legal_outOfService h (.inr (.inr (.inl rfl)))

theorem Circuit.legal_freed (h : c.legal = true) (now : Uptime) (e : Bool) (settle : Nat) :
    (c.freed now e settle).legal = true := by
  have hoff : (c.outOfService .off).legal = true := Circuit.legal_outOfService h (.inl rfl)
  unfold Circuit.freed
  split
  · split
    · unfold Circuit.lit
      split
      next hk => exact Circuit.legal_switchOn hoff hk now settle
      next hk => exact Circuit.legal_setLevel hoff (Circuit.inCd_iff.mpr ⟨hk, rfl⟩) le_rfl
    · exact hoff
  · exact h

theorem Circuit.inReserve_iff : c.inReserve = true ↔ c.kind = .switched ∧ (c.state = .off ∨ c.state = .switchingOff) := by
  simp [Circuit.inReserve, Circuit.isSwitched]

end

/-! ### Legal zones -/

/-- The settings of a zone record in their ranges (R62). -/
def Zone.settingsLegal (z : Zone) : Prop :=
  (z.settle % 100 = 0 ∧ 200 ≤ z.settle ∧ z.settle ≤ 5000) ∧ z.hysteresis ≤ 500 ∧ 10 ≤ z.minDim ∧ z.minDim ≤ 500

theorem Zone.legal_iff {z : Zone} :
    z.legal = true ↔ z.All (fun c => c.legal = true) ∧ z.settingsLegal ∧ ∀ d, z.dim = some d → d ≤ 1000 := by
  rw [← Zone.all_circuits]
  simp only [Zone.legal, Zone.settingsLegal, Bool.and_eq_true, beq_iff_eq, decide_eq_true_eq, Option.all_eq_true]
  tauto

theorem Zone.legal_of_commanded {x y : Zone} (h : x.Commanded y) (hx : x.legal = true)
    (hc : y.All fun c => c.legal = true) (hd : ∀ d, y.dim = some d → d ≤ 1000) : y.legal = true := by
  rw [Zone.legal_iff] at hx ⊢
  refine ⟨hc, ?_, hd⟩
  rw [h]
  exact hx.2.1

/-- A change of circuits alone, each of them left legal. -/
theorem Zone.legal_of_slots {x y : Zone} (h : x.Commanded y) (hd : y.dim = x.dim) (hx : x.legal = true)
    (hc : x.All (fun c => c.legal = true) → y.All fun c => c.legal = true) : y.legal = true := by
  obtain ⟨hall, -, hdim⟩ := Zone.legal_iff.mp hx
  exact Zone.legal_of_commanded h hx (hc hall) (hd ▸ hdim)

theorem Zone.inCd_of_cd_eq_zero {z : Zone} (h : z.All fun c => c.legal = true) (hcd : z.cd = 0) :
    z.All fun c => c.inCd = false := fun k c hc => by
  by_contra hne
  have hle := Zone.rating_le_sumOf hc (f := Circuit.inCd) (by simpa using hne)
  have hpos := Circuit.rating_pos_of_legal (h k c hc)
  have hz : z.sumOf Circuit.inCd = 0 := hcd
  omega

theorem Zone.dim_lockoutModify (now : Uptime) (e : Bool) (z : Zone) (sets clears : List (Fin 8)) :
    (z.lockoutModify now e sets clears).dim = z.dim
    ∨ (e = true ∧ (z.lockoutModify now e sets clears).dim = some 1000) := by
  unfold Zone.lockoutModify
  cases e with
  | false => exact .inl rfl
  | true =>
    simp only [if_true, Zone.lightFreed]
    split
    · exact .inr ⟨trivial, rfl⟩
    · exact .inl rfl

theorem Zone.dim_switching (now : Uptime) (z : Zone) : (z.switching now).dim = z.dim := by
  obtain h | ⟨k, h⟩ | ⟨k, h⟩ := z.switching_cases now <;> rw [h] <;> rfl

theorem Zone.legal_atCapacity {z : Zone} : z.atCapacity.legal = z.legal := rfl

theorem Zone.all_legal_reserveOn {z : Zone} (h : z.All fun c => c.legal = true) (now : Uptime) :
    (z.modWhere Circuit.inReserve (Circuit.switchOn now z.settle)).All fun c => c.legal = true :=
  h.modWhere (fun _ hc hres => Circuit.legal_switchOn hc (Circuit.inReserve_iff.mp hres).1 _ _) fun _ hc _ => hc

theorem Zone.legal_lightAll {z : Zone} (h : z.legal = true) (now : Uptime) : (z.lightAll now).legal = true := by
  have hlevel : ∀ n d, (if n = 0 then none else some 1000 : Option Nat) = some d → d ≤ 1000 := fun n d hd => by
    split at hd <;> cases hd
    exact le_rfl
  refine Zone.legal_of_commanded (Zone.commanded_lightAll now z) h
    ((Zone.all_legal_reserveOn (Zone.legal_iff.mp h).1 now).handDim fun d c hd hc hcd =>
      Circuit.legal_setLevel hc hcd (hlevel _ d hd)) fun d hd => ?_
  rw [Zone.lightAll, Zone.handDim_dim] at hd
  exact hlevel _ d hd

theorem Zone.legal_allocate {z : Zone} (h : z.legal = true) (now : Uptime) : (z.allocate now).legal = true := by
  obtain ⟨hall, hset, -⟩ := Zone.legal_iff.mp h
  have hmin : z.minDim ≤ 1000 := hset.2.2.2.trans (by decide)
  refine Zone.legal_of_commanded (z.commanded_allocate now) h
    ((hall.switching now (fun c hc hk _ => Circuit.legal_switchOn hc hk _ _)
      fun c hc hk _ => Circuit.legal_switchOff hc hk _ _).handDim fun d c hd hc hcd =>
        Circuit.legal_setLevel hc hcd (dimLevel_le hmin (by rwa [Zone.switching_minDim] at hd))) fun d hd => ?_
  rw [Zone.allocate_dim] at hd
  exact dimLevel_le hmin hd

theorem Zone.all_sampled {P Q : Circuit → Prop} {z : Zone} (h : z.All P) {g : Circuit → Circuit}
    (hg : ∀ c, P c → Q (g c)) : ({ z with slots := z.slots.mapWith fun _ o => o.map g } : Zone).All Q :=
  h.map (g := fun _ => g) (fun k => Tab.get_mapWith _ _ k) fun _ c _ hc => hg c hc

theorem legalRules : ZoneRules (fun _ => True) fun _ _ z => z.legal = true where
  idle _ _ _ _ _ _ h := h
  calm _ _ _ h := h
  supervise z now cond hcond h := Zone.legal_of_slots (z.commanded_modWhere _ _) rfl h fun hall =>
    hall.modWhere (fun c hc hk => Circuit.legal_withTimer hc (.inr ⟨(hcond c hk).1, .inl (hcond c hk).2⟩)
      fun t ht => by cases ht; rfl) fun _ hc _ => hc
  light z now h := Zone.legal_lightAll (Zone.legal_atCapacity ▸ h) now
  stop z h := by
    obtain ⟨hall, hset, -⟩ := Zone.legal_iff.mp h
    exact Zone.legal_iff.mpr ⟨Zone.all_sampled hall fun _ => Circuit.legal_stopped, hset, fun _ hd => by cases hd⟩
  demand _ _ _ _ _ h := h
  ramp _ _ _ _ _ _ h := h
  allocate z now h := Zone.legal_allocate h now
  settle _ _ z k b ht h := Zone.legal_of_slots (z.commanded_modSlot _ _) rfl h fun hall =>
    hall.modSlot fun c hc hlegal => by
      obtain ⟨t, ht, hk⟩ := ht c hc
      exact Circuit.legal_settled hlegal ht hk b
  loss _ _ z k ht h := Zone.legal_of_slots (z.commanded_modSlot _ _) rfl h fun hall =>
    hall.modSlot fun c hc hlegal => by
      obtain ⟨t, ht, -⟩ := ht c hc
      exact Circuit.legal_lost hlegal ht
  burn _ _ z cond h := Zone.legal_of_slots (z.commanded_modWhere _ _) rfl h fun hall =>
    hall.modWhere (fun c hc _ => Circuit.legal_withBurn hc (min_le_left _ _)) fun _ hc _ => hc
  burnReset _ _ z ks h := Zone.legal_of_slots (z.commanded_modSlots _ _) rfl h fun hall =>
    hall.modSlots fun c hc => Circuit.legal_withBurn hc (Nat.zero_le _)
  lockout _ e z now sets clears h := by
    obtain ⟨hall, -, hdim⟩ := Zone.legal_iff.mp h
    refine Zone.legal_of_commanded (z.commanded_lockoutModify now e sets clears) h
      (hall.lockoutModify (fun _ => Circuit.legal_lockOut) fun _ hc => Circuit.legal_freed hc now e _) fun d hd => ?_
    obtain heq | ⟨-, heq⟩ := z.dim_lockoutModify now e sets clears <;> rw [heq] at hd
    · exact hdim d hd
    · cases hd
      exact le_rfl
  sample _ z now g hg h := Zone.legal_of_slots rfl rfl h fun hall =>
    Zone.all_sampled hall fun c hc => by
      obtain heq | ⟨b, heq⟩ := hg c <;> rw [heq]
      · exact hc
      · exact Circuit.legal_feedbackChanged hc now _ b

/-! ### A zone setup written (R64, R65) -/

theorem circuitSetupOf_eq_some {kind : CircuitKind} {e : List Octet} {u : CircuitSetup}
    (h : circuitSetupOf kind e = some u) : 1 ≤ u.rating ∧ u.rating ≤ 30000 := by
  unfold circuitSetupOf at h
  dsimp only at h
  split at h
  · split at h
    next hr => cases h; exact hr
    next => cases h
  · cases h

theorem slotSetupOf_eq_some {e : List Octet} {u : CircuitSetup} (h : slotSetupOf e = some (some u)) :
    1 ≤ u.rating ∧ u.rating ≤ 30000 := by
  unfold slotSetupOf at h
  split at h
  · cases h
  · split at h
    · obtain ⟨v, hv, heq⟩ := Option.map_eq_some_iff.mp h
      exact circuitSetupOf_eq_some (hv.trans heq)
    · split at h
      · obtain ⟨v, hv, heq⟩ := Option.map_eq_some_iff.mp h
        exact circuitSetupOf_eq_some (hv.trans heq)
      · cases h

theorem slotSetupsOf_eq_some {body : List Octet} {slots : Tab 8 (Option CircuitSetup)} (h : slotSetupsOf body = some slots)
    (k : Fin 8) : slotSetupOf (slotOctets body k) = some (slots.get k) := by
  unfold slotSetupsOf at h
  dsimp only at h
  split at h
  next hall =>
    cases h
    obtain ⟨o, ho⟩ := Option.isSome_iff_exists.mp (List.all_eq_true.mp hall k (List.mem_finRange k))
    rw [Tab.get_mapWith, ho]
    rfl
  next => cases h

theorem zoneSetupOf_eq_some {body : List Octet} {u : ZoneSetup} (h : zoneSetupOf body = some u) :
    slotSetupsOf body = some u.slots ∧ (u.settle % 100 = 0 ∧ 200 ≤ u.settle ∧ u.settle ≤ 5000) ∧ u.hysteresis ≤ 500
      ∧ 10 ≤ u.minDim ∧ u.minDim ≤ 500 := by
  unfold zoneSetupOf at h
  dsimp only at h
  split at h
  next hslots =>
    split at h
    next hr =>
      cases h
      obtain ⟨h1, h2, h3, h4, h5, h6⟩ := hr
      exact ⟨hslots, ⟨h1, h2, h3⟩, h4, h5, h6⟩
    next => cases h
  next => cases h

/-- A slot written holds the circuit it held, or a new one in OFF (R65). -/
theorem writeSlot_eq_some {held : Option Circuit} {new : Option CircuitSetup} {c : Circuit}
    (h : writeSlot held new = some c) : held = some c ∨ ∃ u, new = some u ∧ c = u.create := by
  unfold writeSlot at h
  split at h
  · cases h
  next u =>
    split at h
    · cases h; exact .inr ⟨u, rfl, rfl⟩
    · split at h
      · exact .inl h
      · cases h; exact .inr ⟨u, rfl, rfl⟩

theorem Zone.all_withSetup {P : Circuit → Prop} {z : Zone} (h : z.All P) {u : ZoneSetup}
    (hnew : ∀ k v, u.slots.get k = some v → P v.create) : (z.withSetup u).All P := fun k c hc => by
  rw [Zone.withSetup, Tab.get_mapWith] at hc
  obtain hold | ⟨v, hv, rfl⟩ := writeSlot_eq_some hc
  · exact h k c hold
  · exact hnew k v hv

theorem Zone.legal_withSetup {z : Zone} {body : List Octet} {u : ZoneSetup} (hu : zoneSetupOf body = some u)
    (h : z.legal = true) : (z.withSetup u).legal = true := by
  obtain ⟨hall, -, hdim⟩ := Zone.legal_iff.mp h
  obtain ⟨hslots, hset⟩ := zoneSetupOf_eq_some hu
  refine Zone.legal_iff.mpr ⟨Zone.all_withSetup hall fun k v hv => ?_, hset, hdim⟩
  have hrating := slotSetupOf_eq_some ((slotSetupsOf_eq_some hslots k).trans (by rw [hv]))
  rw [Circuit.legal_iff]
  refine ⟨⟨hrating, Nat.zero_le _⟩, ?_⟩
  cases hk : v.kind <;> simp [Circuit.runs, CircuitSetup.create, hk]

end Sys2Proof.Machine
end

section
/-! SUPPORT. Every step keeps the zones legal, their dim levels right (R75, R76, R85, R99) and a zone under emergency
allocation lit (R79, R80, R140). -/

namespace Sys2Proof.Machine

/-! ### What the invariants of the channels give -/

theorem anyChannels : ChannelRules (fun _ => True) fun _ => True where
  kept := (KeptByChannels.mk (P := fun _ => True) (fun _ _ _ h => h) trivial (fun _ _ _ _ h => h) (fun _ _ _ h => h)
    (fun _ _ _ _ h => h) (fun _ _ _ _ _ _ _ _ h => h) (fun _ _ _ _ _ h => h) (fun _ _ h => h) (fun _ _ h => h)
    (fun _ _ _ _ _ _ h => h) (fun _ _ h => h) (fun _ _ _ h => h) (fun _ _ _ h => h) (fun _ _ h => h) (fun _ _ h => h)
    (fun _ _ h => h) fun _ _ _ _ _ h => h).keptByWork
  timer _ _ _ h := h
  boreTimer _ _ _ h := h
  action _ _ h := h
  judged _ _ _ _ h := h
  live _ _ _ _ _ _ _ := trivial
  interior _ _ _ := trivial
  cap := trivial

theorem followingChannels : ChannelRules (fun _ => True) State.ConditionsFollow where
  kept := conditionsFollow_kept.keptByWork
  timer s p e h := h.setPortal rfl
  boreTimer s b e h := h.congr
    (fun c => by
      rw [State.bore_setBore]
      split
      next hc => rw [hc]
      next => rfl)
    fun _ => rfl
  action s p h := h.takeAction p
  judged s t hp hb h := h.congr (fun b => by rw [hb]) fun p => (hp p).state
  live _ _ _ _ _ _ _ := trivial
  interior _ _ _ := trivial
  cap := trivial

/-- A zone whose setup may be written is not supervised (R64, R139). -/
theorem State.unsupervised_of_writable {s : State} (h : s.ConditionsFollow) {z : Fin 14} (hz : s.zoneWritable z = true) :
    s.supervised z = false := by
  unfold State.zoneWritable at hz
  unfold State.supervised
  cases ho : ownerOf z with
  | portal p =>
    simp only [ho] at hz ⊢
    rw [eq_of_beq hz]
    rfl
  | bore b =>
    simp only [ho] at hz ⊢
    have hoff : ∀ p ∈ portalsOf b, (s.portal p).state = .offline := fun p hp => eq_of_beq (List.all_eq_true.mp hz p hp)
    have hany : ∀ q : PortalState → Bool, q .offline = false → ((portalsOf b).any fun p => q (s.portal p).state) = false :=
      fun q hq => List.any_eq_false.mpr fun p hp => by rw [hoff p hp, hq]; decide
    have hcond : s.conditionFor b = .released := by
      unfold State.conditionFor
      rw [hany (fun st => st == .auto || st == .emergency) rfl, hany (fun st => st == .held || st == .dryRun) rfl]
      rfl
    rw [h b, hcond]
    rfl

theorem State.not_emergency_of_unsupervised {s : State} {z : Fin 14} (h : s.supervised z = false) :
    s.underEmergency z = false := by
  unfold State.supervised at h
  unfold State.underEmergency
  cases ho : ownerOf z with
  | portal p =>
    simp only [ho] at h ⊢
    have hoff : (s.portal p).state = .offline := by simpa using h
    rw [hoff]
    rfl
  | bore b =>
    simp only [ho] at h ⊢
    have hrel : (s.bore b).condition = .released := by simpa using h
    rw [hrel]
    exact Bool.and_false _

/-! ### Dim levels -/

section
variable (now : Uptime) (n : Nat) (c : Circuit)

@[simp] theorem Circuit.level_switchOn : (c.switchOn now n).level = c.level := by
  unfold Circuit.switchOn
  split <;> rfl

@[simp] theorem Circuit.level_switchOff : (c.switchOff now n).level = c.level := by
  unfold Circuit.switchOff
  split <;> rfl

@[simp] theorem Circuit.level_setLevel : (c.setLevel n).level = n := rfl
@[simp] theorem Circuit.level_outOfService (st : CircuitState) : (c.outOfService st).level = 0 := rfl

@[simp] theorem Circuit.level_feedbackChanged (present : Bool) : (c.feedbackChanged now n present).level = c.level := by
  unfold Circuit.feedbackChanged
  split <;> split
  · split <;> rfl
  · rfl
  · split <;> rfl
  · rfl

end

/-- None of the zone's commands reaches the circuit: no level, no timer, neither on nor in flight (R85, R99). -/
def Circuit.dark (c : Circuit) : Prop :=
  c.level = 0 ∧ c.timer = none ∧ c.state ≠ .switchingOn ∧ c.state ≠ .on ∧ c.state ≠ .switchingOff

/-- What R76 and R99 ask of a circuit, by its zone's supervision and minimum dim level. -/
def Circuit.dimmedRight (supervised : Bool) (minDim : Nat) (c : Circuit) : Prop :=
  (c.level = 0 ∨ minDim ≤ c.level) ∧ (supervised = false → c.dark)

/-- What R75, R76, R85 and R99 ask of a zone record, by its supervision. -/
def Zone.dimmedRight (supervised emergency : Bool) (z : Zone) : Prop :=
  z.All (Circuit.dimmedRight supervised z.minDim) ∧ (∀ d, z.dim = some d → d = 0 ∨ z.minDim ≤ d)
  ∧ (supervised = false → z.dim = none ∧ emergency = false)

theorem Circuit.dimmedRight_of_level {c : Circuit} {m : Nat} (h : c.level = 0 ∨ m ≤ c.level) : c.dimmedRight true m :=
  ⟨h, fun h => by cases h⟩

theorem Circuit.dimmedRight_congr {c d : Circuit} {m : Nat} (h : c.dimmedRight true m) (hd : d.level = c.level) :
    d.dimmedRight true m :=
  Circuit.dimmedRight_of_level (hd ▸ h.1)

/-- A circuit out of service in a state that is neither on nor in flight is dark. -/
theorem Circuit.dark_outOfService (c : Circuit) {st : CircuitState} (h : st ≠ .switchingOn ∧ st ≠ .on ∧ st ≠ .switchingOff) :
    (c.outOfService st).dark :=
  ⟨rfl, rfl, h⟩

theorem Circuit.dimmedRight_outOfService (c : Circuit) {st : CircuitState} {v : Bool} {m : Nat}
    (h : st ≠ .switchingOn ∧ st ≠ .on ∧ st ≠ .switchingOff) : (c.outOfService st).dimmedRight v m :=
  ⟨.inl rfl, fun _ => c.dark_outOfService h⟩

theorem Circuit.dark_stopped (c : Circuit) : c.stopped.dark := by
  unfold Circuit.stopped
  split
  case h_5 hs | h_6 hs | h_7 hs => exact c.dark_outOfService (by rw [hs]; decide)
  all_goals exact c.dark_outOfService (by decide)

theorem Circuit.dimmedRight_lockOut {c : Circuit} {v : Bool} {m : Nat} (h : c.dimmedRight v m) :
    c.lockOut.dimmedRight v m := by
  unfold Circuit.lockOut
  split
  · exact h
  · exact c.dimmedRight_outOfService (by decide)

theorem Circuit.dimmedRight_freed {c : Circuit} {v : Bool} {m : Nat} (h : c.dimmedRight v m) (now : Uptime) {e : Bool}
    (settle : Nat) (hv : v = false → e = false) (hm : m ≤ 1000) : (c.freed now e settle).dimmedRight v m := by
  unfold Circuit.freed
  split
  · split
    next he =>
      have hsup : v = true := by
        cases v
        · rw [hv rfl] at he; cases he
        · rfl
      rw [hsup]
      refine Circuit.dimmedRight_of_level ?_
      unfold Circuit.lit
      split
      · exact .inl (Circuit.level_switchOn _ _ _)
      · exact .inr hm
    · exact c.dimmedRight_outOfService (by decide)
  · exact h

theorem Zone.minDim_commanded {x y : Zone} (h : x.Commanded y) : y.minDim = x.minDim := by
  rw [h]

/-- The common dim level is 0 or at least the minimum (R75). -/
theorem minDim_le_dimLevel {need cd minDim d : Nat} (h : dimLevel need cd minDim = some d) : d = 0 ∨ minDim ≤ d := by
  unfold dimLevel at h
  split at h
  · cases h
  · cases h
    split <;> omega

theorem Zone.all_handDim_dimmed {z : Zone} {m : Nat} (h : z.All (Circuit.dimmedRight true m)) {dim : Option Nat}
    (hd : ∀ d, dim = some d → d = 0 ∨ m ≤ d) : (z.handDim dim).All (Circuit.dimmedRight true m) :=
  h.handDim fun d _ hdim _ _ => Circuit.dimmedRight_of_level (hd d hdim)

theorem Zone.dimmedRight_allocate {z : Zone} (h : z.dimmedRight true false) (now : Uptime) :
    (z.allocate now).dimmedRight true false := by
  obtain ⟨hall, -, -⟩ := h
  have hmin : (z.allocate now).minDim = z.minDim := Zone.minDim_commanded (z.commanded_allocate now)
  refine ⟨?_, ?_, fun h => by cases h⟩
  · rw [hmin]
    exact Zone.all_handDim_dimmed
      (hall.switching now (fun _ hc _ _ => Circuit.dimmedRight_congr hc (Circuit.level_switchOn _ _ _))
        fun _ hc _ _ => Circuit.dimmedRight_congr hc (Circuit.level_switchOff _ _ _))
      fun d hd => minDim_le_dimLevel (by rwa [Zone.switching_minDim] at hd)
  · intro d hd
    rw [Zone.allocate_dim] at hd
    rw [hmin]
    exact minDim_le_dimLevel hd

theorem Zone.dimmedRight_lightAll {z : Zone} (h : z.dimmedRight true false) (hmin : z.minDim ≤ 1000) (now : Uptime) :
    (z.lightAll now).dimmedRight true true := by
  obtain ⟨hall, -, -⟩ := h
  have hkeep : (z.lightAll now).minDim = z.minDim := Zone.minDim_commanded (Zone.commanded_lightAll now z)
  have hlevel : ∀ k d, (if k = 0 then none else some 1000 : Option Nat) = some d → d = 0 ∨ z.minDim ≤ d := fun k d hd => by
    split at hd <;> cases hd
    exact .inr hmin
  refine ⟨?_, ?_, fun h => by cases h⟩
  · rw [hkeep]
    exact Zone.all_handDim_dimmed
      (hall.modWhere (fun _ hc _ => Circuit.dimmedRight_congr hc (Circuit.level_switchOn _ _ _)) fun _ hc _ => hc)
      (hlevel _)
  · intro d hd
    rw [Zone.lightAll, Zone.handDim_dim] at hd
    rw [hkeep]
    exact hlevel _ d hd

theorem Zone.dimmedRight_lockoutModify {v e : Bool} {z : Zone} (h : z.dimmedRight v e) (hmin : z.minDim ≤ 1000)
    (now : Uptime) (sets clears : List (Fin 8)) : (z.lockoutModify now e sets clears).dimmedRight v e := by
  obtain ⟨hall, hdim, hdark⟩ := h
  have hkeep : (z.lockoutModify now e sets clears).minDim = z.minDim :=
    Zone.minDim_commanded (z.commanded_lockoutModify now e sets clears)
  unfold Zone.dimmedRight
  rw [hkeep]
  refine ⟨hall.lockoutModify (fun _ => Circuit.dimmedRight_lockOut) fun _ hc =>
    Circuit.dimmedRight_freed hc now _ (fun hv => (hdark hv).2) hmin, ?_, ?_⟩
  · intro d hd
    obtain heq | ⟨-, heq⟩ := z.dim_lockoutModify now e sets clears <;> rw [heq] at hd
    · exact hdim d hd
    · cases hd
      exact .inr hmin
  · intro hv
    obtain heq | ⟨he, -⟩ := z.dim_lockoutModify now e sets clears
    · exact ⟨heq.trans (hdark hv).1, (hdark hv).2⟩
    · rw [(hdark hv).2] at he
      cases he

/-- A change of circuits alone, each of them left as R76 and R99 ask. -/
theorem Zone.dimmedRight_of_slots {v e : Bool} {x y : Zone} (h : x.dimmedRight v e) (hxy : x.Commanded y)
    (hd : y.dim = x.dim)
    (hc : x.All (Circuit.dimmedRight v x.minDim) → y.All (Circuit.dimmedRight v x.minDim)) : y.dimmedRight v e := by
  unfold Zone.dimmedRight at *
  rw [Zone.minDim_commanded hxy, hd]
  exact ⟨hc h.1, h.2⟩

theorem dimRules : ZoneRules (fun _ => True) fun v e z => z.legal = true ∧ z.dimmedRight v e where
  idle v e z r f w h := ⟨legalRules.idle v e z r f w h.1, h.2⟩
  calm _ _ _ h := ⟨h.1, fun k c hc => Circuit.dimmedRight_of_level (h.2.1 k c hc).1, h.2.2.1, fun h => by cases h⟩
  supervise z now cond hcond h := ⟨legalRules.supervise z now cond hcond h.1,
    Zone.dimmedRight_of_slots h.2 (z.commanded_modWhere _ _) rfl fun hall =>
      hall.modWhere (fun _ hc _ => Circuit.dimmedRight_congr hc rfl) fun _ hc _ => hc⟩
  light z now h := ⟨legalRules.light z now h.1,
    Zone.dimmedRight_lightAll (z := z.atCapacity) h.2 ((Zone.minDim_le_of_legal h.1).trans (by decide)) now⟩
  stop z h := by
    refine ⟨legalRules.stop z h.1, ?_, fun d hd => (by cases hd), fun _ => ⟨rfl, rfl⟩⟩
    exact Zone.all_sampled (Q := Circuit.dimmedRight false z.minDim) h.2.1 fun c _ =>
      ⟨.inl c.dark_stopped.1, fun _ => c.dark_stopped⟩
  demand v e z d hd h := ⟨legalRules.demand v e z d hd h.1, h.2⟩
  ramp z f r l d hd h := ⟨legalRules.ramp z f r l d hd h.1, h.2⟩
  allocate z now h := ⟨legalRules.allocate z now h.1, Zone.dimmedRight_allocate h.2 now⟩
  settle v e z k b ht h := ⟨legalRules.settle v e z k b ht h.1,
    Zone.dimmedRight_of_slots h.2 (z.commanded_modSlot _ _) rfl fun hall => hall.modSlot fun c hc hright => by
      obtain ⟨t, htimer, -⟩ := ht c hc
      have hlevel : (c.settled b).level = 0 ∨ z.minDim ≤ (c.settled b).level := by
        unfold Circuit.settled
        split
        · split
          · exact hright.1
          · exact .inl rfl
        · split <;> exact .inl rfl
        all_goals exact hright.1
      exact ⟨hlevel, fun hv => by rw [(hright.2 hv).2.1] at htimer; cases htimer⟩⟩
  loss v e z k ht h := ⟨legalRules.loss v e z k ht h.1,
    Zone.dimmedRight_of_slots h.2 (z.commanded_modSlot _ _) rfl fun hall => hall.modSlot fun c hc hright => by
      obtain ⟨t, htimer, -⟩ := ht c hc
      refine ⟨?_, fun hv => by rw [(hright.2 hv).2.1] at htimer; cases htimer⟩
      unfold Circuit.lost
      split
      · exact .inl rfl
      · exact hright.1⟩
  burn v e z cond h := ⟨legalRules.burn v e z cond h.1,
    Zone.dimmedRight_of_slots h.2 (z.commanded_modWhere _ _) rfl fun hall => hall.modWhere (fun _ hc _ => hc) fun _ hc _ => hc⟩
  burnReset v e z ks h := ⟨legalRules.burnReset v e z ks h.1,
    Zone.dimmedRight_of_slots h.2 (z.commanded_modSlots _ _) rfl fun hall => hall.modSlots fun _ hc => hc⟩
  lockout v e z now sets clears h := ⟨legalRules.lockout v e z now sets clears h.1,
    Zone.dimmedRight_lockoutModify h.2 ((Zone.minDim_le_of_legal h.1).trans (by decide)) now sets clears⟩
  sample e z now g hg h := ⟨legalRules.sample e z now g hg h.1,
    Zone.dimmedRight_of_slots h.2 rfl rfl fun hall => Zone.all_sampled hall fun c hc => by
      obtain heq | ⟨b, heq⟩ := hg c <;> rw [heq]
      · exact hc
      · exact Circuit.dimmedRight_congr hc (Circuit.level_feedbackChanged _ _ _ _)⟩

theorem Zone.dimmedRight_iff {v e : Bool} {z : Zone} (hve : v = false → e = false) :
    z.dimmedRight v e ↔ z.dimsAboveMinimum = true ∧ (v = false → z.dark = true) := by
  have habove : z.dimsAboveMinimum = true ↔
      (∀ d, z.dim = some d → d = 0 ∨ z.minDim ≤ d) ∧ z.All fun c => c.level = 0 ∨ z.minDim ≤ c.level := by
    rw [Zone.dimsAboveMinimum, Bool.and_eq_true, Zone.all_circuits]
    refine and_congr (by simp [Option.all_eq_true]) ?_
    simp only [Bool.or_eq_true, beq_iff_eq, decide_eq_true_eq]
  have hdark : z.dark = true ↔ z.dim = none ∧ z.All Circuit.dark := by
    rw [Zone.dark, Bool.and_eq_true, Zone.all_circuits, Option.isNone_iff_eq_none]
    simp only [Bool.and_eq_true, beq_iff_eq, bne_iff_ne, Option.isNone_iff_eq_none, and_assoc]
    rfl
  rw [habove, hdark]
  constructor
  · rintro ⟨hall, hdim, hoff⟩
    exact ⟨⟨hdim, fun k c hc => (hall k c hc).1⟩, fun hv => ⟨(hoff hv).1, fun k c hc => (hall k c hc).2 hv⟩⟩
  · rintro ⟨⟨hdim, hall⟩, hoff⟩
    exact ⟨fun k c hc => ⟨hall k c hc, fun hv => (hoff hv).2 k c hc⟩, hdim, fun hv => ⟨(hoff hv).1, hve hv⟩⟩

/-- A circuit that a zone setup writes is dark or the one that was held. -/
theorem Zone.dimmedRight_withSetup {e : Bool} {z : Zone} (h : z.dimmedRight false e) (u : ZoneSetup) :
    (z.withSetup u).dimmedRight false e := by
  obtain ⟨hall, -, hoff⟩ := h
  have hdark : (z.withSetup u).All Circuit.dark :=
    Zone.all_withSetup (fun k c hc => (hall k c hc).2 rfl) fun k v _ => ⟨rfl, rfl, by simp [CircuitSetup.create]⟩
  refine ⟨fun k c hc => ⟨.inl (hdark k c hc).1, fun _ => hdark k c hc⟩, fun d hd => ?_, hoff⟩
  rw [show (z.withSetup u).dim = none from (hoff rfl).1] at hd
  cases hd

/-- Settles O58: every operation on a zone leaves legal circuits, hands out levels that are 0 or at least the minimum, and
darkens the zone it takes out of supervision. -/
theorem everyStepKeepsTheZonesLegal : Obligations.EveryStepKeepsTheZonesLegal := by
  intro s t hs hst
  have hlegal := legalRules.keptByWork anyChannels (by decide) fun s z body u hu _ _ h => Zone.legal_withSetup hu h
  refine ⟨(hlegal.keptByStep s t ⟨trivial, hs⟩ hst).2, fun hc hd => ?_⟩
  have hdims := dimRules.keptByWork followingChannels
    ⟨by decide, (Zone.dimmedRight_iff fun _ => rfl).mpr ⟨by decide, fun _ => by decide⟩⟩
    fun s z body u hu hw hf h => by
      rw [State.unsupervised_of_writable hf hw] at h ⊢
      exact ⟨Zone.legal_withSetup hu h.1, Zone.dimmedRight_withSetup h.2 u⟩
  have hafter := (hdims.keptByStep s t ⟨hc, fun z => ⟨hs z, (Zone.dimmedRight_iff
    State.not_emergency_of_unsupervised).mpr (hd z)⟩⟩ hst).2
  exact fun z => (Zone.dimmedRight_iff State.not_emergency_of_unsupervised).mp (hafter z).2

/-! ### A zone under emergency allocation -/

/-- Every available circuit of a zone under emergency allocation is lit (R79). -/
def Zone.litIn (emergency : Bool) (z : Zone) : Prop :=
  emergency = true → z.All fun c => c.available = true → c.fullyLit = true

theorem Zone.litIn_of_slots {e : Bool} {x y : Zone} (h : x.litIn e)
    (hc : (x.All fun c => c.available = true → c.fullyLit = true) →
      y.All fun c => c.available = true → c.fullyLit = true) : y.litIn e :=
  fun he => hc (h he)

theorem Circuit.fullyLit_iff_of_switched {c : Circuit} (hk : c.kind = .switched) :
    c.fullyLit = true ↔ c.state = .switchingOn ∨ c.state = .on := by
  simp [Circuit.fullyLit, hk]

theorem Circuit.fullyLit_iff_of_dimmed {c : Circuit} (hk : c.kind = .dimmed) : c.fullyLit = true ↔ c.level = 1000 := by
  simp [Circuit.fullyLit, hk]

theorem Circuit.fullyLit_switchOn {c : Circuit} (hk : c.kind = .switched) (now : Uptime) (settle : Nat) :
    (c.switchOn now settle).fullyLit = true := by
  unfold Circuit.switchOn
  split
  · exact (Circuit.fullyLit_iff_of_switched (by exact hk)).mpr (.inl rfl)
  · exact (Circuit.fullyLit_iff_of_switched (by exact hk)).mpr (.inr rfl)

/-- An available SWITCHED circuit that is not to be switched on is on or being switched on. -/
theorem Circuit.fullyLit_of_not_reserve {c : Circuit} (hk : c.kind = .switched) (ha : c.available = true)
    (h : c.inReserve = false) : c.fullyLit = true := by
  rw [Circuit.fullyLit_iff_of_switched hk]
  have hno : ¬ (c.kind = .switched ∧ (c.state = .off ∨ c.state = .switchingOff)) := by
    rw [← Circuit.inReserve_iff, h]
    decide
  unfold Circuit.available at ha
  cases hs : c.state <;> rw [hs] at ha
  case off => exact absurd ⟨hk, .inl hs⟩ hno
  case switchingOff => exact absurd ⟨hk, .inr hs⟩ hno
  case switchingOn => exact .inl rfl
  case on => exact .inr rfl
  all_goals cases ha

theorem Zone.lit_lightAll {z : Zone} (h : z.legal = true) (now : Uptime) :
    (z.lightAll now).All fun c => c.available = true → c.fullyLit = true := by
  obtain ⟨hall, -, -⟩ := Zone.legal_iff.mp h
  have hon : (z.modWhere Circuit.inReserve (Circuit.switchOn now z.settle)).All
      fun c => c.kind = .switched → c.available = true → c.fullyLit = true :=
    Zone.All.modWhere (P := fun _ => True) (fun _ _ _ => trivial)
      (fun c _ hres _ _ => Circuit.fullyLit_switchOn (Circuit.inReserve_iff.mp hres).1 _ _)
      fun c _ hres hk ha => Circuit.fullyLit_of_not_reserve hk ha hres
  unfold Zone.lightAll
  dsimp only
  split
  next hcd =>
    intro k c hc ha
    cases hk : c.kind with
    | switched => exact hon k c hc hk ha
    | dimmed =>
      have hnone : c.inCd = false := Zone.inCd_of_cd_eq_zero (Zone.all_legal_reserveOn hall now) hcd k c hc
      rw [Circuit.inCd_iff.mpr ⟨hk, ha⟩] at hnone
      cases hnone
  next =>
    refine Zone.All.modWhere (P := fun c => c.kind = .switched → c.available = true → c.fullyLit = true) hon
      (fun c _ hcd _ => (Circuit.fullyLit_iff_of_dimmed (c := c.setLevel 1000) (Circuit.inCd_iff.mp hcd).1).mpr rfl)
      fun c hc hcd ha => ?_
    cases hk : c.kind with
    | switched => exact hc hk ha
    | dimmed =>
      rw [Circuit.inCd_iff.mpr ⟨hk, ha⟩] at hcd
      cases hcd

theorem Circuit.lit_lockOut {c : Circuit} : c.lockOut.available = false := by
  unfold Circuit.lockOut
  split
  next h => rw [Circuit.available, h]
  · rfl

theorem Circuit.fullyLit_lit (c : Circuit) (now : Uptime) (settle : Nat) : (c.lit now settle).fullyLit = true := by
  unfold Circuit.lit
  split
  next hk => exact Circuit.fullyLit_switchOn hk now settle
  next hk => exact (Circuit.fullyLit_iff_of_dimmed (c := c.setLevel 1000) hk).mpr rfl

theorem Circuit.lit_freed {c : Circuit} (h : c.available = true → c.fullyLit = true) (now : Uptime) (settle : Nat) :
    (c.freed now true settle).available = true → (c.freed now true settle).fullyLit = true := by
  unfold Circuit.freed
  split
  · exact fun _ => Circuit.fullyLit_lit _ now settle
  · exact h

theorem Circuit.feedbackChanged_eq (now : Uptime) (settle : Nat) (present : Bool) (c : Circuit) :
    c.feedbackChanged now settle present = { c with timer := (c.feedbackChanged now settle present).timer } := by
  unfold Circuit.feedbackChanged
  split <;> split
  · split <;> rfl
  · rfl
  · split <;> rfl
  · rfl

theorem litRules : ZoneRules (fun _ => True) fun _ e z => z.legal = true ∧ z.litIn e where
  idle v e z r f w h := ⟨legalRules.idle v e z r f w h.1, h.2⟩
  calm _ _ _ h := ⟨h.1, fun h => by cases h⟩
  supervise z now cond hcond h := ⟨legalRules.supervise z now cond hcond h.1, fun h => by cases h⟩
  light z now h := ⟨legalRules.light z now h.1, fun _ => Zone.lit_lightAll (Zone.legal_atCapacity ▸ h.1) now⟩
  stop z h := ⟨legalRules.stop z h.1, fun h => by cases h⟩
  demand v e z d hd h := ⟨legalRules.demand v e z d hd h.1, h.2⟩
  ramp z f r l d hd h := ⟨legalRules.ramp z f r l d hd h.1, h.2⟩
  allocate z now h := ⟨legalRules.allocate z now h.1, fun h => by cases h⟩
  settle v e z k b ht h := ⟨legalRules.settle v e z k b ht h.1, Zone.litIn_of_slots h.2 fun hall =>
    hall.modSlot fun c hc hlit => by
      obtain ⟨t, htimer, hkind⟩ := ht c hc
      have hlegal := (Zone.legal_iff.mp h.1).1 k c hc
      obtain ⟨hk, hs | hs⟩ := Circuit.switched_of_settle hlegal htimer hkind
      · cases b
        · rw [show c.settled false = c.outOfService .failedDark by simp [Circuit.settled, hs]]
          exact fun h => by cases h
        · rw [show c.settled true = { c with state := .on, timer := none } by simp [Circuit.settled, hs]]
          exact fun _ => (Circuit.fullyLit_iff_of_switched (by exact hk)).mpr (.inr rfl)
      · have := (Circuit.fullyLit_iff_of_switched hk).mp (hlit (by rw [Circuit.available, hs]))
        rw [hs] at this
        obtain h | h := this <;> cases h⟩
  loss v e z k ht h := ⟨legalRules.loss v e z k ht h.1, Zone.litIn_of_slots h.2 fun hall =>
    hall.modSlot fun c hc hlit => by
      unfold Circuit.lost
      split
      · exact fun h => by cases h
      · exact hlit⟩
  burn v e z cond h := ⟨legalRules.burn v e z cond h.1, Zone.litIn_of_slots h.2 fun hall =>
    hall.modWhere (fun _ hc _ => hc) fun _ hc _ => hc⟩
  burnReset v e z ks h := ⟨legalRules.burnReset v e z ks h.1, Zone.litIn_of_slots h.2 fun hall =>
    hall.modSlots fun _ hc => hc⟩
  lockout v e z now sets clears h := ⟨legalRules.lockout v e z now sets clears h.1, fun he =>
    (h.2 he).lockoutModify (fun _ _ ha => by rw [Circuit.lit_lockOut] at ha; cases ha)
      fun _ hc => he ▸ Circuit.lit_freed hc now _⟩
  sample e z now g hg h := ⟨legalRules.sample e z now g hg h.1, Zone.litIn_of_slots h.2 fun hall =>
    Zone.all_sampled hall fun c hc => by
      obtain heq | ⟨b, heq⟩ := hg c <;> rw [heq]
      · exact hc
      · rw [Circuit.feedbackChanged_eq]
        exact hc⟩

theorem Zone.litIn_iff {e : Bool} {z : Zone} :
    z.litIn e ↔ (e = true → ∀ c ∈ z.circuits, c.available = true → c.fullyLit = true) := by
  refine imp_congr_right fun _ => ⟨fun h c hc => ?_, fun h k c hc => h c (Zone.mem_circuits.mpr ⟨k, hc⟩)⟩
  obtain ⟨k, hk⟩ := Zone.mem_circuits.mp hc
  exact h k c hk

/-- Settles O59: an emergency lights every available circuit of its zones, and no operation but the return to AUTO, which
ends the emergency allocation, puts a lit circuit out and leaves it available. -/
theorem everyStepKeepsAnEmergencyLit : Obligations.EveryStepKeepsAnEmergencyLit := by
  have hkept := litRules.keptByWork followingChannels ⟨by decide, fun h => by cases h⟩
    fun s z body u hu hw hf h => by
      rw [State.not_emergency_of_unsupervised (State.unsupervised_of_writable hf hw)]
      exact ⟨Zone.legal_withSetup hu h.1, fun h => by cases h⟩
  intro s t hlegal hf hlit hst
  have hafter := (hkept.keptByStep s t ⟨hf, fun z => ⟨hlegal z, Zone.litIn_iff.mpr (hlit z)⟩⟩ hst).2
  exact fun z => Zone.litIn_iff.mp (hafter z).2

end Sys2Proof.Machine
end

section
/-! SUPPORT. Output lines and the circuits they serve (R149, R198, R199): which circuits a line may serve, `State.Wired`, and
what the lines of served circuits carry, `State.Drives`, each by the zones taken to be served. -/

namespace Sys2Proof.Machine

/-! ### Writing the output lines of circuits -/

/-- The output lines of circuits changed one after another by `g`, where their function drives an output. -/
def serveLines (g : Circuit → Line → Line) (cs : List Circuit) (lines : Tab 192 Line) : Tab 192 Line :=
  cs.foldl (fun t c => if (t.get c.output).fn.isOutput then t.put c.output (g c (t.get c.output)) else t) lines

/-- A line driven at the value of its circuit's command (R149). -/
def Circuit.follow (c : Circuit) (x : Line) : Line :=
  { x with drive := .driven, output := c.outputFor x.fn }

/-- A line that begins to serve its circuit (R149, R151). -/
def Circuit.start (c : Circuit) (x : Line) : Line :=
  { x with drive := .driven, output := c.outputFor x.fn, period := if x.fn == .dimOut then some 0 else none }

/-- A line that stops serving a circuit (R149, R151). -/
def Line.stop (x : Line) : Line :=
  { x with drive := .floating, output := .none, period := none }

theorem followOutputs_eq : followOutputs = serveLines Circuit.follow := rfl
theorem startOutputs_eq : startOutputs = serveLines Circuit.start := rfl
theorem stopOutputs_eq : stopOutputs = serveLines fun _ => Line.stop := rfl

theorem get_serveLines_of_ne {g : Circuit → Line → Line} {cs : List Circuit} {i : Fin 192}
    (h : ∀ c ∈ cs, c.output ≠ i) (t : Tab 192 Line) : (serveLines g cs t).get i = t.get i := by
  induction cs generalizing t with
  | nil => rfl
  | cons c cs ih =>
    have hrest := ih fun b hb => h b (List.mem_cons_of_mem _ hb)
    refine (hrest _).trans ?_
    dsimp only
    split
    · exact Tab.get_put_ne t (Ne.symm (h c List.mem_cons_self)) _
    · rfl

/-- The line of the one circuit of the list that names it. -/
theorem get_serveLines {g : Circuit → Line → Line} (hfn : ∀ c x, (g c x).fn = x.fn)
    (hagain : ∀ c x, g c (g c x) = g c x) {c : Circuit} {cs : List Circuit} (hone : ∀ b ∈ cs, b.output = c.output → b = c)
    (t : Tab 192 Line) (hout : (t.get c.output).fn.isOutput = true) :
    (serveLines g cs t).get c.output = if c ∈ cs then g c (t.get c.output) else t.get c.output := by
  induction cs generalizing t with
  | nil => rfl
  | cons b cs ih =>
    have hrest := ih fun a ha => hone a (List.mem_cons_of_mem _ ha)
    by_cases hb : b.output = c.output
    · obtain rfl := hone b List.mem_cons_self hb
      have hput : (t.put b.output (g b (t.get b.output))).get b.output = g b (t.get b.output) := Tab.get_put_self t _ _
      have hstep : serveLines g (b :: cs) t = serveLines g cs (t.put b.output (g b (t.get b.output))) := by
        simp only [serveLines, List.foldl_cons, hout, if_true]
      rw [hstep, hrest _ (by rw [hput, hfn]; exact hout), hput, hagain, if_pos List.mem_cons_self]
      split <;> rfl
    · have hne : b ≠ c := fun h => hb (congrArg Circuit.output h)
      have hget : ∀ u : Tab 192 Line, u = (if (t.get b.output).fn.isOutput then t.put b.output (g b (t.get b.output)) else t) →
          u.get c.output = t.get c.output := fun u hu => by
        rw [hu]
        split
        · exact Tab.get_put_ne t (Ne.symm hb) _
        · rfl
      have hstep : serveLines g (b :: cs) t
          = serveLines g cs (if (t.get b.output).fn.isOutput then t.put b.output (g b (t.get b.output)) else t) := rfl
      rw [hstep, hrest _ (by rw [hget _ rfl]; exact hout), hget _ rfl]
      simp only [List.mem_cons, Ne.symm hne, false_or]

/-! ### Circuits and their commands -/

/-- The output value that a circuit's command gives the line it serves on (R149). -/
def Circuit.command (c : Circuit) : OutputValue :=
  c.outputFor c.kind.outputFn

theorem CircuitKind.outputFn_isOutput (k : CircuitKind) : k.outputFn.isOutput = true := by
  cases k <;> rfl

theorem Circuit.namings_of_setup {c d : Circuit} (h : d.setup = c.setup) : d.namings = c.namings := by
  have houtput : d.output = c.output := congrArg CircuitSetup.output h
  have hfeedback : d.feedback = c.feedback := congrArg CircuitSetup.feedback h
  simp only [Circuit.namings, houtput, hfeedback]

theorem Circuit.output_mem_namings (c : Circuit) : c.output ∈ c.namings := List.mem_cons_self

theorem Zone.SameSetup.circuit {x y : Zone} (h : x.SameSetup y) {k : Fin 8} {d : Circuit} (hd : y.slots.get k = some d) :
    ∃ c, x.slots.get k = some c ∧ d.setup = c.setup := by
  have hmap := h.circuits k
  rw [hd, Option.map_some, eq_comm, Option.map_eq_some_iff] at hmap
  obtain ⟨c, hc, hset⟩ := hmap
  exact ⟨c, hc, hset.symm⟩

theorem Zone.SameSetup.symm {x y : Zone} (h : x.SameSetup y) : y.SameSetup x :=
  ⟨h.order.symm, h.settle.symm, h.hysteresis.symm, h.minDim.symm, fun k => (h.circuits k).symm⟩

/-! ### Zones taken to be served -/

/-- Slot `k` of zone `z`, one of the zones `V`, holds the circuit. -/
def State.Serves (V : Fin 14 → Bool) (s : State) (z : Fin 14) (k : Fin 8) (c : Circuit) : Prop :=
  V z = true ∧ (s.zone z).slots.get k = some c

/-- The circuits of the zones `V` name no line twice, each output line has the function its kind needs (R198, R199). -/
structure State.Wired (V : Fin 14 → Bool) (s : State) : Prop where
  single : ∀ {z k c}, s.Serves V z k c → c.namings.Nodup
  apart : ∀ {z k c z' k' c'}, s.Serves V z k c → s.Serves V z' k' c' → (z, k) ≠ (z', k') →
    c.namings.Disjoint c'.namings
  fits : ∀ {z k c}, s.Serves V z k c → (s.line c.output).fn = c.kind.outputFn

/-- The line is FLOATING with no output value (R149). -/
def Line.Idle (x : Line) : Prop :=
  x.drive = .floating ∧ x.output = .none

/-- The line is DRIVEN at the value of the circuit's command (R149). -/
def Line.Carries (x : Line) (c : Circuit) : Prop :=
  x.drive = .driven ∧ x.output = c.command

/-- The output lines of the circuits of the zones `V` are driven from their commands, every other line floats (R149). -/
structure State.Drives (V : Fin 14 → Bool) (s : State) : Prop where
  driven : ∀ {z k c}, s.Serves V z k c → (s.line c.output).Carries c
  idle : ∀ i, (∀ z k c, s.Serves V z k c → c.output ≠ i) → (s.line i).Idle

section
variable {V W : Fin 14 → Bool} {s t : State}

theorem State.Serves.mono {z : Fin 14} {k : Fin 8} {c : Circuit} (h : ∀ z, V z = true → W z = true)
    (hc : s.Serves V z k c) : s.Serves W z k c :=
  ⟨h z hc.1, hc.2⟩

theorem State.Wired.mono (h : ∀ z, V z = true → W z = true) (hw : s.Wired W) : s.Wired V :=
  ⟨fun hc => hw.single (hc.mono h), fun hc hd => hw.apart (hc.mono h) (hd.mono h), fun hc => hw.fits (hc.mono h)⟩

/-- A line is the output line of one circuit alone. -/
theorem State.Wired.unique (hw : s.Wired W) {z z' : Fin 14} {k k' : Fin 8} {c c' : Circuit} (hc : s.Serves W z k c)
    (hc' : s.Serves W z' k' c') (h : c.output = c'.output) : z = z' ∧ k = k' ∧ c = c' := by
  by_cases heq : (z, k) = (z', k')
  · obtain ⟨rfl, rfl⟩ := Prod.mk.inj heq
    exact ⟨rfl, rfl, Option.some.inj (hc.2.symm.trans hc'.2)⟩
  · exact absurd (h ▸ c'.output_mem_namings) (hw.apart hc hc' heq c.output_mem_namings)

/-- A circuit served after a change that moves no wire was served before it, with the same setup. -/
theorem State.serves_of_setup (hz : ∀ z k, ((t.zone z).slots.get k).map Circuit.setup
    = ((s.zone z).slots.get k).map Circuit.setup) {z : Fin 14} {k : Fin 8} {d : Circuit} (hd : t.Serves V z k d) :
    ∃ c, s.Serves V z k c ∧ d.setup = c.setup := by
  have hmap := hz z k
  rw [hd.2, Option.map_some, eq_comm, Option.map_eq_some_iff] at hmap
  obtain ⟨c, hc, hset⟩ := hmap
  exact ⟨c, ⟨hd.1, hc⟩, hset.symm⟩

/-- Wires are the setups of circuits and the functions of lines. -/
theorem State.Wired.congr (hl : ∀ i, (t.line i).fn = (s.line i).fn)
    (hz : ∀ z k, ((t.zone z).slots.get k).map Circuit.setup = ((s.zone z).slots.get k).map Circuit.setup)
    (hw : s.Wired W) : t.Wired W where
  single hd := by
    obtain ⟨c, hc, hset⟩ := State.serves_of_setup hz hd
    exact Circuit.namings_of_setup hset ▸ hw.single hc
  apart hd hd' hne := by
    obtain ⟨c, hc, hset⟩ := State.serves_of_setup hz hd
    obtain ⟨c', hc', hset'⟩ := State.serves_of_setup hz hd'
    rw [Circuit.namings_of_setup hset, Circuit.namings_of_setup hset']
    exact hw.apart hc hc' hne
  fits hd := by
    obtain ⟨c, hc, hset⟩ := State.serves_of_setup hz hd
    change (t.line (Circuit.setup _).output).fn = (Circuit.setup _).kind.outputFn
    rw [hset]
    exact (hl c.output).trans (hw.fits hc)

/-- The shared operations move no wire. -/
theorem State.Wired.works (h : s.Works t) (hw : s.Wired W) : t.Wired W :=
  hw.congr (fun i => by rw [h.lines i]) fun z k => (h.zones z).circuits k

/-- What a served line carries depends on the commands of the served circuits and on the drive and output of the lines. -/
theorem State.Drives.congr (hl : ∀ i, (t.line i).drive = (s.line i).drive ∧ (t.line i).output = (s.line i).output)
    (hz : ∀ z k, V z = true → ((t.zone z).slots.get k).map (fun c => (c.output, c.command))
      = ((s.zone z).slots.get k).map fun c => (c.output, c.command))
    (h : s.Drives V) : t.Drives V := by
  have hserves : ∀ {s t : State}, (∀ z k, V z = true → ((t.zone z).slots.get k).map (fun c => (c.output, c.command))
      = ((s.zone z).slots.get k).map fun c => (c.output, c.command)) →
      ∀ {z k d}, t.Serves V z k d → ∃ c, s.Serves V z k c ∧ d.output = c.output ∧ d.command = c.command := by
    intro s t hz z k d hd
    have hmap := hz z k hd.1
    rw [hd.2, Option.map_some, eq_comm, Option.map_eq_some_iff] at hmap
    obtain ⟨c, hc, hpair⟩ := hmap
    exact ⟨c, ⟨hd.1, hc⟩, (congrArg Prod.fst hpair).symm, (congrArg Prod.snd hpair).symm⟩
  refine ⟨fun hd => ?_, fun i hi => ?_⟩
  · obtain ⟨c, hc, houtput, hcommand⟩ := hserves hz hd
    unfold Line.Carries
    rw [(hl _).1, (hl _).2, houtput, hcommand]
    exact h.driven hc
  · unfold Line.Idle
    rw [(hl i).1, (hl i).2]
    refine h.idle i fun z k c hc => ?_
    obtain ⟨d, hd, houtput, -⟩ := hserves (fun z k hz' => (hz z k hz').symm) hc
    exact houtput ▸ hi z k d hd

/-- One zone of `W` changed, the output lines of its circuits with it: driven where the zone is served, else idle. -/
theorem State.Drives.rezone {V' : Fin 14 → Bool} {z : Fin 14} (hw : s.Wired W) (hV : ∀ y, V y = true → W y = true)
    (hz : W z = true) (h : s.Drives V) (hset : (s.zone z).SameSetup (t.zone z))
    (hne : ∀ y, y ≠ z → t.zone y = s.zone y ∧ V' y = V y)
    (hlines : ∀ k c, (t.zone z).slots.get k = some c →
      if V' z = true then (t.line c.output).Carries c else (t.line c.output).Idle)
    (hrest : ∀ i, (∀ k c, (t.zone z).slots.get k = some c → c.output ≠ i) → t.line i = s.line i) : t.Drives V' := by
  have hother : ∀ {y k c}, y ≠ z → t.Serves V' y k c → s.Serves V y k c := fun hy hc =>
    ⟨(hne _ hy).2 ▸ hc.1, (hne _ hy).1 ▸ hc.2⟩
  refine ⟨fun {y k c} hc => ?_, fun i hi => ?_⟩
  · by_cases hy : y = z
    · subst hy
      have := hlines k c hc.2
      rwa [if_pos hc.1] at this
    · have hold := hother hy hc
      rw [hrest c.output fun j d hd hout => ?_]
      · exact h.driven hold
      · obtain ⟨b, hb, hsetup⟩ := hset.circuit hd
        have houtput : b.output = c.output := (congrArg CircuitSetup.output hsetup).symm.trans hout
        exact hy (hw.unique (hold.mono hV) ⟨hz, hb⟩ houtput.symm).1
  · by_cases hin : ∃ k c, (t.zone z).slots.get k = some c ∧ c.output = i
    · obtain ⟨k, c, hc, rfl⟩ := hin
      have := hlines k c hc
      split at this
      next hserved => exact absurd rfl (hi z k c ⟨hserved, hc⟩)
      next => exact this
    · rw [hrest i fun k c hc hout => hin ⟨k, c, hc, hout⟩]
      refine h.idle i fun y k c hc hout => ?_
      by_cases hy : y = z
      · subst hy
        obtain ⟨d, hd, hsetup⟩ := hset.symm.circuit hc.2
        exact hin ⟨k, d, hd, (congrArg CircuitSetup.output hsetup).symm.trans hout⟩
      · exact hi y k c ⟨(hne y hy).2 ▸ hc.1, (hne y hy).1 ▸ hc.2⟩ hout

/-- The lines after the output lines of a zone's circuits were written. -/
theorem State.Wired.line_serveLines {g : Circuit → Line → Line} (hfn : ∀ c x, (g c x).fn = x.fn)
    (hagain : ∀ c x, g c (g c x) = g c x) {z : Fin 14} (hw : s.Wired W) (hz : W z = true) {x : Zone}
    (hset : (s.zone z).SameSetup x) {k : Fin 8} {c : Circuit} (hc : x.slots.get k = some c) :
    (serveLines g x.circuits s.lines).get c.output = g c (s.line c.output) ∧ (s.line c.output).fn = c.kind.outputFn := by
  obtain ⟨a, ha, hsetup⟩ := hset.circuit hc
  have houtput : c.output = a.output := congrArg CircuitSetup.output hsetup
  have hkind : c.kind = a.kind := congrArg CircuitSetup.kind hsetup
  have hfits : (s.line c.output).fn = c.kind.outputFn := by
    rw [houtput, hkind]
    exact hw.fits ⟨hz, ha⟩
  refine ⟨?_, hfits⟩
  have hserve := get_serveLines hfn hagain (c := c) (cs := x.circuits)
    (fun b hb hout => by
      obtain ⟨j, hj⟩ := Zone.mem_circuits.mp hb
      obtain ⟨a', ha', hsetup'⟩ := hset.circuit hj
      have houtput' : b.output = a'.output := congrArg CircuitSetup.output hsetup'
      obtain ⟨-, rfl, -⟩ := hw.unique ⟨hz, ha'⟩ ⟨hz, ha⟩ (houtput'.symm.trans (hout.trans houtput))
      exact Option.some.inj (hj.symm.trans hc))
    s.lines (by rw [show s.lines.get c.output = s.line c.output from rfl, hfits]; exact c.kind.outputFn_isOutput)
  rwa [if_pos (Zone.mem_circuits.mpr ⟨k, hc⟩)] at hserve

theorem Circuit.carries_follow {c : Circuit} {x : Line} (h : x.fn = c.kind.outputFn) : (c.follow x).Carries c :=
  ⟨rfl, congrArg c.outputFor h⟩

theorem Circuit.carries_start {c : Circuit} {x : Line} (h : x.fn = c.kind.outputFn) : (c.start x).Carries c :=
  ⟨rfl, congrArg c.outputFor h⟩

theorem get_serveLines_of_slots {g : Circuit → Line → Line} {x : Zone} {i : Fin 192}
    (h : ∀ k c, x.slots.get k = some c → c.output ≠ i) (t : Tab 192 Line) :
    (serveLines g x.circuits t).get i = t.get i :=
  get_serveLines_of_ne (fun c hc => by
    obtain ⟨k, hk⟩ := Zone.mem_circuits.mp hc
    exact h k c hk) t

/-- A zone record written: the lines of its circuits follow where it is served (R149). -/
theorem State.Drives.putZone {z : Fin 14} {x : Zone} (hw : s.Wired V) (hset : (s.zone z).SameSetup x)
    (hsup : s.supervised z = V z) (h : s.Drives V) : (s.putZone z x).Drives V := by
  cases hz : V z with
  | false =>
    refine h.congr (fun i => ?_) fun y k hy => ?_
    · have hlines : (s.putZone z x).lines = s.lines := by simp [State.putZone, hsup, hz]
      rw [State.line, hlines]
      exact ⟨rfl, rfl⟩
    · rw [State.zone_putZone, if_neg fun hyz => by rw [hyz, hz] at hy; cases hy]
  | true =>
    have hlines : (s.putZone z x).lines = serveLines Circuit.follow x.circuits s.lines := by
      simp [State.putZone, hsup, hz, followOutputs_eq]
    refine State.Drives.rezone (s := s) (t := s.putZone z x) (z := z) hw (fun _ => id) hz h ?_ ?_ ?_ ?_
    · rw [State.zone_putZone_self]; exact hset
    · exact fun y hy => ⟨by rw [State.zone_putZone, if_neg hy], rfl⟩
    · intro k c hc
      rw [State.zone_putZone_self] at hc
      obtain ⟨hget, hfits⟩ := hw.line_serveLines (g := Circuit.follow) (fun _ _ => rfl) (fun _ _ => rfl) hz hset hc
      rw [if_pos hz, State.line, hlines, hget]
      exact Circuit.carries_follow hfits
    · intro i hi
      rw [State.line, hlines]
      rw [State.zone_putZone_self] at hi
      exact get_serveLines_of_slots hi _

/-- A zone that becomes supervised is served from then on (R149). -/
theorem State.Drives.supervise {z : Fin 14} (hw : s.Wired W) (hV : ∀ y, V y = true → W y = true) (hz : W z = true)
    (h : s.Drives V) : (s.supervise z).Drives fun y => V y || y == z := by
  have hset : (s.zone z).SameSetup (s.startSupervision (s.zone z)) := Zone.sameSetup_modWhere _ _ fun _ => rfl
  have hzone : (s.supervise z).zone z = s.startSupervision (s.zone z) := by rw [State.zone_supervise, if_pos rfl]
  refine State.Drives.rezone (s := s) (z := z) hw hV hz h (hzone ▸ hset) ?_ ?_ ?_
  · exact fun y hy => ⟨by rw [State.zone_supervise, if_neg hy], by simp [hy]⟩
  · intro k c hc
    rw [hzone] at hc
    obtain ⟨hget, hfits⟩ := hw.line_serveLines (g := Circuit.start) (fun _ _ => rfl) (fun _ _ => rfl) hz hset hc
    rw [if_pos (by simp), State.line, State.lines_supervise, startOutputs_eq, hget]
    exact Circuit.carries_start hfits
  · intro i hi
    rw [hzone] at hi
    rw [State.line, State.lines_supervise, startOutputs_eq]
    exact get_serveLines_of_slots hi _

/-- A zone that is cleared is served no longer (R99, R149). -/
theorem State.Drives.clearZone {z : Fin 14} (hw : s.Wired W) (hV : ∀ y, V y = true → W y = true) (hz : W z = true)
    (h : s.Drives V) : (s.clearZone z).Drives fun y => V y && y != z := by
  have hset : (s.zone z).SameSetup (s.zone z).cleared := Zone.sameSetup_cleared _
  have hslots : ((s.clearZone z).zone z).slots = (s.zone z).cleared.slots := by
    rw [State.zone_clearZone, if_pos rfl]
    rfl
  refine State.Drives.rezone (s := s) (z := z) hw hV hz h ((s.works_clearZone z).zones z) ?_ ?_ ?_
  · exact fun y hy => ⟨by rw [State.zone_clearZone, if_neg hy], by simp [hy]⟩
  · intro k c hc
    rw [hslots] at hc
    obtain ⟨hget, -⟩ := hw.line_serveLines (g := fun _ => Line.stop) (fun _ _ => rfl) (fun _ _ => rfl) hz hset hc
    rw [if_neg (by simp), State.line, State.lines_clearZone, stopOutputs_eq, hget]
    exact ⟨rfl, rfl⟩
  · intro i hi
    rw [hslots] at hi
    rw [State.line, State.lines_clearZone, stopOutputs_eq]
    exact get_serveLines_of_slots hi _

theorem State.Drives.superviseZones (hw : s.Wired W) {V : Fin 14 → Bool} (hV : ∀ y, V y = true → W y = true)
    {zs : List (Fin 14)} (hzs : ∀ z ∈ zs, W z = true) (h : s.Drives V) :
    (zs.foldl State.supervise s).Drives fun y => V y || zs.contains y := by
  induction zs generalizing s V with
  | nil => simpa using h
  | cons z zs ih =>
    have hnext := ih (hw.works (s.works_supervise z)) (V := fun y => V y || y == z)
      (fun y hy => by
        simp only [Bool.or_eq_true, beq_iff_eq] at hy
        obtain hy | rfl := hy
        · exact hV y hy
        · exact hzs _ List.mem_cons_self)
      (fun y hy => hzs y (List.mem_cons_of_mem _ hy)) (h.supervise hw hV (hzs z List.mem_cons_self))
    simp only [List.contains_cons, ← Bool.or_assoc]
    exact hnext

theorem State.Drives.clearZones (hw : s.Wired W) {V : Fin 14 → Bool} (hV : ∀ y, V y = true → W y = true)
    {zs : List (Fin 14)} (hzs : ∀ z ∈ zs, W z = true) (h : s.Drives V) :
    (zs.foldl State.clearZone s).Drives fun y => V y && !zs.contains y := by
  induction zs generalizing s V with
  | nil => simpa using h
  | cons z zs ih =>
    have hnext := ih (hw.works (s.works_clearZone z)) (V := fun y => V y && y != z)
      (fun y hy => hV y (Bool.and_eq_true_iff.mp hy).1)
      (fun y hy => hzs y (List.mem_cons_of_mem _ hy)) (h.clearZone hw hV (hzs z List.mem_cons_self))
    simp only [List.contains_cons, Bool.not_or, ← Bool.and_assoc]
    exact hnext

end

end Sys2Proof.Machine
end

section
/-! SUPPORT. What each shared operation does to the lines that serve circuits: most move no zone into or out of
supervision, `State.Moves`; entries into OFFLINE and HELD and the work on an interior condition do (R114, R115, R139). -/

namespace Sys2Proof.Machine

/-- The lines follow the circuits of supervised zones (R149, R198, R199). -/
def State.Follows (s : State) : Prop :=
  s.Wired s.supervised ∧ s.Drives s.supervised

/-- Shared work that takes no zone into or out of supervision, leaves the lines following, and begins no PWM period. -/
structure State.Moves (s t : State) : Prop where
  works : s.Works t
  portals : ∀ p, (t.portal p).state = .offline ↔ (s.portal p).state = .offline
  bores : ∀ b, (t.bore b).condition = .released ↔ (s.bore b).condition = .released
  follows : s.Follows → t.Follows
  periods : ∀ i, (t.line i).period = (s.line i).period

section
variable {s t u : State}

theorem State.supervised_congr (hp : ∀ p, (t.portal p).state = .offline ↔ (s.portal p).state = .offline)
    (hb : ∀ b, (t.bore b).condition = .released ↔ (s.bore b).condition = .released) : t.supervised = s.supervised := by
  funext z
  unfold State.supervised
  rw [Bool.eq_iff_iff]
  split
  next p _ => simpa using not_congr (hp p)
  next b _ => simpa using not_congr (hb b)

/-- Whether the lines follow depends on supervision, on the setups and commands of circuits, and on what the lines are
and carry. -/
theorem State.Follows.congr (h : s.Follows) (hp : ∀ p, (t.portal p).state = .offline ↔ (s.portal p).state = .offline)
    (hb : ∀ b, (t.bore b).condition = .released ↔ (s.bore b).condition = .released)
    (hl : ∀ i, (t.line i).fn = (s.line i).fn ∧ (t.line i).drive = (s.line i).drive
      ∧ (t.line i).output = (s.line i).output)
    (hz : ∀ z k, ((t.zone z).slots.get k).map (fun c => (c.setup, c.command))
      = ((s.zone z).slots.get k).map fun c => (c.setup, c.command)) : t.Follows := by
  have hmap : ∀ {β : Type} (f : CircuitSetup × OutputValue → β) z k,
      ((t.zone z).slots.get k).map (fun c => f (c.setup, c.command))
        = ((s.zone z).slots.get k).map fun c => f (c.setup, c.command) := fun f z k => by
    have := congrArg (Option.map f) (hz z k)
    simpa only [Option.map_map, Function.comp_def] using this
  unfold State.Follows
  rw [State.supervised_congr hp hb]
  exact ⟨h.1.congr (fun i => (hl i).1) (hmap fun x => x.1), h.2.congr (fun i => (hl i).2)
    fun z k _ => hmap (fun x => (x.1.output, x.2)) z k⟩

theorem State.Follows.same (h : s.Follows) (hp : ∀ p, (t.portal p).state = (s.portal p).state)
    (hb : ∀ b, (t.bore b).condition = (s.bore b).condition) (hl : t.lines = s.lines) (hz : t.zones = s.zones) : t.Follows :=
  h.congr (fun p => by rw [hp]) (fun b => by rw [hb])
    (fun i => by rw [State.line, hl]; exact ⟨rfl, rfl, rfl⟩) fun z k => by rw [State.zone, hz]; rfl

theorem State.Moves.supervised (h : s.Moves t) : t.supervised = s.supervised :=
  State.supervised_congr h.portals h.bores

theorem State.Moves.refl (s : State) : s.Moves s :=
  ⟨.refl s, fun _ => .rfl, fun _ => .rfl, id, fun _ => rfl⟩

theorem State.Moves.trans (h : s.Moves t) (k : t.Moves u) : s.Moves u :=
  ⟨h.works.trans k.works, fun p => (k.portals p).trans (h.portals p), fun b => (k.bores b).trans (h.bores b),
   fun hs => k.follows (h.follows hs), fun i => (k.periods i).trans (h.periods i)⟩

theorem State.Moves.ite {c : Prop} [Decidable c] (h : s.Moves t) (k : s.Moves u) : s.Moves (if c then t else u) := by
  split
  · exact h
  · exact k

theorem State.Moves.foldl {α : Type} {f : State → α → State} (hf : ∀ s a, State.Moves s (f s a)) (as : List α) (s : State) :
    s.Moves (as.foldl f s) := by
  induction as generalizing s with
  | nil => exact .refl s
  | cons a as ih => exact (hf s a).trans (ih _)

/-- Work that leaves the commands of circuits and what the lines carry. -/
theorem State.Moves.of_commands (hw : s.Works t)
    (hp : ∀ p, (t.portal p).state = .offline ↔ (s.portal p).state = .offline)
    (hb : ∀ b, (t.bore b).condition = .released ↔ (s.bore b).condition = .released)
    (hl : ∀ i, (t.line i).drive = (s.line i).drive ∧ (t.line i).output = (s.line i).output
      ∧ (t.line i).period = (s.line i).period)
    (hz : ∀ z k, ((t.zone z).slots.get k).map (fun c => (c.output, c.command))
      = ((s.zone z).slots.get k).map fun c => (c.output, c.command)) : s.Moves t := by
  refine ⟨hw, hp, hb, fun h => ?_, fun i => (hl i).2.2⟩
  unfold State.Follows
  rw [State.supervised_congr hp hb]
  exact ⟨h.1.works hw, h.2.congr (fun i => ⟨(hl i).1, (hl i).2.1⟩) fun z k _ => hz z k⟩

/-- Work that leaves the lines, the circuits, and the states of portals and bores. -/
theorem State.Moves.of_same (hw : s.Works t) (hp : ∀ p, (t.portal p).state = (s.portal p).state)
    (hb : ∀ b, (t.bore b).condition = (s.bore b).condition) (hl : t.lines = s.lines)
    (hz : ∀ z, (t.zone z).slots = (s.zone z).slots) : s.Moves t :=
  .of_commands hw (fun p => by rw [hp]) (fun b => by rw [hb]) (fun i => by rw [State.line, hl]; exact ⟨rfl, rfl, rfl⟩)
    fun z k => by rw [hz]

end

section
variable (s : State)

/-! ### Records and notices -/

theorem State.moves_raise (n : Notice) : s.Moves (s.raise n) :=
  .of_same (s.works_raise n) (fun _ => rfl) (fun _ => rfl) rfl fun _ => rfl

theorem State.moves_raisePortalState (p : Fin 4) : s.Moves (s.raisePortalState p) := s.moves_raise _

theorem State.moves_raiseTrafficState (b : Fin 2) : s.Moves (s.raiseTrafficState b) := s.moves_raise _

theorem State.moves_raiseFaultChange (z : Fin 14) (x : Zone) : s.Moves (s.raiseFaultChange z x) :=
  .ite (.refl s) (s.moves_raise _)

theorem State.moves_answerAction (p : Fin 4) (a : PendingAction) (d : Disposition) : s.Moves (s.answerAction p a d) :=
  .of_same (s.works_answerAction p a d) (fun _ => by simp) (fun _ => by simp)
    (by unfold State.answerAction; split <;> rfl) fun _ => by simp

theorem State.moves_setPortal (p : Fin 4) {x : Portal} (hset : (s.portal p).SameSetup x)
    (hx : x.state = .offline ↔ (s.portal p).state = .offline) : s.Moves (s.setPortal p x) :=
  .of_commands (s.works_setPortal p hset)
    (fun q => by
      rw [State.portal_setPortal]
      split
      next hq => rw [hq, hx]
      next => rfl)
    (fun _ => .rfl) (fun _ => ⟨rfl, rfl, rfl⟩) fun _ _ => rfl

theorem State.moves_setBore (b : Fin 2) {x : Bore} (hset : (s.bore b).SameSetup x)
    (hx : x.condition = .released ↔ (s.bore b).condition = .released) : s.Moves (s.setBore b x) :=
  .of_commands (s.works_setBore b hset) (fun _ => .rfl)
    (fun c => by
      rw [State.bore_setBore]
      split
      next hc => rw [hc, hx]
      next => rfl)
    (fun _ => ⟨rfl, rfl, rfl⟩) fun _ _ => rfl

theorem State.moves_setZone (z : Fin 14) {x : Zone} (hset : (s.zone z).SameSetup x) (hslots : x.slots = (s.zone z).slots) :
    s.Moves (s.setZone z x) :=
  .of_same (s.works_setZone z hset) (fun _ => rfl) (fun _ => rfl) rfl fun y => by
    rw [State.zone_setZone]
    split
    next hy => rw [hy, hslots]
    next => rfl

/-- Lines that follow their circuits keep the duty of the period in progress (R151). -/
theorem period_followOutputs (cs : List Circuit) (t : Tab 192 Line) (i : Fin 192) :
    ((followOutputs cs t).get i).period = (t.get i).period := by
  induction cs generalizing t with
  | nil => rfl
  | cons c cs ih =>
    refine (ih _).trans ?_
    dsimp only
    split
    · rw [Tab.get_put]
      split
      next hi => rw [hi]
      next => rfl
    · rfl

theorem State.moves_putZone (z : Fin 14) {x : Zone} (hset : (s.zone z).SameSetup x) : s.Moves (s.putZone z x) where
  works := s.works_putZone z hset
  portals _ := .rfl
  bores _ := .rfl
  follows h := by
    have hsup : (s.putZone z x).supervised = s.supervised :=
      State.supervised_congr (fun _ => .rfl) fun _ => .rfl
    unfold State.Follows
    rw [hsup]
    exact ⟨h.1.works (s.works_putZone z hset), h.2.putZone h.1 hset rfl⟩
  periods i := by
    have hline : (s.putZone z x).line i = if s.supervised z then (followOutputs x.circuits s.lines).get i else s.line i := by
      unfold State.putZone
      split <;> rfl
    rw [hline]
    split
    · exact period_followOutputs _ _ i
    · rfl

/-! ### Allocation -/

theorem State.moves_testShortfall (z : Fin 14) : s.Moves (s.testShortfall z) :=
  .ite (.refl s) ((s.moves_setZone _ (.working _ _ _ _ _ _ _) (by exact rfl)).trans (State.moves_raise _ _))

theorem State.moves_allocateNormal (z : Fin 14) : s.Moves (s.allocateNormal z) :=
  (s.moves_putZone z (Zone.sameSetup_allocate _ _)).trans (State.moves_testShortfall _ z)

theorem State.moves_light (z : Fin 14) : s.Moves (s.light z) :=
  (s.moves_putZone z ((Zone.sameSetup_atCapacity _).trans (Zone.sameSetup_lightAll _ _))).trans
    (State.moves_testShortfall _ z)

theorem State.moves_driveZone (z : Fin 14) (f : Bool) (r l d : Nat) : s.Moves (s.driveZone z f r l d) :=
  (s.moves_setZone _ (.working _ _ _ _ _ _ _) (by exact rfl)).trans (State.moves_allocateNormal _ z)

theorem State.moves_emergencyZone (z : Fin 14) : s.Moves (s.emergencyZone z) :=
  (s.moves_setZone _ (.working _ _ _ _ _ _ _) (by exact rfl)).trans (State.moves_light _ z)

theorem State.moves_previewZone (z : Fin 14) (d : Nat) : s.Moves (s.previewZone z d) :=
  s.moves_setZone _ (.working _ _ _ _ _ _ _) (by exact rfl)

theorem State.moves_advanceRotation (z : Fin 14) : s.Moves (s.advanceRotation z) :=
  s.moves_setZone _ (.working _ _ _ _ _ _ _) (by exact rfl)

/-! ### The steps of an evaluation (R107, R143) -/

theorem State.moves_setSource (p : Fin 4) (src : Source) (acc : Option Nat) : s.Moves (s.setSource p src acc) :=
  .of_same (s.works_setSource p src acc) (fun q => (s.resourced_setSource p src acc q).state) (fun _ => by simp)
    (s.lines_setSource p src acc) fun _ => by simp

theorem State.moves_testNight (p : Fin 4) (plan : Plan) : s.Moves (s.testNight p plan) := by
  unfold State.testNight
  dsimp only
  split
  · exact .refl s
  · split
    · exact .refl s
    next a _ =>
      have hset : s.Moves (s.setPortal p ((s.portal p).nightTest plan a)) :=
        s.moves_setPortal p (Portal.sameSetup_nightTest plan a _) (by
          unfold Portal.nightTest
          dsimp only
          split
          · exact .rfl
          · split <;> exact .rfl)
      exact .ite (hset.trans (.foldl State.moves_advanceRotation _ _)) hset

theorem State.moves_actHeld (p : Fin 4) : s.Moves (s.actHeld p) :=
  .foldl State.moves_testShortfall _ s

theorem State.moves_act (p : Fin 4) (plan : Plan) : s.Moves (s.act p plan) := by
  unfold State.act
  split
  · exact .refl s
  · exact s.moves_actHeld p
  · unfold State.actDryRun
    split
    · exact s.moves_actHeld p
    · split
      · exact s.moves_actHeld p
      · exact (((s.moves_previewZone _ _).trans (State.moves_previewZone _ _ _)).trans
          (State.moves_previewZone _ _ _)).trans (State.moves_actHeld _ p)
  · exact ((s.moves_driveZone _ _ _ _ _).trans (State.moves_driveZone _ _ _ _ _ _)).trans
      (State.moves_driveZone _ _ _ _ _ _)
  · exact .foldl State.moves_emergencyZone _ s

theorem State.moves_evaluateSteps (p : Fin 4) : s.Moves (s.evaluateSteps p) := by
  unfold State.evaluateSteps
  split
  · exact .refl s
  · refine ((((s.moves_setPortal p (by exact ⟨rfl, rfl, rfl, rfl, rfl⟩) (by exact .rfl)).trans (State.moves_setSource _ _ _ _)).trans
      (State.moves_testNight _ _ _)).trans (State.moves_setPortal _ p (by exact ⟨rfl, rfl, rfl, rfl, rfl⟩) (by exact .rfl))).trans
      (State.moves_act _ _ _)

theorem State.moves_actInterior (b : Fin 2) (c : InteriorCase) (was : Bool) : s.Moves (s.actInterior b c was) := by
  have hnight : s.Moves (s.interiorNightEntry b was) := .ite (s.moves_advanceRotation _) (.refl s)
  unfold State.actInterior
  split
  · refine hnight.trans (.ite ?_ ?_)
    · exact (State.moves_setZone _ _ (.working _ _ _ _ _ _ _) (by exact rfl)).trans (State.moves_light _ _)
    · unfold State.driveInterior
      dsimp only
      split <;> exact State.moves_driveZone _ _ _ _ _ _
  · exact (s.moves_setZone _ (.working _ _ _ _ _ _ _) (by exact rfl)).trans (State.moves_testShortfall _ _)
  · exact .refl s

theorem State.moves_evaluateBore (b : Fin 2) : s.Moves (s.evaluateBore b) :=
  (s.moves_setBore b (Bore.sameSetup_withInterior _ _) (by rw [Bore.condition_withInterior])).trans
    (State.moves_actInterior _ _ _ _)

/-! ### Changes of a portal's state -/

theorem State.moves_removeAction (p : Fin 4) : s.Moves (s.removeAction p) :=
  s.moves_setPortal p (by exact ⟨rfl, rfl, rfl, rfl, rfl⟩) (by exact .rfl)

theorem State.moves_abandonAction (p : Fin 4) : s.Moves (s.abandonAction p) := by
  unfold State.abandonAction
  split
  · exact .refl s
  · exact (s.moves_answerAction _ _ _).trans (State.moves_removeAction _ _)

theorem State.moves_dropPreviews (p : Fin 4) : s.Moves (s.dropPreviews p) :=
  .foldl (fun t _ => t.moves_setZone _ (.working _ _ _ _ _ _ _) (by exact rfl)) _ s

/-- A portal in service passes to another state in service. -/
theorem State.moves_setPortalState {p : Fin 4} {st : PortalState} (h : (s.portal p).state ≠ .offline)
    (hst : st ≠ .offline) : s.Moves (s.setPortalState p st) :=
  s.moves_setPortal p (by exact ⟨rfl, rfl, rfl, rfl, rfl⟩) (iff_of_false hst h)

theorem State.Moves.inService {s t : State} (h : s.Moves t) {p : Fin 4} (hp : (s.portal p).state ≠ .offline) :
    (t.portal p).state ≠ .offline :=
  fun ht => hp ((h.portals p).mp ht)

theorem State.moves_enterEmergency {p : Fin 4} (h : (s.portal p).state ≠ .offline) : s.Moves (s.enterEmergency p) := by
  have hbefore : s.Moves (((s.abandonAction p).setPortal p
      { (s.abandonAction p).portal p with dryRun := none }).dropPreviews p) :=
    ((s.moves_abandonAction p).trans (State.moves_setPortal _ p (by exact ⟨rfl, rfl, rfl, rfl, rfl⟩) (by exact .rfl))).trans
      (State.moves_dropPreviews _ p)
  exact ((hbefore.trans (State.moves_setPortalState _ (hbefore.inService h) (by decide))).trans
    (State.moves_raisePortalState _ p)).trans (.foldl State.moves_light _ _)

theorem State.moves_reachPortal (p : Fin 4) : s.Moves (s.reachPortal p) := by
  unfold State.reachPortal
  split
  case h_4 | h_5 => exact .refl s
  all_goals
    next hst => exact s.moves_enterEmergency (by rw [hst]; decide)

theorem State.moves_returnPortal (p : Fin 4) : s.Moves (s.returnPortal p) := by
  unfold State.returnPortal
  split
  next hst => exact (s.moves_setPortalState (by rw [hst]; decide) (by decide)).trans (State.moves_raisePortalState _ p)
  next => exact .refl s

/-! ### The interior condition (R139 to R142) -/

theorem State.conditionFor_eq_released_iff (b : Fin 2) :
    s.conditionFor b = .released ↔ ∀ p, boreOf p = b → (s.portal p).state = .offline := by
  have hmem : (∀ p, boreOf p = b → (s.portal p).state = .offline) ↔ ∀ p ∈ portalsOf b, (s.portal p).state = .offline :=
    forall_congr' fun p => by rw [mem_portalsOf]
  rw [hmem]
  unfold State.conditionFor
  constructor
  · intro h p hp
    split at h
    · cases h
    next hdriven =>
      split at h
      · cases h
      next hheld =>
        simp only [List.any_eq_true, not_exists, not_and, Bool.or_eq_true, beq_iff_eq, not_or] at hdriven hheld
        cases hst : (s.portal p).state
        case offline => rfl
        case auto => exact absurd hst (hdriven p hp).1
        case emergency => exact absurd hst (hdriven p hp).2
        case held => exact absurd hst (hheld p hp).1
        case dryRun => exact absurd hst (hheld p hp).2
  · intro h
    have hany : ∀ x y : PortalState, x ≠ .offline → y ≠ .offline →
        ¬ ((portalsOf b).any fun p => (s.portal p).state == x || (s.portal p).state == y) = true := fun x y hx hy => by
      simp only [List.any_eq_true, not_exists, not_and, Bool.or_eq_true, beq_iff_eq, not_or]
      exact fun p hp => ⟨fun hst => hx (hst.symm.trans (h p hp)), fun hst => hy (hst.symm.trans (h p hp))⟩
    rw [if_neg (hany _ _ (by decide) (by decide)), if_neg (hany _ _ (by decide) (by decide))]

theorem State.lightInterior_moves (b : Fin 2) : s.Moves (s.lightInterior b) :=
  .ite (s.moves_light _) (.refl s)

/-- Supervision after a change of an interior condition. -/
theorem State.supervised_setCondition (b : Fin 2) (c : Condition) (z : Fin 14) :
    (s.setCondition b c).supervised z = if z = interiorOf b then c != .released else s.supervised z := by
  obtain ⟨p, j, rfl⟩ | ⟨d, rfl⟩ := zone_cases z
  · rw [if_neg (zoneOf_ne_interior p j b)]
    simp [State.supervised]
  · simp only [State.supervised, ownerOf_interiorOf, interiorOf_inj, State.bore_setCondition]
    split <;> rfl

theorem State.supervised_supervise (z : Fin 14) : (s.supervise z).supervised = s.supervised :=
  State.supervised_congr (fun _ => .rfl) fun _ => .rfl

theorem State.supervised_clearZone (z : Fin 14) : (s.clearZone z).supervised = s.supervised :=
  State.supervised_congr (fun _ => by simp) fun _ => by simp

variable {s}

theorem State.Drives.setCondition {V : Fin 14 → Bool} (h : s.Drives V) (b : Fin 2) (c : Condition) :
    (s.setCondition b c).Drives V :=
  State.Drives.congr (s := s) (fun _ => ⟨rfl, rfl⟩) (fun _ _ _ => rfl) h

theorem State.Wired.setCondition {V : Fin 14 → Bool} (h : s.Wired V) (b : Fin 2) (c : Condition) :
    (s.setCondition b c).Wired V :=
  h.works (s.works_setCondition b c)

/-- An interior zone that becomes supervised is served from then on. -/
theorem State.Follows.superviseInterior (h : s.Follows) {b : Fin 2} {c : Condition} (hc : c ≠ .released)
    (hw : s.Wired fun z => s.supervised z || z == interiorOf b) :
    ((s.setCondition b c).supervise (interiorOf b)).Follows := by
  have hsup : ((s.setCondition b c).supervise (interiorOf b)).supervised = fun z => s.supervised z || z == interiorOf b := by
    funext z
    rw [State.supervised_supervise, State.supervised_setCondition]
    split
    next hz => simp [hz, hc]
    next hz => simp [hz]
  unfold State.Follows
  rw [hsup]
  exact ⟨(hw.setCondition b c).works (State.works_supervise _ _),
    (h.2.setCondition b c).supervise (hw.setCondition b c) (fun y hy => by simp [hy]) (by simp)⟩

/-- An interior zone that is released is served no longer. -/
theorem State.Follows.releaseInterior (h : s.Follows) {b : Fin 2} (hb : (s.bore b).condition ≠ .released) :
    ((s.setCondition b .released).clearZone (interiorOf b)).Follows := by
  have hin : s.supervised (interiorOf b) = true := by simpa [State.supervised] using hb
  have hsup : ((s.setCondition b .released).clearZone (interiorOf b)).supervised
      = fun z => s.supervised z && z != interiorOf b := by
    funext z
    rw [State.supervised_clearZone, State.supervised_setCondition]
    split
    next hz => simp [hz]
    next hz => simp [hz]
  have hw := h.1.setCondition b .released
  unfold State.Follows
  rw [hsup]
  exact ⟨(hw.works (State.works_clearZone _ _)).mono fun z hz => (Bool.and_eq_true_iff.mp hz).1,
    (h.2.setCondition b .released).clearZone hw (fun _ => id) hin⟩

/-- The work on an interior condition keeps the lines following, where the zone it may begin to supervise is wired. -/
theorem State.Follows.workCondition (h : s.Follows) {b : Fin 2}
    (hw : (s.bore b).condition = .released → s.conditionFor b ≠ .released →
      s.Wired fun z => s.supervised z || z == interiorOf b) : (s.workCondition b).Follows := by
  unfold State.workCondition
  split
  case h_1 | h_5 | h_9 => exact h
  case h_2 hwas hnow => exact h.superviseInterior (by decide) (hw hwas (by rw [hnow]; decide))
  case h_3 hwas hnow =>
    exact (State.lightInterior_moves _ b).follows (h.superviseInterior (by decide) (hw hwas (by rw [hnow]; decide)))
  case h_4 hwas _ | h_7 hwas _ => exact h.releaseInterior (by rw [hwas]; decide)
  case h_6 hwas _ =>
    exact ((s.moves_setBore b (by exact ⟨rfl, rfl⟩) (iff_of_false (by simp) (by rw [hwas]; decide))).trans
      (State.lightInterior_moves _ b)).follows h
  case h_8 hwas _ =>
    exact (s.moves_setBore b (by exact ⟨rfl, rfl⟩) (iff_of_false (by simp) (by rw [hwas]; decide))).follows h

/-- The work on a condition that neither rises from RELEASED nor falls to it takes no zone into or out of supervision. -/
theorem State.moves_workCondition {b : Fin 2} (h : (s.bore b).condition = .released ↔ s.conditionFor b = .released) :
    s.Moves (s.workCondition b) := by
  have hset : ∀ c, c ≠ .released → (s.bore b).condition ≠ .released → s.Moves (s.setCondition b c) := fun c hc hwas =>
    s.moves_setBore b (by exact ⟨rfl, rfl⟩) (iff_of_false hc hwas)
  unfold State.workCondition
  split
  case h_1 | h_5 | h_9 => exact .refl s
  case h_2 hwas hnow | h_3 hwas hnow => exact absurd (hnow.symm.trans (h.mp hwas)) (by decide)
  case h_4 hwas hnow | h_7 hwas hnow => exact absurd (hwas.symm.trans (h.mpr hnow)) (by decide)
  case h_6 hwas _ => exact (hset _ (by decide) (by rw [hwas]; decide)).trans (State.lightInterior_moves _ b)
  case h_8 hwas _ => exact hset _ (by decide) (by rw [hwas]; decide)

/-- Where no portal of the bore came into service, the work on its condition begins no supervision. -/
theorem State.Follows.reworked {t : State} (h : t.Follows) (hc : s.ConditionsFollow) {b : Fin 2}
    (hb : (t.bore b).condition = .released → (s.bore b).condition = .released)
    (hp : ∀ p, (s.portal p).state = .offline → (t.portal p).state = .offline) : (t.workCondition b).Follows :=
  h.workCondition fun hwas hnow => by
    have hall := (s.conditionFor_eq_released_iff b).mp ((hc b).symm.trans (hb hwas))
    exact absurd ((t.conditionFor_eq_released_iff b).mpr fun p hp' => hp p (hall p hp')) hnow

/-- The work on a condition after shared work that took no portal into or out of service. -/
theorem State.Moves.reworked {t : State} (hm : s.Moves t) (hc : s.ConditionsFollow) (b : Fin 2) :
    s.Moves (t.workCondition b) :=
  hm.trans (t.moves_workCondition (by
    rw [hm.bores, hc b, State.conditionFor_eq_released_iff, State.conditionFor_eq_released_iff]
    exact forall_congr' fun p => imp_congr_right fun _ => (hm.portals p).symm))

/-! ### Entry into OFFLINE and into HELD (R114, R115) -/

theorem State.supervised_zoneOf (s : State) (p : Fin 4) (j : Fin 3) :
    s.supervised (zoneOf p j) = ((s.portal p).state != .offline) := by
  simp [State.supervised]

theorem State.supervised_interiorOf (s : State) (b : Fin 2) :
    s.supervised (interiorOf b) = ((s.bore b).condition != .released) := by
  simp [State.supervised]

/-- Supervision after one portal changed its state. -/
theorem State.supervised_of_restated {t : State} {p : Fin 4}
    (hne : ∀ q, q ≠ p → ((t.portal q).state = .offline ↔ (s.portal q).state = .offline))
    (hb : ∀ b, (t.bore b).condition = (s.bore b).condition) (z : Fin 14) :
    t.supervised z = if z ∈ zonesOf p then (t.portal p).state != .offline else s.supervised z := by
  obtain ⟨q, j, rfl⟩ | ⟨b, rfl⟩ := zone_cases z
  · rw [State.supervised_zoneOf]
    by_cases hq : q = p
    · subst hq
      rw [if_pos (mem_zonesOf.mpr ⟨j, rfl⟩)]
    · rw [if_neg (by rw [mem_zonesOf_iff_owner, ownerOf_zoneOf]; simpa using hq), State.supervised_zoneOf,
        Bool.eq_iff_iff]
      simpa using not_congr (hne q hq)
  · rw [if_neg (interiorOf_notMem_zonesOf b p), State.supervised_interiorOf, State.supervised_interiorOf, hb]

theorem State.Follows.enterOffline (h : s.Follows) (hc : s.ConditionsFollow) {p : Fin 4}
    (hp : (s.portal p).state ≠ .offline) : (s.enterOffline p).Follows := by
  have hw1 : s.Works (s.setPortal p (s.portal p).toOffline) := s.works_setPortal p (by exact ⟨rfl, rfl, rfl, rfl, rfl⟩)
  have hw2 := hw1.trans (State.works_dropSource _ p)
  have hw3 := hw2.trans (State.Works.foldl State.works_clearZone (zonesOf p) _)
  have hstate : ∀ q, (((zonesOf p).foldl State.clearZone
      ((s.setPortal p (s.portal p).toOffline).dropSource p)).portal q).state
        = if q = p then .offline else (s.portal q).state := fun q => by
    rw [foldl_keeps (f := State.clearZone) (v := fun t => t.portal q) fun t z => t.portal_clearZone z q]
    rw [State.portal_dropSource]
    by_cases hq : q = p
    · subst hq; simp [Portal.toOffline]
    · simp only [hq, if_false, State.portal_setPortal_ne _ hq]
      split
      · exact (Portal.resourced_withSource _ _ _).state
      · rfl
  have hbore : ∀ b, ((zonesOf p).foldl State.clearZone
      ((s.setPortal p (s.portal p).toOffline).dropSource p)).bore b = s.bore b := fun b => by
    rw [foldl_keeps (f := State.clearZone) (v := fun t => t.bore b) fun t z => t.bore_clearZone z b]
    simp
  have hin : ∀ z ∈ zonesOf p, s.supervised z = true := fun z hz => by
    obtain ⟨j, rfl⟩ := mem_zonesOf.mp hz
    simpa [State.supervised_zoneOf] using hp
  have hdrives : ((s.setPortal p (s.portal p).toOffline).dropSource p).Drives s.supervised :=
    h.2.congr (fun i => by simp) fun z k _ => by simp
  have hsup : ((zonesOf p).foldl State.clearZone
      ((s.setPortal p (s.portal p).toOffline).dropSource p)).supervised
        = fun z => s.supervised z && !(zonesOf p).contains z := by
    funext z
    rw [State.supervised_of_restated (s := s) (p := p) (fun q hq => by rw [hstate, if_neg hq])
      (fun b => by rw [hbore]), hstate]
    split
    next hz => simp [hz]
    next hz => simp [hz]
  have hfollows : ((zonesOf p).foldl State.clearZone
      ((s.setPortal p (s.portal p).toOffline).dropSource p)).Follows := by
    unfold State.Follows
    rw [hsup]
    exact ⟨(h.1.works hw3).mono fun z hz => (Bool.and_eq_true_iff.mp hz).1,
      hdrives.clearZones (h.1.works hw2) (fun _ => id) hin⟩
  refine State.Follows.reworked (s := s) ((State.moves_raisePortalState _ p).follows hfollows) hc ?_ ?_
  · rw [State.bore_raisePortalState, hbore]
    exact id
  · intro q hq
    rw [State.portal_raisePortalState, hstate]
    split
    · rfl
    · exact hq

/-- A COMMISSION whose zones are wired begins to serve them (R115, R149). -/
theorem State.Follows.enterHeld (h : s.Follows) {p : Fin 4}
    (hw : s.Wired fun z => s.supervised z || (s.checkedZones p).contains z) : (s.enterHeld p).Follows := by
  have hset : s.Works (s.setPortal p { s.portal p with state := .held, timer := some (msAfter s.uptime 1000) }) :=
    s.works_setPortal p (by exact ⟨rfl, rfl, rfl, rfl, rfl⟩)
  have hworks := hset.trans (State.Works.foldl State.works_supervise (zonesOf p) _)
  have hstate : ∀ q, (((zonesOf p).foldl State.supervise
      (s.setPortal p { s.portal p with state := .held, timer := some (msAfter s.uptime 1000) })).portal q).state
        = if q = p then .held else (s.portal q).state := fun q => by
    rw [foldl_keeps (f := State.supervise) (v := fun t => t.portal q) fun t z => t.portal_supervise z q,
      State.portal_setPortal]
    split <;> rfl
  have hbore : ∀ b, ((zonesOf p).foldl State.supervise
      (s.setPortal p { s.portal p with state := .held, timer := some (msAfter s.uptime 1000) })).bore b = s.bore b :=
    fun b => by
      rw [foldl_keeps (f := State.supervise) (v := fun t => t.bore b) fun t z => t.bore_supervise z b,
        State.bore_setPortal]
  have hmem : ∀ z ∈ zonesOf p, z ∈ s.checkedZones p := fun z hz => List.mem_append_left _ hz
  have hsup : ((zonesOf p).foldl State.supervise
      (s.setPortal p { s.portal p with state := .held, timer := some (msAfter s.uptime 1000) })).supervised
        = fun z => s.supervised z || (zonesOf p).contains z := by
    funext z
    rw [State.supervised_of_restated (s := s) (p := p) (fun q hq => by rw [hstate, if_neg hq])
      (fun b => by rw [hbore]), hstate]
    split
    next hz => simp [hz]
    next hz => simp [hz]
  have hfollows : ((zonesOf p).foldl State.supervise
      (s.setPortal p { s.portal p with state := .held, timer := some (msAfter s.uptime 1000) })).Follows := by
    unfold State.Follows
    rw [hsup]
    refine ⟨(hw.works hworks).mono fun z hz => ?_, ?_⟩
    · simp only [Bool.or_eq_true, List.contains_iff_mem] at hz ⊢
      exact hz.imp_right (hmem z)
    · refine State.Drives.superviseZones (hw.works hset) (fun y hy => by simp [hy])
        (fun z hz => by simp [hmem z hz]) ?_
      exact State.Drives.congr (s := s) (fun _ => ⟨rfl, rfl⟩) (fun _ _ _ => rfl) h.2
  refine ((State.moves_raisePortalState _ p).follows hfollows).workCondition fun hwas _ => ?_
  refine ((hw.works hworks).works (State.works_raisePortalState _ p)).mono fun z hz => ?_
  rw [State.bore_raisePortalState, hbore] at hwas
  rw [(State.moves_raisePortalState _ p).supervised, hsup] at hz
  simp only [Bool.or_eq_true, List.contains_iff_mem, beq_iff_eq] at hz ⊢
  obtain (hz | hz) | rfl := hz
  · exact .inl hz
  · exact .inr (hmem z hz)
  · exact .inr (List.mem_append_right _ (by rw [if_pos hwas]; exact List.mem_singleton_self _))

end

end Sys2Proof.Machine
end

section
/-! SUPPORT. Every step keeps the lines following (R149, R198, R199) and the input state of each line that of its function
(R147, R152, R154, R156). -/

namespace Sys2Proof.Machine

/-! ### Circuits by zone and slot -/

/-- The circuits of some zones, with their zone and slot. -/
def State.slotCircuits (s : State) (zs : List (Fin 14)) : List (Fin 14 × Fin 8 × Circuit) :=
  zs.flatMap fun z => (List.finRange 8).filterMap fun k => ((s.zone z).slots.get k).map fun c => (z, k, c)

section
variable (s : State)

theorem State.mem_slotCircuits {zs : List (Fin 14)} {x : Fin 14 × Fin 8 × Circuit} :
    x ∈ s.slotCircuits zs ↔ x.1 ∈ zs ∧ (s.zone x.1).slots.get x.2.1 = some x.2.2 := by
  obtain ⟨z, k, c⟩ := x
  simp only [State.slotCircuits, List.mem_flatMap, List.mem_filterMap, List.mem_finRange, true_and, Option.map_eq_some_iff,
    Prod.mk.injEq]
  constructor
  · rintro ⟨y, hy, j, d, hd, rfl, rfl, rfl⟩
    exact ⟨hy, hd⟩
  · rintro ⟨hz, hc⟩
    exact ⟨z, hz, k, c, hc, rfl, rfl, rfl⟩

theorem State.nodup_slotCircuits {zs : List (Fin 14)} (h : zs.Nodup) : (s.slotCircuits zs).Nodup := by
  refine List.nodup_flatMap.mpr ⟨fun z _ => ?_, h.imp fun {y z} hne x hy hz => ?_⟩
  · refine (List.nodup_finRange 8).filterMap fun j k x hj hk => ?_
    simp only [Option.mem_def, Option.map_eq_some_iff] at hj hk
    obtain ⟨c, -, rfl⟩ := hj
    obtain ⟨d, -, heq⟩ := hk
    exact (congrArg (fun x => x.2.1) heq).symm
  · simp only [List.mem_filterMap, Option.map_eq_some_iff] at hy hz
    obtain ⟨j, -, c, -, rfl⟩ := hy
    obtain ⟨k, -, d, -, heq⟩ := hz
    exact hne (congrArg Prod.fst heq).symm

theorem Zone.circuits_eq (z : Zone) : z.circuits = (List.finRange 8).filterMap fun k => z.slots.get k := by
  have hrows : z.slots.rows = (List.finRange 8).map fun k => z.slots.get k := by
    apply List.ext_getElem
    · simp [z.slots.size]
    · intro i h1 h2
      simp [Tab.get]
  simp only [Zone.circuits, hrows, List.filterMap_map]
  rfl

theorem State.supervisedCircuits_eq :
    s.supervisedCircuits = s.slotCircuits ((List.finRange 14).filter fun z => s.supervised z) := by
  have h : ∀ (zs : List (Fin 14)) (f : Fin 14 → List (Fin 14 × Fin 8 × Circuit)),
      (zs.flatMap fun z => if s.supervised z then f z else []) = (zs.filter fun z => s.supervised z).flatMap f := by
    intro zs f
    induction zs with
    | nil => rfl
    | cons z zs ih =>
      rw [List.flatMap_cons, ih, List.filter_cons]
      split
      · rw [List.flatMap_cons]
      · rfl
  exact h _ _

theorem State.mem_supervisedCircuits {x : Fin 14 × Fin 8 × Circuit} :
    x ∈ s.supervisedCircuits ↔ s.Serves s.supervised x.1 x.2.1 x.2.2 := by
  rw [State.supervisedCircuits_eq, State.mem_slotCircuits]
  simp [State.Serves]

/-- The circuits of some zones name no line twice, slot by slot. -/
theorem State.nodup_namings_iff {zs : List (Fin 14)} (h : zs.Nodup) :
    ((s.slotCircuits zs).flatMap fun x => x.2.2.namings).Nodup
      ↔ (∀ x ∈ s.slotCircuits zs, x.2.2.namings.Nodup)
        ∧ ∀ x ∈ s.slotCircuits zs, ∀ y ∈ s.slotCircuits zs, (x.1, x.2.1) ≠ (y.1, y.2.1) →
          x.2.2.namings.Disjoint y.2.2.namings := by
  rw [List.nodup_flatMap]
  refine and_congr_right fun _ => ⟨fun hpair x hx y hy hne => ?_, fun hall => ?_⟩
  · have hsymm : Std.Symm (Function.onFun List.Disjoint fun x : Fin 14 × Fin 8 × Circuit => x.2.2.namings) :=
      ⟨fun _ _ hab => List.Disjoint.symm hab⟩
    exact hpair.forall hx hy fun heq => hne (by rw [heq])
  · refine (s.nodup_slotCircuits h).pairwise_of_forall_ne fun x hx y hy hne => hall x hx y hy fun heq => hne ?_
    obtain ⟨z, k, c⟩ := x
    obtain ⟨z', k', c'⟩ := y
    obtain ⟨rfl, rfl⟩ := Prod.mk.inj heq
    have hc := (s.mem_slotCircuits.mp hx).2
    have hc' := (s.mem_slotCircuits.mp hy).2
    exact congrArg (fun c => (z, k, c)) (Option.some.inj (hc.symm.trans hc'))

theorem Circuit.command_of_switched {c : Circuit} (h : c.kind = .switched) : c.command = .level c.active := by
  simp [Circuit.command, h, CircuitKind.outputFn, Circuit.outputFor]

theorem Circuit.command_of_dimmed {c : Circuit} (h : c.kind = .dimmed) : c.command = .duty c.level := by
  simp [Circuit.command, h, CircuitKind.outputFn, Circuit.outputFor]

theorem State.linesFollow_iff : s.LinesFollow ↔ s.Follows := by
  have hnames : s.namings.Nodup ↔ (∀ x ∈ s.supervisedCircuits, x.2.2.namings.Nodup)
      ∧ ∀ x ∈ s.supervisedCircuits, ∀ y ∈ s.supervisedCircuits, (x.1, x.2.1) ≠ (y.1, y.2.1) →
        x.2.2.namings.Disjoint y.2.2.namings := by
    rw [State.namings, State.supervisedCircuits_eq]
    exact s.nodup_namings_iff ((List.nodup_finRange 14).filter _)
  have hline : ∀ x : Fin 14 × Fin 8 × Circuit,
      (match x.2.2.kind with
      | .switched =>
        (s.line x.2.2.output).fn = .switchOut ∧ (s.line x.2.2.output).drive = .driven
        ∧ (s.line x.2.2.output).output = .level x.2.2.active
      | .dimmed =>
        (s.line x.2.2.output).fn = .dimOut ∧ (s.line x.2.2.output).drive = .driven
        ∧ (s.line x.2.2.output).output = .duty x.2.2.level)
      ↔ (s.line x.2.2.output).fn = x.2.2.kind.outputFn ∧ (s.line x.2.2.output).Carries x.2.2 := fun x => by
    unfold Line.Carries
    cases hk : x.2.2.kind
    · rw [Circuit.command_of_switched hk]; rfl
    · rw [Circuit.command_of_dimmed hk]; rfl
  constructor
  · rintro ⟨hnodup, hcarry, hidle⟩
    obtain ⟨hsingle, hapart⟩ := hnames.mp hnodup
    have hmem : ∀ {z k c}, s.Serves s.supervised z k c → (z, k, c) ∈ s.supervisedCircuits := fun hc =>
      s.mem_supervisedCircuits.mpr hc
    refine ⟨⟨fun hc => hsingle _ (hmem hc), fun hc hd hne => hapart _ (hmem hc) _ (hmem hd) hne,
      fun hc => ((hline _).mp (hcarry _ (hmem hc))).1⟩, fun hc => ((hline _).mp (hcarry _ (hmem hc))).2, fun i hi => ?_⟩
    exact hidle i fun x hx => hi _ _ _ (s.mem_supervisedCircuits.mp hx)
  · rintro ⟨hw, hd⟩
    refine ⟨hnames.mpr ⟨fun x hx => hw.single (s.mem_supervisedCircuits.mp hx), fun x hx y hy =>
      hw.apart (s.mem_supervisedCircuits.mp hx) (s.mem_supervisedCircuits.mp hy)⟩, fun x hx => ?_, fun i hi => ?_⟩
    · have hserves := s.mem_supervisedCircuits.mp hx
      exact (hline x).mpr ⟨hw.fits hserves, hd.driven hserves⟩
    · exact hd.idle i fun z k c hc => hi (z, k, c) (s.mem_supervisedCircuits.mpr hc)

/-! ### The commissioning checks of lines (R198 to R200) -/

theorem mem_firstOnly {ls : List (Fin 192)} {i : Fin 192} : i ∈ firstOnly ls ↔ i ∈ ls := by
  have h : ∀ acc : List (Fin 192),
      i ∈ ls.foldl (fun acc i => if i ∈ acc then acc else acc ++ [i]) acc ↔ i ∈ acc ∨ i ∈ ls := by
    induction ls with
    | nil => simp
    | cons j ls ih =>
      intro acc
      rw [List.foldl_cons, ih]
      split
      next hj =>
        rw [List.mem_cons]
        constructor
        · exact fun h => h.imp_right .inr
        · rintro (h | rfl | h)
          · exact .inl h
          · exact .inl hj
          · exact .inr h
      next => simp only [List.mem_append, List.mem_cons, List.not_mem_nil, false_or, or_assoc]
  simpa [firstOnly] using h []

theorem State.nodup_checkedZones (p : Fin 4) : (s.checkedZones p).Nodup := by
  unfold State.checkedZones
  split
  · refine (nodup_zonesOf p).append (List.nodup_singleton _) ?_
    simpa using interiorOf_notMem_zonesOf _ p
  · simpa using nodup_zonesOf p

theorem State.mem_checkedCircuits {p : Fin 4} {c : Circuit} :
    c ∈ s.checkedCircuits p ↔ ∃ z ∈ s.checkedZones p, ∃ k, (s.zone z).slots.get k = some c := by
  simp only [State.checkedCircuits, List.mem_flatMap, Zone.mem_circuits]

/-- The namings of the circuits checked, slot by slot. -/
theorem State.checked_namings (p : Fin 4) :
    (s.checkedCircuits p).flatMap Circuit.namings
      = (s.slotCircuits (s.checkedZones p)).flatMap fun x => x.2.2.namings := by
  have h : ∀ z, (s.zone z).circuits = ((List.finRange 8).filterMap fun k =>
      ((s.zone z).slots.get k).map fun c => (z, k, c)).map fun x => x.2.2 := fun z => by
    rw [Zone.circuits_eq, List.map_filterMap]
    congr 1
    funext k
    cases (s.zone z).slots.get k <;> rfl
  simp only [State.checkedCircuits, State.slotCircuits, h, List.flatMap_assoc, List.flatMap_map]

/-- What a COMMISSION that passes has found: the circuits checked name no line twice and none in use, and their output
lines have the functions their kinds need (R198 to R200). -/
theorem State.checks_of_failures {s : State} {p : Fin 4} (h : s.failures p = []) :
    (∀ c ∈ s.checkedCircuits p, (s.line c.output).fn = c.kind.outputFn)
    ∧ ((s.checkedCircuits p).flatMap Circuit.namings).Nodup
    ∧ ∀ c ∈ s.checkedCircuits p, ∀ i ∈ c.namings, s.namedInUse p i = false := by
  simp only [State.failures, List.append_eq_nil_iff, List.map_eq_nil_iff] at h
  obtain ⟨⟨⟨⟨⟨-, houtputs⟩, -⟩, htwice⟩, -⟩, -⟩ := h
  have hcount : ∀ i, (s.candidates p).count i < 2 ∧ (1 ≤ (s.candidates p).count i → s.namedInUse p i = false) := fun i => by
    have hno := (List.filter_eq_nil_iff.mp htwice) i (List.mem_finRange i)
    simp only [Bool.or_eq_true, Bool.and_eq_true, decide_eq_true_eq, not_or, not_and, Bool.not_eq_true] at hno
    exact ⟨Nat.lt_of_not_le hno.1, hno.2⟩
  refine ⟨fun c hc => ?_, ?_, fun c hc i hi => ?_⟩
  · by_contra hne
    have hmem : c.output ∈ s.wrongOutputs p := by
      rw [State.wrongOutputs, mem_firstOnly, List.mem_map]
      exact ⟨c, List.mem_filter.mpr ⟨hc, by simpa using hne⟩, rfl⟩
    rw [houtputs] at hmem
    cases hmem
  · have hall : (s.candidates p).Nodup := List.nodup_iff_count_le_one.mpr fun i => Nat.le_of_lt_succ (hcount i).1
    exact (List.nodup_append.mp hall).1
  · refine (hcount i).2 (List.count_pos_iff.mpr ?_)
    exact List.mem_append_left _ (List.mem_flatMap.mpr ⟨c, hc, hi⟩)

theorem State.not_namedInUse {s : State} {p : Fin 4} {i : Fin 192} (h : s.namedInUse p i = false) {z : Fin 14} {k : Fin 8}
    {c : Circuit} (hc : s.Serves s.supervised z k c) : i ∉ c.namings := fun hi => by
  unfold State.namedInUse at h
  rw [Bool.or_eq_false_iff] at h
  have := List.any_eq_false.mp h.1 (z, k, c) (s.mem_supervisedCircuits.mpr hc)
  exact this (List.contains_iff_mem.mpr hi)

theorem State.Wired.commissioned {s : State} (h : s.Wired s.supervised) {p : Fin 4} (hf : s.failures p = []) :
    s.Wired fun z => s.supervised z || (s.checkedZones p).contains z := by
  obtain ⟨hfits, hnodup, hunused⟩ := State.checks_of_failures hf
  rw [State.checked_namings, State.nodup_namings_iff s (s.nodup_checkedZones p)] at hnodup
  obtain ⟨hsingle, hapart⟩ := hnodup
  have hmem : ∀ {z k c}, z ∈ s.checkedZones p → (s.zone z).slots.get k = some c →
      (z, k, c) ∈ s.slotCircuits (s.checkedZones p) := fun hz hc => s.mem_slotCircuits.mpr ⟨hz, hc⟩
  have hchecked : ∀ {z k c}, z ∈ s.checkedZones p → (s.zone z).slots.get k = some c → c ∈ s.checkedCircuits p :=
    fun hz hc => s.mem_checkedCircuits.mpr ⟨_, hz, _, hc⟩
  have hcases : ∀ {z k c}, s.Serves (fun z => s.supervised z || (s.checkedZones p).contains z) z k c →
      s.Serves s.supervised z k c ∨ z ∈ s.checkedZones p ∧ (s.zone z).slots.get k = some c := fun {z k c} hc => by
    obtain ⟨hz, hslot⟩ := hc
    simp only [Bool.or_eq_true, List.contains_iff_mem] at hz
    exact hz.imp (fun hz => ⟨hz, hslot⟩) fun hz => ⟨hz, hslot⟩
  refine ⟨fun hc => ?_, fun hc hd hne => ?_, fun hc => ?_⟩
  · obtain hc | ⟨hz, hc⟩ := hcases hc
    · exact h.single hc
    · exact hsingle _ (hmem hz hc)
  · obtain hc | ⟨hz, hc⟩ := hcases hc <;> obtain hd | ⟨hz', hd⟩ := hcases hd
    · exact h.apart hc hd hne
    · exact fun i hi hi' => State.not_namedInUse (hunused _ (hchecked hz' hd) i hi') hc hi
    · exact fun i hi hi' => State.not_namedInUse (hunused _ (hchecked hz hc) i hi) hd hi'
    · exact hapart _ (hmem hz hc) _ (hmem hz' hd) hne
  · obtain hc | ⟨hz, hc⟩ := hcases hc
    · exact h.fits hc
    · exact hfits _ (hchecked hz hc)

/-! ### Every command -/

theorem State.action_eq_none_of_offline {s : State} (h : s.PortalsFit) {p : Fin 4} (hst : (s.portal p).state = .offline) :
    (s.portal p).action = none := by
  have hp := h p
  rw [Portal.fits_offline hst] at hp
  simp only [Portal.cleared, Bool.and_eq_true, Option.isNone_iff_eq_none] at hp
  exact hp.1.2

section
variable {s : State} (hc : s.ConditionsFollow) {p : Fin 4}
include hc

/-! ### Pending actions and requests that move no supervision -/

/-- A portal in service passes to another state in service, and its action is answered. -/
theorem State.moves_restated {st : PortalState} (hin : (s.portal p).state ≠ .offline) (hst : st ≠ .offline) (a : PendingAction) :
    s.Moves (((((s.setPortalState p st).raisePortalState p).removeAction p).answerAction p a .done).workCondition (boreOf p)) :=
  ((((s.moves_setPortalState hin hst).trans (State.moves_raisePortalState _ p)).trans
    (State.moves_removeAction _ p)).trans (State.moves_answerAction _ p a _)).reworked hc _

theorem State.moves_releaseNow (hin : (s.portal p).state ≠ .offline) (a : PendingAction) : s.Moves (s.releaseNow p a) := by
  unfold State.releaseNow
  split
  · have hbefore : s.Moves ((s.removeAction p).answerAction p a .done) :=
      (s.moves_removeAction p).trans (State.moves_answerAction _ p a _)
    exact (hbefore.trans (State.moves_enterEmergency _ (hbefore.inService hin))).reworked hc _
  · exact State.moves_restated hc hin (by decide) a

theorem State.Follows.takeAction (h : s.Follows) (hp : (s.portal p).action ≠ none → (s.portal p).state ≠ .offline) :
    (s.takeAction p).Follows := by
  unfold State.takeAction
  split
  · exact h
  next a ha =>
    have hin : (s.portal p).state ≠ .offline := hp (by rw [ha]; exact Option.some_ne_none a)
    split
    · exact (State.moves_restated hc hin (by decide) a).follows h
    · exact (State.moves_releaseNow hc hin a).follows h
    · unfold State.stopNow
      split
      · exact h
      · exact ((State.moves_removeAction _ p).trans (State.moves_answerAction _ p a _)).follows (h.enterOffline hc hin)

theorem State.moves_dryRunOne (x : DryRunInput) : s.Moves (State.dryRunOne x p s).1 := by
  unfold State.dryRunOne
  split
  case h_5 hst =>
    split
    · exact .refl s
    · split
      · exact .refl s
      · have hset : s.Moves (s.setPortal p { s.portal p with dryRun := some x, state := .dryRun }) :=
          s.moves_setPortal p (by exact ⟨rfl, rfl, rfl, rfl, rfl⟩) (iff_of_false (by simp) (by rw [hst]; decide))
        exact (hset.trans (State.moves_raisePortalState _ p)).reworked hc _
  all_goals exact .refl s

theorem State.moves_dryStopOne : s.Moves (State.dryStopOne p s).1 := by
  unfold State.dryStopOne
  split
  case h_4 hst =>
    have hset : s.Moves (s.setPortal p { s.portal p with dryRun := none, state := .held }) :=
      s.moves_setPortal p (by exact ⟨rfl, rfl, rfl, rfl, rfl⟩) (iff_of_false (by simp) (by rw [hst]; decide))
    exact ((hset.trans (State.moves_dropPreviews _ p)).trans (State.moves_raisePortalState _ p)).reworked hc _
  all_goals exact .refl s

theorem State.moves_emergencyOne (b : Fin 2) : s.Moves (State.emergencyOne b s).1 := by
  unfold State.emergencyOne
  split
  · exact .refl s
  · have hwork := ((s.moves_setBore b (x := { s.bore b with emergency := true, demand := 60000 }) (by exact ⟨rfl, rfl⟩)
      (by exact .rfl)).trans (.foldl State.moves_reachPortal (portalsOf b) _)).reworked hc b
    refine State.Moves.trans ?_ (State.moves_raiseTrafficState _ b)
    unfold State.emergencyInterior
    dsimp only
    exact .ite (hwork.trans (State.moves_light _ _)) hwork

theorem State.moves_clearOne (b : Fin 2) : s.Moves (State.clearOne b s).1 := by
  unfold State.clearOne
  split
  · exact (((s.moves_setBore b (x := { s.bore b with emergency := false, demand := (s.bore b).base }) (by exact ⟨rfl, rfl⟩)
      (by exact .rfl)).trans (.foldl State.moves_returnPortal (portalsOf b) _)).reworked hc b).trans
      (State.moves_raiseTrafficState _ b)
  · exact .refl s

end

section
variable (s : State) (p : Fin 4)

theorem State.moves_overrideOne (kind : OverrideKind) (f : Bool) (n : Nat) : s.Moves (State.overrideOne kind f n p s).1 := by
  unfold State.overrideOne
  split
  case h_3 | h_4 => exact s.moves_setPortal p (by exact ⟨rfl, rfl, rfl, rfl, rfl⟩) (by exact .rfl)
  all_goals exact .refl s

theorem State.moves_unoverrideOne : s.Moves (State.unoverrideOne p s).1 := by
  unfold State.unoverrideOne
  split
  case h_1 | h_2 => exact .refl s
  all_goals
    split
    · exact s.moves_setPortal p (by exact ⟨rfl, rfl, rfl, rfl, rfl⟩) (by exact .rfl)
    · exact .refl s

theorem State.moves_dryInputOne (x : DryRunInput) : s.Moves (State.dryInputOne x p s).1 := by
  unfold State.dryInputOne
  split
  case h_4 => exact s.moves_setPortal p (by exact ⟨rfl, rfl, rfl, rfl, rfl⟩) (by exact .rfl)
  all_goals exact .refl s

theorem State.moves_deferOne (kind : ActionKind) (l : Link) (r : Request) : s.Moves (State.deferOne kind l r p s).1 := by
  unfold State.deferOne
  split
  · exact .refl s
  · exact .refl s
  · split
    · exact .refl s
    · exact s.moves_setPortal p (by exact ⟨rfl, rfl, rfl, rfl, rfl⟩) (by exact .rfl)

theorem State.moves_lockout (z : Fin 14) (sets clears : List (Fin 8)) :
    s.Moves ((s.putZone z ((s.zone z).lockoutModify s.uptime (s.underEmergency z) sets clears)).raiseFaultChange z
      (s.zone z)) :=
  (s.moves_putZone z (Zone.sameSetup_lockoutModify _ _ _ _ _)).trans (State.moves_raiseFaultChange _ z _)

theorem State.moves_burnReset (z : Fin 14) (ks : List (Fin 8)) :
    s.Moves (s.setZone z ((s.zone z).modSlots ks fun c => { c with burn := 0 })) := by
  refine .of_commands (s.works_burnReset z ks) (fun _ => .rfl) (fun _ => .rfl) (fun _ => ⟨rfl, rfl, rfl⟩) (fun y k => ?_)
  rw [State.zone_setZone]
  split
  next hy =>
    rw [hy, Zone.modSlots, Tab.get_mapWith]
    split
    · rw [Option.map_map]; rfl
    · rfl
  next => rfl

theorem State.moves_burn :
    s.Moves { s with zones := s.zones.mapWith fun z x => x.modWhere (s.commandActive z) Circuit.burned } := by
  refine .of_commands s.works_burn (fun _ => .rfl) (fun _ => .rfl) (fun _ => ⟨rfl, rfl, rfl⟩) fun z k => ?_
  rw [State.zone, Tab.get_mapWith, Zone.modWhere, Tab.get_mapWith, Option.map_map]
  congr 1
  funext c
  dsimp only [Function.comp]
  split <;> rfl

theorem State.moves_reportOne (cls : Fin 5) (f g : Bool) (b : Fin 2) : s.Moves (State.reportOne cls f g b s).1 := by
  have hset : s.Moves (s.setBore b ((s.bore b).reported s.uptime cls g)) :=
    s.moves_setBore b (by exact ⟨rfl, rfl⟩) (by exact .rfl)
  exact .ite (hset.trans (State.moves_raiseTrafficState _ b)) hset

theorem State.moves_putCircuit (z : Fin 14) (k : Fin 8) {f : Circuit → Circuit} (hf : ∀ c, (f c).setup = c.setup) :
    s.Moves (s.putCircuit z k f) :=
  (s.moves_putZone z (Zone.sameSetup_modSlot _ k hf)).trans (State.moves_raiseFaultChange _ z _)

theorem State.moves_endOverride (v : Override) : s.Moves (s.endOverride p v) :=
  (s.moves_setPortal p (by exact ⟨rfl, rfl, rfl, rfl, rfl⟩) (by exact .rfl)).trans (State.moves_raise _ _)

theorem State.moves_goneStale (b : Fin 2) : s.Moves ((s.setBore b (s.bore b).goneStale).raiseTrafficState b) :=
  (s.moves_setBore b (by exact ⟨rfl, rfl⟩) (by exact .rfl)).trans (State.moves_raiseTrafficState _ b)

theorem State.moves_boreEvaluation (b : Fin 2) (e : Uptime) : s.Moves ((s.setBore b { s.bore b with timer := e }).evaluateBore b) :=
  (s.moves_setBore b (by exact ⟨rfl, rfl⟩) (by exact .rfl)).trans (State.moves_evaluateBore _ b)

end

/-- A zone that is not supervised has no part in what the lines carry. -/
theorem State.Follows.setUnsupervised {s : State} (h : s.Follows) {z : Fin 14} (hz : s.supervised z = false) (x : Zone) :
    (s.setZone z x).Follows := by
  have hsup : (s.setZone z x).supervised = s.supervised := State.supervised_congr (fun _ => .rfl) fun _ => .rfl
  have hserves : ∀ {y k c}, (s.setZone z x).Serves s.supervised y k c → s.Serves s.supervised y k c := fun {y k c} hc => by
    obtain ⟨hy, hslot⟩ := hc
    refine ⟨hy, ?_⟩
    rwa [State.zone_setZone, if_neg fun hyz => by rw [hyz, hz] at hy; cases hy] at hslot
  unfold State.Follows
  rw [hsup]
  refine ⟨⟨fun hc => h.1.single (hserves hc), fun hc hd => h.1.apart (hserves hc) (hserves hd),
    fun hc => h.1.fits (hserves hc)⟩, ?_⟩
  refine State.Drives.congr (s := s) (fun _ => ⟨rfl, rfl⟩) (fun y k hy => ?_) h.2
  rw [State.zone_setZone, if_neg fun hyz => by rw [hyz, hz] at hy; cases hy]

/-- A line that serves no supervised circuit may be written (R155, R156). -/
theorem State.Follows.writeLine {s : State} (h : s.Follows) (fn : LineFn) (invert : Bool) {i : Fin 192}
    (hi : s.lineInService i = false) : (s.writeLine fn invert i).Follows := by
  have hfree : ∀ {z k c}, s.Serves s.supervised z k c → c.output ≠ i := fun {z k c} hc hout => by
    unfold State.lineInService at hi
    rw [Bool.or_eq_false_iff] at hi
    have hany := List.any_eq_false.mp hi.1 (z, k, c) (s.mem_supervisedCircuits.mpr hc)
    exact hany (List.contains_iff_mem.mpr (hout ▸ c.output_mem_namings))
  have hwritten : ∀ t : State, t.zones = s.zones → t.portals = s.portals → t.bores = s.bores →
      t.lines = (s.setLine i (Line.written fn invert)).lines → t.Follows := by
    intro t hz hp hb hl
    have hzone : ∀ z, t.zone z = s.zone z := fun z => congrArg (fun zs => Tab.get zs z) hz
    have hportal : ∀ p, t.portal p = s.portal p := fun p => congrArg (fun ps => Tab.get ps p) hp
    have hbore : ∀ b, t.bore b = s.bore b := fun b => congrArg (fun bs => Tab.get bs b) hb
    have hline : ∀ j, t.line j = if j = i then Line.written fn invert else s.line j := fun j => by
      rw [← State.line_setLine]
      exact congrArg (fun ls => Tab.get ls j) hl
    have hserves : ∀ {y k c}, t.Serves s.supervised y k c ↔ s.Serves s.supervised y k c := fun {y k c} => by
      rw [State.Serves, hzone, State.Serves]
    unfold State.Follows
    rw [State.supervised_congr (s := s) (fun p => by rw [hportal]) fun b => by rw [hbore]]
    refine ⟨⟨fun hc => h.1.single (hserves.mp hc), fun hc hd => h.1.apart (hserves.mp hc) (hserves.mp hd), fun hc => ?_⟩,
      fun hc => ?_, fun j hj => ?_⟩
    · rw [hline, if_neg (hfree (hserves.mp hc))]
      exact h.1.fits (hserves.mp hc)
    · rw [hline, if_neg (hfree (hserves.mp hc))]
      exact h.2.driven (hserves.mp hc)
    · rw [hline]
      split
      · exact ⟨rfl, rfl⟩
      · exact h.2.idle j fun z k c hc => hj z k c (hserves.mpr hc)
  obtain ⟨-, heq⟩ | ⟨-, ⟨heq, -⟩ | ⟨m, -, -, heq⟩⟩ := State.writeLine_cases fn invert s i <;> rw [heq]
  · exact h
  · exact hwritten _ rfl rfl rfl rfl
  · exact hwritten _ rfl rfl rfl rfl

end

theorem Circuit.command_feedbackChanged (now : Uptime) (settle : Nat) (present : Bool) (c : Circuit) :
    (c.feedbackChanged now settle present).command = c.command := by
  rw [Circuit.feedbackChanged_eq]
  rfl

theorem State.Follows.sampleLines {s : State} (h : s.Follows) (which : Fin 192 → Bool) (pins : BitVec 192) :
    (s.sampleLines which pins).Follows := by
  refine h.congr (fun _ => .rfl) (fun _ => .rfl) (fun i => ?_) (fun z k => ?_)
  · rw [State.line_sampleLines]
    split
    · obtain ⟨heq, -⟩ | ⟨n, -, -, ⟨-, heq⟩ | ⟨-, -, heq⟩ | ⟨-, -, -, heq⟩⟩ :=
        Line.sampled_cases (pins.getLsbD i.val) (s.line i) <;> rw [heq] <;> exact ⟨rfl, rfl, rfl⟩
    · exact ⟨rfl, rfl, rfl⟩
  · rw [State.zone_sampleLines]
    split
    · rw [Tab.get_mapWith, Option.map_map]
      congr 1
      funext c
      dsimp only [Function.comp]
      obtain heq | ⟨b, heq⟩ := Circuit.takeSample_cases s which pins (s.zone z).settle c <;> rw [heq]
      rw [Circuit.setup_feedbackChanged, Circuit.command_feedbackChanged]
    · rfl

theorem State.Follows.readPin {s : State} (h : s.Follows) (x : PinReading) (d : EdgeDetector) : (s.readPin x d).Follows := by
  have hset : ((s.setPin x.line x.level).setLine x.line
      { s.line x.line with edge := some (d.read ((s.line x.line).raw x.level) x.periods) }).Follows := by
    refine h.congr (fun _ => .rfl) (fun _ => .rfl) (fun i => ?_) (fun _ _ => rfl)
    rw [State.line_setLine]
    split
    next hi => rw [hi]; exact ⟨rfl, rfl, rfl⟩
    next => exact ⟨rfl, rfl, rfl⟩
  obtain heq | ⟨-, m, -, heq⟩ := s.readPin_cases x d <;> rw [heq]
  · exact hset
  · exact hset.same (fun _ => rfl) (fun _ => rfl) rfl rfl

/-- Outside the writes of settings, a command keeps the lines following where its portals fit and its conditions follow. -/
theorem State.control_follows : KeptByControl fun s => s.PortalsFit ∧ s.ConditionsFollow ∧ s.Follows := by
  have kp := portalsFit_kept.keptByWork.control
  have kc := conditionsFollow_kept.keptByWork.control
  exact
    { commission := fun s p hs => ⟨kp.commission s p hs.1, kc.commission s p hs.2.1, by
        unfold State.commissionOne
        split
        · exact hs.2.2
        · split
          next hf => exact hs.2.2.enterHeld (hs.2.2.1.commissioned hf)
          next => exact hs.2.2⟩
      stop := fun s p hs => ⟨kp.stop s p hs.1, kc.stop s p hs.2.1, by
        unfold State.stopOne
        split
        case h_1 | h_5 => exact hs.2.2
        all_goals
          next hst =>
            have hin : (s.portal p).state ≠ .offline := by rw [hst]; decide
            change ((s.abandonAction p).enterOffline p).Follows
            exact ((s.moves_abandonAction p).follows hs.2.2).enterOffline (hs.2.1.abandonAction p)
              ((s.moves_abandonAction p).inService hin)⟩
      setOverride := fun s p body v n hv hs => ⟨kp.setOverride s p body v n hv hs.1, kc.setOverride s p body v n hv hs.2.1,
        (s.moves_overrideOne p v.1 v.2 n).follows hs.2.2⟩
      clearOverride := fun s p hs => ⟨kp.clearOverride s p hs.1, kc.clearOverride s p hs.2.1,
        (s.moves_unoverrideOne p).follows hs.2.2⟩
      dryRun := fun s p x hs => ⟨kp.dryRun s p x hs.1, kc.dryRun s p x hs.2.1, (State.moves_dryRunOne hs.2.1 x).follows hs.2.2⟩
      dryInput := fun s p x hs => ⟨kp.dryInput s p x hs.1, kc.dryInput s p x hs.2.1, (s.moves_dryInputOne p x).follows hs.2.2⟩
      dryStop := fun s p hs => ⟨kp.dryStop s p hs.1, kc.dryStop s p hs.2.1, (State.moves_dryStopOne hs.2.1).follows hs.2.2⟩
      lockout := fun s z a b hs => ⟨kp.lockout s z a b hs.1, kc.lockout s z a b hs.2.1, (s.moves_lockout z _ _).follows hs.2.2⟩
      burnReset := fun s z a hs => ⟨kp.burnReset s z a hs.1, kc.burnReset s z a hs.2.1, (s.moves_burnReset z _).follows hs.2.2⟩
      report := fun s b cls f g hs => ⟨kp.report s b cls f g hs.1, kc.report s b cls f g hs.2.1,
        (s.moves_reportOne cls f g b).follows hs.2.2⟩
      direction := fun s b mode hs => ⟨kp.direction s b mode hs.1, kc.direction s b mode hs.2.1, by
        unfold State.directionOne
        dsimp only
        split
        · exact hs.2.2
        · refine hs.2.2.congr (fun _ => .rfl) (fun c => ?_) (fun _ => ⟨rfl, rfl, rfl⟩) (fun _ _ => rfl)
          rw [State.bore_raiseTrafficState, State.bore_setBore]
          split
          next hc => rw [hc]
          next => rfl⟩
      emergency := fun s b hs => ⟨kp.emergency s b hs.1, kc.emergency s b hs.2.1, (State.moves_emergencyOne hs.2.1 b).follows hs.2.2⟩
      clear := fun s b hs => ⟨kp.clear s b hs.1, kc.clear s b hs.2.1, (State.moves_clearOne hs.2.1 b).follows hs.2.2⟩ }

/-- A portal record written in its place with its state kept leaves every portal's state. -/
theorem State.state_setPortal {s : State} {p : Fin 4} {x : Portal} (hx : x.state = (s.portal p).state) (q : Fin 4) :
    ((s.setPortal p x).portal q).state = (s.portal q).state := by
  rw [State.portal_setPortal]
  split
  next hq => rw [hq, hx]
  next => rfl

/-- The lines of supervised circuits, by the rules each effect has to keep. -/
theorem follows_kept : KeptByWork fun s => s.PortalsFit ∧ s.ConditionsFollow ∧ s.Follows := by
  have kp := portalsFit_kept.keptByWork
  have kc := conditionsFollow_kept.keptByWork
  exact
    { same := fun s t h hs => ⟨kp.same s t h hs.1, kc.same s t h hs.2.1, by
        have hbore : ∀ b, t.bore b = s.bore b := fun b => by rw [State.bore, h.bores]; rfl
        have hzone : ∀ z, t.zone z = s.zone z := fun z => by rw [State.zone, h.zones]; rfl
        have hline : ∀ i, t.line i = s.line i := fun i => by rw [State.line, h.lines]; rfl
        unfold State.Follows
        rw [State.supervised_congr (s := s) (t := t) (fun p => by rw [h.portals]) fun b => by rw [hbore]]
        refine ⟨⟨fun hc => hs.2.2.1.single (by rwa [State.Serves, hzone] at hc),
          fun hc hd => hs.2.2.1.apart (by rwa [State.Serves, hzone] at hc) (by rwa [State.Serves, hzone] at hd),
          fun hc => ?_⟩, State.Drives.congr (s := s) (fun i => by rw [hline]; exact ⟨rfl, rfl⟩)
            (fun z k _ => by rw [hzone]) hs.2.2.2⟩
        rw [hline]
        exact hs.2.2.1.fits (by rwa [State.Serves, hzone] at hc)⟩
      cold := ⟨kp.cold, kc.cold, by
        have hsup : ∀ z, State.reset.supervised z = false := by decide
        refine ⟨⟨fun hc => ?_, fun hc => ?_, fun hc => ?_⟩, fun hc => ?_, fun i _ => ?_⟩
        case refine_5 =>
          have hline : State.reset.line i = Line.cold := Tab.get_fill _ i
          rw [hline]
          exact ⟨rfl, rfl⟩
        all_goals
          have hz := hc.1
          rw [hsup] at hz
          cases hz⟩
      events := fun s p e he hs => ⟨kp.events s p e he hs.1, kc.events s p e he hs.2.1, by
        have hset : s.Moves (s.setPortal p { s.portal p with timer := some (msAfter e 1000) }) :=
          s.moves_setPortal p (by exact ⟨rfl, rfl, rfl, rfl, rfl⟩) (by exact .rfl)
        have hin : ((s.setPortal p { s.portal p with timer := some (msAfter e 1000) }).portal p).action ≠ none →
            ((s.setPortal p { s.portal p with timer := some (msAfter e 1000) }).portal p).state ≠ .offline := by
          rw [State.portal_setPortal_self]
          exact fun ha hst => ha (State.action_eq_none_of_offline hs.1 hst)
        have haction := State.Follows.takeAction (s := s.setPortal p { s.portal p with timer := some (msAfter e 1000) })
          (hs.2.1.setPortal rfl) (hset.follows hs.2.2) hin
        unfold State.evaluatePortal
        dsimp only
        split
        · exact haction
        · exact (State.moves_evaluateSteps _ p).follows haction⟩
      boreEvaluation := fun s b e hs => ⟨kp.boreEvaluation s b e hs.1, kc.boreEvaluation s b e hs.2.1,
        (s.moves_boreEvaluation b e).follows hs.2.2⟩
      gate := fun s m e he hs => ⟨kp.gate s m e he hs.1, kc.gate s m e he hs.2.1, by
        unfold State.endGate
        dsimp only
        split <;> exact hs.2.2.same (fun _ => rfl) (fun _ => rfl) rfl rfl⟩
      edge := fun s x d hfn hd hs => ⟨kp.edge s x d hfn hd hs.1, kc.edge s x d hfn hd hs.2.1, hs.2.2.readPin x d⟩
      sample := fun s which pins hs => ⟨kp.sample s which pins hs.1, kc.sample s which pins hs.2.1,
        hs.2.2.sampleLines which pins⟩
      settle := fun s z k e he hs => ⟨kp.settle s z k e he hs.1, kc.settle s z k e he hs.2.1,
        (s.moves_putCircuit z k (Circuit.setup_settled _)).follows hs.2.2⟩
      loss := fun s z k e he hs => ⟨kp.loss s z k e he hs.1, kc.loss s z k e he hs.2.1,
        (s.moves_putCircuit z k Circuit.setup_lost).follows hs.2.2⟩
      burn := fun s hs => ⟨kp.burn s hs.1, kc.burn s hs.2.1, s.moves_burn.follows hs.2.2⟩
      override := fun s p v hv hs => ⟨kp.override s p v hv hs.1, kc.override s p v hv hs.2.1,
        (s.moves_endOverride p v).follows hs.2.2⟩
      stale := fun s b hs => ⟨kp.stale s b hs.1, kc.stale s b hs.2.1, (s.moves_goneStale b).follows hs.2.2⟩
      period := fun s hs => ⟨kp.period s hs.1, kc.period s hs.2.1, hs.2.2.congr (fun _ => .rfl) (fun _ => .rfl)
        (fun i => by
          rw [State.line, Tab.get_mapWith]
          unfold Line.periodStart
          split <;> exact ⟨rfl, rfl, rfl⟩) fun _ _ => rfl⟩
      writes :=
        { writeLine := fun s fn invert i hi hs => ⟨kp.writes.writeLine s fn invert i hi hs.1,
            kc.writes.writeLine s fn invert i hi hs.2.1, hs.2.2.writeLine fn invert hi⟩
          meterSetup := fun s m body u hu ht hl hs => ⟨kp.writes.meterSetup s m body u hu ht hl hs.1,
            kc.writes.meterSetup s m body u hu ht hl hs.2.1,
            hs.2.2.same (fun _ => rfl) (fun _ => rfl) rfl rfl⟩
          portalSetup := fun s p body m q f hst hb hs => ⟨kp.writes.portalSetup s p body m q f hst hb hs.1,
            kc.writes.portalSetup s p body m q f hst hb hs.2.1,
            hs.2.2.same (State.state_setPortal (by exact rfl)) (fun _ => rfl) rfl rfl⟩
          zoneSetup := fun s z body u hu hw hs => ⟨kp.writes.zoneSetup s z body u hu hw hs.1,
            kc.writes.zoneSetup s z body u hu hw hs.2.1, (State.moves_raiseFaultChange _ z _).follows
              (hs.2.2.setUnsupervised (State.unsupervised_of_writable hs.2.1 hw) _)⟩
          plan := fun s p body w hw hs => ⟨kp.writes.plan s p body w hw hs.1, kc.writes.plan s p body w hw hs.2.1, by
            have hset : (s.setPortal p ((s.portal p).withPlan w.1 w.2)).Follows :=
              hs.2.2.same (State.state_setPortal (by unfold Portal.withPlan; split <;> rfl)) (fun _ => rfl) rfl rfl
            unfold State.writePlan
            split
            case h_4 | h_5 => exact hs.2.2
            all_goals exact hset⟩
          schedule := fun s body ws hws hs => ⟨kp.writes.schedule s body ws hws hs.1,
            kc.writes.schedule s body ws hws hs.2.1,
            hs.2.2.same (fun _ => rfl) (fun _ => rfl) rfl rfl⟩
          boreSetup := fun s b n hs => ⟨kp.writes.boreSetup s b n hs.1, kc.writes.boreSetup s b n hs.2.1,
            hs.2.2.same (fun _ => rfl)
              (fun c => by
                rw [State.bore_setBore]
                split
                next hc => rw [hc]
                next => rfl)
              rfl rfl⟩
          clock := fun s c hs => ⟨kp.writes.clock s c hs.1, kc.writes.clock s c hs.2.1,
            hs.2.2.same (fun _ => rfl) (fun _ => rfl) rfl rfl⟩ }
      control := State.control_follows
      defer := fun s kind l r p hs => ⟨kp.defer s kind l r p hs.1, kc.defer s kind l r p hs.2.1,
        (s.moves_deferOne p kind l r).follows hs.2.2⟩ }

/-! ### The input state of lines (R147, R152, R154, R156) -/

theorem Line.SameSetting.inputFits {x y : Line} (h : x.SameSetting y) : y.inputFits = x.inputFits := by
  rw [h]
  rfl

theorem Line.inputFits_sampled {x : Line} (h : x.inputFits = true) (pin : Bool) : (x.sampled pin).inputFits = true := by
  obtain ⟨heq, -⟩ | ⟨n, hfn, hcount, hcases⟩ := x.sampled_cases pin
  · rw [heq]
    exact h
  · simp only [Line.inputFits, hfn, hcount, Bool.and_eq_true] at h
    obtain ⟨⟨hdeb, -⟩, hedge⟩ := h
    obtain ⟨-, heq⟩ | ⟨-, hn, heq⟩ | ⟨-, -, -, heq⟩ := hcases
    · simp [heq, Line.inputFits, hfn, hdeb, hedge]
    · simp only [heq, Line.inputFits, hfn, hdeb, hedge, Option.any_some, Bool.and_true, Bool.true_and, decide_eq_true_eq]
      omega
    · simp [heq, Line.inputFits, hfn, hedge]

theorem EdgeDetector.run_read_le {raw : Bool} {n : Nat} {d : EdgeDetector} : (d.read raw n).run ≤ 19 := by
  unfold EdgeDetector.read
  split
  · exact Nat.zero_le _
  · split
    next hlt => exact Nat.le_of_lt_succ hlt
    next => exact Nat.zero_le _

theorem Line.inputFits_read {x : Line} {d : EdgeDetector} (h : x.inputFits = true) (hfn : x.fn = .meterIn)
    (hd : x.edge = some d) (raw : Bool) (n : Nat) :
    ({ x with edge := some (d.read raw n) } : Line).inputFits = true := by
  simp only [Line.inputFits, hfn, hd, Option.any_some, Bool.and_eq_true, decide_eq_true_eq] at h ⊢
  exact ⟨h.1, EdgeDetector.run_read_le⟩

theorem Line.inputFits_written (fn : LineFn) (invert : Bool) : (Line.written fn invert).inputFits = true := by
  cases fn <;> rfl

theorem State.InputsFit.congr {s t : State} (h : s.InputsFit) (hl : t.lines = s.lines) : t.InputsFit := fun i => by
  rw [State.line, hl]
  exact h i

theorem State.InputsFit.setLine {s : State} (h : s.InputsFit) {i : Fin 192} {x : Line} (hx : x.inputFits = true) :
    (s.setLine i x).InputsFit := fun j => by
  rw [State.line_setLine]
  split
  · exact hx
  · exact h j

theorem inputsFit_kept : KeptByWork State.InputsFit :=
  .ofWorks (fun s t h hs => hs.congr h.lines)
    (fun i => by
      have hline : State.reset.line i = Line.cold := Tab.get_fill _ i
      rw [hline]
      rfl)
    (fun s t h hs i => (h.lines i).inputFits.trans (hs i))
    (fun s m e _ hs => hs.congr (by unfold State.endGate; dsimp only; split <;> rfl))
    (fun s x d hfn hd hs => by
      have hset := State.InputsFit.setLine (s := s.setPin x.line x.level) hs (i := x.line)
        (Line.inputFits_read (hs x.line) hfn hd ((s.line x.line).raw x.level) x.periods)
      obtain heq | ⟨-, m, -, heq⟩ := s.readPin_cases x d <;> rw [heq]
      · exact hset
      · exact hset.congr rfl)
    (fun s which pins hs i => by
      rw [State.line_sampleLines]
      split
      · exact Line.inputFits_sampled (hs i) _
      · exact hs i)
    { writeLine := fun s fn invert i _ hs => by
        have hset := hs.setLine (i := i) (Line.inputFits_written fn invert)
        obtain ⟨-, heq⟩ | ⟨-, ⟨heq, -⟩ | ⟨m, -, -, heq⟩⟩ := State.writeLine_cases fn invert s i <;> rw [heq]
        · exact hs
        · exact hset
        · exact hset.congr rfl
      meterSetup := fun _ _ _ _ _ _ _ hs => hs.congr rfl
      portalSetup := fun _ _ _ _ _ _ _ _ hs => hs.congr rfl
      zoneSetup := fun s z _ u _ _ hs i => by rw [State.line_raiseFaultChange]; exact hs i
      plan := fun s p _ w _ hs => by
        unfold State.writePlan
        split <;> exact hs.congr rfl
      schedule := fun _ _ _ _ hs => hs.congr rfl
      boreSetup := fun _ _ _ hs => hs.congr rfl
      clock := fun _ _ hs => hs.congr rfl }
    fun s b mode hs => by
      unfold State.directionOne
      dsimp only
      split
      · exact hs
      · exact hs.congr rfl

/-- Settles O60: only a COMMISSION brings circuits to lines, and its checks let no line in twice; only the writes of a line
give it another function, and its input state with it. -/
theorem everyStepKeepsTheLinesFollowing : Obligations.EveryStepKeepsTheLinesFollowing := by
  refine ⟨fun s t hp hc hl hst => ?_, fun s t hs hst => inputsFit_kept.keptByStep s t hs hst⟩
  exact t.linesFollow_iff.mpr (follows_kept.keptByStep s t ⟨hp, hc, s.linesFollow_iff.mp hl⟩ hst).2.2

end Sys2Proof.Machine
end

section
/-! SUPPORT. Totality, reset and the rotation order (R67, R158, R159); the switching decision (R71 to R74). -/

namespace Sys2Proof.Machine

/-! ### Every command answers a next state -/

/-- No effect of a command touches the waiting commands. -/
theorem pending_kept (q : List Instr) : Kept (fun s => s.pending = q) fun _ s => s.pending = q where
  arbitrate _ := id
  receive _ _ _ _ := id
  gap _ _ _ _ _ := id
  restart _ _ _ := id
  mark _ _ _ := id
  sent _ _ _ _ _ := id
  retimed _ _ _ _ _ _ _ := id
  portalEvaluation s p _ _ := ((s.acts_setPortal p _).trans (State.acts_evaluatePortal _ p)).pending.trans
  boreEvaluation s b _ := ((s.acts_setBore b _).trans (State.acts_evaluateBore _ b)).pending.trans
  gate s m e _ h := by
    unfold State.endGate
    dsimp only
    split <;> exact h
  edge s x d _ _ h := by
    obtain heq | ⟨-, m, -, heq⟩ := s.readPin_cases x d <;> rw [heq] <;> exact h
  sample _ _ _ := id
  settle s z k _ _ := (s.works_putCircuit z k (Circuit.setup_settled _)).acts.pending.trans
  loss s z k _ _ := (s.works_putCircuit z k Circuit.setup_lost).acts.pending.trans
  burn _ := id
  override s p v _ := (s.works_endOverride p v).acts.pending.trans
  stale s b := (s.works_goneStale b).acts.pending.trans
  period _ := id
  coldStart _ _ := id
  drawn _ _ := id
  pop _ _ _ _ := id
  writes _ :=
    { writeLine := fun s fn invert i _ h => by
        obtain ⟨-, heq⟩ | ⟨-, ⟨heq, -⟩ | ⟨m, -, -, heq⟩⟩ := State.writeLine_cases fn invert s i <;> rw [heq] <;> exact h
      meterSetup := fun _ _ _ _ _ _ _ => id
      portalSetup := fun _ _ _ _ _ _ _ _ => id
      zoneSetup := fun s z _ u _ _ => ((s.acts_setZone z _).trans (State.acts_raiseFaultChange _ z _)).pending.trans
      plan := fun s p _ w _ h => by
        unfold State.writePlan
        split <;> exact h
      schedule := fun _ _ _ _ => id
      boreSetup := fun _ _ _ => id
      clock := fun _ _ => id }
  control _ := .ofWorks (fun _ _ h => h.acts.pending.trans) fun s b mode => (s.acts_directionOne mode b).pending.trans
  draws _ _ _ := id
  mask _ _ _ := id
  defer s l kind r us _ h := (visitAll_works (fun u t => t.works_deferOne kind l r u) us _).acts.pending.trans h
  respond s l r x := (s.works_respond l r x).acts.pending.trans

/-- Settles O3. -/
theorem everyCommandAnswersANextState : Obligations.EveryCommandAnswersANextState := by
  refine ⟨fun c s => (pending_kept s.pending).exec c s rfl, fun c s hheld hon hrelease hpin => ?_⟩
  obtain ⟨f, hf⟩ := exec_event (ofReset_eq_false.mpr ⟨hon, hrelease, hpin⟩)
  rw [hf, State.event_held hheld]

/-! ### Reset (R158, R159, R197) -/

theorem State.recordsCold_coldStart (s : State) (held : Bool) : (s.coldStart held).recordsCold :=
  ⟨rfl, rfl, rfl, rfl, rfl, rfl, rfl, rfl, rfl⟩

/-- A cold link record begins its COLD_START notice (R159). -/
theorem LinkRec.announcing_arbitrate (now : Uptime) (l : Link) : ((LinkRec.cold (coldMask l)).arbitrate now).announcing l :=
  ⟨⟨_, rfl⟩, rfl, rfl, rfl, rfl, rfl⟩

theorem State.link_coldStart (s : State) (held : Bool) (l : Link) :
    (s.coldStart held).link l = LinkRec.cold (coldMask l) := by
  cases l <;> rfl

/-- The part that leaves reset announces itself on every link (R159). -/
theorem State.announcing_of_cold {s : State} (h : ∀ l, s.link l = LinkRec.cold (coldMask l)) (l : Link) :
    (s.arbitrate.link l).announcing l := by
  rw [State.link_arbitrate, h]
  exact LinkRec.announcing_arbitrate _ l

theorem State.link_reset (l : Link) : State.reset.link l = LinkRec.cold (coldMask l) := by
  cases l <;> rfl

theorem State.recordsCold_reset : State.reset.recordsCold := State.recordsCold_coldStart State.reset false

/-- What a part does by itself right after reset: its transmitters begin, and a millisecond passes. -/
theorem step_reset : step State.reset = .next ({ State.reset.arbitrate with uptime := 1 } : State).arbitrate :=
  (anEmptyQueueRunsTheClock State.reset rfl).2.2 rfl (by decide +kernel)

theorem reset_levelsBounded : State.reset.LevelsBounded := by
  obtain ⟨hp, hb⟩ := reset_channelsBounded
  refine ⟨hp, hb, fun z => ?_⟩
  rw [show State.reset.zone z = Zone.cold from Tab.get_fill _ z]
  decide

theorem reset_scheduleFit : State.reset.ScheduleFit := by
  unfold State.ScheduleFit
  decide

theorem reset_zonesLegal : State.reset.ZonesLegal := fun z => by
  rw [show State.reset.zone z = Zone.cold from Tab.get_fill _ z]
  decide

theorem reset_dimsRight : State.reset.DimsRight := fun z => by
  rw [show State.reset.zone z = Zone.cold from Tab.get_fill _ z]
  exact ⟨by decide, fun _ => by decide⟩

theorem reset_emergencyLit : State.reset.EmergencyLit := fun z h => by
  have hno : State.reset.underEmergency z = false := by revert z; decide
  rw [hno] at h
  cases h

/-- Settles O4: each invariant holds of the cold records. -/
theorem resetIsTheColdStart : Obligations.ResetIsTheColdStart := by
  refine ⟨State.recordsCold_reset, rfl, rfl, fun l => ⟨State.link_reset l, coldLinks_ordered State.reset false,
    reset_answersBounded, reset_levelsBounded, reset_metersFit, reset_scheduleFit, reset_portalsFit, reset_partnersOwn,
    reset_conditionsFollow, reset_zonesLegal, reset_dimsRight, reset_emergencyLit,
    State.reset.linesFollow_iff.mpr follows_kept.cold.2.2, inputsFit_kept.cold, _, step_reset, .inr ?_, fun k => ?_⟩⟩
  · exact State.arbitrate_arbitrate _
  · have hannounced := State.announcing_of_cold State.link_reset k
    rw [State.link_arbitrate]
    change (LinkRec.arbitrate 1 (State.reset.arbitrate.link k)).announcing k
    obtain ⟨⟨ends, hsending⟩, hrest⟩ := hannounced
    have hsame : LinkRec.arbitrate 1 (State.reset.arbitrate.link k) = State.reset.arbitrate.link k := by
      unfold LinkRec.arbitrate
      rw [hsending]
    rw [hsame]
    exact ⟨⟨ends, hsending⟩, hrest⟩

/-- Settles O5. -/
theorem resetAndPower : Obligations.ResetAndPower := by
  have hstart : ∀ s : State, (s.coldStart false).arbitrate.recordsCold ∧ (s.coldStart false).arbitrate.inReset = false
      ∧ (∀ l, ((s.coldStart false).arbitrate.link l).announcing l) ∧ (s.coldStart false).arbitrate.pending = s.pending
      ∧ (s.coldStart false).arbitrate.pins = s.pins := fun s =>
    ⟨s.recordsCold_coldStart false, rfl, State.announcing_of_cold (s.link_coldStart false), rfl, rfl⟩
  have hheld : ∀ s : State, (s.coldStart true).recordsCold ∧ (s.coldStart true).inReset = true
      ∧ (s.coldStart true).links = coldLinks ∧ (s.coldStart true).pending = s.pending
      ∧ (s.coldStart true).pins = s.pins := fun s => ⟨s.recordsCold_coldStart true, rfl, rfl, rfl, rfl⟩
  refine ⟨fun s => ⟨fun hr => ?_, fun hr => ?_, fun hr => ?_, fun hr => ?_⟩, fun n s => ⟨fun hn => ?_, fun hn => ?_, fun h2 h10 => ?_⟩⟩
  · exact ⟨_, by simp [exec, execResetPinRelease, hr], hstart s⟩
  · simp [exec, execResetPinRelease, hr]
  · exact ⟨_, by simp [exec, execPowerOn, hr], hstart s⟩
  · exact ⟨_, by simp [exec, execPowerOn, hr], hheld s⟩
  · have htaken : resetTaken n s.draws = true := by
      rw [resetTaken, if_neg (by omega), if_pos hn]
    have hdraws : resetDraws n s.draws = s.draws := if_neg (by omega)
    exact ⟨s.coldStart true, by rw [exec, execResetPin, htaken, hdraws]; rfl, hheld s, rfl⟩
  · have htaken : resetTaken n s.draws = false := if_pos hn
    have hdraws : resetDraws n s.draws = s.draws := if_neg (by omega)
    rw [exec, execResetPin, htaken, hdraws]
    rfl
  · have hdraws : resetDraws n s.draws = s.draws + 1 := if_pos ⟨h2, h10⟩
    refine ⟨_, rfl, ?_⟩
    rw [hdraws]
    split
    · exact .inl ⟨hheld { s with draws := s.draws + 1 }, rfl⟩
    · exact .inr rfl

/-! ### The rotation order (R67) -/

/-- Settles O46: both modes are permutations of the eight slots. -/
theorem theRotationOrder : Obligations.TheRotationOrder := by
  have hget : ∀ mode (s i : Fin 8), (rotationOrder mode s)[i.val]? = some (slotAt mode s i) := fun mode s i => by
    simp [rotationOrder]
  refine fun s i mode => ⟨?_, ?_, ?_, ?_⟩
  · rw [hget]
    rfl
  · rw [hget]
    revert s i
    decide
  · simp [rotationOrder]
  · revert s
    cases mode <;> decide

end Sys2Proof.Machine
end

section
/-! SUPPORT. The switching decision of a normal allocation (R71 to R74). -/

namespace Sys2Proof.Machine

/-! ### First and last along the rotation order (R67) -/

theorem nodup_rotationOrder (mode : OrderMode) (s : Fin 8) : (rotationOrder mode s).Nodup :=
  (theRotationOrder s 0 mode).2.2.2

theorem Zone.nodup_along (z : Zone) : z.along.Nodup := nodup_rotationOrder _ _

/-- The order names every slot (R67). -/
theorem Zone.mem_along (z : Zone) (k : Fin 8) : k ∈ z.along := by
  have hcard : z.along.toFinset = Finset.univ := by
    rw [← Finset.card_eq_iff_eq_univ, List.toFinset_card_of_nodup z.nodup_along]
    exact (theRotationOrder z.rotation 0 z.order).2.2.1
  rw [← List.mem_toFinset, hcard]
  exact Finset.mem_univ k

/-- The first of a list that meets a condition is the one at the least place. -/
theorem find?_eq_of_least {α : Type} [DecidableEq α] {l : List α} {p : α → Bool} {a : α} (hn : l.Nodup) (ha : a ∈ l)
    (hp : p a = true) (hleast : ∀ b ∈ l, p b = true → l.idxOf a ≤ l.idxOf b) : l.find? p = some a := by
  obtain ⟨b, hb⟩ := Option.isSome_iff_exists.mp (List.find?_isSome.mpr ⟨a, ha, hp⟩)
  obtain ⟨hpb, as, bs, hl, hbefore⟩ := List.find?_eq_some_iff_append.mp hb
  have hmem : b ∈ l := hl ▸ by simp
  have hplace : l.idxOf a ≤ l.idxOf b := hleast b hmem hpb
  have hno : a ∉ as := fun hin => by
    have := hbefore a hin
    rw [hp] at this
    cases this
  have hb_as : b ∉ as := fun hin => by
    rw [hl] at hn
    exact (List.nodup_append.mp hn).2.2 b hin b List.mem_cons_self rfl
  have hidx : l.idxOf b = as.length := by
    rw [hl, List.idxOf_append_of_notMem hb_as, List.idxOf_cons_self, Nat.add_zero]
  have hidx' : as.length ≤ l.idxOf a := by
    rw [hl, List.idxOf_append_of_notMem hno]
    exact Nat.le_add_right _ _
  have hsame : l.idxOf a = l.idxOf b := by omega
  rw [hb, (List.idxOf_inj ha).mp hsame]

/-- Slot `k` holds a SWITCHED circuit in a state. -/
def Zone.switchedIn (z : Zone) (k : Fin 8) (st : CircuitState) : Prop :=
  ∃ c, z.slots.get k = some c ∧ c.kind = .switched ∧ c.state = st

theorem Zone.switchedIn_iff {z : Zone} {k : Fin 8} {st : CircuitState} :
    z.switchedIn k st ↔ ((z.slots.get k).any fun c => c.isSwitched && c.state == st) = true := by
  simp [Zone.switchedIn, Option.any_eq_true, Circuit.isSwitched]

theorem Zone.firstOff_eq {z : Zone} {k : Fin 8} (hk : z.switchedIn k .off)
    (hfirst : ∀ j, z.switchedIn j .off → z.along.idxOf k ≤ z.along.idxOf j) : z.firstOff = some k :=
  find?_eq_of_least z.nodup_along (z.mem_along k) (Zone.switchedIn_iff.mp hk)
    fun j _ hj => hfirst j (Zone.switchedIn_iff.mpr hj)

theorem Zone.firstOff_eq_none {z : Zone} (h : ∀ k, ¬ z.switchedIn k .off) : z.firstOff = none :=
  List.find?_eq_none.mpr fun k _ hk => h k (Zone.switchedIn_iff.mpr hk)

/-- Places counted from the other end. -/
theorem idxOf_reverse {α : Type} [DecidableEq α] {l : List α} {a : α} (hn : l.Nodup) (ha : a ∈ l) :
    l.reverse.idxOf a + l.idxOf a + 1 = l.length := by
  obtain ⟨as, bs, rfl⟩ := List.append_of_mem ha
  obtain ⟨-, hcons, hdisj⟩ := List.nodup_append.mp hn
  have hnas : a ∉ as := fun h => hdisj a h a List.mem_cons_self rfl
  have hnbs : a ∉ bs.reverse := by simpa using (List.nodup_cons.mp hcons).1
  rw [List.reverse_append, List.reverse_cons, List.append_assoc, List.idxOf_append_of_notMem hnbs,
    List.idxOf_append_of_notMem hnas]
  simp
  omega

theorem Zone.lastOn_eq {z : Zone} {k : Fin 8} (hk : z.switchedIn k .on)
    (hlast : ∀ j, z.switchedIn j .on → z.along.idxOf j ≤ z.along.idxOf k) : z.lastOn = some k := by
  refine find?_eq_of_least (List.nodup_reverse.mpr z.nodup_along) (List.mem_reverse.mpr (z.mem_along k))
    (Zone.switchedIn_iff.mp hk) fun j _ hj => ?_
  have hplace := hlast j (Zone.switchedIn_iff.mpr hj)
  have h1 := idxOf_reverse z.nodup_along (z.mem_along k)
  have h2 := idxOf_reverse z.nodup_along (z.mem_along j)
  omega

theorem Zone.lastOn_eq_none {z : Zone} (h : ∀ k, ¬ z.switchedIn k .on) : z.lastOn = none :=
  List.find?_eq_none.mpr fun k _ hk => h k (Zone.switchedIn_iff.mpr hk)

/-! ### Sums over the slots (R66) -/

/-- What a slot adds to a sum of rated contributions. -/
def contribution (f : Circuit → Bool) (o : Option Circuit) : Nat :=
  o.elim 0 fun c => if f c then c.rating else 0

theorem Zone.sumOf_eq (z : Zone) (f : Circuit → Bool) : z.sumOf f = ∑ k : Fin 8, contribution f (z.slots.get k) := by
  have h : ∀ ks : List (Fin 8), (((ks.filterMap fun k => z.slots.get k).filter f).map Circuit.rating).sum
      = (ks.map fun k => contribution f (z.slots.get k)).sum := by
    intro ks
    induction ks with
    | nil => rfl
    | cons k ks ih =>
      cases hc : z.slots.get k with
      | none => simpa [hc, contribution] using ih
      | some c =>
        rw [List.filterMap_cons, hc]
        dsimp only
        rw [List.filter_cons]
        split
        next hf => simp [hc, contribution, hf, ih]
        next hf => simp [hc, contribution, hf, ih]
  rw [Zone.sumOf, Zone.circuits_eq, h, ← List.sum_ofFn, List.ofFn_eq_map]

/-- A change of one slot changes a sum by what that slot adds. -/
theorem Zone.sumOf_modSlot (z : Zone) {k : Fin 8} {c : Circuit} (hc : z.slots.get k = some c) (g : Circuit → Circuit)
    (f : Circuit → Bool) :
    (z.modSlot k g).sumOf f + contribution f (some c) = z.sumOf f + contribution f (some (g c)) := by
  rw [Zone.sumOf_eq, Zone.sumOf_eq, ← Finset.add_sum_erase _ _ (Finset.mem_univ k),
    ← Finset.add_sum_erase (Finset.univ) (fun j => contribution f (z.slots.get j)) (Finset.mem_univ k)]
  have hself : (z.modSlot k g).slots.get k = some (g c) := by simp [Zone.modSlot, hc]
  have hrest : ∑ j ∈ Finset.univ.erase k, contribution f ((z.modSlot k g).slots.get j)
      = ∑ j ∈ Finset.univ.erase k, contribution f (z.slots.get j) :=
    Finset.sum_congr rfl fun j hj => by rw [Zone.modSlot, Tab.get_put_ne _ (Finset.ne_of_mem_erase hj)]
  rw [hself, hrest, hc]
  omega

/-- A circuit in ON that is commanded off counts in Son no longer (R66, R92). -/
theorem Zone.son_switchOff {z : Zone} {k : Fin 8} {c : Circuit} (hc : z.slots.get k = some c) (hk : c.kind = .switched)
    (hs : c.state = .on) (now : Uptime) :
    (z.modSlot k (Circuit.switchOff now z.settle)).son + c.rating = z.son
      ∧ (z.modSlot k (Circuit.switchOff now z.settle)).cd = z.cd := by
  have hkind : (c.switchOff now z.settle).kind = .switched :=
    (congrArg CircuitSetup.kind (Circuit.setup_switchOff now z.settle c)).trans hk
  have hstate : (c.switchOff now z.settle).state = .switchingOff ∨ (c.switchOff now z.settle).state = .off := by
    unfold Circuit.switchOff
    split
    · exact .inl rfl
    · exact .inr rfl
  have hwas : contribution Circuit.inSon (some c) = c.rating := by
    simp [contribution, Circuit.inSon, Circuit.isSwitched, hk, hs]
  have hnow : contribution Circuit.inSon (some (c.switchOff now z.settle)) = 0 := by
    obtain h | h := hstate <;> simp [contribution, Circuit.inSon, Circuit.isSwitched, hkind, h]
  have hcd : ∀ d : Circuit, d.kind = .switched → contribution Circuit.inCd (some d) = 0 := fun d hd => by
    simp [contribution, Circuit.inCd, Circuit.isDimmed, hd]
  have hson := z.sumOf_modSlot hc (Circuit.switchOff now z.settle) Circuit.inSon
  have hsum := z.sumOf_modSlot hc (Circuit.switchOff now z.settle) Circuit.inCd
  rw [hwas, hnow] at hson
  rw [hcd c hk, hcd _ hkind] at hsum
  exact ⟨hson, hsum⟩

/-! ### The switching decision -/

section
variable {z : Zone} (now : Uptime) (hflight : z.anyInFlight = false)
include hflight

theorem Zone.switching_on (h : z.son + z.cd < z.ramped) {k : Fin 8} (hk : z.firstOff = some k) :
    z.switching now = z.modSlot k (Circuit.switchOn now z.settle) := by
  rw [Zone.switching, hflight, if_neg (by decide), if_pos h, hk]

theorem Zone.switching_on_none (h : z.son + z.cd < z.ramped) (hk : z.firstOff = none) : z.switching now = z := by
  rw [Zone.switching, hflight, if_neg (by decide), if_pos h, hk]

theorem Zone.switching_off_none (h : ¬ z.son + z.cd < z.ramped) (hk : z.lastOn = none) : z.switching now = z := by
  rw [Zone.switching, hflight, if_neg (by decide), if_neg h, hk]

theorem Zone.switching_off (h : ¬ z.son + z.cd < z.ramped) {k : Fin 8} {c : Circuit} (hk : z.lastOn = some k)
    (hc : z.slots.get k = some c) :
    z.switching now = if z.ramped + c.rating ≤ z.son + z.cd * (1000 - z.hysteresis) / 1000
      then z.modSlot k (Circuit.switchOff now z.settle) else z := by
  rw [Zone.switching, hflight, if_neg (by decide), if_neg h, hk]
  simp only [hc]

end

/-- Settles O47: R72 looks from the front of the order and R73 from its end; what a switch-off leaves in Son still carries
R within the band, which is at most Cd. -/
theorem aSwitchingDecisionIssuesOneCommand : Obligations.ASwitchingDecisionIssuesOneCommand := by
  intro now z hlegal y inState place onTest offTest
  have htest : onTest ↔ z.son + z.cd < z.ramped := by
    simp only [onTest]
    omega
  refine ⟨fun hf => ?_, fun hf hon hnone => ?_, fun hf hon k hk hfirst => ?_, fun hf hoff hnone => ?_,
    fun hf hoff k c hk hlast hc => ?_⟩
  · rw [show y = z.switching now from rfl, Zone.switching, if_pos hf]
  · exact Zone.switching_on_none now hf (htest.mp hon) (Zone.firstOff_eq_none hnone)
  · exact Zone.switching_on now hf (htest.mp hon) (Zone.firstOff_eq hk hfirst)
  · exact Zone.switching_off_none now hf (fun h => hoff (htest.mpr h)) (Zone.lastOn_eq_none hnone)
  · have hy : y = _ := Zone.switching_off now hf (fun h => hoff (htest.mpr h)) (Zone.lastOn_eq hk hlast) hc
    obtain ⟨d, hd, hkind, hstate⟩ := hk
    obtain rfl := Option.some.inj (hc.symm.trans hd)
    obtain ⟨hson, hcd⟩ := Zone.son_switchOff hc hkind hstate now
    have hoffTest : offTest c ↔ z.ramped + c.rating ≤ z.son + z.cd * (1000 - z.hysteresis) / 1000 := by
      simp only [offTest]
      omega
    have hband : z.cd * (1000 - z.hysteresis) / 1000 ≤ z.cd :=
      Nat.div_le_of_le_mul (by rw [Nat.mul_comm 1000]; exact Nat.mul_le_mul_left _ (Nat.sub_le _ _))
    rw [hy]
    refine ⟨fun hno => if_neg fun h => hno (hoffTest.mpr h), fun hyes => ?_⟩
    rw [if_pos (hoffTest.mp hyes)]
    refine ⟨rfl, ?_⟩
    have hle := hoffTest.mp hyes
    have hramped : (z.modSlot k (Circuit.switchOff now z.settle)).ramped = z.ramped := rfl
    rw [hcd, hramped]
    omega

end Sys2Proof.Machine
end

section
/-! SUPPORT. Framers, frames and transmitters (R160 to R166, R173, R175). -/

namespace Sys2Proof.Machine

/-! ### A link record written by an event -/

section
variable {s : State}

/-- A link record whose transmitter has chosen: an IDLE one finds nothing to begin (R173). -/
def LinkRec.Chosen (x : LinkRec) : Prop := x.transmitter = .idle → x.responses = [] ∧ x.notices = []

theorem LinkRec.arbitrate_eq_self_iff {x : LinkRec} {now : Uptime} : x.arbitrate now = x ↔ x.Chosen := by
  obtain ⟨framer, requests, responses, transmitter, notices, mask⟩ := x
  unfold LinkRec.Chosen
  cases transmitter with
  | idle =>
    cases responses with
    | cons r rest => simp [LinkRec.arbitrate, LinkRec.beginNext]
    | nil => cases notices <;> simp [LinkRec.arbitrate, LinkRec.beginNext]
  | sending => simp [LinkRec.arbitrate]
  | silent => simp [LinkRec.arbitrate]

theorem State.arbitrate_eq_self_iff : s.arbitrate = s ↔ ∀ l, (s.link l).Chosen := by
  constructor
  · intro h l
    rw [← LinkRec.arbitrate_eq_self_iff (now := s.uptime), ← State.link_arbitrate, h]
  · intro h
    refine State.ext_fields rfl rfl rfl rfl rfl rfl rfl rfl rfl rfl rfl rfl rfl rfl (Tab.ext_get fun i => ?_) rfl
    simp only [State.arbitrate, Tab.get_mapWith]
    fin_cases i
    · exact LinkRec.arbitrate_eq_self_iff.mpr (h .o)
    · exact LinkRec.arbitrate_eq_self_iff.mpr (h .t)
    · exact LinkRec.arbitrate_eq_self_iff.mpr (h .s)

theorem State.Settled.chosen (h : s.Settled) (l : Link) : (s.link l).Chosen :=
  State.arbitrate_eq_self_iff.mp h.2 l

theorem State.Settled.arbitrate_link (h : s.Settled) (l : Link) : (s.link l).arbitrate s.uptime = s.link l :=
  LinkRec.arbitrate_eq_self_iff.mpr (h.chosen l)

/-- An event that writes no link and holds nothing in reset leaves a settled part settled. -/
theorem State.Settled.of_links (h : s.Settled) {t : State} (hl : t.links = s.links) : t.arbitrate = t :=
  State.arbitrate_eq_self_iff.mpr fun l => by
    rw [State.link, hl]
    exact h.chosen l

/-- An event that writes one link record so that its transmitter has chosen leaves a settled part settled. -/
theorem State.Settled.arbitrate_setLink (h : s.Settled) (l : Link) {x : LinkRec} (hx : x.Chosen) :
    (s.setLink l x).arbitrate = s.setLink l x :=
  State.arbitrate_eq_self_iff.mpr fun k => by
    rw [State.link_setLink]
    split
    · exact hx
    · exact h.chosen k

/-- A framer and a request queue written leave the transmitter as it has chosen. -/
theorem State.Settled.arbitrate_setFramer (h : s.Settled) (l : Link) (f : Framer) (q : List Request) :
    (s.setLink l { s.link l with framer := f, requests := q }).arbitrate
      = s.setLink l { s.link l with framer := f, requests := q } :=
  h.arbitrate_setLink l (h.chosen l)

@[simp] theorem State.setLink_link (s : State) (l : Link) : s.setLink l (s.link l) = s := by
  rw [State.setLink, State.link, Tab.put_get]

end

/-! ### The framer (R162, R163) -/

/-- The framer changes its own state and its link's request queue. -/
theorem LinkRec.rxOctet_eq (now : Uptime) (x : LinkRec) (o : Octet) (e : Bool) :
    x.rxOctet now o e = { x with framer := (x.rxOctet now o e).framer, requests := (x.rxOctet now o e).requests } := by
  unfold LinkRec.rxOctet
  split
  · split <;> rfl
  · split
    · rfl
    · unfold LinkRec.collectOctet
      split
      · split <;> rfl
      · split
        · unfold LinkRec.frameComplete
          split <;> rfl
        · rfl
  · rfl

theorem exec_rxOctet {s : State} (h : s.Settled) (l : Link) (o : Octet) (e : Bool) :
    exec (.rxOctet l o e) s = .next (s.setLink l ((s.link l).rxOctet s.uptime o e)) := by
  rw [exec, execRxOctet, State.event_settled h, LinkRec.rxOctet_eq, h.arbitrate_setFramer]

section
variable {x : LinkRec} (now : Uptime) (o : Octet)

theorem LinkRec.rxOctet_start (h : x.framer = .hunt) :
    x.rxOctet now 0xC3 false = { x with framer := .collect [] (msAfter now 3) } := by
  simp [LinkRec.rxOctet, h]

theorem LinkRec.rxOctet_hunt (h : x.framer = .hunt) {e : Bool} (ho : e = true ∨ o ≠ 0xC3) : x.rxOctet now o e = x := by
  have hno : ¬ (e = false ∧ o = 0xC3) := fun ⟨he, hc⟩ => ho.elim (fun h => by rw [he] at h; cases h) fun h => h hc
  simp only [LinkRec.rxOctet, h, hno, Bool.and_eq_true, Bool.not_eq_true', beq_iff_eq, if_false]

theorem LinkRec.rxOctet_break (h : x.framer = .brk) (e : Bool) : x.rxOctet now o e = x := by
  simp [LinkRec.rxOctet, h]

variable {os : List Octet} {gap : Uptime} (h : x.framer = .collect os gap)
include h

theorem LinkRec.rxOctet_error : x.rxOctet now o true = { x with framer := .hunt } := by
  simp [LinkRec.rxOctet, h]

theorem LinkRec.rxOctet_collect : x.rxOctet now o false = x.collectOctet now os o := by
  simp [LinkRec.rxOctet, h]

end

/-- Whatever its framer, the link whose frame is complete hunts again. -/
theorem LinkRec.frameComplete_eq (x : LinkRec) (os : List Octet) :
    x.frameComplete os = { x with
      framer := .hunt
      requests := match judgeFrame os with
        | some r => joinQueue x.requests r
        | none => x.requests } := by
  unfold LinkRec.frameComplete
  cases judgeFrame os <;> rfl

/-! ### The check of a frame (R161, R164) -/

theorem judgeFrame_append {inner check : List Octet} (h : check.length = 2) :
    judgeFrame (inner ++ check) = if checkOctets inner = check then
      match inner with
      | _ :: tag :: control :: code :: target :: body =>
        if control.getLsbD 0 || control.getLsbD 1 then none
        else
          some { tag := tag, urgent := control.getLsbD 7, ackWanted := control.getLsbD 6, code := code,
                 target := target, body := body }
      | _ => none
    else none := by
  have hlen : (inner ++ check).length - 2 = inner.length := by rw [List.length_append, h]; omega
  unfold judgeFrame
  simp only [hlen, List.take_left', List.drop_left'] <;> rfl

theorem judgeFrame_of_bad {inner check : List Octet} (h : check.length = 2) (hc : check ≠ checkOctets inner) :
    judgeFrame (inner ++ check) = none := by
  rw [judgeFrame_append h, if_neg (Ne.symm hc)]

theorem judgeFrame_of_good (len tag control code target : Octet) (body : List Octet) :
    judgeFrame ((len :: tag :: control :: code :: target :: body)
        ++ checkOctets (len :: tag :: control :: code :: target :: body))
      = if control.getLsbD 0 || control.getLsbD 1 then none
        else some { tag := tag, urgent := control.getLsbD 7, ackWanted := control.getLsbD 6, code := code,
                    target := target, body := body } := by
  rw [judgeFrame_append rfl, if_pos rfl]

/-- Settles O7: a case for each state of the framer. -/
theorem theFramerTakesAnOctet : Obligations.TheFramerTakesAnOctet := by
  refine ⟨fun l o e s hs => ?_, fun inner check hlen hne => judgeFrame_of_bad hlen hne,
    fun len tag control code target body hbits => ?_⟩
  · have hexec := exec_rxOctet hs l
    refine ⟨fun hf he ho => ?_, fun hf ho => ?_, fun hf => ?_, fun os gap hf => ⟨fun he => ?_, fun he hos ho => ?_,
      fun he hos h4 h132 => ?_, fun he len rest hos => ⟨fun hmore => ?_, fun hlast => ?_⟩⟩⟩
    · subst he ho
      rw [hexec, LinkRec.rxOctet_start _ hf]
    · rw [hexec, LinkRec.rxOctet_hunt _ _ hf ho, State.setLink_link]
    · rw [hexec, LinkRec.rxOctet_break _ _ hf, State.setLink_link]
    · subst he
      rw [hexec, LinkRec.rxOctet_error _ _ hf]
    · subst he hos
      rw [hexec, LinkRec.rxOctet_collect _ _ hf, LinkRec.collectOctet, if_pos ho]
    · subst he hos
      rw [hexec, LinkRec.rxOctet_collect _ _ hf, LinkRec.collectOctet, if_neg (by omega)]
    · subst he hos
      rw [hexec, LinkRec.rxOctet_collect _ _ hf, LinkRec.collectOctet, if_neg hmore]
    · subst he hos
      rw [hexec, LinkRec.rxOctet_collect _ _ hf, LinkRec.collectOctet, if_pos hlast, LinkRec.frameComplete_eq] <;> rfl
  · rw [judgeFrame_of_good, if_pos (by simpa using hbits)]

/-! ### A frame received (R160 to R166) -/

theorem State.Settled.setFramer {s : State} (h : s.Settled) (l : Link) (x : LinkRec)
    (hx : x = { s.link l with framer := x.framer, requests := x.requests }) : (s.setLink l x).Settled :=
  ⟨h.1, by rw [hx, h.arbitrate_setFramer]⟩

/-- Octets delivered one after another change the link record alone. -/
theorem receiveAll_eq {s : State} (h : s.Settled) (l : Link) (os : List Octet) :
    receiveAll l os s = s.setLink l (os.foldl (fun x o => x.rxOctet s.uptime o false) (s.link l)) := by
  induction os generalizing s with
  | nil => exact (State.setLink_link s l).symm
  | cons o os ih =>
    have hnext : (s.setLink l ((s.link l).rxOctet s.uptime o false)).Settled :=
      h.setFramer l _ (LinkRec.rxOctet_eq _ _ _ _)
    change receiveAll l os (afterOutcome s (exec (.rxOctet l o false) s)) = _
    rw [exec_rxOctet h, afterOutcome, ih hnext, State.link_setLink_self]
    exact State.ext_fields rfl rfl rfl rfl rfl rfl rfl rfl rfl rfl rfl rfl rfl rfl
      (Tab.ext_get fun i => by
        simp only [State.setLink, Tab.get_put, List.foldl_cons]
        split <;> rfl) rfl

/-- The rest of a frame collected: its last octet completes it. -/
theorem LinkRec.foldl_rxOctet (now : Uptime) {len : Octet} {pre : List Octet} {x : LinkRec} {gap : Uptime}
    (hf : x.framer = .collect (len :: pre) gap) {os : List Octet} (hne : os ≠ [])
    (hlen : (len :: pre).length + os.length = len.toNat + 3) :
    os.foldl (fun x o => x.rxOctet now o false) x = x.frameComplete ((len :: pre) ++ os) := by
  induction os generalizing pre x gap with
  | nil => exact absurd rfl hne
  | cons o os ih =>
    rw [List.foldl_cons, LinkRec.rxOctet_collect _ _ hf, LinkRec.collectOctet]
    by_cases hos : os = []
    · subst hos
      rw [if_pos (by simpa using hlen)]
      rfl
    · have hpos : 0 < os.length := List.length_pos_of_ne_nil hos
      rw [if_neg (by simp only [List.length_cons] at hlen ⊢; omega)]
      rw [ih (pre := pre ++ [o]) rfl hos (by simp only [List.length_cons, List.length_append, List.length_nil] at hlen ⊢; omega),
        LinkRec.frameComplete_eq, LinkRec.frameComplete_eq]
      simp only [List.cons_append, List.append_assoc, List.nil_append]

theorem Request.judgeFrame_inner (r : Request) :
    let control : Octet := BitVec.ofNat 8 (128 * flagCode r.urgent + 64 * flagCode r.ackWanted)
    let inner := BitVec.ofNat 8 (4 + r.body.length) :: r.tag :: control :: r.code :: r.target :: r.body
    judgeFrame (inner ++ checkOctets inner) = some r := by
  have hcontrol : ∀ u a : Bool, let control : Octet := BitVec.ofNat 8 (128 * flagCode u + 64 * flagCode a)
      control.getLsbD 0 = false ∧ control.getLsbD 1 = false ∧ control.getLsbD 7 = u ∧ control.getLsbD 6 = a := by
    decide
  obtain ⟨h0, h1, h7, h6⟩ := hcontrol r.urgent r.ackWanted
  intro control inner
  rw [judgeFrame_of_good, h0, h1, h7, h6]
  rfl

/-- Settles O8: the framer starts at C3h, takes the length, collects to the last check octet and finds the check right. -/
theorem aRequestFrameReachesTheQueue : Obligations.ARequestFrameReachesTheQueue := by
  intro l r s hs hf hbody
  obtain ⟨inner, hinner⟩ : ∃ inner, inner = BitVec.ofNat 8 (4 + r.body.length) :: r.tag
      :: BitVec.ofNat 8 (128 * flagCode r.urgent + 64 * flagCode r.ackWanted) :: r.code :: r.target :: r.body := ⟨_, rfl⟩
  have hframe : r.frame = 0xC3 :: (inner ++ checkOctets inner) := by rw [hinner]; rfl
  have hlen : (BitVec.ofNat 8 (4 + r.body.length) : Octet).toNat = 4 + r.body.length := by
    rw [BitVec.toNat_ofNat, Nat.mod_eq_of_lt (by omega)]
  have hjudge : judgeFrame (inner ++ checkOctets inner) = some r := by
    rw [hinner]
    exact r.judgeFrame_inner
  rw [receiveAll_eq hs, hframe, List.foldl_cons, LinkRec.rxOctet_start _ hf, hinner, List.cons_append, List.foldl_cons,
    LinkRec.rxOctet_collect _ _ rfl, LinkRec.collectOctet, if_neg (by rw [hlen]; omega),
    LinkRec.foldl_rxOctet (pre := []) s.uptime rfl (by simp) (by
      rw [hlen]
      simp [checkOctets, be16]
      omega)]
  rw [hinner] at hjudge
  simp only [List.cons_append, List.nil_append] at hjudge ⊢
  rw [LinkRec.frameComplete_eq, hjudge]

/-! ### Transmitters (R160, R173) -/

/-- The frame a transmitter takes at an uptime, with the end it is given (R160; log 6). -/
def Transmitter.begun (now : Uptime) (f : TxFrame) : Transmitter :=
  .sending f (now + BitVec.ofNat 32 ((10 * 1000 * f.octets.length + (115200 - 1)) / 115200))

theorem Transmitter.begun_eq (now : Uptime) (f : TxFrame) :
    Transmitter.begun now f = .sending f (msAfter now (sendMs f.octets.length)) := by
  have h : (10 * 1000 * f.octets.length + (115200 - 1)) / 115200 = sendMs f.octets.length := by
    rw [sendMs, Nat.mul_comm]
  rw [Transmitter.begun, h]
  rfl

/-- A link record that a transmitter's choice leaves chooses no more. -/
theorem LinkRec.chosen_beginNext (now : Uptime) (x : LinkRec) : (x.beginNext now).Chosen := by
  unfold LinkRec.beginNext LinkRec.Chosen
  split
  · exact fun h => by cases h
  next hr =>
    split
    · exact fun h => by cases h
    next hn => exact fun _ => ⟨hr, hn⟩

/-- What a transmitter takes: the oldest response, else the oldest notice, else nothing (R173). -/
structure LinkRec.TakesNext (now : Uptime) (x y : LinkRec) : Prop where
  framer : y.framer = x.framer
  requests : y.requests = x.requests
  mask : y.mask = x.mask
  response : ∀ r rest, x.responses = r :: rest →
    y.transmitter = Transmitter.begun now (.response r) ∧ y.responses = rest ∧ y.notices = x.notices
  notice : ∀ n rest, x.responses = [] → x.notices = n :: rest →
    y.transmitter = Transmitter.begun now (.notice n) ∧ y.responses = [] ∧ y.notices = rest
  nothing : x.responses = [] → x.notices = [] → y.transmitter = .idle ∧ y.responses = [] ∧ y.notices = []

theorem LinkRec.takesNext_beginNext (now : Uptime) (x : LinkRec) : x.TakesNext now (x.beginNext now) := by
  refine ⟨?_, ?_, ?_, fun r rest hr => ?_, fun n rest hr hn => ?_, fun hr hn => ?_⟩
  · unfold LinkRec.beginNext; split
    · rfl
    · split <;> rfl
  · unfold LinkRec.beginNext; split
    · rfl
    · split <;> rfl
  · unfold LinkRec.beginNext; split
    · rfl
    · split <;> rfl
  · rw [Transmitter.begun_eq, LinkRec.beginNext, hr]
    exact ⟨rfl, rfl, rfl⟩
  · rw [Transmitter.begun_eq, LinkRec.beginNext, hr, hn]
    exact ⟨rfl, rfl, rfl⟩
  · rw [LinkRec.beginNext, hr, hn]
    exact ⟨rfl, rfl, rfl⟩

/-! ### The octets of a frame sent (R160, R170, R176) -/

theorem TxFrame.octets_of_content {f : TxFrame} {tag control code target : Octet} {body : List Octet}
    (h : f.content = tag :: control :: code :: target :: body) :
    f.octets = 0xC3 :: ((BitVec.ofNat 8 (4 + body.length) :: tag :: control :: code :: target :: body)
      ++ checkOctets (BitVec.ofNat 8 (4 + body.length) :: tag :: control :: code :: target :: body)) := by
  have hlen : (tag :: control :: code :: target :: body).length = 4 + body.length := by
    simp only [List.length_cons]
    omega
  unfold TxFrame.octets
  rw [h, hlen]
  rfl

theorem flatMap_be8 {α : Type} (f : α → Nat) (xs : List α) :
    xs.flatMap (fun x => be8 (f x)) = xs.map fun x => BitVec.ofNat 8 (f x) := by
  induction xs with
  | nil => rfl
  | cons x xs ih => rw [List.flatMap_cons, ih]; rfl

/-- A sum of distinct powers of two has exactly their bits. -/
theorem testBit_sum_two_pow (f : Nat → Bool) (n : Nat) :
    (∑ i ∈ Finset.range n, if f i then 2 ^ i else 0) < 2 ^ n
    ∧ ∀ k, (∑ i ∈ Finset.range n, if f i then 2 ^ i else 0).testBit k = (decide (k < n) && f k) := by
  induction n with
  | zero => simp
  | succ n ih =>
    obtain ⟨hlt, hbits⟩ := ih
    rw [Finset.sum_range_succ]
    cases hf : f n with
    | false =>
      simp only [Bool.false_eq_true, if_false, add_zero]
      refine ⟨hlt.trans (Nat.pow_lt_pow_right (by decide) (Nat.lt_succ_self n)), fun k => ?_⟩
      rw [hbits]
      by_cases hk : k = n
      · subst hk; simp [hf]
      · have : k < n ↔ k < n + 1 := by omega
        simp [this]
    | true =>
      simp only [if_true]
      refine ⟨by rw [pow_succ]; omega, fun k => ?_⟩
      rw [add_comm]
      obtain hk | rfl | hk := Nat.lt_trichotomy k n
      · rw [Nat.testBit_two_pow_add_gt hk, hbits]
        have : k < n + 1 := by omega
        simp [hk, this]
      · rw [Nat.testBit_two_pow_add_eq, hbits]
        simp [hf]
      · have hbig : 2 ^ n + ∑ i ∈ Finset.range n, (if f i then 2 ^ i else 0) < 2 ^ k := by
          have : 2 ^ (n + 1) ≤ 2 ^ k := Nat.pow_le_pow_right (by decide) hk
          rw [pow_succ] at this
          omega
        rw [Nat.testBit_lt_two_pow hbig]
        have : ¬ k < n + 1 := by omega
        simp [this]

/-- The bits of the mask of a list of units (R178). -/
theorem testBit_maskOf {n : Nat} (us : List (Fin n)) (k : Fin n) : (maskOf us).testBit k.val = decide (k ∈ us) := by
  have hsum : maskOf us = ∑ i ∈ Finset.range n, if (decide (∃ h : i < n, (⟨i, h⟩ : Fin n) ∈ us)) then 2 ^ i else 0 := by
    rw [Finset.sum_range, maskOf, ← List.sum_ofFn, List.ofFn_eq_map]
    congr 2
    funext i
    simp
  rw [hsum, (testBit_sum_two_pow _ n).2]
  simp

theorem getLsbD_maskOf (us : List (Fin 8)) (k : Fin 8) :
    (BitVec.ofNat 8 (maskOf us) : Octet).getLsbD k.val = true ↔ k ∈ us := by
  rw [BitVec.getLsbD_ofNat, testBit_maskOf]
  simp

section
variable {s : State} (h : s.Settled) (l : Link)
include h

theorem exec_gapTimerExpiry_collect {os : List Octet} {gap : Uptime} (hf : (s.link l).framer = .collect os gap) :
    exec (.gapTimerExpiry l) s = .next ((s.reach gap).setLink l { s.link l with framer := .hunt }) := by
  rw [exec, execGapTimerExpiry, State.event_settled h]
  simp only [hf]
  refine congrArg _ (State.Settled.arbitrate_setLink (s := s.reach gap) ⟨h.1, h.of_links rfl⟩ l ?_)
  exact h.chosen l

theorem exec_gapTimerExpiry_other (hf : ∀ os gap, (s.link l).framer ≠ .collect os gap) :
    exec (.gapTimerExpiry l) s = .next s := by
  rw [exec, execGapTimerExpiry, State.event_settled h]
  cases hx : (s.link l).framer with
  | hunt => simp only [h.2]
  | collect os gap => exact absurd hx (hf os gap)
  | brk => simp only [h.2]

theorem exec_lineReturnsToMark_break (hf : (s.link l).framer = .brk) :
    exec (.lineReturnsToMark l) s
      = .next (s.setLink l (LinkRec.beginNext s.uptime { s.link l with framer := .hunt })) := by
  rw [exec, execLineReturnsToMark, State.event_settled h]
  simp only [hf, if_true]
  rw [h.arbitrate_setLink l (LinkRec.chosen_beginNext _ _)]

theorem exec_lineReturnsToMark_other (hf : (s.link l).framer ≠ .brk) : exec (.lineReturnsToMark l) s = .next s := by
  rw [exec, execLineReturnsToMark, State.event_settled h]
  simp only [hf, if_false, h.2]

theorem exec_transmissionEnd_sending {f : TxFrame} {ends : Uptime} (hf : (s.link l).transmitter = .sending f ends) :
    exec (.transmissionEnd l) s = .next (s.setLink l ((s.link l).beginNext s.uptime)) := by
  rw [exec, execTransmissionEnd, State.event_settled h]
  simp only [hf]
  rw [h.arbitrate_setLink l (LinkRec.chosen_beginNext _ _)]

theorem exec_transmissionEnd_other (hf : ∀ f ends, (s.link l).transmitter ≠ .sending f ends) :
    exec (.transmissionEnd l) s = .next s := by
  rw [exec, execTransmissionEnd, State.event_settled h]
  cases hx : (s.link l).transmitter with
  | idle => simp only [h.2]
  | sending f ends => exact absurd hx (hf f ends)
  | silent => simp only [h.2]

end

/-- Settles O10: a lemma for each event of a link, and the content of each frame laid out by `TxFrame.octets_of_content`. -/
theorem transmittersTakeResponsesFirst : Obligations.TransmittersTakeResponsesFirst := by
  refine ⟨fun l s hs => ⟨fun os gap hf => ?_, fun hf => ?_, fun hf => ?_, fun hf => ?_, fun hsend => ?_, fun hsend => ?_⟩,
    fun r => ?_, fun p st role act => ?_, fun p src acc => ?_, fun m st f inv val flag => ?_, fun z failed stuck => ?_,
    fun z flag ramped capacity => ?_, fun b mode cls congested stale emergency => ?_, fun p lum => ?_, fun p => ?_, ?_⟩
  · exact exec_gapTimerExpiry_collect hs l hf
  · exact exec_gapTimerExpiry_other hs l hf
  · have h := LinkRec.takesNext_beginNext s.uptime { s.link l with framer := .hunt }
    exact ⟨_, exec_lineReturnsToMark_break hs l hf, h.framer, h.requests, h.mask, h.response, h.notice, h.nothing⟩
  · exact exec_lineReturnsToMark_other hs l hf
  · obtain ⟨f, ends, hsend⟩ := hsend
    have h := LinkRec.takesNext_beginNext s.uptime (s.link l)
    exact ⟨_, exec_transmissionEnd_sending hs l hsend, h.framer, h.requests, h.mask, h.response, h.notice, h.nothing⟩
  · exact exec_transmissionEnd_other hs l hsend
  · rw [TxFrame.octets_of_content (body := r.body) rfl, Response.body, flatMap_be8]
    rfl
  · exact TxFrame.octets_of_content rfl
  · exact TxFrame.octets_of_content rfl
  · exact TxFrame.octets_of_content rfl
  · exact ⟨_, _, TxFrame.octets_of_content rfl, fun k => ⟨getLsbD_maskOf failed k, getLsbD_maskOf stuck k⟩⟩
  · exact TxFrame.octets_of_content rfl
  · have hflags : ∀ c t e : Bool, (BitVec.ofNat 8 (flagCode c + 2 * flagCode t + 4 * flagCode e) : Octet)
        = (if c then 1 else 0) ||| (if t then 2 else 0) ||| (if e then 4 else 0) := by decide
    rw [← hflags]
    exact TxFrame.octets_of_content rfl
  · exact TxFrame.octets_of_content rfl
  · exact TxFrame.octets_of_content rfl
  · exact ⟨_, TxFrame.octets_of_content rfl⟩

/-! ### A link restart (R165, R175) -/

/-- A portal of another answer keeps its pending action's owed flag (R116). -/
theorem Portal.unowed_eq (l : Link) (x : Portal) :
    x.unowed l = { x with action := x.action.map fun a => { a with answerOwed := a.answerOwed && a.link != l } } := by
  have hact : ∀ a : PendingAction, (if a.link = l then { a with answerOwed := false } else a)
      = { a with answerOwed := a.answerOwed && a.link != l } := by
    intro a
    split
    next ha => rw [ha, bne_self_eq_false, Bool.and_false]
    next ha => rw [bne_iff_ne.mpr ha, Bool.and_true]
  unfold Portal.unowed
  simp only [hact]

theorem exec_linkRestart {s : State} (h : s.Settled) {l : Link} (hf : (s.link l).framer ≠ .brk) :
    exec (.linkRestart l) s = .next
      { s.setLink l (s.link l).restarted with portals := s.portals.mapWith fun _ x => x.unowed l } := by
  rw [exec, execLinkRestart, State.event_settled h]
  simp only [hf, if_false]
  refine congrArg _ (State.arbitrate_eq_self_iff.mpr fun k => ?_)
  have hlink : State.link { s.setLink l (s.link l).restarted with portals := s.portals.mapWith fun _ x => x.unowed l } k
      = (s.setLink l (s.link l).restarted).link k := rfl
  rw [hlink, State.link_setLink]
  split
  · exact fun hi => by cases hi
  · exact h.chosen k

/-- Settles O11: the notices by the cases of `requeueCut`. -/
theorem aLinkRestartEmptiesTheLink : Obligations.ALinkRestartEmptiesTheLink := by
  intro l s hs hf
  refine ⟨_, exec_linkRestart hs hf, ?_⟩
  have hself : ∀ ps, State.link { s.setLink l (s.link l).restarted with portals := ps } l = (s.link l).restarted :=
    fun _ => State.link_setLink_self _ _ _
  rw [hself]
  refine ⟨rfl, rfl, rfl, rfl, rfl, fun hno => ?_, fun n ends hn => ⟨fun hk => ?_, fun hk hcold hmask => ?_,
    fun hk hmask => ?_⟩, fun p => ?_, fun k hk => ?_, rfl⟩
  · change requeueCut _ _ _ = _
    unfold requeueCut
    split
    · rfl
    · rfl
    · rfl
    next n ends hn => exact absurd hn (hno n ends)
  · change requeueCut _ _ _ = _
    rw [hn, requeueCut, if_pos hk]
  · change requeueCut _ _ _ = _
    rw [hn, requeueCut, if_neg (by rw [hk]; decide), if_neg (by rintro (h | h); exacts [hcold h, hmask h])]
  · change requeueCut _ _ _ = _
    rw [hn, requeueCut, if_neg (by rw [hk]; decide), if_pos hmask]
  · rw [State.portal_restart, Portal.unowed_eq]
  · exact State.link_setLink_ne _ hk _

end Sys2Proof.Machine
end

section
/-! SUPPORT. How a take by a request engine ends (R167 to R171), and what the engine refuses (R168, R178). -/

namespace Sys2Proof.Machine

/-! ### A request that has left its queue (R167) -/

section
variable (s : State) (l : Link)

@[simp] theorem State.uptime_popRequest : (s.popRequest l).uptime = s.uptime := rfl

@[simp] theorem State.line_popRequest (i : Fin 192) : (s.popRequest l).line i = s.line i := rfl

@[simp] theorem State.meter_popRequest (m : Fin 4) : (s.popRequest l).meter m = s.meter m := rfl

@[simp] theorem State.portal_popRequest (p : Fin 4) : (s.popRequest l).portal p = s.portal p := rfl

@[simp] theorem State.bore_popRequest (b : Fin 2) : (s.popRequest l).bore b = s.bore b := rfl

@[simp] theorem State.zone_popRequest (z : Fin 14) : (s.popRequest l).zone z = s.zone z := rfl

end

/-! ### How a take ends (R168 to R171) -/

section
variable {s t : State} {l : Link} {c : ReqCode} {r : Request} {act : Handler} {mine : Request → Bool}

theorem State.Takes.isFor (h : s.Takes l c r) : Request.isFor c r = true := by
  simp [Request.isFor, h.2.1]

theorem State.Takes.returnsData (h : s.Takes l c r) : r.returnsData = c.returnsData := by
  simp [Request.returnsData, h.2.1]

/-- A take of a request that passes the engine's checks acts on the state without it (R167, R168). -/
theorem State.Takes.take (h : s.Takes l c r) (hm : mine r = true) :
    s.take l mine (checked l c act)
      = ((act r (s.popRequest l)).1.respond l r (act r (s.popRequest l)).2).arbitrate := by
  obtain ⟨hoff, -, hmay, hlen⟩ := h
  rw [State.take_offered hoff hm]
  simp only [checked, hmay, hlen, if_true]

/-- A refusal is answered with its disposition, whatever the ack-wanted flag (R171). -/
theorem State.Offers.refused (h : s.Offers l r) (hm : mine r = true) {x : Reply} (htarget : x.target = r.target)
    (hact : act r (s.popRequest l) = (s.popRequest l, some x)) (hd : x.frame.tookEffect = false) :
    s.take l mine act = s.answer l r x.frame x.each x.data := by
  rw [State.take_offered h hm, hact]
  simp only [State.respond_some, Reply.made_refusal hd, if_true, htarget]
  rfl

variable (h : s.Takes l c r) (hm : mine r = true)
include h hm

/-- A take that changes no block and whose response is made answers it. -/
theorem State.Takes.answer {x : Reply} (htarget : x.target = r.target)
    (hact : act r (s.popRequest l) = (t.popRequest l, some x))
    (hmade : c.returnsData = true ∨ x.frame.tookEffect = false) :
    s.take l mine (checked l c act) = t.answer l r x.frame x.each x.data := by
  have hmade : x.made r = true := hmade.elim (fun hc => Reply.made_read (h.returnsData.trans hc)) Reply.made_refusal
  rw [h.take hm, hact]
  simp only [State.respond_some, hmade, if_true, htarget]
  rfl

/-- A take refused as a whole answers its disposition alone. -/
theorem State.Takes.refuse {d : Disposition} (hact : act r (s.popRequest l) = (s.popRequest l, some (Reply.alone r d)))
    (hd : d.tookEffect = false) : s.take l mine (checked l c act) = s.answer l r d [] [] :=
  h.answer (t := s) hm rfl hact (.inr hd)

/-- A read answers its data. -/
theorem State.Takes.read {data : List Octet}
    (hact : act r (s.popRequest l) = (s.popRequest l, some (Reply.withData r data))) (hc : c.returnsData = true) :
    s.take l mine (checked l c act) = s.answer l r .done [] data :=
  h.answer (t := s) hm rfl hact (.inl hc)

/-- A take that took effect answers where an answer is wanted. -/
theorem State.Takes.finish {d : Disposition} (hact : act r (s.popRequest l) = (t, some (Reply.alone r d)))
    (hd : d.tookEffect = true) (hc : c.returnsData = false) :
    s.take l mine (checked l c act) = t.finish l r d [] := by
  rw [h.take hm, hact]
  simp only [State.respond_some, Reply.made_effect (x := Reply.alone r d) (h.returnsData.trans hc) hd]
  rfl

/-- A take of a request with a mask reports what each unit answered. -/
theorem State.Takes.report {each : List Disposition}
    (hact : act r (s.popRequest l) = (t, some (Reply.masked r.target each []))) (hc : c.returnsData = false) :
    s.take l mine (checked l c act) = t.report l r each := by
  rw [h.take hm, hact]
  simp only [State.respond_some, Reply.made, h.returnsData.trans hc, Bool.false_or]
  rfl

end

/-! ### The units of a request (R178) -/

section
variable {n : Nat} {r : Request} {s : State}

theorem overUnits_of_none (h : unitsOf n r.target = none) (refusal : Option Disposition)
    (visit : Fin n → State → State × Disposition) :
    overUnits n refusal visit r s = (s, some (Reply.alone r .badValue)) := by
  simp only [overUnits, h]

theorem overUnits_refusal {us : List (Fin n)} (h : unitsOf n r.target = some us) (d : Disposition)
    (visit : Fin n → State → State × Disposition) :
    overUnits n (some d) visit r s = (s, some (Reply.masked r.target (us.map fun _ => d) [])) := by
  simp only [overUnits, h]

theorem readUnits_of_none (h : unitsOf n r.target = none) (data : State → Fin n → List Octet) :
    readUnits n data r s = (s, some (Reply.alone r .badValue)) := by
  simp only [readUnits, h]

theorem onUnit_of_none (h : finOf n r.target.toNat = none) (act : Fin n → Handler) :
    onUnit n act r s = (s, some (Reply.alone r .badValue)) := by
  simp only [onUnit, h]

theorem onUnit_of_some {u : Fin n} (h : finOf n r.target.toNat = some u) (act : Fin n → Handler) :
    onUnit n act r s = act u r s := by
  simp only [onUnit, h]

theorem deferAll_of_none {kind : ActionKind} {l : Link} (h : unitsOf 4 r.target = none) :
    deferAll kind l r s = (s, some (Reply.alone r .badValue)) := by
  simp only [deferAll, h]

theorem unitsOf_eq_none {mask : Octet} (h : mask = 0 ∨ 2 ^ n ≤ mask.toNat) : unitsOf n mask = none := if_pos h

theorem finOf_eq_none {k : Nat} (h : n ≤ k) : finOf n k = none := dif_neg (by omega)

theorem finOf_eq_some {k : Nat} {u : Fin n} : finOf n k = some u ↔ k = u.val := by
  unfold finOf
  split
  next hk => rw [Option.some.injEq]; exact ⟨fun h => by rw [← h], fun h => Fin.ext h⟩
  next hk => exact ⟨nofun, fun h => absurd (h ▸ u.isLt) hk⟩

end

/-! ### The rows of the requests (R167, R168) -/

/-- The command of the row of `r` is a take of `r` that makes the engine's checks for code `c` and then acts by `act`. -/
def TakenBy (l : Link) (c : ReqCode) (r : Request) (act : Handler) : Prop :=
  ∃ mine : Request → Bool, mine r = true ∧ ∀ s, exec (takeCommand l r) s = .next (s.take l mine (checked l c act))

/-- Every request that has a code is taken by the row of its code. -/
theorem exists_takenBy (l : Link) {c : ReqCode} {r : Request} (hc : reqCodeOf r.code = some c) :
    ∃ act, TakenBy l c r act := by
  have hfor : Request.isFor c r = true := by simp [Request.isFor, hc]
  cases c
  case stop =>
    by_cases hb : r.body = [1]
    · exact ⟨_, Request.isStopImmediate, by simp [Request.isStopImmediate, hfor, hb], fun s => by
        simp only [takeCommand, hc, hb, if_true]; rfl⟩
    · exact ⟨_, Request.isStopOrderly, by rw [Request.isStopOrderly, hfor, bne_iff_ne.mpr hb]; rfl, fun s => by
        simp only [takeCommand, hc, hb, if_false]; rfl⟩
  all_goals exact ⟨_, Request.isFor _, hfor, fun s => by simp only [takeCommand, hc]; rfl⟩

/-- A target octet that names no unit of the kind that requests of code `c` are about (R178). -/
def ReqCode.misses (c : ReqCode) (target : Octet) : Prop :=
  match c with
  | .readPortal | .writePlan | .commission | .hold | .release | .stop | .overrideSet | .overrideClear | .dryRunStart
  | .dryRunInput | .dryRunStop => unitsOf 4 target = none
  | .readBore | .writeBoreSetup | .speedReport | .directionSet | .emergencySet | .emergencyClear =>
    unitsOf 2 target = none
  | .readPlan | .writePortalSetup | .readMeter | .writeMeterSetup => finOf 4 target.toNat = none
  | .readZone | .readCircuit | .writeZone | .lockoutModify | .burnReset => finOf 14 target.toNat = none
  | .readLine | .writeLine => 192 ≤ target.toNat
  | .echo | .setNoticeMask | .readSchedule | .readClock | .writeSchedule | .setClock => False

theorem runOf_of_ge {first : Nat} (h : 192 ≤ first) (count : Nat) : runOf first count = none := if_neg (by omega)

/-- A request whose target names nothing is refused BAD_VALUE by its row, whatever its body (log 26). -/
theorem takenBy_misses (l : Link) {c : ReqCode} {r : Request} (hc : reqCodeOf r.code = some c) (hu : c.misses r.target) :
    ∃ act, TakenBy l c r act ∧ ∀ s, act r s = (s, some (Reply.alone r .badValue)) := by
  have hfor : Request.isFor c r = true := by simp [Request.isFor, hc]
  cases c
  case echo | setNoticeMask | readSchedule | readClock | writeSchedule | setClock => exact hu.elim
  case stop =>
    by_cases hb : r.body = [1]
    · exact ⟨_, ⟨Request.isStopImmediate, by simp [Request.isStopImmediate, hfor, hb], fun s => by
        simp only [takeCommand, hc, hb, if_true]; rfl⟩, fun s => overUnits_of_none hu _ _⟩
    · refine ⟨_, ⟨Request.isStopOrderly, by rw [Request.isStopOrderly, hfor, bne_iff_ne.mpr hb]; rfl, fun s => by
        simp only [takeCommand, hc, hb, if_false]; rfl⟩, fun s => ?_⟩
      split
      · exact deferAll_of_none hu
      · exact overUnits_of_none hu _ _
  all_goals
    refine ⟨_, ⟨Request.isFor _, hfor, fun s => by simp only [takeCommand, hc]; rfl⟩, fun s => ?_⟩
  case readPortal | readBore => exact readUnits_of_none hu _
  case readPlan | readMeter | readZone | readCircuit | writePortalSetup | writeMeterSetup | writeZone | lockoutModify
      | burnReset => exact onUnit_of_none hu _
  case hold | release => exact deferAll_of_none hu
  case writeBoreSetup | overrideClear | dryRunStop | emergencySet | emergencyClear => exact overUnits_of_none hu _ _
  case commission =>
    have hu : unitsOf 4 r.target = none := hu
    simp only [hu]
  case readLine =>
    simp only [runOf_of_ge (hu : 192 ≤ r.target.toNat), ite_self]
  case writeLine =>
    have hl : lineSetting r = none := by
      simp only [lineSetting, runOf_of_ge (hu : 192 ≤ r.target.toNat)]
    simp only [hl]
  all_goals split <;> exact overUnits_of_none hu _ _

/-- The links that may not make a request of code `c` (R168 step 2). -/
theorem mayMake_eq_false (l : Link) (c : ReqCode) :
    mayMake l c = false ↔ match l with
      | .o => c ∈ [ReqCode.speedReport, .directionSet, .emergencySet, .emergencyClear]
      | .t => c ∉ [ReqCode.speedReport, .directionSet, .readPortal, .readBore, .echo, .setNoticeMask]
      | .s => c ∉ [ReqCode.emergencySet, .emergencyClear, .readPortal, .readBore, .echo, .setNoticeMask] := by
  cases l <;> cases c <;> decide

theorem checked_outside {l : Link} {c : ReqCode} (h : mayMake l c = false) (act : Handler) (r : Request) (s : State) :
    checked l c act r s = (s, some (Reply.alone r .notPermitted)) := by
  simp [checked, h]

theorem checked_badLength {l : Link} {c : ReqCode} {r : Request} (h : mayMake l c = true)
    (hl : lengthOk c r.body = false) (act : Handler) (s : State) :
    checked l c act r s = (s, some (Reply.alone r .badLength)) := by
  simp [checked, h, hl]

/-- Settles O13: the checks in front of every row, and the reading of the target octet in each row. -/
theorem theEngineRefuses : Obligations.TheEngineRefuses := by
  refine ⟨fun s l r hoff => ⟨fun hnone => ?_, fun c hc => ?_⟩, fun s l c r hs htarget => ?_⟩
  · have hmine : (reqCodeOf r.code).isNone = true := by rw [hnone]; rfl
    exact congrArg _ (hoff.refused (mine := fun r => (reqCodeOf r.code).isNone) (x := Reply.alone r .unknown) hmine rfl rfl rfl)
  · obtain ⟨act, mine, hmine, htake⟩ := exists_takenBy l hc
    intro outside
    have hout : outside ↔ mayMake l c = false := (mayMake_eq_false l c).symm
    refine ⟨fun h => ?_, fun h hlen => ?_⟩
    · rw [htake]
      exact congrArg _ (hoff.refused (x := Reply.alone r .notPermitted) hmine rfl (checked_outside (hout.mp h) _ _ _) rfl)
    · rw [htake]
      rw [hout, Bool.not_eq_false] at h
      exact congrArg _ (hoff.refused (x := Reply.alone r .badLength) hmine rfl (checked_badLength h hlen _ _) rfl)
  · have hmiss : c.misses r.target := by
      obtain ⟨hc, ht⟩ | ⟨hc, ht⟩ | ⟨hc, ht⟩ | ⟨hc, ht⟩ | ⟨hc, ht⟩ := htarget
      · have := unitsOf_eq_none (n := 4) ht
        fin_cases hc <;> exact this
      · have := unitsOf_eq_none (n := 2) ht
        fin_cases hc <;> exact this
      · have := finOf_eq_none ht
        fin_cases hc <;> exact this
      · have := finOf_eq_none ht
        fin_cases hc <;> exact this
      · fin_cases hc <;> exact ht
    obtain ⟨act, ⟨mine, hmine, htake⟩, hact⟩ := takenBy_misses l hs.2.1 hmiss
    rw [htake]
    exact congrArg _ (hs.refuse hmine (hact _) rfl)

/-! ### The link checks (R177, R181, R182) -/

theorem mem_noticeMaskOf (o : Octet) (k : NoticeKind) :
    k ∈ noticeMaskOf o ↔ k ≠ .coldStart ∧ o.getLsbD (k.code - 0x80) = true := by
  have hall : k ∈ maskable ↔ k ≠ .coldStart := by cases k <;> decide
  rw [noticeMaskOf, List.mem_filter, hall]

/-- Settles O14. -/
theorem linkChecksActOnTheirOwnLink : Obligations.LinkChecksActOnTheirOwnLink := by
  intro s l r
  refine ⟨fun h => congrArg _ (h.read h.isFor rfl rfl), fun h o ho => ⟨noticeMaskOf o, mem_noticeMaskOf o, ?_⟩⟩
  refine congrArg _ (h.finish h.isFor ?_ rfl rfl)
  have hlink : (s.popRequest l).link l = { s.link l with requests := (s.link l).requests.tail } :=
    State.link_setLink_self _ _ _
  have hpurge : ((s.popRequest l).link l).withMask (noticeMaskOf o) = { (s.popRequest l).link l with
      mask := noticeMaskOf o
      notices := (s.link l).notices.filter fun n => n.kind = .coldStart ∨ n.kind ∈ noticeMaskOf o } := by
    rw [hlink, LinkRec.withMask]
    congr 1
    refine List.filter_congr fun n _ => ?_
    simp only [Bool.decide_or, List.contains_eq_mem, beq_eq_decide]
  rw [ho, ← hpurge]
  rfl

end Sys2Proof.Machine
end

section
/-! SUPPORT. What the reads answer (R14, R25, R27, R32, R86, R102, R127, R145, R157, R181 to R186). -/

namespace Sys2Proof.Machine

/-! ### The octets of fields -/

@[simp] theorem length_be8 (n : Nat) : (be8 n).length = 1 := rfl

@[simp] theorem length_be16 (n : Nat) : (be16 n).length = 2 := rfl

@[simp] theorem length_be24 (n : Nat) : (be24 n).length = 3 := rfl

@[simp] theorem length_be32 (n : Nat) : (be32 n).length = 4 := rfl

@[simp] theorem length_opt8 (o : Option Nat) : (opt8 o).length = 1 := rfl

@[simp] theorem length_opt16 (o : Option Nat) : (opt16 o).length = 2 := rfl

@[simp] theorem length_opt32 (o : Option Nat) : (opt32 o).length = 4 := rfl

/-- Records laid out one after another at a fixed length. -/
theorem length_flatMap_const {α β : Type} {f : α → List β} {n : Nat} (h : ∀ x, (f x).length = n) (xs : List α) :
    (xs.flatMap f).length = n * xs.length := by
  induction xs with
  | nil => rfl
  | cons x xs ih => rw [List.flatMap_cons, List.length_append, ih, h, List.length_cons, Nat.mul_succ, Nat.add_comm]

@[simp] theorem length_overrideFields (now : Uptime) (o : Option Override) : (overrideFields now o).length = 8 := by
  cases o <;> rfl

@[simp] theorem length_actionFields (o : Option PendingAction) : (actionFields o).length = 3 := by cases o <;> rfl

@[simp] theorem length_dryRunFields (o : Option DryRunInput) : (dryRunFields o).length = 4 := by cases o <;> rfl

@[simp] theorem length_slotEntry (o : Option Circuit) : (slotEntry o).length = 5 := by cases o <;> rfl

@[simp] theorem length_previewFields (o : Option Preview) : (previewFields o).length = 6 := by cases o <;> rfl

@[simp] theorem length_timerFields (now : Uptime) (o : Option CircuitTimer) : (timerFields now o).length = 3 := by
  cases o <;> rfl

theorem length_sampleEntry (x : Sample) : (sampleEntry x).length = 7 := rfl

theorem length_portalSummary (s : State) (p : Fin 4) : (portalSummary s p).length = 30 := by
  simp [portalSummary]

theorem length_boreSummary (s : State) (b : Fin 2) : (boreSummary s b).length = 20 := by
  simp [boreSummary, portalsOf]

theorem length_zoneData (z : Zone) : (zoneData z).length = 78 := by
  simp [zoneData, zoneSetup, length_flatMap_const length_slotEntry, z.slots.size,
    length_flatMap_const (fun o : Option Circuit => length_opt8 (o.map fun c => c.state.code))]

theorem length_circuitEntry (s : State) (o : Option Circuit) : (circuitEntry s o).length = 16 := by
  cases o with
  | none => rfl
  | some c => simp [circuitEntry]

theorem length_meterData (m : Meter) : (meterData m).length = 14 + 7 * m.ring.length := by
  simp [meterData, length_flatMap_const length_sampleEntry]
  omega

/-! ### The layouts -/

theorem tab_rows {n : Nat} {α : Type} (t : Tab n α) : t.rows = (List.finRange n).map t.get := by
  refine List.ext_getElem (by rw [t.size]; simp) fun i h k => ?_
  simp [Tab.get]

theorem portalSummary_eq (s : State) (p : Fin 4) :
    portalSummary s p =
      be8 (s.portal p).state.code ++ opt8 ((s.portal p).meter.map Fin.val) ++ opt8 ((s.portal p).partner.map Fin.val)
      ++ be16 (s.portal p).factor ++ opt8 ((s.portal p).source.map Source.code) ++ opt16 (s.portal p).access
      ++ opt8 ((s.portal p).planInUse.map PlanSlot.code) ++ be8 (flagCode (s.portal p).night)
      ++ be16 (s.portal p).lowCount ++ opt8 ((s.portal p).role.map Role.code)
      ++ overrideFields s.uptime (s.portal p).override ++ actionFields (s.portal p).action
      ++ dryRunFields (s.portal p).dryRun ++ opt16 ((s.portal p).timer.map (msLeft s.uptime)) := rfl

theorem ofNat_flagCode (b : Bool) : (BitVec.ofNat 8 (flagCode b) : Octet) = if b then 1 else 0 := by
  cases b <;> rfl

/-- Four flags in one octet. -/
theorem ofNat_flags (c t e n : Bool) :
    (BitVec.ofNat 8 (flagCode c + 2 * flagCode t + 4 * flagCode e + 8 * flagCode n) : Octet)
      = (if c then 1 else 0) ||| (if t then 2 else 0) ||| (if e then 4 else 0) ||| (if n then 8 else 0) := by
  revert c t e n
  decide

theorem flatMap_slotEntry (z : Zone) :
    z.slots.rows.flatMap slotEntry = ((List.finRange 8).map z.slots.get).flatMap slotEntry := by
  rw [tab_rows]

theorem State.feedbackPresent_eq (s : State) (c : Circuit) :
    s.feedbackPresent c = c.feedback.any fun i => (s.line i).fn == .feedbackIn && (s.line i).debounced == some true := by
  unfold State.feedbackPresent
  cases c.feedback <;> rfl

theorem planSlotOf_of_gt {o : Octet} (h : 1 < o.toNat) : planSlotOf o = none := by
  have h0 : o ≠ 0 := by rintro rfl; exact absurd h (by decide)
  have h1 : o ≠ 1 := by rintro rfl; exact absurd h (by decide)
  rw [planSlotOf, if_neg h0, if_neg h1]

section
variable {s : State} {l : Link} {c : ReqCode} {r : Request}

/-- A take of a request about one unit is that unit's take. -/
theorem State.Takes.unit {n : Nat} (h : s.Takes l c r) {u : Fin n} (hu : finOf n r.target.toNat = some u)
    (act : Fin n → Handler) :
    s.takeFor l c (onUnit n act) = s.takeFor l c (act u) := by
  change s.take l _ (checked l c _) = s.take l _ (checked l c _)
  rw [h.take h.isFor, h.take h.isFor, onUnit_of_some hu]

/-- A read with a mask answers DONE for each unit, and then their data (R183). -/
theorem State.Takes.readUnits {n : Nat} (h : s.Takes l c r) (hc : c.returnsData = true) {us : List (Fin n)}
    (hu : unitsOf n r.target = some us) (data : State → Fin n → List Octet) :
    s.takeFor l c (Machine.readUnits n data)
      = s.answer l r .done (us.map fun _ => .done) (us.flatMap (data (s.popRequest l))) := by
  have hdone := frameDisposition_same us (unitsOf_ne_nil hu) Disposition.done
  have hact : Machine.readUnits n data r (s.popRequest l) = (s.popRequest l, some
      ⟨r.target, .done, us.map fun _ => .done, us.flatMap (data (s.popRequest l))⟩) := by
    simp only [Machine.readUnits, hu, Reply.masked, hdone]
  exact h.answer (t := s) h.isFor rfl hact (.inl hc)

end

/-- Settles O15: the reads by their handlers, and the layouts field by field. -/
theorem readsAnswerTheirRecords : Obligations.ReadsAnswerTheirRecords := by
  refine ⟨fun s l r => ⟨fun h us hu => congrArg _ (h.readUnits rfl hu _), fun h us hu =>
    congrArg _ (h.readUnits rfl hu _)⟩, fun s l r => ⟨fun h z hz => ⟨?_, length_zoneData _⟩, fun h z o hz ho =>
    ⟨fun hk => ?_, fun k hk => ⟨?_, length_circuitEntry _ _⟩⟩, fun h m hm => ⟨?_, length_meterData _⟩,
    fun h p o hp ho => ⟨fun hslot => ?_, fun hslot => ?_, fun hslot => ?_⟩, fun h => ?_, fun h => ?_⟩, ?_⟩
  · exact congrArg _ ((h.unit hz _).trans (h.read h.isFor rfl rfl))
  · refine congrArg _ ((h.unit hz _).trans (h.refuse h.isFor ?_ rfl))
    simp only [ho, List.getD_cons_zero, finOf_eq_none hk]
  · refine congrArg _ ((h.unit hz _).trans (h.read h.isFor ?_ rfl))
    simp only [ho, List.getD_cons_zero, hk]
    rfl
  · exact congrArg _ ((h.unit hm _).trans (h.read h.isFor rfl rfl))
  · refine congrArg _ ((h.unit hp _).trans (h.refuse h.isFor ?_ rfl))
    simp only [ho, List.getD_cons_zero, planSlotOf_of_gt hslot]
  · refine congrArg _ ((h.unit hp _).trans (h.read h.isFor ?_ rfl))
    rw [ho, hslot]
    rfl
  · refine congrArg _ ((h.unit hp _).trans (h.read h.isFor ?_ rfl))
    rw [ho, hslot]
    rfl
  · exact congrArg _ (h.read h.isFor rfl rfl)
  · exact congrArg _ (h.read h.isFor rfl rfl)
  · refine ⟨fun s p => ⟨length_portalSummary s p, ?_⟩, fun s b => ⟨length_boreSummary s b, ?_⟩, fun z => ?_, fun s => rfl,
      fun s c => ?_, fun m => rfl, fun slot => rfl, fun slot x => ?_, fun ws => rfl, fun now => rfl, fun k now => rfl,
      rfl, rfl, rfl, rfl, fun _ => rfl, rfl, rfl, rfl, rfl, rfl, rfl, rfl, rfl, rfl, rfl, rfl⟩
    · rw [portalSummary_eq]
      generalize s.portal p = x
      obtain ⟨state, meter, partner, factor, planA, planB, source, access, planInUse, night, lowCount, role, override,
        action, dryRun, timer⟩ := x
      cases override with
      | none => cases night <;> cases action <;> cases dryRun <;> rfl
      | some v =>
        obtain ⟨kind, duration, expiry⟩ := v
        cases kind <;> cases night <;> cases action <;> cases dryRun <;> rfl
    · intro x
      rw [← ofNat_flags]
      rfl
    · refine ⟨BitVec.ofNat 8 (maskOf (z.preview.elim [] Preview.slots)), fun k => getLsbD_maskOf _ k, ?_⟩
      have hstates : (z.slots.rows.flatMap fun o => opt8 (o.map fun c => c.state.code))
          = (List.finRange 8).map fun k => BitVec.ofNat 8 (((z.slots.get k).map fun c => c.state.code).getD 0xFF) := by
        rw [tab_rows, ← flatMap_be8, List.flatMap_map]
        rfl
      have hslots : z.slots.rows.flatMap slotEntry = ((List.finRange 8).map z.slots.get).flatMap fun o => match o with
          | none => List.replicate 5 0
          | some c => [BitVec.ofNat 8 c.kind.code, BitVec.ofNat 8 (c.rating / 256), BitVec.ofNat 8 c.rating,
              BitVec.ofNat 8 c.output.val, BitVec.ofNat 8 ((c.feedback.map Fin.val).getD 0xFF)] := by
        rw [tab_rows]
        refine List.flatMap_congr fun o _ => ?_
        cases o <;> rfl
      rw [zoneData, zoneSetup, hstates, hslots]
      cases z.shortfall <;> cases z.preview with
      | none =>
        simp only [List.append_assoc]
        rfl
      | some v =>
        obtain ⟨demand, slots, dim, shortfall⟩ := v
        simp only [previewFields, List.append_assoc]
        cases shortfall <;> rfl
    · rw [circuitEntry, State.feedbackPresent_eq]
      generalize (c.feedback.any fun i => (s.line i).fn == .feedbackIn && (s.line i).debounced == some true) = present
      obtain ⟨kind, rating, output, feedback, state, level, timer, burn⟩ := c
      cases kind <;> cases timer <;> cases present <;> rfl
    · rw [planData, Option.map_some, Option.getD_some, planFields, tab_rows x.factors]
      rfl

/-! ### READ_LINE (R157; log 8) -/

section
variable {x : Line} (draws : Nat) (pins : BitVec 192) (i : Fin 192)

theorem pinLevel_floating (hd : x.drive = .floating) : pinLevel draws pins i x = pins.getLsbD i.val := by
  simp only [pinLevel, hd]

theorem pinLevel_switchOut (hd : x.drive = .driven) (hfn : x.fn = .switchOut) {a : Bool} (ho : x.output = .level a) :
    pinLevel draws pins i x = xor a x.invert := by
  have hp : x.pulses = false := by simp [Line.pulses, hfn]
  simp only [pinLevel, hd, hp, ho, Bool.false_eq_true, if_false]

/-- A line at a duty that does not pulse is at one level for the whole of its period. -/
theorem pinLevel_steady (hd : x.drive = .driven) {d c : Nat} (ho : x.output = .duty d) (hperiod : x.period = some c)
    (hc : c = 0 ∨ c = 1000) : pinLevel draws pins i x = xor (decide (0 < c)) x.invert := by
  have hsteady : ¬ (0 < c ∧ c < 1000) := by omega
  have hp : x.pulses = false := by
    simp only [Line.pulses, hperiod, Option.any_some, ← Bool.decide_and, hsteady, decide_false, Bool.and_false]
  simp only [pinLevel, hd, hp, ho, hperiod, Bool.false_eq_true, if_false]

end

/-- A run of lines is read pin by pin; each pin in mid-pulse draws a free value. -/
theorem readRun_eq (s : State) {run : List (Fin 192)} (hrun : run.Nodup) (draws : Nat) :
    ∃ high : Fin 192 → Bool,
      readRun s draws run
        = (draws + (run.filter fun i => (s.line i).pulses).length, run.flatMap fun i => lineEntry (s.line i) (high i))
      ∧ ∀ i ∈ run, ∃ d, high i = pinLevel d s.pins i (s.line i) := by
  induction run generalizing draws with
  | nil => exact ⟨fun _ => false, rfl, nofun⟩
  | cons i run ih =>
    obtain ⟨hi, hrest⟩ := List.nodup_cons.mp hrun
    obtain ⟨high, hread, hlevel⟩ := ih hrest (if (s.line i).pulses then draws + 1 else draws)
    refine ⟨Function.update high i (pinLevel draws s.pins i (s.line i)), ?_, fun j hj => ?_⟩
    · have hsame : (run.flatMap fun j => lineEntry (s.line j) (Function.update high i (pinLevel draws s.pins i (s.line i)) j))
          = run.flatMap fun j => lineEntry (s.line j) (high j) := by
        refine List.flatMap_congr fun j hj => ?_
        have hne : j ≠ i := fun h => hi (h ▸ hj)
        rw [Function.update_of_ne hne]
      rw [readRun, hread, List.flatMap_cons, hsame, Function.update_self, List.filter_cons]
      split
      · rw [List.length_cons, Nat.add_assoc, Nat.add_comm 1]
      · rfl
    · by_cases h : j = i
      · exact ⟨draws, by rw [h, Function.update_self]⟩
      · rw [Function.update_of_ne h]
        exact hlevel j ((List.mem_cons.mp hj).resolve_left h)

/-- Settles O16. -/
theorem readLineReadsThePins : Obligations.ReadLineReadsThePins := by
  intro s l r o hs ho first count run
  refine ⟨fun hbad => congrArg _ (hs.refuse hs.isFor ?_ rfl), fun hone h32 h192 => ?_⟩
  · have hrun : (if o.toNat ≤ 32 then runOf r.target.toNat o.toNat else none) = none := by
      split
      · exact if_neg (by omega)
      · rfl
    simp only [ho, List.getD_cons_zero, hrun]
  · have hrun : (if o.toNat ≤ 32 then runOf r.target.toNat o.toNat else none) = some run := by
      rw [if_pos h32, runOf, if_pos ⟨hone, h192⟩]
      refine congrArg some (List.filter_congr fun i _ => ?_)
      exact (Bool.decide_and _ _).symm
    obtain ⟨high, hread, hlevel⟩ := readRun_eq (s.popRequest l) (run := run) ((List.nodup_finRange 192).filter _) s.draws
    refine ⟨high, congrArg _ (hs.answer hs.isFor (x := Reply.withData r (run.flatMap fun i => lineEntry (s.line i) (high i)))
      rfl ?_ (.inl rfl)), fun i hi => ?_⟩
    · simp only [ho, List.getD_cons_zero, hrun]
      have hdraws : (s.popRequest l).draws = s.draws := rfl
      rw [hdraws, hread]
      rfl
    · obtain ⟨d, hd⟩ := hlevel i hi
      rw [hd]
      refine ⟨fun h => pinLevel_floating _ _ _ h, fun h hfn a ho => pinLevel_switchOut _ _ _ h hfn ho,
        fun h hfn d ho => ⟨fun hp => ?_, fun hp => ?_⟩⟩
      · exact (pinLevel_steady _ _ _ h ho hp (.inl rfl)).trans (Bool.false_xor _)
      · exact (pinLevel_steady _ _ _ h ho hp (.inr rfl)).trans (Bool.true_xor _)

end Sys2Proof.Machine
end

section
/-! SUPPORT. Requests with a mask (R108, R130, R170): units visited in ascending order, and the writes and controls that
change the records of portals and bores alone. -/

namespace Sys2Proof.Machine

/-! ### Units visited -/

theorem nodup_unitsOf {n : Nat} {mask : Octet} {us : List (Fin n)} (h : unitsOf n mask = some us) : us.Nodup := by
  unfold unitsOf at h
  split at h
  · cases h
  · cases h
    exact (List.nodup_finRange n).filter _

/-- Units visited one after another, each answering at once. -/
theorem visited_visitAll {n : Nat} {α : Type} {R : Fin n → State → α → State → Prop} {f : Fin n → State → State × α}
    (h : ∀ u s, R u s (f u s).2 (f u s).1) (us : List (Fin n)) (s : State) :
    Visited R us s ((visitAll (fun u t => ((f u t).1, some (f u t).2)) us s).2.map Prod.snd)
      (visitAll (fun u t => ((f u t).1, some (f u t).2)) us s).1 := by
  induction us generalizing s with
  | nil => exact .nil s
  | cons u us ih => exact .cons (h u s) (ih _)

/-- Units that each answer the same. -/
theorem visitAll_same {n : Nat} {α : Type} {visit : Fin n → State → State × Option α} {f : State → Fin n → State} {a : α}
    (h : ∀ u t, visit u t = (f t u, some a)) (us : List (Fin n)) (s : State) :
    visitAll visit us s = (us.foldl f s, us.map fun u => (u, a)) := by
  induction us generalizing s with
  | nil => rfl
  | cons u us ih =>
    simp only [visitAll, h, ih]
    rfl

/-- Visits that each change the record of their own portal, by what it held, and no other record. -/
theorem visitAll_portals {α : Type} {visit : Fin 4 → State → State × Option α} {f : Fin 4 → Portal → Portal}
    {g : Fin 4 → Portal → Option α} {s : State} (h : ∀ p t, t = { s with portals := t.portals } →
      visit p t = (t.setPortal p (f p (t.portal p)), g p (t.portal p)))
    {us : List (Fin 4)} (hus : us.Nodup) :
    ∃ u : State, u = { s with portals := u.portals }
      ∧ (∀ p, u.portal p = if p ∈ us then f p (s.portal p) else s.portal p)
      ∧ visitAll visit us s = (u, us.filterMap fun p => (g p (s.portal p)).map fun a => (p, a)) := by
  induction us generalizing s with
  | nil => exact ⟨s, rfl, fun p => (if_neg List.not_mem_nil).symm, rfl⟩
  | cons p us ih =>
    obtain ⟨hp, hrest⟩ := List.nodup_cons.mp hus
    obtain ⟨u, hu, hportal, hvisit⟩ := ih (s := s.setPortal p (f p (s.portal p))) (fun q t ht => h q t ht) hrest
    have hother : ∀ q, q ≠ p → (s.setPortal p (f p (s.portal p))).portal q = s.portal q := fun q hq =>
      State.portal_setPortal_ne _ hq _
    refine ⟨u, hu, fun q => ?_, ?_⟩
    · rw [hportal]
      by_cases hq : q = p
      · subst hq
        rw [if_neg hp, if_pos List.mem_cons_self, State.portal_setPortal_self]
      · rw [hother q hq]
        simp only [List.mem_cons, hq, false_or]
    · have hanswers : (us.filterMap fun q => (g q ((s.setPortal p (f p (s.portal p))).portal q)).map fun a => (q, a))
          = us.filterMap fun q => (g q (s.portal q)).map fun a => (q, a) := by
        refine List.filterMap_congr fun q hq => ?_
        rw [hother q fun h => hp (h ▸ hq)]
      simp only [visitAll, h p s rfl, hvisit, hanswers, List.filterMap_cons]
      cases g p (s.portal p) <;> rfl

section
variable {n : Nat} {s : State} {l : Link} {c : ReqCode} {r : Request} {act : Handler} {mine : Request → Bool}
  (h : s.Takes l c r) (hm : mine r = true)
include h hm

/-- A request with a mask refused as a whole answers every unit alike (R108, R130). -/
theorem State.Takes.refuseUnits {us : List (Fin n)} (hu : unitsOf n r.target = some us) {d : Disposition}
    (hd : d.tookEffect = false) {visit : Fin n → State → State × Disposition}
    (hact : act r (s.popRequest l) = overUnits n (some d) visit r (s.popRequest l)) :
    s.take l mine (checked l c act) = s.answer l r d (us.map fun _ => d) [] := by
  have hframe := frameDisposition_same us (unitsOf_ne_nil hu) d
  refine h.answer (t := s) hm (x := ⟨r.target, d, us.map fun _ => d, []⟩) rfl ?_ (.inr hd)
  rw [hact, overUnits_refusal hu, Reply.masked, hframe]

/-- A request with a mask reports what its visits answer. -/
theorem State.Takes.visits {us : List (Fin n)} (hu : unitsOf n r.target = some us) (hc : c.returnsData = false)
    {visit : Fin n → State → State × Disposition}
    (hact : act r (s.popRequest l) = overUnits n none visit r (s.popRequest l)) :
    s.take l mine (checked l c act)
      = (visitAll (fun u t => ((visit u t).1, some (visit u t).2)) us (s.popRequest l)).1.report l r
          ((visitAll (fun u t => ((visit u t).1, some (visit u t).2)) us (s.popRequest l)).2.map Prod.snd) := by
  refine h.report hm ?_ hc
  rw [hact]
  simp only [overUnits, hu]

/-- A request with a mask whose visits obey a rule. -/
theorem State.Takes.visited {us : List (Fin n)} (hu : unitsOf n r.target = some us) (hc : c.returnsData = false)
    {visit : Fin n → State → State × Disposition}
    (hact : act r (s.popRequest l) = overUnits n none visit r (s.popRequest l))
    {R : Fin n → State → Disposition → State → Prop} (hR : ∀ u t, R u t (visit u t).2 (visit u t).1) :
    ∃ ds u, Visited R us (s.popRequest l) ds u ∧ s.take l mine (checked l c act) = u.report l r ds :=
  ⟨_, _, visited_visitAll hR us _, h.visits hm hu hc hact⟩

/-- A request with a mask that changes the records of the selected portals alone. -/
theorem State.Takes.portals {us : List (Fin 4)} (hu : unitsOf 4 r.target = some us) (hc : c.returnsData = false)
    {visit : Fin 4 → State → State × Disposition} {f : Fin 4 → Portal → Portal} {d : Fin 4 → Portal → Disposition}
    (hact : act r (s.popRequest l) = overUnits 4 none visit r (s.popRequest l))
    (hvisit : ∀ p t, t = { s.popRequest l with portals := t.portals } →
      visit p t = (t.setPortal p (f p (t.portal p)), d p (t.portal p))) :
    ∃ u : State, u = { s.popRequest l with portals := u.portals }
      ∧ (∀ p, u.portal p = if p ∈ us then f p (s.portal p) else s.portal p)
      ∧ s.take l mine (checked l c act) = u.report l r (us.map fun p => d p (s.portal p)) := by
  obtain ⟨u, hframe, hportal, hall⟩ := visitAll_portals (s := s.popRequest l) (g := fun p x => some (d p x))
    (visit := fun p t => ((visit p t).1, some (visit p t).2)) (fun p t ht => by rw [hvisit p t ht]) (nodup_unitsOf hu)
  refine ⟨u, hframe, hportal, ?_⟩
  rw [h.visits hm hu hc hact, hall]
  congr 1
  simp only [Option.map_some, List.filterMap_eq_map', List.map_map]
  rfl

/-- A request with a mask whose units all answer the same disposition. -/
theorem State.Takes.foldUnits {us : List (Fin n)} (hu : unitsOf n r.target = some us) (hc : c.returnsData = false)
    {visit : Fin n → State → State × Disposition} {f : State → Fin n → State} {d : Disposition}
    (hd : d.tookEffect = true) (hact : act r (s.popRequest l) = overUnits n none visit r (s.popRequest l))
    (hvisit : ∀ u t, visit u t = (f t u, d)) :
    s.take l mine (checked l c act) = (us.foldl f (s.popRequest l)).finish l r d (us.map fun _ => d) := by
  have hframe := frameDisposition_same us (unitsOf_ne_nil hu) d
  rw [h.visits hm hu hc hact, visitAll_same (f := f) (a := d) (fun u t => by rw [hvisit])]
  simp only [List.map_map, Function.comp_def]
  simp only [State.report, hframe, hd, Bool.not_true, Bool.or_false]
  rfl

end

/-! ### WRITE_PORTAL_SETUP (R15) -/

theorem optFinOf_eq_none {n : Nat} {o : Octet} (h : n ≤ o.toNat ∧ o ≠ 0xFF) : optFinOf n o = none := by
  rw [optFinOf, if_neg h.2, finOf_eq_none h.1]
  rfl

theorem optFinOf_eq_some {n : Nat} (hn : n ≤ 255) {o : Octet} (h : ¬ (n ≤ o.toNat ∧ o ≠ 0xFF)) :
    optFinOf n o = some (finOf n o.toNat) := by
  unfold optFinOf
  split
  next ho =>
    subst ho
    exact congrArg some (finOf_eq_none hn).symm
  next ho =>
    have hlt : o.toNat < n := by
      by_contra hge
      exact h ⟨by omega, ho⟩
    simp only [finOf, dif_pos hlt, Option.map_some]

/-- Settles O20. -/
theorem writePortalSetupIsForOfflinePortals : Obligations.WritePortalSetupIsForOfflinePortals := by
  intro s l r p m q f1 f0 hs hp hbody factor bad
  have hnone : bad → portalSetupOf r.body = none := by
    rintro (h | h | h)
    · simp only [portalSetupOf, hbody, List.getD_cons_zero, optFinOf_eq_none h]
    · simp only [portalSetupOf, hbody, List.getD_cons_zero, List.getD_cons_succ, optFinOf_eq_none h]
      split
      next hq => cases hq
      next => rfl
    · have hrange : ¬ (250 ≤ nat16 f1 f0 ∧ nat16 f1 f0 ≤ 4000) := by simp only [nat16]; omega
      unfold portalSetupOf
      simp only [hbody, List.getD_cons_zero, List.getD_cons_succ, hrange, if_false]
      split <;> rfl
  have hsome : ¬ bad → portalSetupOf r.body = some (finOf 4 m.toNat, finOf 4 q.toNat, factor) := by
    intro hok
    simp only [bad, not_or] at hok
    obtain ⟨hm, hq, hf⟩ := hok
    have hrange : 250 ≤ nat16 f1 f0 ∧ nat16 f1 f0 ≤ 4000 := by simp only [nat16]; omega
    simp only [portalSetupOf, hbody, List.getD_cons_zero, List.getD_cons_succ, optFinOf_eq_some (by decide) hm,
      optFinOf_eq_some (by decide) hq]
    exact if_pos hrange
  refine ⟨fun hst => ?_, fun hst hbad => ?_, fun hst hok => ?_⟩
  · refine congrArg _ ((hs.unit hp _).trans (hs.refuse hs.isFor ?_ rfl))
    exact if_pos hst
  · refine congrArg _ ((hs.unit hp _).trans (hs.refuse hs.isFor ?_ rfl))
    simp only [State.portal_popRequest, if_neg (not_not.mpr hst), hnone hbad]
  · refine congrArg _ ((hs.unit hp _).trans (hs.finish hs.isFor ?_ rfl rfl))
    simp only [State.portal_popRequest, if_neg (not_not.mpr hst), hsome hok]

/-! ### WRITE_PLAN (R29 to R31) -/

section
variable {body : List Octet}

theorem planWriteOf_of_slot (h : 1 < (body.getD 0 0).toNat) : planWriteOf body = none := by
  simp only [planWriteOf, planSlotOf_of_gt h]

theorem planWriteOf_alone_a (h : body.length = 1) (ho : body.getD 0 0 = 0) : planWriteOf body = none := by
  rw [planWriteOf, ho]
  simp [planSlotOf, h]

theorem planWriteOf_alone_b (h : body.length = 1) (ho : body.getD 0 0 = 1) : planWriteOf body = some (.b, none) := by
  rw [planWriteOf, ho]
  simp [planSlotOf, h]

theorem planWriteOf_invalid (h : ¬ body.length = 1) (hv : (planOf body).valid = false) : planWriteOf body = none := by
  unfold planWriteOf
  split
  · rfl
  · simp [h, hv]

theorem planWriteOf_valid_plan {slot : PlanSlot} (h : ¬ body.length = 1) (hs : planSlotOf (body.getD 0 0) = some slot)
    (hv : (planOf body).valid = true) : planWriteOf body = some (slot, some (planOf body)) := by
  simp only [planWriteOf, hs, h, if_false, hv, if_true]

end

/-- Settles O22: what the body means, then the states that take it. -/
theorem writePlanReplacesASlot : Obligations.WritePlanReplacesASlot := by
  intro s l r us hs hus o alone may writes
  have hwrites : ∀ slot plan, planWriteOf r.body = some (slot, plan) → writes slot plan := by
    intro slot plan hw
    obtain ⟨u, hframe, hportal, htake⟩ := hs.portals (mine := Request.isFor .writePlan) (visit := State.writePlan (slot, plan))
      (f := fun _ x => if x.state != .auto && x.state != .emergency then x.withPlan slot plan else x)
      (d := fun _ x => if x.state != .auto && x.state != .emergency then .done else .wrongState)
      (act := fun r s => match planWriteOf r.body with
        | none => overUnits 4 (some .badValue) (fun _ t => (t, .badValue)) r s
        | some w => overUnits 4 none (State.writePlan w) r s) hs.isFor hus rfl (by simp only [hw])
      (fun p t _ => by
        unfold State.writePlan
        cases hst : (t.portal p).state <;> simp [State.setPortal, State.portal])
    refine ⟨u, congrArg _ htake, hframe, fun p => ?_⟩
    rw [hportal]
    by_cases hp : p ∈ us
    · by_cases hmay : may p = true
      · rw [if_pos hp, if_pos hmay, if_pos ⟨hp, hmay⟩]
        cases slot <;> rfl
      · rw [if_pos hp, if_neg hmay, if_neg (fun h => hmay h.2)]
    · rw [if_neg hp, if_neg (fun h => hp h.1)]
  have hslot : ∀ {c : Octet} {slot : PlanSlot}, planSlotOf c = some slot → o = c →
      planSlotOf (r.body.getD 0 0) = some slot := fun h ho => by rw [show r.body.getD 0 0 = _ from ho, h]
  refine ⟨fun hbad => ?_, fun hone ho => hwrites .b none (planWriteOf_alone_b hone ho), fun hmore hvalid =>
    ⟨fun ho => hwrites .a _ (planWriteOf_valid_plan hmore (hslot rfl ho) hvalid),
      fun ho => hwrites .b _ (planWriteOf_valid_plan hmore (hslot rfl ho) hvalid)⟩⟩
  have hw : planWriteOf r.body = none := by
    obtain h | ⟨h1, ho⟩ | ⟨h1, hv⟩ := hbad
    · exact planWriteOf_of_slot h
    · exact planWriteOf_alone_a h1 ho
    · exact planWriteOf_invalid h1 hv
  refine congrArg _ (hs.refuseUnits hs.isFor hus rfl (visit := fun _ t => (t, .badValue)) ?_)
  simp only [hw]

end Sys2Proof.Machine
end

section
/-! SUPPORT. The writes of the schedule, the clock and the stale timeouts (R25, R27, R135), the traffic inputs (R132,
R133), and the controls that change portal records alone (R108, R109, R119, R122, R125). -/

namespace Sys2Proof.Machine

/-! ### WRITE_SCHEDULE, SET_CLOCK and WRITE_BORE_SETUP -/

theorem scheduleOf_perm {body : List Octet} {ws : List Window} (h : scheduleOf body = some ws) :
    ws.Perm (windowsOf (body.getD 0 0).toNat (body.drop 1)) := by
  simp only [scheduleOf, Option.ite_none_right_eq_some, Option.some.injEq] at h
  rw [← h.2]
  exact sortWindows_perm _

/-- Bore records written one after another, each by what it held. -/
theorem foldl_setBore {f : State → Fin 2 → State} {g : Fin 2 → Bore → Bore}
    (h : ∀ t b, f t b = t.setBore b (g b (t.bore b))) {us : List (Fin 2)} (hus : us.Nodup) (s : State) :
    us.foldl f s = { s with bores := (us.foldl f s).bores }
      ∧ ∀ b, (us.foldl f s).bore b = if b ∈ us then g b (s.bore b) else s.bore b := by
  induction us generalizing s with
  | nil => exact ⟨rfl, fun b => (if_neg List.not_mem_nil).symm⟩
  | cons u us ih =>
    obtain ⟨hu, hrest⟩ := List.nodup_cons.mp hus
    obtain ⟨hframe, hbore⟩ := ih hrest (f s u)
    rw [List.foldl_cons]
    refine ⟨?_, fun b => ?_⟩
    · rw [hframe, h]
      rfl
    · rw [hbore, h, State.bore_setBore]
      by_cases hb : b = u
      · subst hb
        rw [if_neg hu, if_pos rfl, if_pos List.mem_cons_self]
      · rw [if_neg hb]
        simp only [List.mem_cons, hb, false_or]

/-- Settles O23. -/
theorem scheduleClockAndTimeoutAreSet : Obligations.ScheduleClockAndTimeoutAreSet := by
  refine ⟨fun s l r => ⟨fun hs => ⟨fun hw => ?_, fun ws hw => ⟨?_, scheduleOf_perm hw, scheduleOf_fit hw⟩⟩,
    fun hs m1 m0 d1 d0 hbody => ?_⟩, fun s l r us t1 t0 hs hus hbody => ?_⟩
  · refine congrArg _ (hs.refuse hs.isFor ?_ rfl)
    simp only [hw]
  · refine congrArg _ (hs.finish hs.isFor ?_ rfl rfl)
    simp only [hw]
  · intro minute day
    refine ⟨fun hbad => congrArg _ (hs.refuse hs.isFor ?_ rfl), fun hok => congrArg _ (hs.finish hs.isFor ?_ rfl rfl)⟩
    · have hbad : ¬ nat16 m1 m0 ≤ 1439 := Nat.not_le.mpr hbad
      simp only [hbody, List.getD_cons_zero, List.getD_cons_succ, hbad, if_false]
    · have hok : nat16 m1 m0 ≤ 1439 := hok
      simp only [hbody, List.getD_cons_zero, List.getD_cons_succ, hok, if_true]
      rfl
  intro timeout
  refine ⟨fun hbad => ?_, fun hlow hhigh => ?_⟩
  · refine congrArg _ (hs.refuseUnits hs.isFor hus rfl
      (visit := fun b t => (t.setBore b { t.bore b with staleTimeout := timeout }, .done)) ?_)
    have hbad : ¬ (10 ≤ nat16 t1 t0 ∧ nat16 t1 t0 ≤ 600) := fun h => by
      have : timeout = nat16 t1 t0 := rfl
      omega
    simp only [hbody, List.getD_cons_zero, List.getD_cons_succ, hbad, if_false]
    rfl
  · obtain ⟨hframe, hbore⟩ := foldl_setBore (f := fun t b => t.setBore b { t.bore b with staleTimeout := timeout })
      (g := fun _ x => { x with staleTimeout := timeout }) (fun _ _ => rfl) (nodup_unitsOf hus) (s.popRequest l)
    refine ⟨_, congrArg _ (hs.foldUnits hs.isFor hus rfl rfl
      (visit := fun b t => (t.setBore b { t.bore b with staleTimeout := timeout }, .done)) ?_ fun _ _ => rfl), hframe, hbore⟩
    have hok : 10 ≤ nat16 t1 t0 ∧ nat16 t1 t0 ≤ 600 := ⟨hlow, hhigh⟩
    simp only [hbody, List.getD_cons_zero, List.getD_cons_succ, hok, and_self, if_true]
    rfl

/-! ### SPEED_REPORT and DIRECTION_SET (R132, R133) -/

theorem flagOf_eq_none {o : Octet} (h : 1 < o.toNat) : flagOf o = none := by
  have h0 : o ≠ 0 := by rintro rfl; exact absurd h (by decide)
  have h1 : o ≠ 1 := by rintro rfl; exact absurd h (by decide)
  rw [flagOf, if_neg h0, if_neg h1]

theorem octet_le_one {o : Octet} (h : o.toNat ≤ 1) : o = 0 ∨ o = 1 := by
  have : o.toNat = 0 ∨ o.toNat = 1 := by omega
  exact this.imp (fun h => BitVec.eq_of_toNat_eq h) fun h => BitVec.eq_of_toNat_eq h

theorem flagOf_eq_some {o : Octet} (h : o.toNat ≤ 1) : flagOf o = some (o == 1) := by
  obtain rfl | rfl := octet_le_one h <;> rfl

theorem directionOf_eq_none {o : Octet} (h : 3 < o.toNat) : directionOf o = none := by
  have h0 : o ≠ 0 := by rintro rfl; exact absurd h (by decide)
  have h1 : o ≠ 1 := by rintro rfl; exact absurd h (by decide)
  have h2 : o ≠ 2 := by rintro rfl; exact absurd h (by decide)
  have h3 : o ≠ 3 := by rintro rfl; exact absurd h (by decide)
  rw [directionOf, if_neg h0, if_neg h1, if_neg h2, if_neg h3]

theorem directionOf_eq_some {o : Octet} {mode : DirectionMode} (h : mode.code = o.toNat) : directionOf o = some mode := by
  have ho : o = BitVec.ofNat 8 mode.code := by rw [h, BitVec.ofNat_toNat, BitVec.setWidth_eq]
  subst ho
  cases mode <;> rfl

/-- Folds over units whose steps agree while the units to come are as they were. -/
theorem foldl_congr_bores {f g : State → Fin 2 → State} {s : State}
    (hf : ∀ t b, t.uptime = s.uptime → t.bore b = s.bore b → f t b = g t b)
    (hframe : ∀ t b, (g t b).uptime = t.uptime ∧ ∀ c, c ≠ b → (g t b).bore c = t.bore c)
    {us : List (Fin 2)} (hus : us.Nodup) {t : State} (hu : t.uptime = s.uptime) (hb : ∀ b ∈ us, t.bore b = s.bore b) :
    us.foldl f t = us.foldl g t := by
  induction us generalizing t with
  | nil => rfl
  | cons u us ih =>
    obtain ⟨hnot, hrest⟩ := List.nodup_cons.mp hus
    obtain ⟨huptime, hbores⟩ := hframe t u
    rw [List.foldl_cons, List.foldl_cons, hf t u hu (hb u List.mem_cons_self)]
    refine ih hrest (huptime.trans hu) fun b hmem => ?_
    rw [hbores b fun h => hnot (h ▸ hmem)]
    exact hb b (List.mem_cons_of_mem u hmem)

theorem State.reportOne_bores (cls : Fin 5) (clamped congested : Bool) (b : Fin 2) (t : State) :
    (t.reportOne cls clamped congested b).1.uptime = t.uptime
    ∧ ∀ c, c ≠ b → (t.reportOne cls clamped congested b).1.bore c = t.bore c := by
  unfold State.reportOne
  dsimp only
  split
  · exact ⟨rfl, fun c hc => State.bore_setBore_ne _ hc _⟩
  · exact ⟨rfl, fun c hc => State.bore_setBore_ne _ hc _⟩

/-- Settles O31. -/
theorem trafficInputsActOnTheSelectedBores : Obligations.TrafficInputsActOnTheSelectedBores := by
  intro s l r us hus notice
  refine ⟨fun hs k f hbody => ⟨fun hbad => ?_, fun hok cls hcls => ?_⟩, fun hs o hbody => ⟨fun hbad => ?_,
    fun mode hmode => ?_⟩⟩
  · refine congrArg _ (hs.refuseUnits hs.isFor hus rfl (visit := fun _ t => (t, .badValue)) ?_)
    simp only [hbody, List.getD_cons_zero, List.getD_cons_succ, flagOf_eq_none hbad]
  · intro report d
    have hclass : classOf k = cls := Fin.ext hcls.symm
    have hd : d = if decide (4 < k.toNat) then .adjusted else .done := by simp only [d, decide_eq_true_eq]
    have heffect : d.tookEffect = true := by
      simp only [d]
      split <;> rfl
    have hfold : us.foldl report (s.popRequest l)
        = us.foldl (fun t b => (State.reportOne cls (decide (4 < k.toNat)) (f == 1) b t).1) (s.popRequest l) := by
      refine foldl_congr_bores (s := s) (fun t b hu hb => ?_) (fun t b => State.reportOne_bores _ _ _ b t)
        (nodup_unitsOf hus) rfl fun _ _ => rfl
      simp only [report, State.reportOne, Bore.reported, ← hu, ← hb]
      split
      · simp only [State.raiseTrafficState, State.bore_setBore_self]
        rfl
      · rfl
    rw [hfold]
    refine congrArg _ (hs.foldUnits hs.isFor hus rfl heffect
      (visit := State.reportOne cls (decide (4 < k.toNat)) (f == 1)) ?_ fun b t => ?_)
    · simp only [hbody, List.getD_cons_zero, List.getD_cons_succ, flagOf_eq_some hok, hclass]
    · rw [hd]
      rfl
  · refine congrArg _ (hs.refuseUnits hs.isFor hus rfl (visit := fun _ t => (t, .badValue)) ?_)
    simp only [hbody, List.getD_cons_zero, directionOf_eq_none hbad]
  · intro turn
    refine congrArg _ (hs.foldUnits hs.isFor hus rfl rfl (visit := State.directionOne mode) ?_ fun b t => ?_)
    · simp only [hbody, List.getD_cons_zero, directionOf_eq_some hmode]
    · simp only [turn, State.directionOne, State.raiseTrafficState, State.bore_setBore_self]
      rfl

/-! ### OVERRIDE_SET and OVERRIDE_CLEAR (R119, R122) -/

theorem overrideKindOf_eq_none {k v1 v0 d : Octet} (h : 1 < k.toNat) : overrideKindOf [k, v1, v0, d] = none := by
  have h0 : k ≠ 0 := by rintro rfl; exact absurd h (by decide)
  have h1 : k ≠ 1 := by rintro rfl; exact absurd h (by decide)
  simp only [overrideKindOf, List.getD_cons_zero, if_neg h0, if_neg h1]

theorem overrideKindOf_eq_some {k v1 v0 d : Octet} (h : k.toNat ≤ 1) :
    overrideKindOf [k, v1, v0, d]
      = some (if k = 0 then .level (min 60000 (v1.toNat * 256 + v0.toNat)) else .freeze,
          decide (k = 0 ∧ 60000 < v1.toNat * 256 + v0.toNat)) := by
  obtain rfl | rfl := octet_le_one h
  · simp [overrideKindOf, nat16]
  · simp [overrideKindOf]

@[simp] theorem State.setPortal_portal (s : State) (p : Fin 4) : s.setPortal p (s.portal p) = s := by
  rw [State.setPortal, State.portal, Tab.put_get]

theorem State.overrideOne_eq (kind : OverrideKind) (clamped : Bool) (minutes : Nat) (p : Fin 4) (t : State) :
    State.overrideOne kind clamped minutes p t
      = (t.setPortal p (if (t.portal p).state = .held ∨ (t.portal p).state = .auto then
          { t.portal p with override := some (newOverride t.uptime kind minutes) } else t.portal p),
        match (t.portal p).state with
        | .offline | .dryRun => .wrongState
        | .held | .auto => if clamped then .adjusted else .done
        | .emergency => .isProtected) := by
  unfold State.overrideOne
  cases (t.portal p).state <;> simp

theorem State.unoverrideOne_eq (p : Fin 4) (t : State) :
    State.unoverrideOne p t
      = (t.setPortal p (if ((t.portal p).override.isSome && (t.portal p).state != .offline
            && (t.portal p).state != .dryRun) = true then { t.portal p with override := none } else t.portal p),
        if ((t.portal p).override.isSome && (t.portal p).state != .offline && (t.portal p).state != .dryRun) = true then
          .done
        else .wrongState) := by
  unfold State.unoverrideOne
  cases (t.portal p).state <;> cases (t.portal p).override.isSome <;> simp

/-- Settles O28: each selected portal by its own state. -/
theorem overridesAreSetAndCleared : Obligations.OverridesAreSetAndCleared := by
  intro s l r us hus
  refine ⟨fun hs k v1 v0 d hbody => ?_, fun hs => ?_⟩
  on_goal 1 => intro level; refine ⟨fun hbad => ?_, fun hk hd => ?_⟩
  · by_cases hk : 1 < k.toNat
    · refine congrArg _ (hs.refuseUnits hs.isFor hus rfl (visit := fun _ t => (t, .badValue)) ?_)
      simp only [hbody, overrideKindOf_eq_none hk]
    · have hd : ¬ d.toNat ≤ 240 := by omega
      refine congrArg _ (hs.refuseUnits hs.isFor hus rfl (visit := State.overrideOne (if k = 0 then .level (min 60000 level)
        else .freeze) (decide (k = 0 ∧ 60000 < level)) d.toNat) ?_)
      simp only [hbody, overrideKindOf_eq_some (Nat.le_of_not_lt hk), List.getD_cons_zero, List.getD_cons_succ, hd, if_false]
      rfl
  · intro takes
    obtain ⟨kind, hkind⟩ : ∃ kind, kind = if k = 0 then OverrideKind.level (min 60000 level) else .freeze := ⟨_, rfl⟩
    obtain ⟨u, hframe, hportal, htake⟩ := hs.portals hs.isFor hus rfl
      (visit := State.overrideOne kind (decide (k = 0 ∧ 60000 < level)) d.toNat)
      (f := fun _ x => if x.state = .held ∨ x.state = .auto then
        { x with override := some (newOverride s.uptime kind d.toNat) } else x)
      (d := fun _ x => match x.state with
        | .offline | .dryRun => .wrongState
        | .held | .auto => if k = 0 ∧ 60000 < level then .adjusted else .done
        | .emergency => .isProtected)
      (act := fun r s =>
        let minutes := (r.body.getD 3 0).toNat
        match overrideKindOf r.body with
        | none => overUnits 4 (some .badValue) (fun _ t => (t, .badValue)) r s
        | some (kind, clamped) =>
          overUnits 4 (if minutes ≤ 240 then none else some .badValue) (State.overrideOne kind clamped minutes) r s)
      (by
        simp only [hbody, overrideKindOf_eq_some hk, List.getD_cons_zero, List.getD_cons_succ, hd, if_true, hkind]
        rfl)
      (fun p t ht => by
        have hup : t.uptime = s.uptime := by rw [ht]; rfl
        rw [State.overrideOne_eq, hup]
        simp only [decide_eq_true_eq])
    refine ⟨_, u, fun p hp => ?_, fun p hp => ?_, fun p hp => ?_, hframe, fun p => ⟨fun hp => ?_, fun hp => ?_⟩,
      congrArg _ htake⟩
    · obtain hp | hp := hp <;> simp only [hp]
    · simp only [hp]
    · obtain hp | hp := hp <;> simp only [hp]
    · rw [hportal, if_pos hp.1, if_pos hp.2, newOverride, hkind]
    · rw [hportal]
      by_cases hmem : p ∈ us
      · rw [if_pos hmem, if_neg fun h => hp ⟨hmem, h⟩]
      · rw [if_neg hmem]
  · intro clears
    obtain ⟨u, hframe, hportal, htake⟩ := hs.portals hs.isFor hus rfl (visit := State.unoverrideOne)
      (act := overUnits 4 none State.unoverrideOne)
      (f := fun _ x => if (x.override.isSome && x.state != .offline && x.state != .dryRun) = true then
        { x with override := none } else x)
      (d := fun _ x => if (x.override.isSome && x.state != .offline && x.state != .dryRun) = true then .done
        else .wrongState) rfl
      (fun p t _ => State.unoverrideOne_eq p t)
    refine ⟨u, hframe, fun p => ?_, congrArg _ htake⟩
    rw [hportal]
    by_cases hmem : p ∈ us
    · by_cases hc : clears p = true
      · rw [if_pos hmem, if_pos hc, if_pos ⟨hmem, hc⟩]
      · rw [if_pos hmem, if_neg hc, if_neg fun h => hc h.2]
    · rw [if_neg hmem, if_neg fun h => hmem h.1]

end Sys2Proof.Machine
end

section
/-! SUPPORT. Deferred requests (R108, R109, R125), the source cascade (R17 to R19), and the timers of the part (R27, R100,
R121, R134, R151). -/

namespace Sys2Proof.Machine

/-! ### HOLD, RELEASE and STOP ORDERLY (R108, R109, R125) -/

/-- What a portal answers at once to a deferred request, or nothing where it defers (R108, R109). -/
def ActionKind.answerOf (kind : ActionKind) (x : Portal) : Option Disposition :=
  match kind.verdict x.state with
  | .refused d => some d
  | .noChange => some (if x.action.isSome then .busy else .done)
  | .deferred => if x.action.isSome then some .busy else none

theorem State.deferOne_eq (kind : ActionKind) (l : Link) (r : Request) (p : Fin 4) (t : State) :
    State.deferOne kind l r p t
      = (t.setPortal p (if kind.answerOf (t.portal p) = none then
          { t.portal p with
            action := some { kind := kind, link := l, tag := r.tag, ackWanted := r.ackWanted, answerOwed := true } }
          else t.portal p), kind.answerOf (t.portal p)) := by
  unfold State.deferOne ActionKind.answerOf
  cases kind.verdict (t.portal p).state with
  | refused d => simp
  | noChange => simp
  | deferred => cases (t.portal p).action.isSome <;> simp

/-- The answers of a list of units, and the units that answer. -/
theorem map_answers {α β : Type} (answer : α → Option β) (us : List α) :
    (us.filterMap fun p => (answer p).map fun a => (p, a)).map Prod.fst = us.filter fun p => (answer p).isSome := by
  induction us with
  | nil => rfl
  | cons p us ih =>
    rw [List.filterMap_cons, List.filter_cons]
    cases answer p <;> simp [ih]

theorem map_answers_snd {α β : Type} (answer : α → Option β) (us : List α) :
    (us.filterMap fun p => (answer p).map fun a => (p, a)).map Prod.snd = us.filterMap answer := by
  induction us with
  | nil => rfl
  | cons p us ih =>
    rw [List.filterMap_cons, List.filterMap_cons]
    cases answer p <;> simp [ih]

/-- A deferred request: the portals that defer hold its record, the others answer at once. -/
theorem State.Takes.deferred {s : State} {l : Link} {c : ReqCode} {r : Request} {us : List (Fin 4)} (h : s.Takes l c r)
    (hu : unitsOf 4 r.target = some us) (hc : c.returnsData = false) {mine : Request → Bool} (hm : mine r = true)
    {act : Handler} {kind : ActionKind} (hact : act r (s.popRequest l) = deferAll kind l r (s.popRequest l)) :
    ∃ u : State, u = { s.popRequest l with portals := u.portals }
      ∧ (∀ p, u.portal p =
          if p ∈ us ∧ kind.answerOf (s.portal p) = none then
            { s.portal p with
              action := some { kind := kind, link := l, tag := r.tag, ackWanted := r.ackWanted, answerOwed := true } }
          else s.portal p)
      ∧ s.take l mine (checked l c act)
          = if (us.filter fun p => (kind.answerOf (s.portal p)).isSome) = [] then u.arbitrate
            else u.report l
              { r with target := BitVec.ofNat 8 (maskOf (us.filter fun p => (kind.answerOf (s.portal p)).isSome)) }
              (us.filterMap fun p => kind.answerOf (s.portal p)) := by
  obtain ⟨u, hframe, hportal, hall⟩ := visitAll_portals (s := s.popRequest l) (visit := State.deferOne kind l r)
    (f := fun _ x => if kind.answerOf x = none then
      { x with action := some { kind := kind, link := l, tag := r.tag, ackWanted := r.ackWanted, answerOwed := true } }
      else x) (g := fun _ x => kind.answerOf x) (fun p t _ => State.deferOne_eq kind l r p t) (nodup_unitsOf hu)
  have hfst := map_answers (fun p => kind.answerOf (s.portal p)) us
  have hsnd := map_answers_snd (fun p => kind.answerOf (s.portal p)) us
  refine ⟨u, hframe, fun p => ?_, ?_⟩
  · rw [hportal]
    by_cases hp : p ∈ us
    · simp only [hp, if_true, true_and]
      rfl
    · simp only [hp, if_false, false_and]
      rfl
  · have hall : visitAll (State.deferOne kind l r) us (s.popRequest l)
        = (u, us.filterMap fun p => (kind.answerOf (s.portal p)).map fun a => (p, a)) := hall
    rw [h.take hm, hact]
    simp only [deferAll, hu, hall, hfst, hsnd]
    have hnil : (us.filterMap fun p => (kind.answerOf (s.portal p)).map fun a => (p, a)) = []
        ↔ (us.filter fun p => (kind.answerOf (s.portal p)).isSome) = [] := by rw [← hfst, List.map_eq_nil_iff]
    simp only [hnil]
    split
    · rfl
    · simp only [State.respond_some, Reply.made, h.returnsData.trans hc, Bool.false_or]
      rfl

/-- Settles O26: the table of R108 cell by cell. -/
theorem deferredRequestsMakeRecords : Obligations.DeferredRequestsMakeRecords := by
  refine ⟨fun s l r us kind c hrow hus => ?_, fun s l r us hs h0 h1 hus => ?_⟩
  · intro cell busy
    have hcell : ∀ st, (cell st).2 = true ∧ (cell st).1 = none ∧ kind.verdict st = .deferred
        ∨ (cell st).2 = true ∧ (cell st).1 = some .done ∧ kind.verdict st = .noChange
        ∨ (cell st).2 = false ∧ ∃ d, (cell st).1 = some d ∧ kind.verdict st = .refused d := by
      intro st
      simp only [cell]
      cases kind <;> cases st <;> decide
    have hanswer : ∀ p, (busy p → kind.answerOf (s.portal p) = some .busy)
        ∧ (¬ busy p → kind.answerOf (s.portal p) = (cell (s.portal p).state).1) := by
      intro p
      obtain ⟨h2, h1, hv⟩ | ⟨h2, h1, hv⟩ | ⟨h2, d, h1, hv⟩ := hcell (s.portal p).state
      · simp only [busy, ActionKind.answerOf, hv, h1, h2, true_and]
        exact ⟨fun h => if_pos h, fun h => if_neg h⟩
      · simp only [busy, ActionKind.answerOf, hv, h1, h2, true_and]
        exact ⟨fun h => by rw [if_pos h], fun h => by rw [if_neg h]⟩
      · simp only [busy, ActionKind.answerOf, hv, h1, h2, Bool.false_eq_true, false_and, false_implies, true_and]
        exact fun _ => trivial
    obtain ⟨u, hframe, hportal, hexec⟩ : ∃ u : State, u = { s.popRequest l with portals := u.portals }
        ∧ (∀ p, u.portal p = if p ∈ us ∧ kind.answerOf (s.portal p) = none then { s.portal p with
              action := some { kind := kind, link := l, tag := r.tag, ackWanted := r.ackWanted, answerOwed := true } }
            else s.portal p)
        ∧ exec c s = .next (if (us.filter fun p => (kind.answerOf (s.portal p)).isSome) = [] then u.arbitrate
            else u.report l
              { r with target := BitVec.ofNat 8 (maskOf (us.filter fun p => (kind.answerOf (s.portal p)).isSome)) }
              (us.filterMap fun p => kind.answerOf (s.portal p))) := by
      obtain ⟨rfl, rfl, hs⟩ | ⟨rfl, rfl, hs⟩ | ⟨rfl, rfl, hs, hb⟩ := hrow
      · obtain ⟨u, hf, hp, ht⟩ := hs.deferred hus rfl hs.isFor (kind := .hold) (act := deferAll .hold l) rfl
        exact ⟨u, hf, hp, congrArg _ ht⟩
      · obtain ⟨u, hf, hp, ht⟩ := hs.deferred hus rfl hs.isFor (kind := .release) (act := deferAll .release l) rfl
        exact ⟨u, hf, hp, congrArg _ ht⟩
      · obtain ⟨u, hf, hp, ht⟩ := hs.deferred hus rfl (mine := Request.isStopOrderly)
          (by rw [Request.isStopOrderly, hs.isFor, hb]; rfl) (kind := .stopOrderly)
          (act := fun r s => if r.body = [0] then deferAll .stopOrderly l r s
            else overUnits 4 (some .badValue) (fun _ t => (t, .badValue)) r s) (if_pos hb)
        exact ⟨u, hf, hp, congrArg _ ht⟩
    exact ⟨fun p => kind.answerOf (s.portal p), u, fun p => (hanswer p).1, fun p => (hanswer p).2, hframe, hportal, hexec⟩
  · refine congrArg _ (hs.refuseUnits (mine := Request.isStopOrderly) ?_ hus rfl (visit := fun _ t => (t, .badValue)) ?_)
    · rw [Request.isStopOrderly, hs.isFor, bne_iff_ne.mpr h1]
      rfl
    · exact if_neg h0

/-! ### The source cascade (R17 to R19) -/

section
variable (s : State) (p q : Fin 4)

/-- The portal's own meter, if it names one that is VALID, reads `f`. -/
def State.Reads (f : Nat) : Prop :=
  ∃ m, (s.portal q).meter = some m ∧ (s.meter m).status = .valid ∧ (s.meter m).filtered = some f

theorem State.validReading_eq_some {f : Nat} : s.validReading (s.portal q).meter = some f ↔ s.Reads q f := by
  unfold State.validReading State.Reads
  cases (s.portal q).meter with
  | none => simp
  | some m => simp

/-- A partner whose source is OWN and whose meter is VALID lends its reading. -/
def State.Lends (f : Nat) : Prop :=
  ∃ q, (s.portal p).partner = some q ∧ (s.portal q).source = some .own ∧ s.Reads q f

theorem State.partnerReading_of_lends {f : Nat} (h : s.Lends p f) :
    s.partnerReading p = some (min 9999 (roundDiv (f * (s.portal p).factor) 1000)) := by
  obtain ⟨q, hq, hown, hf⟩ := h
  simp [State.partnerReading, hq, hown, (s.validReading_eq_some q).mpr hf]

theorem State.partnerReading_eq_none (h : ∀ f, ¬ s.Lends p f) : s.partnerReading p = none := by
  unfold State.partnerReading
  split
  · rfl
  next q hq =>
    split
    next hown =>
      rw [Option.map_eq_none_iff, Option.eq_none_iff_forall_ne_some]
      exact fun f hf => h f ⟨q, hq, beq_iff_eq.mp hown, (s.validReading_eq_some q).mp hf⟩
    · rfl

theorem State.cascade_own {f : Nat} (h : s.Reads p f) : s.cascade p = (.own, some f) := by
  simp only [State.cascade, (s.validReading_eq_some p).mpr h]

theorem State.validReading_eq_none (h : ∀ f, ¬ s.Reads p f) : s.validReading (s.portal p).meter = none :=
  Option.eq_none_iff_forall_ne_some.mpr fun f hf => h f ((s.validReading_eq_some p).mp hf)

theorem State.cascade_late (h : ∀ f, ¬ s.Reads p f) (hl : ∀ f, ¬ s.Lends p f) : s.cascade p = s.lateCascade p := by
  simp only [State.cascade, s.validReading_eq_none p h, s.partnerReading_eq_none p hl]

/-- A window of the stored schedule covers the present minute of a set clock with value `a`. -/
def State.Schedules (a : Nat) : Prop :=
  ∃ c w, s.clock = some c ∧ w ∈ s.schedule ∧ w.access = a ∧ (c.minute + 1440 - w.start) % 1440 < w.width

theorem State.schedules_of_scheduled {a : Nat} (h : s.scheduled = some a) : s.Schedules a := by
  unfold State.scheduled at h
  split at h
  · cases h
  next c hc =>
    obtain ⟨w, hw, ha⟩ := Option.map_eq_some_iff.mp h
    exact ⟨c, w, hc, List.mem_of_find?_eq_some hw, ha, by simpa [Window.covers] using List.find?_some hw⟩

theorem State.scheduled_isSome {a : Nat} (h : s.Schedules a) : ∃ b, s.scheduled = some b := by
  obtain ⟨c, w, hc, hw, -, hcov⟩ := h
  have hfind : (s.schedule.find? fun w => w.covers c.minute).isSome = true :=
    List.find?_isSome.mpr ⟨w, hw, by simpa [Window.covers] using hcov⟩
  obtain ⟨v, hv⟩ := Option.isSome_iff_exists.mp hfind
  exact ⟨v.access, by simp [State.scheduled, hc, hv]⟩

end

/-- Settles O34: each step of the cascade, with the steps before it ruled out. -/
theorem theSourceCascade : Obligations.TheSourceCascade := by
  intro s p reads lends scheduled
  refine ⟨fun f hf => s.cascade_own p hf, fun hno f hf => ?_, fun hno hnol ⟨a, ha⟩ => ?_, fun hno hnol hnos plan hplan => ?_⟩
  · simp only [State.cascade, s.validReading_eq_none p hno, s.partnerReading_of_lends p hf]
  · obtain ⟨b, hb⟩ := s.scheduled_isSome ha
    exact ⟨b, s.schedules_of_scheduled hb, by rw [s.cascade_late p hno hnol]; simp only [State.lateCascade, hb]⟩
  · have hnone : s.scheduled = none :=
      Option.eq_none_iff_forall_ne_some.mpr fun a ha => hnos a (s.schedules_of_scheduled ha)
    rw [s.cascade_late p hno hnol]
    simp only [State.lateCascade, hnone, hplan, Option.map_some, Plan.blindAccess]

/-! ### The timers of the part (R27, R100, R121, R134, R151) -/

/-- An event that writes no link of a settled part ends as its effect leaves it. -/
theorem State.Settled.event_of_links {s : State} (h : s.Settled) {f : State → State} (hf : (f s).links = s.links) :
    s.event f = f s := by
  rw [State.event_settled h, h.of_links hf]

theorem Circuit.active_iff (c : Circuit) :
    c.active = true ↔ c.kind = .switched ∧ (c.state = .switchingOn ∨ c.state = .on) ∨ c.kind = .dimmed ∧ 0 < c.level := by
  unfold Circuit.active
  cases c.kind <;> simp

theorem Clock.advanced_eq (c : Clock) :
    c.advanced = if c.minute < 1439 then ⟨c.minute + 1, c.day, c.next + 60000⟩
      else ⟨0, (c.day + 1) % 65536, c.next + 60000⟩ := by
  unfold Clock.advanced
  split <;> rfl

theorem exec_burnTick {s : State} (h : s.Settled) : exec .burnTick s = .next
    { s.reach s.burnDue with
      burnDue := msAfter s.burnDue 1000
      zones := s.zones.mapWith fun z x => x.modWhere (s.commandActive z) Circuit.burned } :=
  congrArg Host.Outcome.next (h.event_of_links rfl)

theorem exec_pwmPeriodStart {s : State} (h : s.Settled) : exec .pwmPeriodStart s = .next
    { s.reach s.periodDue with
      periodDue := msAfter s.periodDue 1, lines := s.lines.mapWith fun _ x => x.periodStart } :=
  congrArg Host.Outcome.next (h.event_of_links rfl)

/-- Settles O42. -/
theorem theTimersOfThePart : Obligations.TheTimersOfThePart := by
  refine ⟨fun s hs => ⟨⟨_, exec_burnTick hs, rfl, fun z => ?_, fun z k => ?_⟩,
    ⟨_, exec_pwmPeriodStart hs, rfl, fun i => ?_⟩⟩, fun s hs => ⟨fun p v e hv he => ?_, fun p hno => ?_,
    fun b e he => ?_, fun b hno => ?_, fun c hc => ?_, fun hno => ?_⟩⟩
  · simp only [State.zone, Tab.get_mapWith]
    rfl
  · simp only [State.circuit, State.zone, Tab.get_mapWith, Zone.modWhere]
    refine congrFun (congrArg _ (funext fun c => ?_)) _
    simp only [State.commandActive, Bool.and_eq_true, Circuit.active_iff]
    rfl
  · simp only [State.line, Tab.get_mapWith, Line.periodStart] <;> rfl
  · rw [exec, execOverrideExpiry, State.event_settled hs]
    simp only [hv, he]
    rfl
  · refine congrArg _ ((State.event_settled hs _).trans ?_)
    cases hv : (s.portal p).override with
    | none => simp only [hs.2]
    | some v =>
      cases he : v.expiry with
      | none => simp only [he, hs.2]
      | some e => exact absurd he (hno v e hv)
  · rw [exec, execStaleExpiry, State.event_settled hs]
    simp only [he]
    simp only [State.raiseTrafficState, State.bore_setBore_self]
    rfl
  · refine congrArg _ ((State.event_settled hs _).trans ?_)
    simp only [hno, hs.2]
  · refine congrArg _ ((hs.event_of_links ?_).trans ?_)
    · simp only [hc]
      rfl
    · simp only [hc, Clock.advanced_eq]
  · refine congrArg _ ((State.event_settled hs _).trans ?_)
    simp only [hno, hs.2]

end Sys2Proof.Machine
end

section
/-! SUPPORT. Notices that wait (R174, R175), and circuits whose faults are announced (R91 to R98). -/

namespace Sys2Proof.Machine

/-! ### Notices delivered one after another -/

theorem mem_placeNotice_of_mem {n m : Notice} {q : List Notice} (h : n ∈ q) (hm : m.sameKey n = true → m = n) :
    n ∈ placeNotice m q := by
  unfold placeNotice
  split
  · refine List.mem_map.mpr ⟨n, h, ?_⟩
    split
    next hkey => exact hm hkey
    · rfl
  · exact List.mem_append_left _ h

/-- The second link record is the first with notices that meet `K` delivered, as far as queue and mask go. -/
inductive LinkRec.Told (K : Notice → Prop) (x : LinkRec) : LinkRec → Prop
  | same {y : LinkRec} : y.notices = x.notices → y.mask = x.mask → LinkRec.Told K x y
  | deliver {y z : LinkRec} (n : Notice) : K n → LinkRec.Told K x y → z.notices = (y.deliver n).notices → z.mask = y.mask →
      LinkRec.Told K x z

theorem LinkRec.Told.mono {K L : Notice → Prop} (h : ∀ n, K n → L n) {x y : LinkRec} (k : LinkRec.Told K x y) :
    LinkRec.Told L x y := by
  induction k with
  | same hn hm => exact .same hn hm
  | deliver n hK _ hn hm ih => exact .deliver n (h n hK) ih hn hm

theorem LinkRec.Told.mask {K : Notice → Prop} {x y : LinkRec} (h : LinkRec.Told K x y) : y.mask = x.mask := by
  induction h with
  | same _ hm => exact hm
  | deliver n _ _ _ hm ih => exact hm.trans ih

theorem LinkRec.Told.trans {K : Notice → Prop} {x y z : LinkRec} (h : LinkRec.Told K x y) (k : LinkRec.Told K y z) :
    LinkRec.Told K x z := by
  induction k with
  | same hn hm =>
    cases h with
    | same hn' hm' => exact .same (hn.trans hn') (hm.trans hm')
    | deliver n hK h' hn' hm' => exact .deliver n hK h' (hn.trans hn') (hm.trans hm')
  | deliver n hK _ hn hm ih => exact .deliver n hK ih hn hm

theorem LinkRec.Told.mem {K : Notice → Prop} {x y : LinkRec} (h : LinkRec.Told K x y) {n : Notice} (hn : n ∈ x.notices)
    (hK : ∀ m, K m → m.sameKey n = true → m = n) : n ∈ y.notices := by
  induction h with
  | same hsame _ => rw [hsame]; exact hn
  | deliver m hm _ hnot _ ih =>
    rw [hnot, LinkRec.deliver]
    dsimp only
    split
    · exact mem_placeNotice_of_mem ih (hK m hm)
    · exact ih

/-- The links of the second state have been told of notices that meet `K`, and of no other. -/
def State.Tells (K : Notice → Prop) (s t : State) : Prop := ∀ k, LinkRec.Told K (s.link k) (t.link k)

namespace State.Tells

variable {K L : Notice → Prop} {s t u : State}

theorem of_links (h : t.links = s.links) : s.Tells K t := fun k => .same (by rw [State.link, h]; rfl) (by rw [State.link, h]; rfl)

theorem refl (s : State) : s.Tells K s := of_links rfl

theorem trans (h : s.Tells K t) (k : t.Tells K u) : s.Tells K u := fun l => (h l).trans (k l)

theorem mono (h : s.Tells K t) (hKL : ∀ n, K n → L n) : s.Tells L t := fun l => (h l).mono hKL

theorem raise {n : Notice} (h : K n) (s : State) : s.Tells K (s.raise n) := fun l =>
  .deliver n h (.same rfl rfl) (by rw [State.link_raise]) (by rw [State.link_raise]; rfl)

theorem ite {c : Prop} [Decidable c] (h : s.Tells K t) (k : s.Tells K u) : s.Tells K (if c then t else u) := by
  split
  · exact h
  · exact k

theorem foldl {α : Type} {f : State → α → State} {as : List α} (hf : ∀ (s : State), ∀ a ∈ as, s.Tells K (f s a)) (s : State) :
    s.Tells K (as.foldl f s) := by
  induction as generalizing s with
  | nil => exact refl s
  | cons a as ih =>
    exact (hf s a List.mem_cons_self).trans (ih (fun s b hb => hf s b (List.mem_cons_of_mem a hb)) _)

/-- A notice that waits stays while none of its kind and subject is raised with another content. -/
theorem waiting (h : s.Tells K t) {n : Notice} (hn : s.Waiting n) (hK : ∀ m, K m → m.sameKey n = true → m = n) :
    t.Waiting n := fun k hk => by
  rw [(h k).mask] at hk
  exact (h k).mem (hn k hk) hK

end State.Tells

theorem State.waiting_raise (s : State) (n : Notice) : (s.raise n).Waiting n := fun k hk => by
  rw [State.link_raise] at hk ⊢
  have hmask : n.kind ∈ (s.link k).mask := hk
  simp only [LinkRec.deliver, hmask, if_true]
  exact mem_placeNotice_self n _

theorem State.Waiting.of_links {s t : State} {n : Notice} (h : s.Waiting n) (hl : t.links = s.links) : t.Waiting n :=
  fun k hk => by
    rw [State.link, hl] at hk ⊢
    exact h k hk

/-! ### Faults announced (R97) -/

section
variable (s : State) (z : Fin 14) (was : Zone)

/-- A change of the failed or stuck set is announced; without one no link changes (R97). -/
theorem State.faults_raised :
    ((s.zone z).failedSet ≠ was.failedSet ∨ (s.zone z).stuckSet ≠ was.stuckSet →
      (s.raiseFaultChange z was).Waiting (.circuitFault z (s.zone z).failedSet (s.zone z).stuckSet))
    ∧ ((s.zone z).failedSet = was.failedSet → (s.zone z).stuckSet = was.stuckSet → s.raiseFaultChange z was = s) := by
  unfold State.raiseFaultChange
  refine ⟨fun h => ?_, fun hf hs => if_pos ⟨hf, hs⟩⟩
  rw [if_neg (by tauto)]
  exact s.waiting_raise _

theorem State.frame_raiseFaultChange :
    s.raiseFaultChange z was = { s with links := (s.raiseFaultChange z was).links } := by
  unfold State.raiseFaultChange
  split <;> rfl

end

/-! ### Settle and loss expiries (R91, R92, R94, R95) -/

theorem State.slotFeedback_iff {s : State} {z : Fin 14} {k : Fin 8} {c : Circuit} (hc : s.circuit z k = some c) :
    s.slotFeedback z k = true
      ↔ ∃ i, c.feedback = some i ∧ (s.line i).fn = .feedbackIn ∧ (s.line i).debounced = some true := by
  simp only [State.slotFeedback, hc, Option.any_some, State.feedbackPresent_eq, Option.any_eq_true, Bool.and_eq_true,
    beq_iff_eq]

theorem State.timerOf_eq_some {s : State} {kind : TimerKind} {z : Fin 14} {k : Fin 8} {c : Circuit}
    (hc : s.circuit z k = some c) {e : Uptime} : s.timerOf kind z k = some e ↔ c.timer = some ⟨kind, e⟩ := by
  simp only [State.timerOf, hc, Option.bind_some]
  cases c.timer with
  | none => simp
  | some t => obtain ⟨kd, ex⟩ := t; simp

/-- What one circuit record written in its slot leaves (R87, R97), after the time has come to `e`. -/
structure State.Expires (s : State) (z : Fin 14) (k : Fin 8) (e : Uptime) (left : Circuit) (u : State) : Prop where
  frame : u = { s with uptime := if reached s.uptime e then s.uptime else e
                       lines := u.lines, zones := u.zones, links := u.links }
  notices : s.onlyNotices u
  others : ∀ y, y ≠ z → u.zone y = s.zone y
  zone : u.zone z = { s.zone z with slots := (u.zone z).slots }
  slots : ∀ j, u.circuit z j = if j = k then some left else s.circuit z j
  raised : (u.zone z).failedSet ≠ (s.zone z).failedSet ∨ (u.zone z).stuckSet ≠ (s.zone z).stuckSet →
    u.Waiting (.circuitFault z (u.zone z).failedSet (u.zone z).stuckSet)
  quiet : (u.zone z).failedSet = (s.zone z).failedSet → (u.zone z).stuckSet = (s.zone z).stuckSet → u.links = s.links

theorem State.zone_putCircuit (s : State) (z : Fin 14) (k : Fin 8) (f : Circuit → Circuit) (y : Fin 14) :
    (s.putCircuit z k f).zone y = if y = z then (s.zone z).modSlot k f else s.zone y := by
  rw [State.putCircuit, State.zone_raiseFaultChange, State.zone_putZone]

theorem State.expires_putCircuit (s : State) (e : Uptime) (z : Fin 14) (k : Fin 8) (f : Circuit → Circuit) {c : Circuit}
    (hc : s.circuit z k = some c) : s.Expires z k e (f c) ((s.reach e).putCircuit z k f) := by
  have hzone : ((s.reach e).putCircuit z k f).zone z = (s.zone z).modSlot k f := by
    rw [State.zone_putCircuit, if_pos rfl]
    rfl
  have hput : ((s.reach e).putZone z ((s.zone z).modSlot k f)).zone z = (s.zone z).modSlot k f :=
    State.zone_putZone_self _ _ _
  have hfaults := ((s.reach e).putZone z ((s.zone z).modSlot k f)).faults_raised z (s.zone z)
  rw [hput] at hfaults
  refine ⟨?_, ?_, fun y hy => ?_, ?_, fun j => ?_, fun h => ?_, fun hf hs => ?_⟩
  · rw [State.putCircuit, State.frame_raiseFaultChange]
    rfl
  · exact State.onlyNotices.trans (.of_links rfl) (State.notices_putCircuit _ _ _ _)
  · rw [State.zone_putCircuit, if_neg hy]
    rfl
  · rw [hzone]
    rfl
  · rw [State.circuit, hzone, Zone.modSlot, Tab.get_put]
    have hget : (s.zone z).slots.get k = some c := hc
    rw [hget]
    rfl
  · rw [hzone] at h ⊢
    exact hfaults.1 h
  · rw [hzone] at hf hs
    rw [State.putCircuit, show (s.reach e).zone z = s.zone z from rfl, hfaults.2 hf hs]
    rfl

section
variable {s : State} (h : s.Settled) (z : Fin 14) (k : Fin 8)
include h

theorem exec_settleExpiry {e : Uptime} (he : s.timerOf .settle z k = some e) :
    exec (.settleExpiry z k) s
      = .next ((s.reach e).putCircuit z k (Circuit.settled (s.slotFeedback z k))).arbitrate := by
  rw [exec, execSettleExpiry, State.event_settled h]
  simp only [he]

theorem exec_settleExpiry_none (he : s.timerOf .settle z k = none) : exec (.settleExpiry z k) s = .next s := by
  rw [exec, execSettleExpiry, State.event_settled h]
  simp only [he, h.2]

theorem exec_lossExpiry {e : Uptime} (he : s.timerOf .loss z k = some e) :
    exec (.lossExpiry z k) s = .next ((s.reach e).putCircuit z k Circuit.lost).arbitrate := by
  rw [exec, execLossExpiry, State.event_settled h]
  simp only [he]

theorem exec_lossExpiry_none (he : s.timerOf .loss z k = none) : exec (.lossExpiry z k) s = .next s := by
  rw [exec, execLossExpiry, State.event_settled h]
  simp only [he, h.2]

end

/-- Settles O41: the circuit as `Circuit.settled` and `Circuit.lost` leave it, in its slot. -/
theorem circuitTimersExpire : Obligations.CircuitTimersExpire := by
  intro s z k hs expires c hc
  have hnone : ∀ kind : TimerKind, (∀ e, c.timer ≠ some ⟨kind, e⟩) → s.timerOf kind z k = none := fun kind hno =>
    Option.eq_none_iff_forall_ne_some.mpr fun e he => hno e ((State.timerOf_eq_some hc).mp he)
  refine ⟨fun hno => exec_settleExpiry_none hs z k (hnone _ hno), fun hno => exec_lossExpiry_none hs z k (hnone _ hno),
    fun e he => ?_, fun e he havail => ?_⟩
  · have hsettle : ∀ left, Circuit.settled (s.slotFeedback z k) c = left → expires (.settleExpiry z k) e c left := by
      rintro _ rfl
      have hx := s.expires_putCircuit e z k (Circuit.settled (s.slotFeedback z k)) hc
      exact ⟨_, exec_settleExpiry hs z k ((State.timerOf_eq_some hc).mpr he), hc, hx.frame, hx.notices, hx.others, hx.zone,
        hx.slots, hx.raised, hx.quiet⟩
    have hpresent := State.slotFeedback_iff hc
    refine ⟨fun hst hp => hsettle _ ?_, fun hst hp => hsettle _ ?_, fun hst hp => hsettle _ ?_, fun hst hp => hsettle _ ?_⟩
    · simp only [Circuit.settled, hst, hpresent.mpr hp, if_true]
    · simp only [Circuit.settled, hst, Bool.not_eq_true _ ▸ mt hpresent.mp hp, Bool.false_eq_true, if_false]
      rfl
    · simp only [Circuit.settled, hst, hpresent.mpr hp, if_true]
      rfl
    · simp only [Circuit.settled, hst, Bool.not_eq_true _ ▸ mt hpresent.mp hp, Bool.false_eq_true, if_false]
      rfl
  · have hx := s.expires_putCircuit e z k Circuit.lost hc
    have hlost : c.lost = { c with state := .failedDark, level := 0, timer := none } := if_pos havail
    rw [hlost] at hx
    exact ⟨_, exec_lossExpiry hs z k ((State.timerOf_eq_some hc).mpr he), hc, hx.frame, hx.notices, hx.others, hx.zone,
      hx.slots, hx.raised, hx.quiet⟩

end Sys2Proof.Machine
end

section
/-! SUPPORT. Circuit maintenance (R80, R98, R101) and the writes of zones and meters (R13, R64, R65). -/

namespace Sys2Proof.Machine

/-! ### LOCKOUT_MODIFY and BURN_RESET -/

theorem mem_slotsOf {mask : Octet} {k : Fin 8} : k ∈ slotsOf mask ↔ mask.getLsbD k.val = true := by
  simp [slotsOf]

/-- A circuit in OFF, as the clear mask or the set mask leaves it (R98). -/
theorem Circuit.freed_locked {c : Circuit} (h : c.state = .lockedOut) (now : Uptime) (settle : Nat) (e : Bool) :
    c.freed now e settle = if e then ({ c with state := .off, level := 0, timer := none } : Circuit).lit now settle
      else { c with state := .off, level := 0, timer := none } := by
  rw [Circuit.freed, if_pos h]
  rfl

theorem Circuit.freed_other {c : Circuit} (h : c.state ≠ .lockedOut) (now : Uptime) (settle : Nat) (e : Bool) :
    c.freed now e settle = c := if_neg h

theorem Circuit.lockOut_state (c : Circuit) : c.lockOut.state = .lockedOut := by
  unfold Circuit.lockOut
  split
  next h => exact h
  next => rfl

/-- A circuit freed leaves no trace of what locked it out: its record in OFF is the one it had. -/
theorem Circuit.freed_lockOut (c : Circuit) (now : Uptime) (settle : Nat) (e : Bool) :
    c.lockOut.freed now e settle = if e then ({ c with state := .off, level := 0, timer := none } : Circuit).lit now settle
      else { c with state := .off, level := 0, timer := none } := by
  have hoff : c.lockOut.outOfService .off = c.outOfService .off := by
    unfold Circuit.lockOut
    split <;> rfl
  rw [Circuit.freed, if_pos c.lockOut_state, hoff]
  rfl

/-- A freed circuit that is lit (R80, R90). -/
theorem Circuit.lit_off (c : Circuit) (now : Uptime) (settle : Nat) :
    ({ c with state := .off, level := 0, timer := none } : Circuit).lit now settle
      = match c.kind, c.feedback with
        | .switched, some _ =>
          { c with state := .switchingOn, level := 0, timer := some ⟨.settle, msAfter now settle⟩ }
        | .switched, none => { c with state := .on, level := 0, timer := none }
        | .dimmed, _ => { c with state := .on, level := 1000, timer := none } := by
  obtain ⟨kind, rating, output, feedback, state, level, timer, burn⟩ := c
  cases kind <;> cases feedback <;> rfl

/-- The common dim level after a LOCKOUT_MODIFY: 1000 where one frees a DIMMED circuit under emergency allocation (R80). -/
theorem Zone.lockoutModify_dim (now : Uptime) (e : Bool) (z : Zone) (sets clears : List (Fin 8)) :
    ((∃ k c, e = true ∧ k ∈ clears ∧ z.slots.get k = some c ∧ c.kind = .dimmed ∧ (k ∈ sets ∨ c.state = .lockedOut)) →
      (z.lockoutModify now e sets clears).dim = some 1000)
    ∧ ((∀ k c, e = true → k ∈ clears → z.slots.get k = some c → c.kind = .dimmed → ¬ (k ∈ sets ∨ c.state = .lockedOut)) →
      (z.lockoutModify now e sets clears).dim = z.dim) := by
  cases e with
  | false => exact ⟨fun ⟨_, _, h, _⟩ => (by cases h), fun _ => rfl⟩
  | true =>
    have hlocked : ∀ k, (z.modSlots sets Circuit.lockOut).slots.get k
        = (z.slots.get k).map fun c => if k ∈ sets then c.lockOut else c := fun k => by
      simp only [Zone.modSlots, Tab.get_mapWith]
      split <;> simp
    have hkind : ∀ c : Circuit, c.lockOut.kind = c.kind := fun c => by unfold Circuit.lockOut; split <;> rfl
    have hunlock : ∀ c : Circuit, c.unlock.isDimmed = c.isDimmed := fun c => by
      unfold Circuit.unlock; split <;> rfl
    have hfreed : ((z.modSlots sets Circuit.lockOut).lockedAmong clears).any (fun k =>
          (((z.modSlots sets Circuit.lockOut).modSlots clears Circuit.unlock).slots.get k).any Circuit.isDimmed) = true
        ↔ ∃ k c, k ∈ clears ∧ z.slots.get k = some c ∧ c.kind = .dimmed ∧ (k ∈ sets ∨ c.state = .lockedOut) := by
      simp only [List.any_eq_true, Zone.lockedAmong, List.mem_filter, hlocked]
      constructor
      · rintro ⟨k, ⟨hk, hlock⟩, hdim⟩
        cases hc : z.slots.get k with
        | none => rw [hc] at hlock; cases hlock
        | some c =>
          rw [hc] at hlock
          have hslot : ((z.modSlots sets Circuit.lockOut).modSlots clears Circuit.unlock).slots.get k
              = some (if k ∈ sets then c.lockOut else c).unlock := by
            simp only [Zone.modSlots, Tab.get_mapWith, if_pos hk] at hlocked ⊢
            rw [hlocked, hc]
            rfl
          rw [hslot] at hdim
          simp only [Option.any_some, hunlock] at hdim
          simp only [Option.map_some, Option.any_some, beq_iff_eq] at hlock
          refine ⟨k, c, hk, hc, ?_, ?_⟩
          · rw [Circuit.isDimmed, beq_iff_eq] at hdim
            split at hdim
            · rw [hkind] at hdim; exact hdim
            · exact hdim
          · by_cases hs : k ∈ sets
            · exact .inl hs
            · rw [if_neg hs] at hlock; exact .inr hlock
      · rintro ⟨k, c, hk, hc, hdim, hlock⟩
        have hstate : (if k ∈ sets then c.lockOut else c).state = .lockedOut := by
          split
          · exact c.lockOut_state
          next hs => exact hlock.resolve_left hs
        refine ⟨k, ⟨hk, by rw [hc]; simpa using hstate⟩, ?_⟩
        have hslot : ((z.modSlots sets Circuit.lockOut).modSlots clears Circuit.unlock).slots.get k
            = some (if k ∈ sets then c.lockOut else c).unlock := by
          simp only [Zone.modSlots, Tab.get_mapWith, if_pos hk] at hlocked ⊢
          rw [hlocked, hc]
          rfl
        rw [hslot, Option.any_some, hunlock, Circuit.isDimmed, beq_iff_eq]
        split
        · rw [hkind]; exact hdim
        · exact hdim
    simp only [Zone.lockoutModify, if_true, Zone.lightFreed]
    refine ⟨fun ⟨k, c, _, hk, hc, hd, hl⟩ => ?_, fun hno => ?_⟩
    · rw [if_pos (hfreed.mpr ⟨k, c, hk, hc, hd, hl⟩)]
    · rw [if_neg fun h => by
        obtain ⟨k, c, hk, hc, hd, hl⟩ := hfreed.mp h
        exact hno k c trivial hk hc hd hl]
      rfl

/-- Settles O30: the zone slot by slot, its dim level, and the sets it announces. -/
theorem circuitMaintenance : Obligations.CircuitMaintenance := by
  refine ⟨fun s l r z sets clears hs hz hbody => ?_, fun s l r z mask hs hz hbody => ?_⟩
  · obtain ⟨x, hx⟩ : ∃ x, x = (s.zone z).lockoutModify s.uptime (s.underEmergency z) (slotsOf sets) (slotsOf clears) :=
      ⟨_, rfl⟩
    have hput : ((s.popRequest l).putZone z x).zone z = x := State.zone_putZone_self _ _ _
    have hzone : ∀ y, (((s.popRequest l).putZone z x).raiseFaultChange z (s.zone z)).zone y
        = if y = z then x else s.zone y := fun y => by
      rw [State.zone_raiseFaultChange, State.zone_putZone]
      rfl
    have hself := hzone z
    rw [if_pos rfl] at hself
    have hslots : ∀ k, x.slots.get k = (s.circuit z k).map fun c =>
        if clears.getLsbD k.val = true then
          (if sets.getLsbD k.val = true then c.lockOut else c).freed s.uptime (s.underEmergency z) (s.zone z).settle
        else if sets.getLsbD k.val = true then c.lockOut else c := fun k => by
      rw [hx, Zone.slots_lockoutModify]
      simp only [mem_slotsOf]
      rfl
    have hfaults := ((s.popRequest l).putZone z x).faults_raised z (s.zone z)
    rw [hput] at hfaults
    have hdim := (s.zone z).lockoutModify_dim s.uptime (s.underEmergency z) (slotsOf sets) (slotsOf clears)
    rw [← hx] at hdim
    simp only [mem_slotsOf] at hdim
    refine ⟨((s.popRequest l).putZone z x).raiseFaultChange z (s.zone z), ?_, ?_, ?_, fun y hy => ?_, ?_, fun k hk => ?_,
      fun k c hc => ?_, fun hno => ?_, fun h => ?_, fun hf hst => ?_⟩
    · refine congrArg _ ((hs.unit hz _).trans (hs.finish hs.isFor ?_ rfl rfl))
      simp only [hbody, List.getD_cons_zero, List.getD_cons_succ, hx]
      rfl
    · rw [State.frame_raiseFaultChange]
      rfl
    · exact State.links_lockout _ z x (s.zone z)
    · rw [hzone, if_neg hy]
    · rw [hself, hx]
      exact Zone.commanded_lockoutModify _ _ _ _ _
    · rw [State.circuit, hself, hslots, hk]
      rfl
    · intro off locked
      have hleft : ∀ d, (if clears.getLsbD k.val = true then
            (if sets.getLsbD k.val = true then c.lockOut else c).freed s.uptime (s.underEmergency z) (s.zone z).settle
          else if sets.getLsbD k.val = true then c.lockOut else c) = d →
          (((s.popRequest l).putZone z x).raiseFaultChange z (s.zone z)).circuit z k = some d := by
        rintro _ rfl
        rw [State.circuit, hself, hslots, hc]
        rfl
      have hfreed : locked → (if sets.getLsbD k.val = true then c.lockOut else c).freed s.uptime (s.underEmergency z)
          (s.zone z).settle = if s.underEmergency z then (off .off).lit s.uptime (s.zone z).settle else off .off := by
        intro hl
        split
        · exact c.freed_lockOut _ _ _
        next hset => exact Circuit.freed_locked (hl.resolve_left hset) _ _ _
      refine ⟨fun hl => hleft _ ?_, fun hl hclr => hleft _ ?_, fun hl hclr he => hleft _ ?_, fun hl hclr he => ⟨hleft _ ?_, fun hd => ?_⟩⟩
      · obtain ⟨hset, hst⟩ := not_or.mp hl
        rw [if_neg hset, Circuit.freed_other hst, ite_self]
      · rw [if_neg (by rw [hclr]; decide)]
        split
        · unfold Circuit.lockOut
          split <;> rfl
        next hset => rw [if_pos (hl.resolve_left hset)]
      · rw [if_pos hclr, hfreed hl, he]
        rfl
      · rw [if_pos hclr, hfreed hl, if_pos he, Circuit.lit_off] <;> rfl
      · rw [hself]
        exact hdim.1 ⟨k, c, he, hclr, hc, hd, hl⟩
    · rw [hself]
      refine hdim.2 fun k c he hk hc hd hl => ?_
      rw [hno k c hc hd hl hk] at he
      cases he
    · rw [hself] at h ⊢
      exact hfaults.1 h
    · rw [hself] at hf hst
      rw [hfaults.2 hf hst]
      rfl
  · refine congrArg _ ((hs.unit hz _).trans (hs.finish hs.isFor ?_ rfl rfl))
    have hslots : ((s.zone z).slots.mapWith fun k o => if k ∈ slotsOf mask then o.map fun c => { c with burn := 0 } else o)
        = (s.zone z).slots.mapWith fun k o => o.map fun c => { c with burn := if mask.getLsbD k.val then 0 else c.burn } := by
      refine Tab.ext_get fun k => ?_
      simp only [Tab.get_mapWith, mem_slotsOf]
      split <;> simp
    simp only [hbody, List.getD_cons_zero, Zone.modSlots, State.zone_popRequest, hslots]

/-! ### WRITE_METER_SETUP (R13) -/

theorem State.setMeter_setMeter (s : State) (m : Fin 4) (x y : Meter) : (s.setMeter m x).setMeter m y = s.setMeter m y := by
  have h : (s.meters.put m x).put m y = s.meters.put m y := by
    refine Tab.ext_get fun i => ?_
    simp only [Tab.get_put]
    split <;> rfl
  rw [State.setMeter, State.setMeter, State.setMeter]
  simp only [h]

theorem State.lineTaken_iff (s : State) (m : Fin 4) (line : Option (Fin 192)) :
    s.lineTaken m line = true ↔ ∃ k, k ≠ m ∧ line.isSome = true ∧ (s.meter k).line = line := by
  simp [State.lineTaken]
  tauto

theorem State.meterInService_iff (s : State) (m : Fin 4) :
    s.meterInService m = true ↔ ∃ p, (s.portal p).state ≠ .offline ∧ (s.portal p).meter = some m := by
  simp [State.meterInService, State.inService]

/-- A meter restarted: its record, and its notice with what that holds (R12, R13). -/
theorem State.restartMeter_eq (s : State) (m : Fin 4) :
    s.restartMeter m
      = (s.setMeter m { (s.meter m).discarded with
          status := if s.meterConfigured m then .starting else .unconfigured
          gateEnd := if s.meterConfigured m then some (msAfter s.uptime (s.meter m).gate) else none }).raise
          (.meterState m (if s.meterConfigured m then .starting else .unconfigured) none 0 0 none) := by
  have hrec : (s.meter m).restarted s.uptime (s.meterConfigured m) = { (s.meter m).discarded with
      status := if s.meterConfigured m then .starting else .unconfigured
      gateEnd := if s.meterConfigured m then some (msAfter s.uptime (s.meter m).gate) else none } := by
    cases s.meterConfigured m <;> rfl
  rw [State.restartMeter, State.raiseMeterState, hrec, State.meter_setMeter_self]
  rfl

/-- Settles O19. -/
theorem writeMeterSetupRestartsTheMeter : Obligations.WriteMeterSetupRestartsTheMeter := by
  intro s l r m hs hm
  refine ⟨fun hu => ?_, fun u hu => ⟨fun htaken => ?_, fun hfree => ?_⟩⟩
  · refine congrArg _ ((hs.unit hm _).trans (hs.refuse hs.isFor ?_ rfl))
    simp only [hu]
  · refine congrArg _ ((hs.unit hm _).trans (hs.refuse hs.isFor ?_ rfl))
    have ht : (s.popRequest l).lineTaken m u.line = true := (State.lineTaken_iff _ _ _).mpr htaken
    simp only [hu, ht, if_true]
  · have ht : (s.popRequest l).lineTaken m u.line = false := by
      rw [← Bool.not_eq_true, State.lineTaken_iff]
      rintro ⟨k, hk, hsome, hline⟩
      exact hfree k hk hsome hline
    refine ⟨fun hserv hline => ?_, fun hserv => ?_⟩
    · refine congrArg _ ((hs.unit hm _).trans (hs.refuse hs.isFor ?_ rfl))
      have hin : (s.popRequest l).meterInService m = true := (State.meterInService_iff _ _).mpr hserv
      have hne : (u.line != ((s.popRequest l).meter m).line) = true := bne_iff_ne.mpr hline
      simp only [hu, ht, hin, hne, Bool.and_self, if_true, Bool.false_eq_true, if_false]
    · intro configured status
      refine congrArg _ ((hs.unit hm _).trans (hs.finish hs.isFor ?_ rfl rfl))
      have hin : ((s.popRequest l).meterInService m && u.line != ((s.popRequest l).meter m).line) = false := by
        rw [Bool.and_eq_false_iff, ← Bool.not_eq_true, State.meterInService_iff]
        by_cases h : ∃ p, (s.portal p).state ≠ .offline ∧ (s.portal p).meter = some m
        · obtain ⟨p, hp, hmeter⟩ := h
          exact .inr (by rw [hserv p hp hmeter]; exact bne_self_eq_false _)
        · exact .inl h
      have hconf : ((s.popRequest l).setMeter m (((s.popRequest l).meter m).withSetup u)).meterConfigured m = configured := by
        simp only [State.meterConfigured, State.meter_setMeter_self, Meter.withSetup, configured]
        cases u.line <;> rfl
      have hrestart : ((s.popRequest l).setMeter m (((s.popRequest l).meter m).withSetup u)).restartMeter m
          = ((s.popRequest l).setMeter m
              { line := u.line, gate := u.gate, span := u.span, weight := u.weight, status := status
                invalidCount := 0, validCount := 0, filtered := none, gateCount := 0, ring := []
                gateEnd := if configured then some (msAfter s.uptime u.gate) else none }).raise
              (.meterState m status none 0 0 none) := by
        rw [State.restartMeter_eq, hconf, State.setMeter_setMeter, State.meter_setMeter_self]
        rfl
      simp only [hu, ht, hin, hrestart, Bool.false_eq_true, if_false]

/-! ### WRITE_ZONE (R64, R65) -/

theorem writeSlot_eq (held : Option Circuit) (new : Option CircuitSetup) :
    writeSlot held new = match new, held with
      | none, _ => none
      | some c, none => some c.create
      | some c, some held => if held.setup = c then some held else some c.create := by
  cases new <;> cases held <;> rfl

theorem State.zoneWritable_iff (s : State) (z : Fin 14) :
    s.zoneWritable z = true ↔ match ownerOf z with
      | .portal p => (s.portal p).state = .offline
      | .bore b => ∀ p ∈ portalsOf b, (s.portal p).state = .offline := by
  unfold State.zoneWritable
  cases ownerOf z <;> simp

/-- Settles O21. -/
theorem writeZoneReplacesTheSetup : Obligations.WriteZoneReplacesTheSetup := by
  intro s l r z hs hz writable
  have hwritable : (s.popRequest l).zoneWritable z = true ↔ writable := State.zoneWritable_iff s z
  refine ⟨fun hu => ?_, fun u hu => ⟨fun hw => ?_, fun hw => ⟨(s.zone z).withSetup u, fun k => ?_, rfl, ?_⟩⟩⟩
  · refine congrArg _ ((hs.unit hz _).trans (hs.refuse hs.isFor ?_ rfl))
    simp only [hu]
  · refine congrArg _ ((hs.unit hz _).trans (hs.refuse hs.isFor ?_ rfl))
    simp only [hu, if_neg (mt hwritable.mp hw)]
  · rw [Zone.withSetup, Tab.get_mapWith, writeSlot_eq] <;> rfl
  · refine congrArg _ ((hs.unit hz _).trans (hs.finish hs.isFor ?_ rfl rfl))
    simp only [hu, if_pos (hwritable.mpr hw), State.zone_popRequest, State.raiseFaultChange, State.zone_setZone_self]

end Sys2Proof.Machine
end

section
/-! SUPPORT. Meters and feedback lines (R5 to R12, R93, R95, R152 to R154). -/

namespace Sys2Proof.Machine

/-! ### Samples of the feedback lines (R152, R153) -/

/-- The circuit with its loss timer stopped, if one runs (R93, R95). -/
theorem Circuit.cancelLoss_eq (c : Circuit) :
    c.cancelLoss = { c with timer := c.timer.filter fun w => w.kind != .loss } := by
  unfold Circuit.cancelLoss
  cases c.timer with
  | none => rfl
  | some t =>
    obtain ⟨kind, expiry⟩ := t
    cases kind <;> rfl

/-- A feedback change by kind and state (R93, R95). -/
theorem Circuit.feedbackChanged_table (now : Uptime) (settle : Nat) (present : Bool) (c : Circuit) :
    c.feedbackChanged now settle present =
      match c.kind, c.state, present with
      | .switched, .on, false => c.startLoss now settle
      | .switched, .on, true => c.cancelLoss
      | .dimmed, .off, true => c.startLoss now settle
      | .dimmed, .on, true => c.startLoss now settle
      | .dimmed, .off, false => c.cancelLoss
      | .dimmed, .on, false => c.cancelLoss
      | _, _, _ => c := by
  unfold Circuit.feedbackChanged
  cases c.kind <;> cases c.state <;> cases present <;> rfl

/-- What a sample does to a circuit: nothing, unless it makes the change of the circuit's feedback line. -/
theorem Circuit.takeSample_idle (s : State) (which : Fin 192 → Bool) (pins : BitVec 192) (settle : Nat) (c : Circuit)
    (h : ∀ i, c.feedback = some i → (which i && (s.line i).changes (pins.getLsbD i.val)) = false) :
    c.takeSample s which pins settle = c := by
  unfold Circuit.takeSample
  split
  · rfl
  next i hi => rw [h i hi, if_neg (by decide)]

theorem Circuit.takeSample_change (s : State) (which : Fin 192 → Bool) (pins : BitVec 192) (settle : Nat) (c : Circuit)
    {i : Fin 192} (hi : c.feedback = some i) (h : (which i && (s.line i).changes (pins.getLsbD i.val)) = true) :
    c.takeSample s which pins settle = c.feedbackChanged s.uptime settle ((s.line i).raw (pins.getLsbD i.val)) := by
  simp only [Circuit.takeSample, hi, h, if_true]

section
variable {x : Line} {pin : Bool} {n : Nat} (hfn : x.fn = .feedbackIn) (hn : x.count = some n)
include hfn hn

theorem Line.sampled_agrees (h : x.debounced = some (x.raw pin)) : x.sampled pin = { x with count := some 0 } := by
  simp only [Line.sampled, hfn, hn, h, if_true]

theorem Line.sampled_counts (h : some (x.raw pin) ≠ x.debounced) (hlt : n < 19) :
    x.sampled pin = { x with count := some (n + 1) } := by
  simp only [Line.sampled, hfn, hn, if_neg h, if_pos hlt]

theorem Line.sampled_changes (h : some (x.raw pin) ≠ x.debounced) (hle : 19 ≤ n) :
    x.sampled pin = { x with debounced := some (x.raw pin), count := some 0 } := by
  simp only [Line.sampled, hfn, hn, if_neg h, if_neg (Nat.not_lt.mpr hle)]

end

theorem Line.sampled_other {x : Line} (h : x.fn ≠ .feedbackIn) (pin : Bool) : x.sampled pin = x := by
  obtain ⟨hs, -⟩ | ⟨n, hfn, -⟩ := Line.sampled_cases pin x
  · exact hs
  · exact absurd hfn h

/-- The 20th disagreeing sample of a line (R152). -/
theorem Line.changes_iff {x : Line} {pin : Bool} :
    x.changes pin = true ↔ x.fn = .feedbackIn ∧ (∃ n, x.count = some n ∧ 19 ≤ n) ∧ x.debounced ≠ some (x.raw pin) := by
  unfold Line.changes
  simp only [Bool.and_eq_true, beq_iff_eq, bne_iff_ne, ne_eq, Option.any_eq_true, decide_eq_true_eq, and_assoc,
    eq_comm (b := x.debounced)]

theorem Line.changes_of_fits {x : Line} (h : x.inputFits = true) {pin : Bool} :
    x.changes pin = true ↔ x.fn = .feedbackIn ∧ x.count = some 19 ∧ x.debounced = some (!x.raw pin) := by
  rw [Line.changes_iff]
  refine and_congr_right fun hfn => ?_
  simp only [Line.inputFits, hfn, Bool.and_eq_true] at h
  obtain ⟨⟨hdeb, hcount⟩, -⟩ := h
  obtain ⟨d, hd⟩ := Option.isSome_iff_exists.mp hdeb
  obtain ⟨n, hn, hle⟩ := (Option.any_eq_true _ _).mp hcount
  have hle : n ≤ 19 := of_decide_eq_true hle
  rw [hn, hd]
  refine and_congr ⟨fun ⟨m, hm, hge⟩ => ?_, fun hm => ⟨n, rfl, (Option.some.inj hm).ge⟩⟩ ?_
  · cases hm
    rw [le_antisymm hle hge]
  · cases d <;> cases x.raw pin <;> decide

/-- The part at the millisecond of a sample, with the pins at the levels it finds. -/
def State.atSample (s : State) (pins : BitVec 192) : State :=
  { s.reach s.sampleDue with sampleDue := msAfter s.sampleDue 1, pins := pins }

/-- The part at the millisecond of a sample, with the pin of one line at the level that disagrees (log 11). -/
def State.atChange (s : State) (i : Fin 192) : State := (s.reach s.sampleDue).setPin i (s.line i).changingPin

section
variable (s : State) (pins : BitVec 192) (i j : Fin 192) (z : Fin 14)

@[simp] theorem State.supervised_atSample : (s.atSample pins).supervised z = s.supervised z := rfl
@[simp] theorem State.line_atSample : (s.atSample pins).line j = s.line j := rfl
@[simp] theorem State.zone_atSample : (s.atSample pins).zone z = s.zone z := rfl
@[simp] theorem State.circuit_atSample (k : Fin 8) : (s.atSample pins).circuit z k = s.circuit z k := rfl
@[simp] theorem State.supervised_atChange : (s.atChange i).supervised z = s.supervised z := rfl
@[simp] theorem State.line_atChange : (s.atChange i).line j = s.line j := rfl
@[simp] theorem State.zone_atChange : (s.atChange i).zone z = s.zone z := rfl
@[simp] theorem State.circuit_atChange (k : Fin 8) : (s.atChange i).circuit z k = s.circuit z k := rfl

end

theorem State.slots_sampleLines (s : State) (which : Fin 192 → Bool) (pins : BitVec 192) (z : Fin 14) :
    (s.sampleLines which pins).zone z = { s.zone z with slots := ((s.sampleLines which pins).zone z).slots } := by
  rw [State.zone_sampleLines]
  split <;> rfl

theorem exec_feedbackSample {s : State} (h : s.Settled) (pins : BitVec 192) :
    exec (.feedbackSample pins) s = .next
      ((s.atSample pins).sampleLines (fun _ => true) pins) :=
  congrArg Host.Outcome.next (h.event_of_links rfl)

/-- Settles O39: each line by the table of R152, each circuit by what its feedback line does. -/
theorem aSampleDebouncesEveryFeedbackLine : Obligations.ASampleDebouncesEveryFeedbackLine := by
  intro s pins hs hfit raw changes
  have hchanges : ∀ i, (s.line i).changes (pins.getLsbD i.val) = true ↔ changes i := fun i => Line.changes_of_fits (hfit i)
  refine ⟨_, exec_feedbackSample hs pins, rfl, rfl, fun i => ⟨fun hfn => ?_, fun d n hfn hd hn => ⟨fun h => ?_,
    fun h hlt => ?_, fun h hn19 => ?_⟩⟩, fun z => ?_, fun z k => ⟨fun hc => ?_, fun c hc => ⟨fun h => ?_, fun i hsup hi hch => ?_⟩⟩⟩
  · rw [State.line_sampleLines, if_pos rfl, State.line_atSample]
    exact Line.sampled_other hfn _
  · rw [State.line_sampleLines, if_pos rfl, State.line_atSample]
    exact Line.sampled_agrees hfn hn (hd.trans (congrArg some h.symm))
  · rw [State.line_sampleLines, if_pos rfl, State.line_atSample]
    exact Line.sampled_counts hfn hn (fun he => h (Option.some.inj (he.trans hd))) hlt
  · rw [State.line_sampleLines, if_pos rfl, State.line_atSample]
    exact Line.sampled_changes hfn hn (fun he => h (Option.some.inj (he.trans hd))) hn19.ge
  · exact State.slots_sampleLines _ _ _ z
  · rw [State.circuit_sampleLines, State.circuit_atSample, hc]
    rfl
  · rw [State.circuit_sampleLines, State.circuit_atSample, hc, Option.map_some, State.supervised_atSample]
    refine congrArg some ?_
    obtain hsup | hidle := h
    · rw [if_neg (by rw [hsup]; decide)]
    · split
      · refine Circuit.takeSample_idle _ _ _ _ _ fun i hi => ?_
        rw [Bool.true_and, ← Bool.not_eq_true]
        exact fun h => hidle i hi ((hchanges i).mp h)
      · rfl
  · intro start stop
    rw [State.circuit_sampleLines, State.circuit_atSample, hc, Option.map_some, State.supervised_atSample, if_pos hsup]
    refine congrArg some ?_
    rw [Circuit.takeSample_change _ _ _ _ _ hi (by rw [Bool.true_and]; exact (hchanges i).mpr hch),
      Circuit.feedbackChanged_table, Circuit.cancelLoss_eq] <;> rfl

/-! ### A feedback change of one line (R152, R153; log 11) -/

theorem Line.changeReady_iff {x : Line} : x.changeReady = true ↔ x.fn = .feedbackIn ∧ x.count = some 19 := by
  simp [Line.changeReady]

/-- The part with one line sampled at the pin level that makes its 20th disagreeing sample. -/
def State.changed (s : State) (i : Fin 192) : State :=
  (s.atChange i).sampleLines (fun j => j == i) (s.atChange i).pins

theorem exec_feedbackChange {s : State} (h : s.Settled) {i : Fin 192} (hr : (s.line i).changeReady = true) :
    exec (.feedbackChange i) s = .next (s.changed i) := by
  have hev : (if (s.line i).changeReady then s.changed i else s) = s.changed i := if_pos hr
  refine congrArg Host.Outcome.next ((h.event_of_links ?_).trans hev)
  exact (congrArg State.links hev).trans rfl

/-- Settles O40. -/
theorem aFeedbackChangeReachesItsCircuits : Obligations.AFeedbackChangeReachesItsCircuits := by
  intro s i hs
  refine ⟨fun hno => ?_, fun d hfn hcount hd => ?_⟩
  · refine congrArg Host.Outcome.next ((State.event_settled hs _).trans ?_)
    rw [if_neg (mt Line.changeReady_iff.mp hno), hs.2]
  · have hpin : ∀ j : Fin 192, (s.changed i).pins.getLsbD j.val
        = if j = i then xor (!d) (s.line i).invert else s.pins.getLsbD j.val := fun j => by
      refine (State.pin_setPin _ _ _ _).trans ?_
      rw [Line.changingPin, hd]
      cases d <;> rfl
    have hraw : (s.line i).raw ((s.atChange i).pins.getLsbD i.val) = !d := by
      rw [show (s.atChange i).pins = (s.changed i).pins from rfl, hpin, if_pos rfl, Line.raw, Bool.xor_assoc, Bool.xor_self, Bool.xor_false]
    have hline : ∀ k, (s.changed i).line k
        = if k = i then { s.line i with debounced := some (!d), count := some 0 } else s.line k := fun k => by
      rw [State.changed, State.line_sampleLines, State.line_atChange]
      by_cases hk : k = i
      · subst hk
        rw [if_pos (beq_self_eq_true k), if_pos rfl, Line.sampled_changes hfn hcount (fun he => ?_) le_rfl, hraw]
        rw [hraw, hd] at he
        cases d <;> cases he
      · rw [if_neg (by simpa using hk), if_neg hk]
    have hchanges : (s.line i).changes ((s.atChange i).pins.getLsbD i.val) = true := by
      rw [Line.changes_iff, hraw, hd]
      exact ⟨hfn, ⟨19, hcount, le_rfl⟩, by cases d <;> decide⟩
    have hsettled : (s.changed i).Settled := ⟨hs.1, hs.of_links rfl⟩
    refine ⟨s.changed i, exec_feedbackChange hs (Line.changeReady_iff.mpr ⟨hfn, hcount⟩), rfl, rfl, hpin, hline,
      ⟨_, exec_feedbackSample hsettled _, ?_⟩, fun z => ?_, fun z k => ?_⟩
    · have hself : (s.changed i).line i = { s.line i with debounced := some (!d), count := some 0 } := by
        rw [hline, if_pos rfl]
      rw [State.line_sampleLines, if_pos rfl, State.line_atSample, hself]
      exact Line.sampled_agrees (x := { s.line i with debounced := some (!d), count := some 0 }) hfn rfl
        (congrArg some hraw.symm)
    · exact State.slots_sampleLines _ _ _ z
    · rw [State.changed, State.circuit_sampleLines, State.circuit_atChange, State.supervised_atChange]
      refine congrFun (congrArg Option.map (funext fun c => ?_)) _
      by_cases hsup : s.supervised z = true
      · rw [if_pos hsup]
        by_cases hi : c.feedback = some i
        · rw [if_pos ⟨hsup, hi⟩, Circuit.takeSample_change _ _ _ _ _ hi (by
            rw [beq_self_eq_true, Bool.true_and]; exact hchanges), State.line_atChange, hraw,
            Circuit.feedbackChanged_table, Circuit.cancelLoss_eq]
          obtain ⟨kind, rating, output, feedback, state, level, timer, burn⟩ := c
          cases d <;> cases kind <;> cases state <;> rfl
        · rw [if_neg fun h => hi h.2]
          refine Circuit.takeSample_idle _ _ _ _ _ fun j hj => ?_
          have hne : (j == i) = false := beq_false_of_ne fun h => hi (h ▸ hj)
          rw [hne, Bool.false_and]
      · rw [if_neg hsup, if_neg fun h => hsup h.1]

end Sys2Proof.Machine
end

