-- ==== Sys2Proof/Proofs/Obligations/Meters.lean ====
section
/-! SUPPORT. The statement about what a gate's expiry and the reading of a meter's pin do (O38). -/

namespace Sys2Proof.Machine

/-! ### A gate's sample (R6 to R11) -/

theorem sampleValue_of_valid {g n : Nat} (span : Nat) (h : 900 * g ≤ n * 1000 ∧ n * 1000 ≤ 12000 * g) :
    sampleValue g span n = some (if n * 1000 < 1000 * g then 0
      else if n * 1000 ≤ 11000 * g then (2 * ((n * 1000 - 1000 * g) * span) + g * 10000) / (2 * (g * 10000)) else span) := by
  unfold sampleValue sampleFlag
  rw [if_neg (Nat.not_lt.mpr h.1), if_pos h.2]
  by_cases h1 : n * 1000 < 1000 * g
  · rw [if_pos h1, if_pos h1]
  · rw [if_neg h1, if_neg h1]
    by_cases h2 : n * 1000 ≤ 11000 * g
    · rw [if_pos h2, if_pos h2]; rfl
    · rw [if_neg h2, if_neg h2]

theorem sampleValue_of_invalid {g n : Nat} (span : Nat) (h : ¬ (900 * g ≤ n * 1000 ∧ n * 1000 ≤ 12000 * g)) :
    sampleValue g span n = none := by
  unfold sampleValue sampleFlag
  by_cases h0 : n * 1000 < 900 * g
  · rw [if_pos h0]
  · rw [if_neg h0, if_neg (by omega), if_neg (by omega), if_neg (by omega)]

/-- The ring takes a record at its end and gives up the oldest where it is full (R8). -/
theorem ringPush_eq {ring : List Sample} (h : ring.length ≤ 16) (x : Sample) :
    ringPush ring x = (if ring.length < 16 then ring else ring.tail) ++ [x] := by
  unfold ringPush
  split
  next hlt => rw [show ring.length + 1 - 16 = 0 by omega, List.drop_zero]
  next hge =>
    rw [show ring.length + 1 - 16 = 1 by omega, List.drop_one, List.tail_append_of_ne_nil]
    exact List.ne_nil_of_length_pos (by omega)

theorem exec_gateExpiry_none {s : State} {m : Fin 4} (h : s.Settled) (hg : (s.meter m).gateEnd = none) :
    exec (.gateExpiry m) s = .next s := by
  refine congrArg Host.Outcome.next ((State.event_settled h _).trans ?_)
  rw [hg]
  exact h.2

theorem exec_gateExpiry_some {s : State} {m : Fin 4} {e : Uptime} (h : s.Settled) (hg : (s.meter m).gateEnd = some e) :
    exec (.gateExpiry m) s = .next ((s.reach e).endGate m e).arbitrate := by
  refine congrArg Host.Outcome.next ((State.event_settled h _).trans ?_)
  rw [hg]

/-- A gate's end in terms of the record it leaves (R12). -/
theorem State.endGate_of {s : State} {m : Fin 4} {e : Uptime} {y : Meter} (hy : (s.meter m).gateExpired e = y) :
    s.endGate m e = if y.status = (s.meter m).status then s.setMeter m y
      else (s.setMeter m y).raise (.meterState m y.status y.filtered y.invalidCount y.validCount
        (some (sampleFlag (s.meter m).gate (s.meter m).gateCount))) := by
  subst hy
  simp only [State.endGate, State.raiseMeterState, State.meter_setMeter_self]

/-! ### The pin of a meter's line (R154) -/

/-- Which meter counts the edges of a line: where lines are of their own, the one whose setup names it (R13). -/
theorem State.meterCounting_eq {s : State} (h : s.MetersFit) {i : Fin 192} (hi : (s.line i).fn = .meterIn) {m : Fin 4} :
    s.meterCounting i = some m ↔ (s.meter m).line = some i := by
  have hconf : ∀ k, ((s.meter k).line == some i && s.meterConfigured k) = true ↔ (s.meter k).line = some i := fun k => by
    rw [Bool.and_eq_true, beq_iff_eq]
    refine ⟨And.left, fun hk => ⟨hk, ?_⟩⟩
    unfold State.meterConfigured
    rw [hk]
    exact beq_iff_eq.mpr hi
  constructor
  · exact fun hf => (hconf m).mp (List.find?_some (p := fun k => (s.meter k).line == some i && s.meterConfigured k) hf)
  · intro hm
    cases hf : s.meterCounting i with
    | none => exact absurd ((hconf m).mpr hm) (List.find?_eq_none.mp hf m (List.mem_finRange m))
    | some k =>
      have hk : (s.meter k).line = some i := (hconf k).mp (List.find?_some (p := fun k => (s.meter k).line == some i && s.meterConfigured k) hf)
      by_contra hne
      have hkm : k ≠ m := fun e => hne (congrArg some e)
      exact h.2 k m hkm (by rw [hk]; rfl) (hk.trans hm.symm)

theorem State.MetersFit.edge {s : State} (h : s.MetersFit) (i : Fin 192) (level : Bool) (e : Option EdgeDetector) :
    ((s.setPin i level).setLine i { s.line i with edge := e }).MetersFit := by
  refine ⟨fun m => ⟨(h.1 m).1, (h.1 m).2.1, ?_⟩, h.2⟩
  refine Iff.trans (iff_of_eq (congrArg (· = true) ?_)) (h.1 m).2.2
  unfold State.meterConfigured
  rw [State.meter_setLine, State.meter_setPin]
  cases (s.meter m).line with
  | none => rfl
  | some j =>
    simp only [State.line_setLine]
    split
    next hj => rw [hj]
    next => rfl

/-- A rising edge is counted by the meter whose setup names the line, and by no other (R154, R5). -/
theorem State.meter_takeEdge {s : State} (h : s.MetersFit) {i : Fin 192} (hi : (s.line i).fn = .meterIn) (m : Fin 4) :
    (s.takeEdge i).meter m = if (s.meter m).line = some i then (s.meter m).countEdge else s.meter m := by
  unfold State.takeEdge
  cases hf : s.meterCounting i with
  | none =>
    have hm : (s.meter m).line ≠ some i := fun hm => by
      rw [(State.meterCounting_eq h hi).mpr hm] at hf
      cases hf
    rw [if_neg hm]
  | some k =>
    have hk := (State.meterCounting_eq h hi).mp hf
    simp only [State.meter_setMeter]
    by_cases hmk : m = k
    · rw [if_pos hmk, hmk, if_pos hk]
    · have hm : (s.meter m).line ≠ some i := fun hm => by
        rw [(State.meterCounting_eq h hi).mpr hm] at hf
        exact hmk (Option.some.inj hf)
      rw [if_neg hmk, if_neg hm]

theorem State.takeEdge_eq (s : State) (i : Fin 192) : s.takeEdge i = { s with meters := (s.takeEdge i).meters } := by
  unfold State.takeEdge
  cases s.meterCounting i <;> rfl

/-- What a valid sample leaves of a meter record (R8 to R11). -/
theorem Meter.gateExpired_valid {x : Meter} {v : Nat} (hv : sampleValue x.gate x.span x.gateCount = some v) (e : Uptime) :
    x.gateExpired e = { x with
      status := if x.status = .unconfigured then .unconfigured
        else if x.status = .faulty ∧ min 5 (x.validCount + 1) ≠ 5 then .faulty else .valid
      filtered := if x.status = .unconfigured ∨ (x.status = .faulty ∧ min 5 (x.validCount + 1) ≠ 5) then x.filtered
        else if x.status = .valid then x.filtered.map (filterStep x.weight · v) else some v
      validCount := min 5 (x.validCount + 1), invalidCount := 0, gateCount := 0
      ring := ringPush x.ring ⟨e, x.gateCount, sampleFlag x.gate x.gateCount⟩
      gateEnd := some (msAfter e x.gate) } := by
  unfold Meter.gateExpired Meter.judge Meter.counted Meter.takeValid
  rw [hv]
  cases hst : x.status with
  | unconfigured | starting | valid => simp
  | faulty => by_cases h : min 5 (x.validCount + 1) = 5 <;> simp [h]

/-- What an invalid sample leaves of a meter record (R8 to R10). -/
theorem Meter.gateExpired_invalid {x : Meter} (hv : sampleValue x.gate x.span x.gateCount = none) (e : Uptime) :
    x.gateExpired e = { x with
      status := if (x.status = .starting ∨ x.status = .valid) ∧ min 3 (x.invalidCount + 1) = 3 then .faulty else x.status
      filtered := if x.status = .starting ∧ min 3 (x.invalidCount + 1) = 3 then none else x.filtered
      validCount := 0, invalidCount := min 3 (x.invalidCount + 1), gateCount := 0
      ring := ringPush x.ring ⟨e, x.gateCount, sampleFlag x.gate x.gateCount⟩
      gateEnd := some (msAfter e x.gate) } := by
  unfold Meter.gateExpired Meter.judge Meter.counted Meter.takeInvalid
  rw [hv]
  cases hst : x.status with
  | unconfigured | faulty => simp
  | starting | valid => by_cases h : min 3 (x.invalidCount + 1) = 3 <;> simp [h]

/-- Settles O38: a gate's end by the validity of its sample and the meter's status; a pin by the rule of R154. -/
theorem metersCountAndJudge : Obligations.MetersCountAndJudge := by
  refine ⟨fun s m hs => ⟨exec_gateExpiry_none hs, ?_⟩, fun s i level periods hs hfit => ⟨fun hno => ?_, ?_⟩⟩
  · intro e he hst hring c valid flag value valids invalids after y
    have hpush := ringPush_eq hring ⟨e, (s.meter m).gateCount, flag⟩
    have hy : (s.meter m).gateExpired e = y := by
      by_cases hv : valid
      · rw [Meter.gateExpired_valid (sampleValue_of_valid _ hv)]
        simp only [y, after, valids, invalids, if_pos hv, ← hpush]
        cases hstatus : (s.meter m).status with
        | unconfigured => exact absurd hstatus hst
        | starting | valid => rfl
        | faulty =>
          by_cases h : min 5 ((s.meter m).validCount + 1) = 5
          · simp [h, hv]
            exact ⟨rfl, rfl⟩
          · simp [h, hv]
            rfl
      · rw [Meter.gateExpired_invalid (sampleValue_of_invalid _ hv)]
        simp only [y, after, valids, invalids, if_neg hv, ← hpush]
        cases hstatus : (s.meter m).status with
        | unconfigured => exact absurd hstatus hst
        | starting | valid => by_cases h : min 3 ((s.meter m).invalidCount + 1) = 3 <;> simp [h] <;> rfl
        | faulty => simp [hv]; rfl
    rw [exec_gateExpiry_some hs he]
    exact congrArg (fun t => Host.Outcome.next (State.arbitrate t)) (State.endGate_of (s := s.reach e) hy)
  · refine congrArg Host.Outcome.next ((State.event_settled hs _).trans ?_)
    refine Eq.trans (congrArg State.arbitrate ?_) hs.2
    split
    next hfn hed => exact if_pos (hno.resolve_left (· hfn))
    next => rfl
  · intro seen run hfn hedge hper raw edge
    let t := (s.setPin i level).setLine i { s.line i with edge := some (EdgeDetector.read raw periods ⟨seen, run⟩) }
    have ht : t.MetersFit := hfit.edge i level _
    have hti : (t.line i).fn = .meterIn := by rw [State.line_setLine_self]; exact hfn
    have hraw : (s.line i).raw level = raw := by
      show xor level (s.line i).invert = raw
      cases hinv : (s.line i).invert <;> simp [raw, hinv]
    have hrises : EdgeDetector.rises raw periods ⟨seen, run⟩ = edge := by
      show (raw && !seen && decide (20 ≤ run + periods)) = edge
      simp [edge, Bool.and_comm raw]
    have hpin : s.readPin ⟨i, level, periods⟩ ⟨seen, run⟩ = if edge = true then t.takeEdge i else t := by
      unfold State.readPin
      simp only [hraw, hrises]
      rfl
    have hlinks : (if edge = true then t.takeEdge i else t) = { s with
        lines := t.lines, pins := t.pins, meters := (if edge = true then t.takeEdge i else t).meters } := by
      split
      · rw [State.takeEdge_eq]; rfl
      · rfl
    have hexec : exec (.meterEdge ⟨i, level, periods⟩) s = .next (if edge = true then t.takeEdge i else t) := by
      refine congrArg Host.Outcome.next ((hs.event_of_links ?_).trans ?_) <;>
        simp only [hfn, hedge, if_neg (Nat.pos_iff_ne_zero.mp hper), hpin]
      rw [hlinks]
    refine ⟨_, hexec, by rw [hlinks], fun j => ?_, fun j => ?_, fun m => ?_⟩
    · rw [hlinks]
      exact State.pin_setPin _ _ _ _
    · rw [show (if edge = true then t.takeEdge i else t).line j = t.line j by rw [hlinks]; rfl, State.line_setLine]
      rfl
    · split
      next hedge' =>
        rw [State.meter_takeEdge ht hti]
        simp only [hedge', true_and]
        rfl
      next hedge' =>
        rw [if_neg fun h => hedge' h.1]
        rfl

end Sys2Proof.Machine
end

