-- ==== Sys2Proof/Proofs/Obligations/DryRuns.lean ====
section
/-! SUPPORT. The statement about the start, the inputs and the end of a dry run (O29). -/

namespace Sys2Proof.Machine

/-! ### Conditions that a change of state leaves alone (R139) -/

/-- A bore whose condition is the one its portals give is left as it is. -/
theorem State.workCondition_self {s : State} {b : Fin 2} (h : s.conditionFor b = (s.bore b).condition) :
    s.workCondition b = s := by
  unfold State.workCondition
  rw [h]
  cases (s.bore b).condition <;> rfl

/-- The states that count alike for the interior condition (R139). -/
def PortalState.alike (x y : PortalState) : Prop :=
  (x == .auto || x == .emergency) = (y == .auto || y == .emergency)
  ∧ (x == .held || x == .dryRun) = (y == .held || y == .dryRun)

theorem State.conditionFor_alike {s t : State} {b : Fin 2}
    (h : ∀ p, boreOf p = b → (t.portal p).state.alike (s.portal p).state) : t.conditionFor b = s.conditionFor b := by
  have hmem : ∀ p ∈ portalsOf b, (t.portal p).state.alike (s.portal p).state := fun p hp => h p (mem_portalsOf.mp hp)
  simp only [portalsOf, List.forall_mem_cons, List.not_mem_nil, false_implies, implies_true, and_true] at hmem
  obtain ⟨⟨h1, h2⟩, h3, h4⟩ := hmem
  simp only [State.conditionFor, portalsOf, List.any_cons, List.any_nil, h1, h2, h3, h4]
  rfl

/-- A portal that changes to a state that counts alike leaves its interior condition, where it is the one given. -/
theorem State.workCondition_alike {s t : State} (hc : s.ConditionsFollow) {p : Fin 4}
    (hbore : t.bore (boreOf p) = s.bore (boreOf p)) (hother : ∀ q, q ≠ p → (t.portal q).state = (s.portal q).state)
    (hp : (t.portal p).state.alike (s.portal p).state) : t.workCondition (boreOf p) = t := by
  refine State.workCondition_self ?_
  rw [hbore, hc (boreOf p)]
  refine State.conditionFor_alike fun q _ => ?_
  by_cases hq : q = p
  · rw [hq]; exact hp
  · rw [hother q hq]; exact ⟨rfl, rfl⟩

/-! ### Inputs -/

theorem dryRunInputOf_eq_none {a1 a0 k q : Octet} :
    dryRunInputOf [a1, a0, k, q] = none ↔
      9999 < a1.toNat * 256 + a0.toNat ∨ (4 < k.toNat ∧ k ≠ 0xFF) ∨ (1 < q.toNat ∧ q ≠ 0xFF) := by
  have hslot : (if q = 0xFF then some none else (planSlotOf q).map some) = none ↔ 1 < q.toNat ∧ q ≠ 0xFF := by
    by_cases hq : q = 0xFF
    · simp [hq]
    · rw [if_neg hq]
      by_cases h1 : 1 < q.toNat
      · exact iff_of_true (by rw [planSlotOf_of_gt h1]; rfl) ⟨h1, hq⟩
      · refine iff_of_false ?_ fun h => h1 h.1
        obtain rfl | rfl := octet_le_one (Nat.le_of_not_lt h1) <;> decide
  have hcls : optFinOf 5 k = none ↔ 4 < k.toNat ∧ k ≠ 0xFF := by
    refine ⟨fun h => ?_, optFinOf_eq_none⟩
    by_contra hno
    rw [optFinOf_eq_some (by decide) hno] at h
    cases h
  rw [← hslot, ← hcls]
  simp only [dryRunInputOf, List.getD_cons_zero, List.getD_cons_succ, nat16]
  cases optFinOf 5 k with
  | none => simp
  | some cls =>
    cases (if q = 0xFF then some none else (planSlotOf q).map some) with
    | none => simp
    | some slot =>
      by_cases ha : a1.toNat * 256 + a0.toNat ≤ 9999 <;> simp [ha] <;> omega

/-! ### The visited portals (R108, R123, R124) -/

section
variable (x : DryRunInput) (p : Fin 4) (s : State)

/-- A portal whose state changes, with its PORTAL_STATE notice and the interior condition worked afresh, where the old and the
new state count alike for it. -/
theorem State.changed_alike {s t : State} (hc : s.ConditionsFollow) {p : Fin 4} (hbore : t.bore (boreOf p) = s.bore (boreOf p))
    (hother : ∀ q, q ≠ p → (t.portal q).state = (s.portal q).state) (hp : (t.portal p).state.alike (s.portal p).state)
    (hlinks : t.links = s.links) (hrole : (t.portal p).role = (s.portal p).role) (haction : (t.portal p).action = (s.portal p).action) :
    (t.raisePortalState p).workCondition (boreOf p) = { t with links := (t.raisePortalState p).links }
    ∧ s.onlyNotices (t.raisePortalState p)
    ∧ (t.raisePortalState p).Waiting
        (.portalState p (t.portal p).state (s.portal p).role ((s.portal p).action.map PendingAction.kind)) := by
  refine ⟨State.workCondition_alike (t := t.raisePortalState p) hc hbore hother hp,
    (State.onlyNotices.of_links hlinks).trans (t.notices_raisePortalState p), ?_⟩
  rw [← hrole, ← haction]
  exact t.waiting_raise _

theorem State.dryRunOne_other (h : (s.portal p).state ≠ .held) :
    State.dryRunOne x p s = (s, if (s.portal p).state = .emergency then .isProtected else .wrongState) := by
  unfold State.dryRunOne
  cases hst : (s.portal p).state
  case held => exact absurd hst h
  all_goals rfl

theorem State.dryRunOne_held (h : (s.portal p).state = .held) :
    State.dryRunOne x p s = if (s.portal p).action.isSome then (s, .busy)
      else if (s.bore (boreOf p)).emergency then (s, .isProtected)
      else (((s.setPortal p { s.portal p with dryRun := some x, state := .dryRun }).raisePortalState p).workCondition
        (boreOf p), .done) := by
  unfold State.dryRunOne
  rw [h]

theorem State.dryInputOne_other (h : (s.portal p).state ≠ .dryRun) :
    State.dryInputOne x p s = (s, if (s.portal p).state = .emergency then .isProtected else .wrongState) := by
  unfold State.dryInputOne
  cases hst : (s.portal p).state
  case dryRun => exact absurd hst h
  all_goals rfl

theorem State.dryStopOne_other (h : (s.portal p).state ≠ .dryRun) :
    State.dryStopOne p s = (s, if (s.portal p).state = .emergency then .isProtected else .wrongState) := by
  unfold State.dryStopOne
  cases hst : (s.portal p).state
  case dryRun => exact absurd hst h
  all_goals rfl

end

/-- Settles O29: the inputs, then each selected portal by its state. -/
theorem dryRunsStartAndStop : Obligations.DryRunsStartAndStop := by
  intro s l r us hus stays notified body
  refine ⟨fun a1 a0 k q hb => hb ▸ dryRunInputOf_eq_none, fun hs => ⟨fun hx => ?_, fun y hy => ?_⟩,
    fun hs => ⟨fun hx => ?_, fun y hy => ?_⟩, fun hs => ?_⟩
  · refine congrArg _ (hs.refuseUnits hs.isFor hus rfl (visit := fun _ t => (t, .badValue)) ?_)
    simp only [hx]
  · refine ⟨_, _, visited_visitAll (f := State.dryRunOne y) (fun p t => ⟨fun h => ?_, fun h ha => ?_, fun h ha he => ?_,
      fun h ha he hc => ?_⟩) us (s.popRequest l), congrArg _ (hs.visits hs.isFor hus rfl (visit := State.dryRunOne y)
        (by simp only [hy]))⟩
    · rw [State.dryRunOne_other y p t h]
      exact ⟨rfl, rfl⟩
    · rw [State.dryRunOne_held y p t h, if_pos ha]
      exact ⟨rfl, rfl⟩
    · rw [State.dryRunOne_held y p t h, ha, he]
      exact ⟨rfl, rfl⟩
    · obtain ⟨hwork, hnotices, hwaiting⟩ := State.changed_alike (s := t) (p := p)
        (t := t.setPortal p { t.portal p with dryRun := some y, state := .dryRun }) hc rfl
        (fun q hq => by rw [State.portal_setPortal_ne _ hq])
        (by rw [State.portal_setPortal_self, h]; exact ⟨rfl, rfl⟩) rfl
        (by rw [State.portal_setPortal_self]) (by rw [State.portal_setPortal_self])
      rw [State.dryRunOne_held y p t h, ha, he, Option.isSome_none, if_neg Bool.false_ne_true, if_neg Bool.false_ne_true, hwork]
      exact ⟨rfl, rfl, hnotices, hwaiting⟩
  · refine congrArg _ (hs.refuseUnits hs.isFor hus rfl (visit := fun _ t => (t, .badValue)) ?_)
    simp only [hx]
  · refine ⟨_, _, visited_visitAll (f := State.dryInputOne y) (fun p t => ⟨fun h => ?_, fun h => ?_⟩) us (s.popRequest l),
      congrArg _ (hs.visits hs.isFor hus rfl (visit := State.dryInputOne y) (by simp only [hy]))⟩
    · rw [State.dryInputOne_other y p t h]
      exact ⟨rfl, rfl⟩
    · unfold State.dryInputOne
      rw [h]
      exact ⟨rfl, rfl⟩
  · refine ⟨_, _, visited_visitAll (f := State.dryStopOne) (fun p t => ⟨fun h => ?_, fun h hc => ?_⟩) us (s.popRequest l),
      congrArg _ (hs.visits hs.isFor hus rfl (visit := State.dryStopOne) rfl)⟩
    · rw [State.dryStopOne_other p t h]
      exact ⟨rfl, rfl⟩
    · obtain ⟨hwork, hnotices, hwaiting⟩ := State.changed_alike (s := t) (p := p)
        (t := (t.setPortal p { t.portal p with dryRun := none, state := .held }).dropPreviews p) hc rfl
        (fun q hq => by rw [State.portal_dropPreviews, State.portal_setPortal_ne _ hq])
        (by rw [State.portal_dropPreviews, State.portal_setPortal_self, h]; exact ⟨rfl, rfl⟩) rfl
        (by rw [State.portal_dropPreviews, State.portal_setPortal_self])
        (by rw [State.portal_dropPreviews, State.portal_setPortal_self])
      have hstop : State.dryStopOne p t
          = ({ (t.setPortal p { t.portal p with dryRun := none, state := .held }).dropPreviews p with
                links := (((t.setPortal p { t.portal p with dryRun := none, state := .held }).dropPreviews p).raisePortalState
                  p).links }, .done) := by
        unfold State.dryStopOne
        rw [h]
        exact congrArg (·, Disposition.done) hwork
      rw [hstop]
      exact ⟨rfl, rfl, fun z => State.zone_dropPreviews _ p z, hnotices, hwaiting⟩

end Sys2Proof.Machine
end

