-- ==== Sys2Proof/Proofs/Obligations/WriteLine.lean ====
section
/-! SUPPORT. The statement about the writing of a run of lines (O18). -/

namespace Sys2Proof.Machine

/-- The lines that meters name are their own (R13). -/
def State.MetersApart (s : State) : Prop :=
  ∀ m k, m ≠ k → (s.meter m).line.isSome = true → (s.meter m).line ≠ (s.meter k).line

/-- The METER_STATE notice of a meter that a new function of its line restarts (R12, R155). -/
def restartNotice (fn : LineFn) (m : Fin 4) : Notice :=
  .meterState m (if fn = .meterIn then .starting else .unconfigured) none 0 0 none

/-- A setting takes the line into or out of METER_IN (R155). -/
def Line.crosses (fn : LineFn) (x : Line) : Prop := ¬ (x.fn = .meterIn ↔ fn = .meterIn)

/-- A write of one line, by the meter that names the line. -/
theorem State.writeLine_of_meter {fn : LineFn} {invert : Bool} {s : State} {i : Fin 192} {m : Fin 4}
    (hm : s.meterOf i = some m) (hx : (s.line i).crosses fn) :
    s.writeLine fn invert i
      = ((s.setLine i (Line.written fn invert)).setMeter m ((s.meter m).restarted s.uptime (decide (fn = .meterIn)))).raise
          (restartNotice fn m) := by
  have hconf : (s.setLine i (Line.written fn invert)).meterConfigured m = decide (fn = .meterIn) := by
    simp only [State.meterConfigured, State.meter_setLine, State.meterOf_eq_some hm, State.line_setLine_self]
    rfl
  obtain ⟨hsame, -⟩ | ⟨-, ⟨-, hno⟩ | ⟨k, -, hk, h⟩⟩ := State.writeLine_cases fn invert s i
  · exact absurd (by rw [hsame.1]) hx
  · obtain hno | hno := hno
    · exact absurd hno hx
    · rw [hm] at hno; cases hno
  · cases hm.symm.trans hk
    rw [h, State.restartMeter_eq, hconf]
    by_cases hfn : fn = .meterIn <;> simp only [hfn, decide_true, decide_false, restartNotice, Meter.restarted] <;> rfl

section
variable (fn : LineFn) (invert : Bool) (s : State) (i : Fin 192)

theorem State.frame_writeLine :
    s.writeLine fn invert i = { s with
      lines := (s.writeLine fn invert i).lines, meters := (s.writeLine fn invert i).meters, links := (s.writeLine fn invert i).links } := by
  obtain ⟨-, h⟩ | ⟨-, ⟨h, -⟩ | ⟨m, -, -, h⟩⟩ := State.writeLine_cases fn invert s i
  · rw [h]
  · rw [h]; rfl
  · rw [h, State.restartMeter_eq]; rfl

theorem State.line_writeLine (j : Fin 192) :
    (s.writeLine fn invert i).line j
      = if j = i ∧ ¬ ((s.line i).fn = fn ∧ (s.line i).invert = invert) then Line.written fn invert else s.line j := by
  obtain ⟨hsame, h⟩ | ⟨hnew, ⟨h, -⟩ | ⟨m, -, -, h⟩⟩ := State.writeLine_cases fn invert s i
  · rw [h, if_neg fun hj => hj.2 hsame]
  · rw [h, State.line_setLine]
    simp only [hnew, not_false_eq_true, and_true]
  · rw [h, State.restartMeter_eq, State.line_raise, State.line_setMeter, State.line_setLine]
    simp only [hnew, not_false_eq_true, and_true]

variable {s}

theorem State.meter_writeLine (hs : s.MetersApart) (m : Fin 4) :
    ((s.meter m).line = some i → (s.line i).crosses fn →
      (s.writeLine fn invert i).meter m = (s.meter m).restarted s.uptime (decide (fn = .meterIn))
      ∧ (s.writeLine fn invert i).Waiting (restartNotice fn m))
    ∧ (¬ ((s.meter m).line = some i ∧ (s.line i).crosses fn) → (s.writeLine fn invert i).meter m = s.meter m) := by
  refine ⟨fun hm hx => ?_, fun hno => ?_⟩
  · cases hk : s.meterOf i with
    | none => exact absurd hm (State.meterOf_eq_none hk m)
    | some k =>
      have hkm : k = m := by
        by_contra hne
        have hline := State.meterOf_eq_some hk
        exact hs k m hne (by rw [hline]; rfl) (hline.trans hm.symm)
      subst hkm
      rw [State.writeLine_of_meter hk hx]
      exact ⟨State.meter_setMeter_self _ _ _, State.waiting_raise _ _⟩
  · obtain ⟨-, h⟩ | ⟨-, ⟨h, -⟩ | ⟨k, hx, hk, h⟩⟩ := State.writeLine_cases fn invert s i
    · rw [h]
    · rw [h]; rfl
    · have hne : m ≠ k := fun e => hno ⟨e ▸ State.meterOf_eq_some hk, hx⟩
      rw [h, State.restartMeter_eq]
      exact State.meter_setMeter_ne _ hne _

theorem State.tells_writeLine : s.Tells (fun n => ∃ m, n = restartNotice fn m) (s.writeLine fn invert i) := by
  obtain ⟨-, h⟩ | ⟨-, ⟨h, -⟩ | ⟨m, hx, hk, -⟩⟩ := State.writeLine_cases fn invert s i
  · rw [h]; exact .refl s
  · rw [h]; exact .of_links rfl
  · rw [State.writeLine_of_meter hk hx]
    exact .trans (.of_links rfl) (.raise ⟨m, rfl⟩ _)

end

theorem restartNotice_key {fn : LineFn} {m k : Fin 4} (h : (restartNotice fn m).sameKey (restartNotice fn k) = true) :
    restartNotice fn m = restartNotice fn k := by
  have hmk : m = k := by
    simp only [restartNotice, Notice.sameKey, Notice.subject, Bool.and_eq_true, beq_iff_eq] at h
    exact Fin.ext h.2
  rw [hmk]

theorem Meter.line_restarted (now : Uptime) (c : Bool) (x : Meter) : (x.restarted now c).line = x.line :=
  (Meter.restarted_setup now c x).1

theorem State.line_of_meter_writeLine (fn : LineFn) (invert : Bool) {s : State} (hs : s.MetersApart) (i : Fin 192) (m : Fin 4) :
    ((s.writeLine fn invert i).meter m).line = (s.meter m).line := by
  obtain ⟨hyes, hno⟩ := State.meter_writeLine fn invert i hs m
  by_cases h : (s.meter m).line = some i ∧ (s.line i).crosses fn
  · rw [(hyes h.1 h.2).1, Meter.line_restarted]
  · rw [hno h]

theorem State.frame_lines_meters {s t u : State} (h : t = { s with lines := t.lines, meters := t.meters, links := t.links })
    (k : u = { t with lines := u.lines, meters := u.meters, links := u.links }) :
    u = { s with lines := u.lines, meters := u.meters, links := u.links } :=
  k.trans (by rw [h])

/-- What a run of writes leaves (R155, R156). -/
structure State.RunWritten (fn : LineFn) (invert : Bool) (run : List (Fin 192)) (s u : State) : Prop where
  frame : u = { s with lines := u.lines, meters := u.meters, links := u.links }
  notices : s.onlyNotices u
  tells : s.Tells (fun n => ∃ m, n = restartNotice fn m) u
  line : ∀ j, u.line j
    = if j ∈ run ∧ ¬ ((s.line j).fn = fn ∧ (s.line j).invert = invert) then Line.written fn invert else s.line j
  restarted : ∀ m i, i ∈ run → (s.meter m).line = some i → (s.line i).crosses fn →
    u.meter m = (s.meter m).restarted s.uptime (decide (fn = .meterIn)) ∧ u.Waiting (restartNotice fn m)
  kept : ∀ m, (∀ i ∈ run, (s.meter m).line = some i → ¬ (s.line i).crosses fn) → u.meter m = s.meter m

/-- A run of writes, line after line: a line written before is as the run sets it, and its meter is restarted once. -/
theorem State.runWritten (fn : LineFn) (invert : Bool) (run : List (Fin 192)) {s : State} (hs : s.MetersApart) :
    s.RunWritten fn invert run (run.foldl (State.writeLine fn invert) s) := by
  induction run generalizing s with
  | nil =>
    exact ⟨rfl, .refl s, .refl s, fun j => (if_neg fun h => List.not_mem_nil h.1).symm, fun _ _ h => absurd h List.not_mem_nil,
      fun _ _ => rfl⟩
  | cons i run ih =>
    have hline := State.line_writeLine fn invert s i
    have hmeter := State.meter_writeLine fn invert i hs
    have hown := State.line_of_meter_writeLine fn invert hs i
    have hsame : ∀ j, (s.writeLine fn invert i).line j = s.line j
        ∨ j = i ∧ ((s.writeLine fn invert i).line j).fn = fn ∧ ((s.writeLine fn invert i).line j).invert = invert := fun j => by
      rw [hline]
      split
      next h => exact .inr ⟨h.1, rfl, rfl⟩
      next => exact .inl rfl
    have hset : ((s.writeLine fn invert i).line i).fn = fn ∧ ((s.writeLine fn invert i).line i).invert = invert := by
      rw [hline]
      split
      next => exact ⟨rfl, rfl⟩
      next h => exact not_not.mp fun hne => h ⟨rfl, hne⟩
    have hother : ∀ j, j ≠ i → (s.writeLine fn invert i).line j = s.line j := fun j hj => by
      rw [hline, if_neg fun h => hj h.1]
    have hdone : ¬ ((s.writeLine fn invert i).line i).crosses fn := fun h => h (by rw [hset.1])
    have hup : (s.writeLine fn invert i).uptime = s.uptime := by rw [State.frame_writeLine]
    have h := ih (s := s.writeLine fn invert i) fun m k hne hsome => by
      rw [hown, hown]
      rw [hown] at hsome
      exact hs m k hne hsome
    rw [List.foldl_cons]
    refine ⟨State.frame_lines_meters (State.frame_writeLine fn invert s i) h.frame,
      (s.notices_writeLine fn invert i).trans h.notices, (State.tells_writeLine fn invert i).trans h.tells,
      fun j => ?_, fun m j hj hm hx => ?_, fun m hno => ?_⟩
    · rw [h.line]
      by_cases hj : j = i
      · subst hj
        rw [if_neg fun hc => hc.2 hset, hline]
        simp only [true_and, List.mem_cons, true_or]
      · rw [hother j hj]
        simp only [List.mem_cons, hj, false_or]
    · by_cases hji : j = i
      · subst hji
        obtain ⟨hrec, hwait⟩ := (hmeter m).1 hm hx
        refine ⟨(h.kept m fun k _ hk hcross => ?_).trans hrec, h.tells.waiting hwait ?_⟩
        · rw [hown, hm] at hk
          cases hk
          exact hdone hcross
        · rintro _ ⟨k, rfl⟩ hkey
          exact restartNotice_key hkey
      · have hrec := (hmeter m).2 fun hc => hji (Option.some.inj (hm.symm.trans hc.1))
        rw [← hup, ← hrec]
        refine h.restarted m j ((List.mem_cons.mp hj).resolve_left hji) ?_ ?_
        · rw [hown, hm]
        · rw [hother j hji]; exact hx
    · have hrec := (hmeter m).2 fun hc => hno i List.mem_cons_self hc.1 hc.2
      refine (h.kept m fun j hj hm hcross => ?_).trans hrec
      by_cases hji : j = i
      · subst hji; exact hdone hcross
      · rw [hother j hji] at hcross
        rw [hown] at hm
        exact hno j (List.mem_cons_of_mem i hj) hm hcross

/-- Settles O18. -/
theorem writeLineSetsARun : Obligations.WriteLineSetsARun := by
  intro s l r hs hfit
  refine ⟨fun hbad => ?_, fun run fn invert hset => ⟨fun hserv => ?_, fun hfree => ?_⟩⟩
  · refine congrArg _ (hs.refuse hs.isFor ?_ rfl)
    simp only [hbad]
  · have hserv' : run.any (s.popRequest l).lineInService = true := hserv
    refine congrArg _ (hs.refuse hs.isFor ?_ rfl)
    simp only [hset, hserv', if_true]
  · have hfree' : run.any (s.popRequest l).lineInService = false := hfree
    have h := State.runWritten fn invert run (s := s.popRequest l) hfit.2
    have hother : ∀ m i, (s.meter m).line = some i → (i ∉ run ∨ ¬ (s.line i).crosses fn) →
        (run.foldl (State.writeLine fn invert) (s.popRequest l)).meter m = s.meter m := fun m i hm hno =>
      h.kept m fun j hj hmj => by
        cases hm.symm.trans hmj
        exact hno.resolve_left (not_not.mpr hj)
    refine ⟨run.foldl (State.writeLine fn invert) (s.popRequest l), congrArg _ (hs.finish hs.isFor ?_ rfl rfl),
      h.frame.trans rfl, h.notices, h.line, fun m i hm => ⟨fun hi hin hout => ?_, fun hi hin hout => ?_, fun hno => ?_⟩,
      fun m hm => h.kept m fun i _ hmi => ?_⟩
    · simp only [hset, hfree', Bool.false_eq_true, if_false]
    · have hres := h.restarted m i hi hm fun hiff => hout (hiff.mp hin)
      rw [restartNotice, if_neg hout, decide_eq_false hout] at hres
      exact hres
    · have hres := h.restarted m i hi hm fun hiff => hin (hiff.mpr hout)
      rw [restartNotice, if_pos hout, decide_eq_true hout] at hres
      exact hres
    · exact hother m i hm (hno.imp_right not_not.mpr)
    · rw [State.meter_popRequest, hm] at hmi
      cases hmi

end Sys2Proof.Machine
end

