-- ==== Sys2Proof/Proofs/Obligations/ReadBack.lean ====
section
/-! SUPPORT. The statement that what a read returns is read back by the write of the same record (O17). -/

namespace Sys2Proof.Machine

/-! ### Numbers -/

theorem toNat_ofNat8 {n : Nat} (h : n < 256) : (BitVec.ofNat 8 n).toNat = n := by
  rw [BitVec.toNat_ofNat]
  exact Nat.mod_eq_of_lt h

theorem nat16_ofNat {n : Nat} (h : n < 65536) : nat16 (BitVec.ofNat 8 (n / 256)) (BitVec.ofNat 8 n) = n := by
  simp only [nat16, BitVec.toNat_ofNat]
  omega

theorem nat24_ofNat {n : Nat} (h : n < 16777216) :
    nat24 (BitVec.ofNat 8 (n / 65536)) (BitVec.ofNat 8 (n / 256)) (BitVec.ofNat 8 n) = n := by
  simp only [nat24, BitVec.toNat_ofNat]
  omega

/-- Entry `k` of entries of one length laid out one after another. -/
theorem take_drop_flatMap {α β : Type} {f : α → List β} {n : Nat} (hf : ∀ a, (f a).length = n) (as : List α) (k : Nat)
    (hk : k < as.length) : ((as.flatMap f).drop (n * k)).take n = f as[k] := by
  induction as generalizing k with
  | nil => exact absurd hk (Nat.not_lt_zero k)
  | cons a as ih =>
    rw [List.flatMap_cons]
    cases k with
    | zero =>
      rw [Nat.mul_zero, List.drop_zero, List.take_left' (hf a)]
      rfl
    | succ k =>
      rw [Nat.mul_succ, Nat.add_comm, ← List.drop_drop, List.drop_left' (hf a)]
      exact ih k (Nat.lt_of_succ_lt_succ hk)

/-! ### Plans (R189) -/

theorem pointsOf_flatMap (ps : List Point) (tail : List Octet) (h : ∀ p ∈ ps, p.access < 65536 ∧ p.threshold < 65536) :
    pointsOf ps.length (ps.flatMap (fun q => be16 q.access ++ be16 q.threshold) ++ tail) = ps := by
  induction ps with
  | nil => rfl
  | cons p ps ih =>
    obtain ⟨ha, ht⟩ := h p List.mem_cons_self
    simp only [List.length_cons, pointsOf, List.flatMap_cons, be16, List.cons_append, List.nil_append, List.getD_cons_zero,
      List.getD_cons_succ, List.drop_succ_cons, List.drop_zero, nat16_ofNat ha, nat16_ofNat ht]
    exact congrArg _ (ih fun q hq => h q (List.mem_cons_of_mem p hq))

/-- The bounds of a valid plan that its octets have room for (R29). -/
theorem Plan.valid_bounds {p : Plan} (h : p.valid = true) :
    p.curve.length ≤ 12 ∧ (∀ q ∈ p.curve, q.access ≤ 9999 ∧ q.threshold ≤ 60000) ∧ (∀ i, p.factors.get i ≤ 1000)
    ∧ p.r1 ≤ 1000 ∧ p.r2 ≤ 1000 ∧ p.interiorDay ≤ 60000 ∧ p.interiorNight ≤ 60000 ∧ p.nightThreshold ≤ 9998
    ∧ p.dayThreshold ≤ 9999 ∧ p.nightHold ≤ 30 ∧ p.riseStep ≤ 1000 ∧ p.fallStep ≤ 200 := by
  simp only [Plan.valid, Bool.and_eq_true, decide_eq_true_eq, List.all_eq_true, and_assoc] at h
  obtain ⟨-, hcurve, hpoints, -, hfactors, -, -, hr1, -, hr2, hday, hnight, hnt, -, hdt, -, hnh, -, hrise, -, hfall⟩ := h
  exact ⟨hcurve, hpoints, fun i => (hfactors i (List.mem_finRange i)).2, hr1, by omega, hday, by omega, hnt, hdt, hnh, hrise, hfall⟩

theorem planOf_planData (slot : PlanSlot) {p : Plan} (h : p.valid = true) : planOf (planData slot (some p)) = p := by
  obtain ⟨hcurve, hpoints, hfactors, hr1, hr2, hday, hnight, hnt, hdt, hnh, hrise, hfall⟩ := Plan.valid_bounds h
  obtain ⟨tail, htail⟩ : ∃ tail, tail = p.factors.rows.flatMap be16
      ++ be16 p.r1 ++ be16 p.r2 ++ be16 p.interiorDay ++ be16 p.interiorNight
      ++ be16 p.nightThreshold ++ be16 p.dayThreshold ++ be8 p.nightHold ++ be16 p.riseStep ++ be16 p.fallStep := ⟨_, rfl⟩
  have hdata : planData slot (some p) = BitVec.ofNat 8 slot.code :: BitVec.ofNat 8 p.curve.length
      :: (p.curve.flatMap (fun q => be16 q.access ++ be16 q.threshold) ++ tail) := by
    rw [htail, planData, Option.map_some, Option.getD_some, planFields]
    simp only [List.append_assoc]
    rfl
  have hlen : (p.curve.flatMap (fun q => be16 q.access ++ be16 q.threshold)).length = 4 * p.curve.length := by
    rw [length_flatMap_const (n := 4) fun _ => rfl]
  have hrows : p.factors.rows = [p.factors.get 0, p.factors.get 1, p.factors.get 2, p.factors.get 3, p.factors.get 4] :=
    tab_rows p.factors
  have hn : (BitVec.ofNat 8 p.curve.length).toNat = p.curve.length := toNat_ofNat8 (by omega)
  have hdrop : ((planData slot (some p)).drop (2 + 4 * p.curve.length)) = tail := by
    rw [hdata, Nat.add_comm, List.drop_succ_cons, List.drop_succ_cons, List.drop_left' hlen]
  unfold planOf
  rw [hdata]
  simp only [List.getD_cons_zero, List.getD_cons_succ, hn]
  rw [← hdata, hdrop, htail, hrows]
  have hcurveBack : pointsOf p.curve.length (List.drop 2 (planData slot (some p))) = p.curve := by
    rw [hdata]
    exact pointsOf_flatMap p.curve tail fun q hq => ⟨by have := (hpoints q hq).1; omega, by have := (hpoints q hq).2; omega⟩
  have hfactor : ∀ i, p.factors.get i < 65536 := fun i => by have := hfactors i; omega
  rw [hcurveBack]
  simp only [List.flatMap_cons, List.flatMap_nil, be16, be8, List.cons_append, List.nil_append, List.getD_cons_zero,
    List.getD_cons_succ, nat16_ofNat (show p.r1 < 65536 by omega), nat16_ofNat (show p.r2 < 65536 by omega),
    nat16_ofNat (show p.interiorDay < 65536 by omega), nat16_ofNat (show p.interiorNight < 65536 by omega),
    nat16_ofNat (show p.nightThreshold < 65536 by omega), nat16_ofNat (show p.dayThreshold < 65536 by omega),
    nat16_ofNat (show p.riseStep < 65536 by omega), nat16_ofNat (show p.fallStep < 65536 by omega),
    toNat_ofNat8 (show p.nightHold < 256 by omega)]
  obtain ⟨curve, factors, r1, r2, interiorDay, interiorNight, nightThreshold, dayThreshold, nightHold, riseStep, fallStep⟩ := p
  congr 1
  refine Tab.ext_get fun i => ?_
  rw [Tab.get_mapWith]
  fin_cases i <;> exact nat16_ofNat (hfactor _)

theorem planWriteOf_planData (slot : PlanSlot) {p : Plan} (h : p.valid = true) :
    planWriteOf (planData slot (some p)) = some (slot, some p) := by
  have hslot : planSlotOf ((planData slot (some p)).getD 0 0) = some slot := by cases slot <;> rfl
  have hlen : ¬ (planData slot (some p)).length = 1 := by
    simp only [planData, Option.map_some, Option.getD_some, planFields, List.length_append, length_be8]
    omega
  have hplan := planOf_planData slot h
  rw [planWriteOf_valid_plan hlen hslot (by rw [hplan]; exact h), hplan]

/-! ### The schedule (R25, R186) -/

theorem windowsOf_flatMap (ws : List Window) (h : ws.all Window.inRange = true) :
    windowsOf ws.length (ws.flatMap windowEntry) = ws := by
  induction ws with
  | nil => rfl
  | cons w ws ih =>
    simp only [List.all_cons, Window.inRange, Bool.and_eq_true, decide_eq_true_eq] at h
    obtain ⟨⟨⟨⟨hstart, -⟩, hwidth⟩, haccess⟩, hrest⟩ := h
    simp only [List.length_cons, windowsOf, List.flatMap_cons, windowEntry, be24, be16, List.cons_append, List.nil_append,
      List.getD_cons_zero, List.getD_cons_succ, List.drop_succ_cons, List.drop_zero,
      nat24_ofNat (show w.start * 4096 + w.width < 16777216 by omega), nat16_ofNat (show w.access < 65536 by omega)]
    rw [show (w.start * 4096 + w.width) / 4096 = w.start by omega, show (w.start * 4096 + w.width) % 4096 = w.width by omega]
    exact congrArg _ (ih hrest)

/-- A list with no overlap is in ascending order: sorting it leaves it as it is (R25). -/
theorem sortWindows_of_noOverlap (ws : List Window) (h : noOverlap ws = true) : sortWindows ws = ws := by
  induction ws with
  | nil => rfl
  | cons w ws ih =>
    cases ws with
    | nil => rfl
    | cons x ws =>
      simp only [noOverlap, Bool.and_eq_true, decide_eq_true_eq] at h
      rw [sortWindows, List.foldr_cons]
      rw [show List.foldr insertWindow [] (x :: ws) = x :: ws from ih h.2]
      exact if_pos (by omega)

theorem scheduleOf_scheduleData {ws : List Window} (hlen : ws.length ≤ 24) (hrange : ws.all Window.inRange = true)
    (hover : noOverlap ws = true) (hwrap : noWrapOverlap ws = true) : scheduleOf (scheduleData ws) = some ws := by
  have hn : ((scheduleData ws).getD 0 0).toNat = ws.length := toNat_ofNat8 (by omega)
  have hback : windowsOf ws.length ((scheduleData ws).drop 1) = ws := windowsOf_flatMap ws hrange
  simp only [scheduleOf, hn, hback, sortWindows_of_noOverlap ws hover]
  exact if_pos ⟨hlen, hrange, hover, hwrap⟩

/-! ### Zone setups (R184, R188) -/

theorem slotSetupOf_slotEntry {o : Option Circuit} (h : ∀ c, o = some c → c.legal = true) :
    slotSetupOf (slotEntry o) = some (o.map Circuit.setup) := by
  cases o with
  | none => rfl
  | some c =>
    have hrating : 1 ≤ c.rating ∧ c.rating ≤ 30000 := by
      have hc := h c rfl
      simp only [Circuit.legal, Bool.and_eq_true, decide_eq_true_eq] at hc
      exact hc.1.1
    have hout : finOf 192 (BitVec.ofNat 8 c.output.val).toNat = some c.output := by
      rw [toNat_ofNat8 (by omega)]
      exact dif_pos c.output.isLt
    have hfeed : optFinOf 192 (BitVec.ofNat 8 ((c.feedback.map Fin.val).getD 0xFF)) = some c.feedback := by
      cases c.feedback with
      | none => rfl
      | some i =>
        have hi : (BitVec.ofNat 8 i.val).toNat = i.val := toNat_ofNat8 (by omega)
        rw [Option.map_some, Option.getD_some, optFinOf_eq_some (by decide) (by rw [hi]; omega), hi]
        exact congrArg some (dif_pos i.isLt)
    have hsetup : ∀ kind, kind = c.kind → circuitSetupOf kind (slotEntry (some c)) = some c.setup := by
      rintro _ rfl
      simp only [circuitSetupOf, slotEntry, be8, be16, opt8, List.cons_append, List.nil_append, List.getD_cons_zero,
        List.getD_cons_succ, nat16_ofNat (show c.rating < 65536 by omega), hout, hfeed, if_pos hrating]
      rfl
    have hkind : (slotEntry (some c)).getD 0 0 = BitVec.ofNat 8 c.kind.code := rfl
    rw [slotSetupOf, hkind, Option.map_some]
    cases hk : c.kind with
    | switched => rw [hsetup _ hk.symm]; rfl
    | dimmed => rw [hsetup _ hk.symm]; rfl

theorem slotOctets_zoneSetup (z : Zone) (k : Fin 8) : slotOctets (zoneSetup z) k = slotEntry (z.slots.get k) := by
  have hdrop : (zoneSetup z).drop 8 = z.slots.rows.flatMap slotEntry := rfl
  rw [slotOctets, ← List.drop_drop, hdrop, take_drop_flatMap length_slotEntry _ _ (by rw [z.slots.size]; exact k.isLt)]
  rfl

theorem zoneSetupOf_zoneSetup {z : Zone} (h : z.legal = true) :
    zoneSetupOf (zoneSetup z)
      = some { order := z.order, rotation := z.rotation, settle := z.settle, hysteresis := z.hysteresis,
               minDim := z.minDim, slots := z.slots.mapWith fun _ o => o.map Circuit.setup } := by
  obtain ⟨hcircuits, ⟨⟨h100, hlow, hhigh⟩, hhyst, hmin, hmax⟩, -⟩ := Zone.legal_iff.mp h
  have hentry : ∀ k, slotSetupOf (slotOctets (zoneSetup z) k) = some ((z.slots.get k).map Circuit.setup) := fun k => by
    rw [slotOctets_zoneSetup]
    exact slotSetupOf_slotEntry fun c hc => hcircuits k c hc
  have hslots : slotSetupsOf (zoneSetup z) = some (z.slots.mapWith fun _ o => o.map Circuit.setup) := by
    simp only [slotSetupsOf, hentry, Option.isSome_some, List.all_eq_true, implies_true, if_true, Option.getD_some]
    refine congrArg some (Tab.ext_get fun k => ?_)
    simp only [Tab.get_mapWith]
  have horder : orderOf ((zoneSetup z).getD 0 0) = some z.order := by
    show orderOf (BitVec.ofNat 8 z.order.code) = some z.order
    cases z.order <;> rfl
  have hrotation : finOf 8 ((zoneSetup z).getD 1 0).toNat = some z.rotation := by
    show finOf 8 (BitVec.ofNat 8 z.rotation.val).toNat = some z.rotation
    rw [toNat_ofNat8 (by omega)]
    exact dif_pos z.rotation.isLt
  have hsettle : nat16 ((zoneSetup z).getD 2 0) ((zoneSetup z).getD 3 0) = z.settle := nat16_ofNat (by omega)
  have hhysteresis : nat16 ((zoneSetup z).getD 4 0) ((zoneSetup z).getD 5 0) = z.hysteresis := nat16_ofNat (by omega)
  have hminDim : nat16 ((zoneSetup z).getD 6 0) ((zoneSetup z).getD 7 0) = z.minDim := nat16_ofNat (by omega)
  simp only [zoneSetupOf, horder, hrotation, hslots, hsettle, hhysteresis, hminDim]
  exact if_pos ⟨h100, hlow, hhigh, hhyst, hmin, hmax⟩

/-- Settles O17. -/
theorem whatIsReadCanBeWrittenBack : Obligations.WhatIsReadCanBeWrittenBack :=
  ⟨fun slot _ hp => planWriteOf_planData slot hp, fun _ ⟨hlen, hrange, hover, hwrap⟩ =>
    scheduleOf_scheduleData hlen hrange hover hwrap, fun _ hz => zoneSetupOf_zoneSetup hz⟩

end Sys2Proof.Machine
end

