-- ==== Sys2Proof/Proofs/Obligations/Checks.lean ====
section
/-! SUPPORT. The statement about the failure items of a COMMISSION (O24). -/

namespace Sys2Proof.Machine

/-! ### The first of each (R201) -/

theorem firstOnly_concat (ls : List (Fin 192)) (i : Fin 192) :
    firstOnly (ls ++ [i]) = if i ∈ ls then firstOnly ls else firstOnly ls ++ [i] := by
  rw [firstOnly, List.foldl_append]
  exact if_congr mem_firstOnly rfl rfl

/-- The first of each stand in the order in which they are first found. -/
theorem pairwise_firstOnly (ls : List (Fin 192)) : (firstOnly ls).Pairwise fun i j => ls.idxOf i < ls.idxOf j := by
  induction ls using List.reverseRecOn with
  | nil => exact .nil
  | append_singleton ls k ih =>
    have hmono : (firstOnly ls).Pairwise fun i j => (ls ++ [k]).idxOf i < (ls ++ [k]).idxOf j :=
      ih.imp_of_mem fun hi hj h => by
        rwa [List.idxOf_append_of_mem (mem_firstOnly.mp hi), List.idxOf_append_of_mem (mem_firstOnly.mp hj)]
    rw [firstOnly_concat]
    split
    · exact hmono
    next hk =>
      refine List.pairwise_append.mpr ⟨hmono, List.pairwise_singleton _ _, fun i hi j hj => ?_⟩
      cases List.mem_singleton.mp hj
      rw [List.idxOf_append_of_mem (mem_firstOnly.mp hi), List.idxOf_append_of_notMem hk]
      exact Nat.lt_of_lt_of_le (List.idxOf_lt_length_of_mem (mem_firstOnly.mp hi)) (Nat.le_add_right _ _)

/-! ### The items by their codes (R198) -/

section
variable (s : State) (p : Fin 4)

/-- The items of each code, in the order of the codes. -/
def State.failuresOf : Fin 7 → List FailureItem
  | 0 => if (s.portal p).planA.isSome then [] else [⟨1, 0⟩]
  | 1 => if (s.zone (zoneOf p 0)).circuits = [] then [⟨2, (zoneOf p 0).val⟩] else []
  | 2 => (s.wrongOutputs p).map fun i => ⟨3, i.val⟩
  | 3 => (s.wrongFeedbacks p).map fun i => ⟨4, i.val⟩
  | 4 => (s.namedTwice p).map fun i => ⟨5, i.val⟩
  | 5 => ((s.portal p).meter.filter fun m => !s.meterConfigured m).toList.map fun m => ⟨6, m.val⟩
  | 6 => if (s.portal p).partner = some p then [⟨7, p.val⟩] else []

theorem State.failures_eq : s.failures p = (List.finRange 7).flatMap (s.failuresOf p) := by
  simp only [State.failures, List.append_assoc]
  rw [show List.finRange 7 = [0, 1, 2, 3, 4, 5, 6] from rfl]
  simp only [List.flatMap_cons, List.flatMap_nil, List.append_nil]
  rfl

variable {s p}

theorem State.mem_failuresOf {x : FailureItem} :
    (x ∈ s.failuresOf p 0 ↔ x = ⟨1, 0⟩ ∧ (s.portal p).planA = none)
    ∧ (x ∈ s.failuresOf p 1 ↔ x = ⟨2, (zoneOf p 0).val⟩ ∧ (s.zone (zoneOf p 0)).circuits = [])
    ∧ (x ∈ s.failuresOf p 2 ↔ ∃ i ∈ s.wrongOutputs p, x = ⟨3, i.val⟩)
    ∧ (x ∈ s.failuresOf p 3 ↔ ∃ i ∈ s.wrongFeedbacks p, x = ⟨4, i.val⟩)
    ∧ (x ∈ s.failuresOf p 4 ↔ ∃ i ∈ s.namedTwice p, x = ⟨5, i.val⟩)
    ∧ (x ∈ s.failuresOf p 5 ↔ ∃ m, ((s.portal p).meter = some m ∧ s.meterConfigured m = false) ∧ x = ⟨6, m.val⟩)
    ∧ (x ∈ s.failuresOf p 6 ↔ x = ⟨7, p.val⟩ ∧ (s.portal p).partner = some p) := by
  have hone : ∀ (c : Prop) [Decidable c] (y : FailureItem), x ∈ (if c then [y] else []) ↔ x = y ∧ c := fun c _ y => by
    split <;> simp [*]
  refine ⟨?_, hone _ _, ?_, ?_, ?_, ?_, hone _ _⟩
  · show x ∈ (if (s.portal p).planA.isSome then [] else [⟨1, 0⟩]) ↔ _
    cases (s.portal p).planA <;> simp
  · exact List.mem_map.trans (exists_congr fun i => and_congr_right' eq_comm)
  · exact List.mem_map.trans (exists_congr fun i => and_congr_right' eq_comm)
  · exact List.mem_map.trans (exists_congr fun i => and_congr_right' eq_comm)
  · refine List.mem_map.trans (exists_congr fun i => and_congr ?_ eq_comm)
    simp only [Option.mem_toList, Option.filter_eq_some_iff, Bool.not_eq_true']

theorem State.code_failuresOf {k : Fin 7} {x : FailureItem} (h : x ∈ s.failuresOf p k) : x.code = k.val + 1 := by
  obtain ⟨h0, h1, h2, h3, h4, h5, h6⟩ := State.mem_failuresOf (s := s) (p := p) (x := x)
  match k with
  | 0 => rw [(h0.mp h).1]; rfl
  | 1 => rw [(h1.mp h).1]; rfl
  | 2 => obtain ⟨i, -, rfl⟩ := h2.mp h; rfl
  | 3 => obtain ⟨i, -, rfl⟩ := h3.mp h; rfl
  | 4 => obtain ⟨i, -, rfl⟩ := h4.mp h; rfl
  | 5 => obtain ⟨i, -, rfl⟩ := h5.mp h; rfl
  | 6 => rw [(h6.mp h).1]; rfl

theorem State.mem_failures (k : Fin 7) {a : Nat} : ⟨k.val + 1, a⟩ ∈ s.failures p ↔ ⟨k.val + 1, a⟩ ∈ s.failuresOf p k := by
  rw [State.failures_eq, List.mem_flatMap]
  refine ⟨fun ⟨j, _, hj⟩ => ?_, fun h => ⟨k, List.mem_finRange k, h⟩⟩
  have hjk : k = j := Fin.ext (Nat.succ.inj (State.code_failuresOf hj))
  rw [hjk] at hj ⊢
  exact hj

/-! ### The lines found -/

/-- The output lines of circuits whose function is not the one their kind needs, as they are found (item 03h). -/
def State.foundOutputs (s : State) (p : Fin 4) : List (Fin 192) :=
  ((s.checkedCircuits p).filter fun c => (s.line c.output).fn != c.kind.outputFn).map Circuit.output

/-- The feedback lines whose function is not FEEDBACK_IN, as they are found (item 04h). -/
def State.foundFeedbacks (s : State) (p : Fin 4) : List (Fin 192) :=
  (s.checkedCircuits p).filterMap fun c => c.feedback.filter fun i => (s.line i).fn != .feedbackIn

/-- Before in the list of R201: by code, then lines of one code as they are found, or ascending. -/
def State.failsBefore (s : State) (p : Fin 4) (x y : FailureItem) : Prop :=
  x.code < y.code ∨ x.code = y.code ∧
    ((x.code = 3 ∧ ((s.foundOutputs p).map Fin.val).idxOf x.argument < ((s.foundOutputs p).map Fin.val).idxOf y.argument)
    ∨ (x.code = 4 ∧ ((s.foundFeedbacks p).map Fin.val).idxOf x.argument < ((s.foundFeedbacks p).map Fin.val).idxOf y.argument)
    ∨ (x.code = 5 ∧ x.argument < y.argument))

theorem idxOf_map_val (ls : List (Fin 192)) (i : Fin 192) : (ls.map Fin.val).idxOf i.val = ls.idxOf i := by
  induction ls with
  | nil => rfl
  | cons j ls ih =>
    have hbeq : (j.val == i.val) = (j == i) := Bool.eq_iff_iff.mpr (by simp [Fin.ext_iff])
    rw [List.map_cons, List.idxOf_cons, List.idxOf_cons, ih, hbeq]

theorem State.failures_ordered (s : State) (p : Fin 4) : (s.failures p).Pairwise (s.failsBefore p) := by
  have hone : ∀ (c : Prop) [Decidable c] (y : FailureItem), (if c then [y] else []).Pairwise (s.failsBefore p) := fun c _ y => by
    split
    · exact List.pairwise_singleton _ _
    · exact .nil
  rw [State.failures_eq, List.pairwise_flatMap]
  refine ⟨fun k _ => ?_, (List.pairwise_lt_finRange 7).imp fun {j k} hjk x hx y hy => .inl ?_⟩
  · match k with
    | 0 =>
      show (if (s.portal p).planA.isSome then [] else [⟨1, 0⟩]).Pairwise (s.failsBefore p)
      split
      · exact .nil
      · exact List.pairwise_singleton _ _
    | 1 => exact hone _ _
    | 2 =>
      refine List.pairwise_map.mpr ((pairwise_firstOnly _).imp fun {i j} h => .inr ⟨rfl, .inl ⟨rfl, ?_⟩⟩)
      rw [idxOf_map_val, idxOf_map_val]
      exact h
    | 3 =>
      refine List.pairwise_map.mpr ((pairwise_firstOnly _).imp fun {i j} h => .inr ⟨rfl, .inr (.inl ⟨rfl, ?_⟩)⟩)
      rw [idxOf_map_val, idxOf_map_val]
      exact h
    | 4 =>
      have hasc : (s.namedTwice p).Pairwise (· < ·) := by
        unfold State.namedTwice
        exact (List.pairwise_lt_finRange 192).filter _
      exact List.pairwise_map.mpr (hasc.imp fun {i j} h => .inr ⟨rfl, .inr (.inr ⟨rfl, h⟩)⟩)
    | 5 =>
      show (((s.portal p).meter.filter fun m => !s.meterConfigured m).toList.map fun m => (⟨6, m.val⟩ : FailureItem)).Pairwise _
      cases (s.portal p).meter.filter fun m => !s.meterConfigured m with
      | none => exact .nil
      | some m => exact List.pairwise_singleton _ _
    | 6 => exact hone _ _
  · rw [State.code_failuresOf hx, State.code_failuresOf hy]
    exact Nat.succ_lt_succ hjk

/-- How often the candidate namings name a line (R199). -/
theorem State.count_candidates (i : Fin 192) :
    (s.candidates p).count i
      = ((s.checkedCircuits p).map fun c => (if c.output = i then 1 else 0) + if c.feedback = some i then 1 else 0).sum
        + if (s.portal p).meter.bind (fun m => (s.meter m).line) = some i then 1 else 0 := by
  have hopt : ∀ o : Option (Fin 192), o.toList.count i = if o = some i then 1 else 0 := fun o => by
    cases o with
    | none => rfl
    | some j => simp [List.count_cons]
  have hnamings : ∀ c : Circuit, c.namings.count i = (if c.output = i then 1 else 0) + if c.feedback = some i then 1 else 0 :=
    fun c => by
      rw [Circuit.namings, List.count_cons, hopt, Nat.add_comm]
      simp only [beq_iff_eq]
  rw [State.candidates, List.count_append, List.count_flatMap, hopt]
  simp only [Function.comp_def, hnamings]
  rfl

theorem State.namedInUse_iff (i : Fin 192) :
    s.namedInUse p i = true ↔
      (∃ z k c, s.supervised z = true ∧ s.circuit z k = some c ∧ (c.output = i ∨ c.feedback = some i))
      ∨ ∃ m q, (s.portal q).state ≠ .offline ∧ (s.portal q).meter = some m ∧ (s.portal p).meter ≠ some m
          ∧ (s.meter m).line = some i := by
  have hnames : ∀ c : Circuit, c.namings.contains i = true ↔ c.output = i ∨ c.feedback = some i := fun c => by
    simp only [Circuit.namings, List.contains_iff_mem, List.mem_cons, Option.mem_toList, eq_comm (a := i)]
  rw [State.namedInUse, Bool.or_eq_true, List.any_eq_true, List.any_eq_true]
  refine or_congr ⟨fun ⟨⟨z, k, c⟩, hx, hi⟩ => ?_, fun ⟨z, k, c, hz, hc, hi⟩ => ?_⟩ (exists_congr fun m => ?_)
  · obtain ⟨hz, hc⟩ := s.mem_supervisedCircuits.mp hx
    exact ⟨z, k, c, hz, hc, (hnames c).mp hi⟩
  · exact ⟨(z, k, c), s.mem_supervisedCircuits.mpr ⟨hz, hc⟩, (hnames c).mpr hi⟩
  · simp only [List.mem_finRange, true_and, Bool.and_eq_true, State.meterInService_iff, bne_iff_ne, ne_eq, beq_iff_eq]
    exact ⟨fun ⟨⟨⟨q, hq, hm⟩, hp⟩, hl⟩ => ⟨q, hq, hm, hp, hl⟩, fun ⟨q, hq, hm, hp, hl⟩ => ⟨⟨⟨q, hq, hm⟩, hp⟩, hl⟩⟩

theorem State.mem_namedTwice (i : Fin 192) :
    i ∈ s.namedTwice p ↔ 2 ≤ (s.candidates p).count i ∨ 1 ≤ (s.candidates p).count i ∧ s.namedInUse p i = true := by
  simp only [State.namedTwice, List.mem_filter, List.mem_finRange, true_and, Bool.or_eq_true, Bool.and_eq_true,
    decide_eq_true_eq]

end

theorem map_map_filter {α β γ : Type} (l : List α) (q : α → Bool) (f : α → β) (g : β → γ) :
    ((l.filter q).map f).map g = l.filterMap fun a => if q a then some (g (f a)) else none := by
  induction l with
  | nil => rfl
  | cons a l ih =>
    rw [List.filter_cons, List.filterMap_cons]
    cases q a
    · exact ih
    · exact congrArg _ ih

/-- Settles O24. -/
theorem theCommissioningChecks : Obligations.TheCommissioningChecks := by
  intro s p zones found needed wrongOutputs wrongFeedbacks candidates inUse
  have hfound : found = s.checkedCircuits p := by
    show (s.checkedZones p).flatMap _ = (s.checkedZones p).flatMap _
    simp only [Zone.circuits_eq]
    rfl
  have hneeded : ∀ c, needed c = c.kind.outputFn := fun c => by
    simp only [needed]
    cases c.kind <;> rfl
  have houtputs : wrongOutputs = (s.foundOutputs p).map Fin.val := by
    rw [State.foundOutputs, map_map_filter, ← hfound]
    refine List.filterMap_congr fun c _ => ?_
    rw [← hneeded]
    by_cases h : (s.line c.output).fn = needed c <;> simp [h]
  have hfeedbacks : wrongFeedbacks = (s.foundFeedbacks p).map Fin.val := by
    rw [State.foundFeedbacks, List.map_filterMap, ← hfound]
    refine List.filterMap_congr fun c _ => ?_
    cases c.feedback with
    | none => rfl
    | some i => by_cases h : (s.line i).fn = .feedbackIn <;> simp [h]
  have hcandidates : ∀ i, (s.candidates p).count i = candidates i := fun i => by
    rw [State.count_candidates, ← hfound]
  have hinUse : ∀ i, s.namedInUse p i = true ↔ inUse i := State.namedInUse_iff
  have hitem : ∀ k a b : Nat, (⟨k, a⟩ : FailureItem) = ⟨k, b⟩ ↔ b = a := fun k a b =>
    ⟨fun h => (congrArg FailureItem.argument h).symm, fun h => congrArg _ h.symm⟩
  have hordered := s.failures_ordered p
  have hof := fun x => State.mem_failuresOf (s := s) (p := p) (x := x)
  refine ⟨fun a => (State.mem_failures 0).trans ((hof _).1.trans ?_), fun a => (State.mem_failures 1).trans ((hof _).2.1.trans ?_),
    fun a => (State.mem_failures 2).trans ((hof _).2.2.1.trans ?_),
    fun a => (State.mem_failures 3).trans ((hof _).2.2.2.1.trans ?_),
    fun a => (State.mem_failures 4).trans ((hof _).2.2.2.2.1.trans ?_),
    fun a => (State.mem_failures 5).trans ((hof _).2.2.2.2.2.1.trans ?_),
    fun a => (State.mem_failures 6).trans ((hof _).2.2.2.2.2.2.trans ?_), fun x hx => ?_, ?_, ?_⟩
  · simp
  · have hno : (s.zone (zoneOf p 0)).circuits = [] ↔ ∀ k, s.circuit (zoneOf p 0) k = none := by
      rw [Zone.circuits_eq, List.filterMap_eq_nil_iff]
      exact ⟨fun h k => h k (List.mem_finRange k), fun h k _ => h k⟩
    rw [hno]
    simp [zoneOf]
  · rw [houtputs, List.mem_map]
    exact exists_congr fun i => and_congr mem_firstOnly (hitem 3 a i.val)
  · rw [hfeedbacks, List.mem_map]
    exact exists_congr fun i => and_congr mem_firstOnly (hitem 4 a i.val)
  · refine exists_congr fun i => ?_
    rw [State.mem_namedTwice, hcandidates, hinUse, and_comm]
    exact and_congr_left' (hitem 5 a i.val)
  · refine exists_congr fun m => ?_
    rw [and_comm]
    exact and_congr_left' (hitem 6 a m.val)
  · simp
  · rw [State.failures_eq, List.mem_flatMap] at hx
    obtain ⟨k, -, hk⟩ := hx
    rw [State.code_failuresOf hk]
    omega
  · refine hordered.imp fun {x y} h heq => ?_
    subst heq
    unfold State.failsBefore at h
    omega
  · refine hordered.imp fun {x y} h => ?_
    rw [houtputs, hfeedbacks]
    unfold State.failsBefore at h
    omega

end Sys2Proof.Machine
end

