-- ==== Sys2Proof/Proofs/Announcements.lean ====
section
/-! SUPPORT. What operations announce: which notices they raise, and that the SHORTFALL notice of each zone whose flag they
change waits afterwards with the zone's levels (R20, R78, R174). -/

namespace Sys2Proof.Machine

/-! ### Levels that a SHORTFALL notice carries (R78) -/

/-- The two zone records agree in what a SHORTFALL notice carries. -/
structure Zone.SameLevels (x y : Zone) : Prop where
  shortfall : y.shortfall = x.shortfall
  ramped : y.ramped = x.ramped
  capacity : y.capacity = x.capacity

theorem Zone.SameLevels.refl (x : Zone) : x.SameLevels x := ⟨rfl, rfl, rfl⟩

theorem Zone.SameLevels.trans {x y z : Zone} (h : x.SameLevels y) (k : y.SameLevels z) : x.SameLevels z :=
  ⟨k.shortfall.trans h.shortfall, k.ramped.trans h.ramped, k.capacity.trans h.capacity⟩

/-! ### Announcements -/

/-- Between the two states notices of the kinds and subjects `K` were raised, and SHORTFALL notices of the zones `Z`; every
zone out of `Z` keeps its levels, and the SHORTFALL notice of a changed flag waits. -/
structure State.Announces (Z : Fin 14 → Prop) (K : NoticeKind → Nat → Prop) (s t : State) : Prop where
  tells : s.Tells (fun n => if n.kind = .shortfall then ∃ z, Z z ∧ n.subject = z.val else K n.kind n.subject) t
  kept : ∀ z, ¬ Z z → (s.zone z).SameLevels (t.zone z)
  raised : s.ShortfallsRaised t

namespace State.Announces

variable {s t u : State} {Z W : Fin 14 → Prop} {K L : NoticeKind → Nat → Prop}

theorem mono (h : s.Announces Z K t) (hZ : ∀ z, Z z → W z) (hK : ∀ k n, K k n → L k n) : s.Announces W L t where
  tells := h.tells.mono fun n hn => by
    split at hn
    next hs =>
      rw [if_pos hs]
      obtain ⟨z, hz, hsub⟩ := hn
      exact ⟨z, hZ z hz, hsub⟩
    next hs =>
      rw [if_neg hs]
      exact hK _ _ hn
  kept z hz := h.kept z fun hZz => hz (hZ z hZz)
  raised := h.raised

/-- A notice of another kind or subject still waits. -/
theorem waiting (h : s.Announces Z K t) {n : Notice} (hn : s.Waiting n) (hs : n.kind ≠ .shortfall)
    (hK : ¬ K n.kind n.subject) : t.Waiting n :=
  h.tells.waiting hn fun m hm hkey => by
    simp only [Notice.sameKey, Bool.and_eq_true, beq_iff_eq] at hkey
    rw [hkey.1, hkey.2, if_neg hs] at hm
    exact absurd hm hK

/-- A SHORTFALL notice of a zone that is not touched still waits. -/
theorem waiting_shortfall (h : s.Announces Z K t) {z : Fin 14} {f : Bool} {r c : Nat} (hn : s.Waiting (.shortfall z f r c))
    (hz : ¬ Z z) : t.Waiting (.shortfall z f r c) :=
  h.tells.waiting hn fun m hm hkey => by
    simp only [Notice.sameKey, Bool.and_eq_true, beq_iff_eq] at hkey
    have hshort : m.kind = .shortfall := hkey.1
    rw [if_pos hshort] at hm
    obtain ⟨y, hy, hsub⟩ := hm
    have hyz : y = z := Fin.ext (hsub.symm.trans hkey.2)
    exact absurd (hyz ▸ hy) hz

/-- Operations on different zones, one after the other. -/
theorem trans (h : s.Announces Z K t) (k : t.Announces W L u) (hd : ∀ z, Z z → ¬ W z) :
    s.Announces (fun z => Z z ∨ W z) (fun k n => K k n ∨ L k n) u where
  tells :=
    have hs := h.mono (W := fun z => Z z ∨ W z) (L := fun k n => K k n ∨ L k n) (fun _ => .inl) fun _ _ => .inl
    have kt := k.mono (W := fun z => Z z ∨ W z) (L := fun k n => K k n ∨ L k n) (fun _ => .inr) fun _ _ => .inr
    hs.tells.trans kt.tells
  kept z hz := (h.kept z fun hZ => hz (.inl hZ)).trans (k.kept z fun hW => hz (.inr hW))
  raised z hz := by
    by_cases hW : W z
    · have hsame := h.kept z fun hZ => hd z hZ hW
      exact k.raised z (by rw [hsame.shortfall]; exact hz)
    · have hsame := k.kept z hW
      rw [hsame.shortfall] at hz
      rw [hsame.shortfall, hsame.ramped, hsame.capacity]
      exact k.waiting_shortfall (h.raised z hz) hW

/-- No notice, no zone's levels. -/
theorem quiet (hl : t.links = s.links) (hz : ∀ z, (s.zone z).SameLevels (t.zone z)) : s.Announces Z K t where
  tells := .of_links hl
  kept z _ := hz z
  raised z h := absurd (hz z).shortfall h

theorem refl (s : State) : s.Announces Z K s := quiet rfl fun _ => .refl _

/-- An operation before which nothing was announced. -/
theorem after_quiet (hl : t.links = s.links) (hz : ∀ z, (s.zone z).SameLevels (t.zone z)) (k : t.Announces Z K u) :
    s.Announces Z K u :=
  ((quiet (Z := fun _ => False) (K := fun _ _ => False) hl hz).trans k fun _ h => h.elim).mono
    (fun _ h => h.resolve_left id) fun _ _ h => h.resolve_left id

theorem then_quiet (k : s.Announces Z K t) (hl : u.links = t.links) (hz : ∀ z, (t.zone z).SameLevels (u.zone z)) :
    s.Announces Z K u :=
  (k.trans (quiet (Z := fun _ => False) (K := fun _ _ => False) hl hz) fun _ _ h => h).mono
    (fun _ h => h.resolve_right id) fun _ _ h => h.resolve_right id

theorem ite {c : Prop} [Decidable c] (h : s.Announces Z K t) (k : s.Announces Z K u) :
    s.Announces Z K (if c then t else u) := by
  split
  · exact h
  · exact k

/-- Notices that are no SHORTFALL notices, one after another. -/
theorem foldl {α : Type} {f : State → α → State} (hf : ∀ (s : State) a, s.Announces (fun _ => False) K (f s a)) (as : List α)
    (s : State) : s.Announces (fun _ => False) K (as.foldl f s) := by
  induction as generalizing s with
  | nil => exact refl s
  | cons a as ih => exact ((hf s a).trans (ih _) fun _ h => h.elim).mono (fun _ h => h.elim id id) fun _ _ h => h.elim id id

/-- An operation on each of some zones. -/
theorem foldl_zones {f : State → Fin 14 → State} (hf : ∀ (s : State) z, s.Announces (· = z) K (f s z)) {zs : List (Fin 14)}
    (hn : zs.Nodup) (s : State) : s.Announces (· ∈ zs) K (zs.foldl f s) := by
  induction zs generalizing s with
  | nil => exact refl s
  | cons z zs ih =>
    obtain ⟨hz, hzs⟩ := List.nodup_cons.mp hn
    refine ((hf s z).trans (ih hzs _) fun y hy hmem => hz (hy ▸ hmem)).mono (fun y h => ?_) fun _ _ h => h.elim id id
    exact h.elim (fun h => h ▸ List.mem_cons_self) (List.mem_cons_of_mem z)

end State.Announces

variable (s : State)

/-! ### Single operations -/

theorem State.announces_raise {Z : Fin 14 → Prop} {n : Notice} (h : n.kind ≠ .shortfall) :
    s.Announces Z (fun k m => k = n.kind ∧ m = n.subject) (s.raise n) where
  tells := .raise (by rw [if_neg h]; exact ⟨rfl, rfl⟩) s
  kept _ _ := .refl _
  raised _ hz := absurd rfl hz

theorem State.announces_raisePortalState (p : Fin 4) {Z : Fin 14 → Prop} :
    s.Announces Z (fun k m => k = .portalState ∧ m = p.val) (s.raisePortalState p) :=
  s.announces_raise (n := .portalState p _ _ _) (fun h => by cases h)

theorem State.announces_raiseTrafficState (b : Fin 2) {Z : Fin 14 → Prop} :
    s.Announces Z (fun k m => k = .trafficState ∧ m = b.val) (s.raiseTrafficState b) :=
  s.announces_raise (n := .trafficState b _ _ _ _ _) (fun h => by cases h)

variable {s} {K : NoticeKind → Nat → Prop}

/-- The shortfall test of a zone after a change of that zone's record that keeps its flag. -/
theorem State.announces_test {t : State} {z : Fin 14} (hl : t.links = s.links) (hz : (t.zone z).shortfall = (s.zone z).shortfall)
    (hne : ∀ y, y ≠ z → (s.zone y).SameLevels (t.zone y)) : s.Announces (· = z) K (t.testShortfall z) := by
  by_cases h : (t.zone z).shortfall = decide ((t.zone z).capacity < (t.zone z).ramped)
  · rw [show t.testShortfall z = t from if_pos h]
    refine ⟨.of_links hl, fun y hy => hne y hy, fun y hy => ?_⟩
    by_cases hyz : y = z
    · exact absurd (hyz ▸ hz) hy
    · exact absurd (hne y hyz).shortfall hy
  · have htest : t.testShortfall z = (t.setZone z (t.zone z).tested).raise
        (.shortfall z (t.zone z).tested.shortfall (t.zone z).ramped (t.zone z).capacity) := if_neg h
    rw [htest]
    refine ⟨State.Tells.trans (.of_links hl) (State.Tells.trans (.of_links rfl) (.raise ⟨z, rfl, rfl⟩ _)), fun y hy => ?_,
      fun y hy => ?_⟩
    · rw [State.zone_raise, State.zone_setZone_ne _ hy]
      exact hne y hy
    · by_cases hyz : y = z
      · subst hyz
        rw [State.zone_raise, State.zone_setZone_self]
        exact State.waiting_raise _ _
      · rw [State.zone_raise, State.zone_setZone_ne _ hyz] at hy
        exact absurd (hne y hyz).shortfall hy

theorem State.announces_testShortfall (z : Fin 14) : s.Announces (· = z) K (s.testShortfall z) :=
  State.announces_test rfl rfl fun _ _ => .refl _

theorem State.sameLevels_putZone {z y : Fin 14} (hy : y ≠ z) (x : Zone) : (s.zone y).SameLevels ((s.putZone z x).zone y) := by
  rw [State.zone_putZone, if_neg hy]
  exact .refl _

theorem Zone.shortfall_handDim (x : Zone) (d : Option Nat) : (x.handDim d).shortfall = x.shortfall := by
  unfold Zone.handDim
  cases d <;> rfl

theorem Zone.shortfall_lightAll (now : Uptime) (x : Zone) : (x.lightAll now).shortfall = x.shortfall :=
  Zone.shortfall_handDim _ _

theorem Zone.shortfall_allocate (now : Uptime) (x : Zone) : (x.allocate now).shortfall = x.shortfall := by
  refine (Zone.shortfall_handDim _ _).trans ?_
  unfold Zone.switching
  repeat' split
  all_goals rfl

theorem State.announces_light (z : Fin 14) : s.Announces (· = z) K (s.light z) := by
  refine State.announces_test (t := s.putZone z _) rfl ?_ fun y hy => State.sameLevels_putZone hy _
  rw [State.zone_putZone_self, Zone.shortfall_lightAll]
  rfl

theorem State.announces_allocateNormal (z : Fin 14) : s.Announces (· = z) K (s.allocateNormal z) := by
  refine State.announces_test (t := s.putZone z _) rfl ?_ fun y hy => State.sameLevels_putZone hy _
  rw [State.zone_putZone_self, Zone.shortfall_allocate]

/-- A zone's record changed but for its flag. -/
theorem State.announces_touch {t : State} {z : Fin 14} (hl : t.links = s.links)
    (hz : (t.zone z).shortfall = (s.zone z).shortfall) (hne : ∀ y, y ≠ z → (s.zone y).SameLevels (t.zone y)) :
    s.Announces (· = z) K t where
  tells := .of_links hl
  kept y hy := hne y hy
  raised y hy := by
    by_cases hyz : y = z
    · exact absurd (hyz ▸ hz) hy
    · exact absurd (hne y hyz).shortfall hy

/-- An operation on a zone after its record was changed but for its flag. -/
theorem State.Announces.after_touch {t u : State} {z : Fin 14} (h : t.Announces (· = z) K u) (hl : t.links = s.links)
    (hz : (t.zone z).shortfall = (s.zone z).shortfall) (hne : ∀ y, y ≠ z → (s.zone y).SameLevels (t.zone y)) :
    s.Announces (· = z) K u where
  tells := .trans (.of_links hl) h.tells
  kept y hy := (hne y hy).trans (h.kept y hy)
  raised y hy := by
    refine h.raised y ?_
    by_cases hyz : y = z
    · subst hyz
      rwa [hz]
    · rwa [(hne y hyz).shortfall]

theorem State.announces_setZone {z : Fin 14} {x : Zone} (hx : x.shortfall = (s.zone z).shortfall) {u : State}
    (h : (s.setZone z x).Announces (· = z) K u) : s.Announces (· = z) K u :=
  h.after_touch rfl (by rw [State.zone_setZone_self]; exact hx) fun y hy => by
    rw [State.zone_setZone_ne _ hy]
    exact .refl _

theorem State.announces_driveZone (z : Fin 14) (f : Bool) (r l d : Nat) : s.Announces (· = z) K (s.driveZone z f r l d) :=
  State.announces_setZone (x := (s.zone z).ramp f r l d) rfl (State.announces_allocateNormal z)

theorem State.announces_emergencyZone (z : Fin 14) : s.Announces (· = z) K (s.emergencyZone z) :=
  State.announces_setZone (x := { s.zone z with demand := 60000 }) rfl (State.announces_light z)

theorem State.announces_clearZone (z : Fin 14) : s.Announces (· = z) K (s.clearZone z) := by
  have hzone := s.zone_clearZone z
  refine ⟨?_, fun y hy => ?_, fun y hy => ?_⟩
  · exact .ite (State.Tells.trans (t := { s.setZone z { (s.zone z).cleared with shortfall := false } with
      lines := stopOutputs (s.zone z).cleared.circuits s.lines }) (.of_links rfl) (.raise ⟨z, rfl, rfl⟩ _)) (.of_links rfl)
  · rw [hzone, if_neg hy]
    exact .refl _
  · by_cases hyz : y = z
    · subst hyz
      rw [hzone, if_pos rfl] at hy ⊢
      have hset : (s.zone y).cleared.shortfall = true := by
        have hold : (s.zone y).shortfall ≠ false := fun h => hy (by rw [h]; rfl)
        exact (Bool.not_eq_false _).mp hold
      unfold State.clearZone
      simp only [hset, if_true]
      exact State.waiting_raise _ _
    · rw [hzone, if_neg hyz] at hy
      exact absurd rfl hy

/-! ### Sources (R20, R21) -/

theorem State.announces_pullOffOne (q : Fin 4) :
    s.Announces (fun _ => False) (fun k m => k = .source ∧ m = q.val) (s.pullOffOne q) :=
  .after_quiet (t := s.setPortal q ((s.portal q).withSource (s.lateCascade q).1 (s.lateCascade q).2)) rfl (fun _ => .refl _)
    (State.announces_raise _ (n := .source q (some (s.lateCascade q).1) (s.lateCascade q).2) fun h => by cases h)

/-- Each follower of a portal that leaves OWN has its SOURCE notice waiting (R21). -/
theorem State.waiting_pullOff {p q : Fin 4} (h : q ∈ s.followersOf p) :
    (s.pullOff p).Waiting (.source q (some (s.lateCascade q).1) (s.lateCascade q).2) := by
  have key : ∀ (qs : List (Fin 4)), qs.Nodup → ∀ t : State, q ∈ qs →
      (qs.foldl State.pullOffOne t).Waiting (.source q (some (t.lateCascade q).1) (t.lateCascade q).2) := by
    intro qs
    induction qs with
    | nil => exact fun _ _ h => absurd h List.not_mem_nil
    | cons r qs ih =>
      intro hn t hq
      obtain ⟨hr, hqs⟩ := List.nodup_cons.mp hn
      rw [List.foldl_cons]
      by_cases hqr : q = r
      · subst hqr
        have hlater : ∀ (qs : List (Fin 4)), q ∉ qs → ∀ t : State, t.Announces (fun _ => False)
            (fun k m => k = .source ∧ m ≠ q.val) (qs.foldl State.pullOffOne t) := by
          intro qs
          induction qs with
          | nil => exact fun _ t => .refl t
          | cons r qs ih =>
            intro hq t
            obtain ⟨hqr, hrest⟩ : q ≠ r ∧ q ∉ qs := by simpa using hq
            refine ((State.announces_pullOffOne r).trans (ih hrest _) fun _ h => h.elim).mono (fun _ h => h.elim id id) ?_
            rintro k m (⟨hk, hm⟩ | h)
            · exact ⟨hk, fun he => hqr (Fin.ext (he.symm.trans hm))⟩
            · exact h
        exact (hlater qs hr _).waiting (State.waiting_raise _ _) (by simp [Notice.kind]) fun h => h.2 rfl
      · have hlate := t.lateCascade_pullOffOne hqr
        rw [← hlate]
        exact ih hqs _ ((List.mem_cons.mp hq).resolve_left hqr)
  exact key _ (s.nodup_followersOf p) s h

theorem State.announces_pullOff (p : Fin 4) :
    s.Announces (fun _ => False) (fun k m => k = .source ∧ ∃ q ∈ s.followersOf p, m = q.val) (s.pullOff p) := by
  have key : ∀ (qs : List (Fin 4)) (t : State), t.Announces (fun _ => False) (fun k m => k = .source ∧ ∃ q ∈ qs, m = q.val)
      (qs.foldl State.pullOffOne t) := by
    intro qs
    induction qs with
    | nil => exact fun t => .refl t
    | cons r qs ih =>
      intro t
      refine ((State.announces_pullOffOne r).trans (ih _) fun _ h => h.elim).mono (fun _ h => h.elim id id) ?_
      rintro k m (⟨hk, hm⟩ | ⟨hk, q, hq, hm⟩)
      · exact ⟨hk, r, List.mem_cons_self, hm⟩
      · exact ⟨hk, q, List.mem_cons_of_mem r hq, hm⟩
  exact key _ s

/-- A portal's source stored, with the notice of a change, before any pull-off (R20). -/
def State.storeSource (s : State) (p : Fin 4) (src : Option Source) (acc : Option Nat) (x : Portal) : State :=
  if (s.portal p).source = src then s.setPortal p x else (s.setPortal p x).raise (.source p src acc)

section
variable (p : Fin 4) (src : Option Source) (acc : Option Nat) (x : Portal)

theorem State.announces_storeSource :
    s.Announces (fun _ => False) (fun k m => k = .source ∧ m = p.val) (s.storeSource p src acc x) :=
  .ite (.quiet rfl fun _ => .refl _) (.after_quiet (t := s.setPortal p x) rfl (fun _ => .refl _)
    (State.announces_raise _ (n := .source p src acc) fun h => by cases h))

theorem State.portal_storeSource (q : Fin 4) :
    (s.storeSource p src acc x).portal q = if q = p then x else s.portal q := by
  unfold State.storeSource
  split
  · exact State.portal_setPortal _ _ _ _
  · exact State.portal_setPortal _ _ _ _

theorem State.frame_storeSource : s.storeSource p src acc x = { s with
    portals := (s.storeSource p src acc x).portals, links := (s.storeSource p src acc x).links } := by
  unfold State.storeSource
  split <;> rfl

variable {p src acc x}

theorem State.waiting_storeSource (h : (s.portal p).source ≠ src) : (s.storeSource p src acc x).Waiting (.source p src acc) := by
  rw [State.storeSource, if_neg h]
  exact State.waiting_raise _ _

theorem State.lateCascade_storeSource {q : Fin 4} (h : q ≠ p) : (s.storeSource p src acc x).lateCascade q = s.lateCascade q :=
  State.lateCascade_congr (by rw [State.portal_storeSource, if_neg h]) (by rw [State.frame_storeSource]; rfl)
    (by rw [State.frame_storeSource]) (by rw [State.frame_storeSource])

end

theorem State.setSource_eq (p : Fin 4) (src : Source) (acc : Option Nat) :
    s.setSource p src acc = if (s.portal p).source = some .own ∧ src ≠ .own then
        (s.storeSource p (some src) acc ((s.portal p).withSource src acc)).pullOff p
      else s.storeSource p (some src) acc ((s.portal p).withSource src acc) := rfl

theorem State.dropSource_eq (p : Fin 4) :
    s.dropSource p = if (s.portal p).source = some .own then
        (s.storeSource p none none { s.portal p with source := none, access := none }).pullOff p
      else s.storeSource p none none { s.portal p with source := none, access := none } := by
  unfold State.dropSource State.storeSource
  cases (s.portal p).source <;> simp

/-- A stored source that leaves OWN, and the pull-offs it brings (R21). -/
theorem State.pullsOff_storeSource {p : Fin 4} {src : Option Source} {acc : Option Nat} {x : Portal} {leaves : Prop} {t : State}
    (hyes : leaves → t = (s.storeSource p src acc x).pullOff p) (hno : ¬ leaves → t = s.storeSource p src acc x) :
    s.PullsOff t p leaves := by
  intro q hq follows late
  have hportal : (s.storeSource p src acc x).portal q = s.portal q := by rw [State.portal_storeSource, if_neg hq]
  refine ⟨fun ⟨hleaves, hsource, hpartner⟩ => ?_, fun hnot => ?_⟩
  · rw [hyes hleaves]
    have hmem : q ∈ (s.storeSource p src acc x).followersOf p := by
      rw [State.mem_followersOf, hportal]
      exact ⟨hsource, hpartner⟩
    have hwait := State.waiting_pullOff hmem
    rw [State.lateCascade_storeSource hq] at hwait
    refine ⟨?_, hwait⟩
    rw [State.portal_pullOff, hportal, if_pos ⟨hsource, hpartner⟩, State.lateCascade_storeSource hq]
  · by_cases hleaves : leaves
    · rw [hyes hleaves, State.portal_pullOff, hportal, if_neg fun h => hnot ⟨hleaves, h.1, h.2⟩]
    · rw [hno hleaves, hportal]

theorem State.pullsOff_setSource (p : Fin 4) (src : Source) (acc : Option Nat) :
    s.PullsOff (s.setSource p src acc) p ((s.portal p).source = some .own ∧ src ≠ .own) :=
  State.pullsOff_storeSource (fun h => (s.setSource_eq p src acc).trans (if_pos h))
    fun h => (s.setSource_eq p src acc).trans (if_neg h)

theorem State.pullsOff_dropSource (p : Fin 4) : s.PullsOff (s.dropSource p) p ((s.portal p).source = some .own) :=
  State.pullsOff_storeSource (fun h => (s.dropSource_eq p).trans (if_pos h)) fun h => (s.dropSource_eq p).trans (if_neg h)

theorem State.announces_setSource (p : Fin 4) (src : Source) (acc : Option Nat) :
    s.Announces (fun _ => False) (fun k _ => k = .source) (s.setSource p src acc) := by
  have hstore := (State.announces_storeSource (s := s) p (some src) acc ((s.portal p).withSource src acc)).mono
    (L := fun k _ => k = .source) (fun _ => id) fun _ _ => And.left
  rw [State.setSource_eq]
  exact .ite ((hstore.trans (State.announces_pullOff p) fun _ h => h.elim).mono (fun _ h => h.elim id id)
    fun _ _ h => h.elim id And.left) hstore

theorem State.announces_dropSource (p : Fin 4) : s.Announces (fun _ => False) (fun k _ => k = .source) (s.dropSource p) := by
  have hstore := (State.announces_storeSource (s := s) p none none { s.portal p with source := none, access := none }).mono
    (L := fun k _ => k = .source) (fun _ => id) fun _ _ => And.left
  rw [State.dropSource_eq]
  exact .ite ((hstore.trans (State.announces_pullOff p) fun _ h => h.elim).mono (fun _ h => h.elim id id)
    fun _ _ h => h.elim id And.left) hstore

/-- The notice of a portal's own change of source waits, unless the portal were its own follower. -/
theorem State.waiting_setSource {p : Fin 4} {src : Source} {acc : Option Nat} (h : (s.portal p).source ≠ some src)
    (hself : ¬ (src = .partner ∧ (s.portal p).partner = some p)) : (s.setSource p src acc).Waiting (.source p (some src) acc) := by
  have hwait := State.waiting_storeSource (s := s) (acc := acc) (x := (s.portal p).withSource src acc) h
  rw [State.setSource_eq]
  split
  · refine (State.announces_pullOff p).waiting hwait (fun h => by cases h) fun ⟨_, q, hq, hqp⟩ => ?_
    have hqp' : p = q := Fin.ext hqp
    subst hqp'
    rw [State.mem_followersOf, State.portal_storeSource, if_pos rfl, Portal.withSource_eq] at hq
    exact hself ⟨Option.some.inj hq.1, hq.2⟩
  · exact hwait

theorem State.waiting_dropSource {p : Fin 4} (h : (s.portal p).source.isSome = true) :
    (s.dropSource p).Waiting (.source p none none) := by
  have hne : (s.portal p).source ≠ none := fun hn => by rw [hn] at h; cases h
  have hwait := State.waiting_storeSource (s := s) (acc := none) (x := { s.portal p with source := none, access := none }) hne
  rw [State.dropSource_eq]
  split
  · refine (State.announces_pullOff p).waiting hwait (fun h => by cases h) fun ⟨_, q, hq, hqp⟩ => ?_
    have hqp' : p = q := Fin.ext hqp
    subst hqp'
    rw [State.mem_followersOf, State.portal_storeSource, if_pos rfl] at hq
    cases hq.1
  · exact hwait

/-- Later steps keep what the pull-offs left. -/
theorem State.PullsOff.then {t u : State} {p : Fin 4} {leaves : Prop} (h : s.PullsOff t p leaves)
    (hp : ∀ q, q ≠ p → u.portal q = t.portal q) {Z : Fin 14 → Prop} {L : NoticeKind → Nat → Prop} (ha : t.Announces Z L u)
    (hL : ∀ m, ¬ L .source m) : s.PullsOff u p leaves := fun q hq =>
  ⟨fun hf => ⟨(hp q hq).trans ((h q hq).1 hf).1, ha.waiting ((h q hq).1 hf).2 (fun h => by cases h) (hL _)⟩,
    fun hf => (hp q hq).trans ((h q hq).2 hf)⟩

/-- Steps before the pull-offs that leave the other portals and what their cascades see. -/
theorem State.PullsOff.after {t u : State} {p : Fin 4} {leaves : Prop} (h : t.PullsOff u p leaves)
    (hp : ∀ q, q ≠ p → t.portal q = s.portal q) (hlate : ∀ q, q ≠ p → t.lateCascade q = s.lateCascade q) :
    s.PullsOff u p leaves := fun q hq => by
  have h := h q hq
  rw [hp q hq, hlate q hq] at h
  exact h

/-! ### The interior condition (R139 to R142) -/

theorem State.announces_supervise {b : Fin 2} {c : Condition} {u : State}
    (h : ((s.setCondition b c).supervise (interiorOf b)).Announces (· = interiorOf b) K u) :
    s.Announces (· = interiorOf b) K u :=
  h.after_touch rfl (by rw [State.zone_supervise, if_pos rfl]; rfl) fun y hy => by
    rw [State.zone_supervise, if_neg hy]
    exact .refl _

theorem State.announces_lightInterior (b : Fin 2) : s.Announces (· = interiorOf b) K (s.lightInterior b) :=
  .ite (State.announces_light _) (.refl s)

theorem State.announces_workCondition (b : Fin 2) : s.Announces (· = interiorOf b) K (s.workCondition b) := by
  have hthen : ∀ c {u : State}, (s.setCondition b c).Announces (· = interiorOf b) K u → s.Announces (· = interiorOf b) K u :=
    fun c _ h => .after_quiet (t := s.setCondition b c) rfl (fun _ => .refl _) h
  unfold State.workCondition
  split
  case h_1 | h_5 | h_9 => exact .refl s
  case h_2 => exact State.announces_supervise (.refl _)
  case h_3 => exact State.announces_supervise (State.announces_lightInterior b)
  case h_4 | h_7 => exact hthen _ (State.announces_clearZone _)
  case h_6 => exact hthen _ (State.announces_lightInterior b)
  case h_8 => exact hthen _ (.refl _)

end Sys2Proof.Machine
end

