-- ==== Sys2Proof/Proofs/Obligations/EmergencyClear.lean ====
section
/-! SUPPORT. Operations on each portal of a bore, and the statement about the end of an emergency (O33). -/

namespace Sys2Proof.Machine

/-! ### What shared operations leave alone -/

theorem State.Acts.frame {s t : State} (h : s.Acts t) :
    t = { s with lines := t.lines, portals := t.portals, bores := t.bores, zones := t.zones, links := t.links } := by
  obtain ⟨pending, inReset, uptime, clock, burnDue, sampleDue, periodDue, lines, pins, meters, schedule, portals, bores, zones,
    links, draws⟩ := t
  obtain ⟨rfl, rfl, rfl, rfl, rfl, rfl, rfl, rfl, rfl, rfl, rfl, -⟩ := h
  rfl

/-! ### Units that answer alike -/

theorem visited_same {n : Nat} {α : Type} {R : Fin n → State → α → State → Prop} {f : State → Fin n → State} {a : α}
    (h : ∀ u s, R u s a (f s u)) (us : List (Fin n)) (s : State) :
    Visited R us s (us.map fun _ => a) (us.foldl f s) := by
  induction us generalizing s with
  | nil => exact .nil s
  | cons u us ih => exact .cons (h u s) (ih _)

/-! ### An operation on each of some portals -/

section
variable {f : State → Fin 4 → State}

/-- The notices of an operation on each of some portals, where each raises the PORTAL_STATE notice of its own portal. -/
theorem State.announces_foldl_portals {Z : Fin 4 → Fin 14 → Prop}
    (hf : ∀ (t : State) q, t.Announces (Z q) (fun k m => k = .portalState ∧ m = q.val) (f t q))
    (hZ : ∀ q r z, q ≠ r → Z q z → ¬ Z r z) {qs : List (Fin 4)} (hn : qs.Nodup) (s : State) :
    s.Announces (fun z => ∃ q ∈ qs, Z q z) (fun k m => k = .portalState ∧ ∃ q ∈ qs, m = q.val) (qs.foldl f s) := by
  induction qs generalizing s with
  | nil => exact .refl s
  | cons q qs ih =>
    obtain ⟨hq, hqs⟩ := List.nodup_cons.mp hn
    refine ((hf s q).trans (ih hqs _) fun z hz => ?_).mono (fun z h => ?_) fun k m h => ?_
    · rintro ⟨r, hr, hrz⟩
      exact hZ q r z (fun h => hq (h ▸ hr)) hz hrz
    · obtain h | ⟨r, hr, h⟩ := h
      · exact ⟨q, List.mem_cons_self, h⟩
      · exact ⟨r, List.mem_cons_of_mem q hr, h⟩
    · obtain ⟨hk, hm⟩ | ⟨hk, r, hr, hm⟩ := h
      · exact ⟨hk, q, List.mem_cons_self, hm⟩
      · exact ⟨hk, r, List.mem_cons_of_mem q hr, hm⟩

/-- The notice that such an operation raises for one of the portals waits at the end. -/
theorem State.waiting_foldl_portals {Z : Fin 4 → Fin 14 → Prop} {s : State} {p : Fin 4} {n : Notice}
    (hf : ∀ (t : State) q, t.Announces (Z q) (fun k m => k = .portalState ∧ m = q.val) (f t q))
    (hZ : ∀ q r z, q ≠ r → Z q z → ¬ Z r z) (hother : ∀ (t : State) q, q ≠ p → (f t q).portal p = t.portal p)
    (hk : n.kind = .portalState) (hsub : n.subject = p.val) (hself : ∀ t : State, t.portal p = s.portal p → (f t p).Waiting n)
    {qs : List (Fin 4)} (hn : qs.Nodup) (hp : p ∈ qs) : (qs.foldl f s).Waiting n := by
  suffices H : ∀ t : State, t.portal p = s.portal p → (qs.foldl f t).Waiting n from H s rfl
  induction qs with
  | nil => exact absurd hp List.not_mem_nil
  | cons q qs ih =>
    intro t ht
    obtain ⟨hq, hqs⟩ := List.nodup_cons.mp hn
    rw [List.foldl_cons]
    by_cases hpq : p = q
    · subst hpq
      refine (State.announces_foldl_portals hf hZ hqs _).waiting (hself t ht) (by rw [hk]; decide) fun ⟨_, r, hr, hm⟩ => ?_
      exact hq (Fin.ext (hsub.symm.trans hm) ▸ hr)
    · exact ih hqs ((List.mem_cons.mp hp).resolve_left hpq) _ ((hother t q (Ne.symm hpq)).trans ht)

end

/-! ### EMERGENCY_CLEAR (R118, R137) -/

variable {s : State}

theorem State.portal_returnPortal_ne {p q : Fin 4} (h : q ≠ p) : (s.returnPortal p).portal q = s.portal q := by
  unfold State.returnPortal
  split
  · exact State.portal_setPortal_ne _ h _
  · rfl

theorem State.announces_returnPortal (p : Fin 4) :
    s.Announces (fun _ => False) (fun k m => k = .portalState ∧ m = p.val) (s.returnPortal p) :=
  .ite (.after_quiet (t := s.setPortalState p .auto) rfl (fun _ => .refl _) (State.announces_raisePortalState _ p)) (.refl s)

theorem State.waiting_returnPortal {p : Fin 4} (h : (s.portal p).state = .emergency) :
    (s.returnPortal p).Waiting (.portalState p .auto (s.portal p).role ((s.portal p).action.map PendingAction.kind)) := by
  have hportal : (s.setPortalState p .auto).portal p = { s.portal p with state := .auto } := by
    rw [State.portal_setPortalState, if_pos rfl]
  have hwait := (s.setPortalState p .auto).waiting_raise
    (.portalState p .auto (s.portal p).role ((s.portal p).action.map PendingAction.kind))
  rw [State.returnPortal, if_pos h, State.raisePortalState, hportal]
  exact hwait

theorem State.lines_returnPortals (b : Fin 2) : ((portalsOf b).foldl State.returnPortal s).lines = s.lines :=
  foldl_keeps (f := State.returnPortal) (v := State.lines)
    (fun t p => by unfold State.returnPortal; split <;> rfl) _ s

theorem State.zones_returnPortals (b : Fin 2) : ((portalsOf b).foldl State.returnPortal s).zones = s.zones :=
  foldl_keeps (f := State.returnPortal) (v := State.zones)
    (fun t p => by unfold State.returnPortal; split <;> rfl) _ s

theorem State.clearOne_same {b : Fin 2} (h : (s.bore b).emergency = false) : (State.clearOne b s).1 = s := by
  simp [State.clearOne, h]

/-- The bore's flag cleared and its portals returned, before the condition is worked and the bore's notice is raised. -/
def State.returned (s : State) (b : Fin 2) : State :=
  (portalsOf b).foldl State.returnPortal (s.setBore b { s.bore b with emergency := false, demand := (s.bore b).base })

theorem State.bore_returned (b c : Fin 2) :
    (s.returned b).bore c = if c = b then { s.bore b with emergency := false, demand := (s.bore b).base } else s.bore c := by
  rw [State.returned, State.bore_returnPortals, State.bore_setBore]

theorem State.portal_returned (b : Fin 2) (p : Fin 4) :
    (s.returned b).portal p = if boreOf p = b then (s.portal p).returned else s.portal p := by
  rw [State.returned, State.portal_returnPortals, State.portal_setBore]

/-- A portal that returns from EMERGENCY to AUTO leaves its interior condition as it is (R139). -/
theorem State.clearOne_eq {b : Fin 2} (he : (s.bore b).emergency = true) (hc : s.ConditionsFollow) :
    (State.clearOne b s).1 = (s.returned b).raiseTrafficState b := by
  have hwork : (s.returned b).workCondition b = s.returned b := by
    refine State.workCondition_self ?_
    rw [State.bore_returned, if_pos rfl]
    refine Eq.trans ?_ (hc b).symm
    refine State.conditionFor_alike fun p hp => ?_
    rw [State.portal_returned, if_pos hp]
    unfold Portal.returned
    split
    next h => rw [h]; exact ⟨rfl, rfl⟩
    next => exact ⟨rfl, rfl⟩
  unfold State.clearOne
  rw [if_pos he]
  exact congrArg (State.raiseTrafficState · b) hwork

theorem State.waiting_returned {b : Fin 2} {p : Fin 4} (hp : boreOf p = b) (h : (s.portal p).state = .emergency) :
    (s.returned b).Waiting (.portalState p .auto (s.portal p).role ((s.portal p).action.map PendingAction.kind)) :=
  State.waiting_foldl_portals (Z := fun _ _ => False) (p := p) (fun t q => State.announces_returnPortal q)
    (fun _ _ _ _ h => h.elim) (fun t q hq => State.portal_returnPortal_ne (Ne.symm hq)) rfl rfl
    (fun t ht => by
      have hwait := State.waiting_returnPortal (s := t) (p := p) (by rw [ht]; exact h)
      rw [ht] at hwait
      exact hwait)
    (nodup_portalsOf b) (mem_portalsOf.mpr hp)

/-- Settles O33. -/
theorem emergencyClearReturnsToAuto : Obligations.EmergencyClearReturnsToAuto := by
  intro s l r us hs hus
  refine ⟨_, visited_same (f := fun t b => (State.clearOne b t).1) (fun b t => ⟨rfl, fun he => State.clearOne_same he,
    fun he hc => ?_⟩) us (s.popRequest l), congrArg _ (hs.foldUnits hs.isFor hus rfl rfl (visit := State.clearOne) rfl
      fun b t => by unfold State.clearOne; split <;> rfl)⟩
  · have hnotices := t.notices_clearOne b
    have hconditions := conditionsFollow_kept.clear t b hc
    have hacts := t.acts_clearOne b
    rw [State.clearOne_eq he hc] at hnotices hconditions hacts ⊢
    have hlines : ((t.returned b).raiseTrafficState b).lines = t.lines := State.lines_returnPortals b
    have hzones : ((t.returned b).raiseTrafficState b).zones = t.zones := State.zones_returnPortals b
    have hbore : (t.returned b).bore b = { t.bore b with emergency := false, demand := (t.bore b).base } := by
      rw [State.bore_returned, if_pos rfl]
    refine ⟨hacts.frame.trans (by rw [hlines, hzones]), hnotices, hconditions, fun c => State.bore_returned b c, ?_,
      fun p => ⟨fun ⟨hp, hst⟩ => ⟨?_, ?_⟩, fun hno => ?_⟩⟩
    · rw [State.raiseTrafficState, hbore]
      exact State.waiting_raise _ _
    · rw [State.portal_raiseTrafficState, State.portal_returned, if_pos hp, Portal.returned, if_pos hst]
    · exact (State.announces_raiseTrafficState _ b (Z := fun _ => False)).waiting (State.waiting_returned hp hst)
        (fun h => by cases h) fun h => by cases h.1
    · rw [State.portal_raiseTrafficState, State.portal_returned]
      split
      next hp => exact if_neg fun hst => hno ⟨hp, hst⟩
      next => rfl

end Sys2Proof.Machine
end

