-- ==== Sys2Proof/Proofs/Obligations/EmergencySet.lean ====
section
/-! SUPPORT. Zones lit to capacity, pending actions abandoned, and the statement about the start of an emergency (O32). -/

namespace Sys2Proof.Machine

/-! ### Circuits lit (R66, R79) -/

/-- The second circuit is the first with another command, level or timer: in the same setup and with the same burn seconds,
available as it was, and untouched where it is not available. -/
structure Circuit.Relit (c d : Circuit) : Prop where
  setup : d.setup = c.setup
  burn : d.burn = c.burn
  available : d.available = c.available
  kept : c.available = false → d = c

theorem Circuit.Relit.refl (c : Circuit) : c.Relit c := ⟨rfl, rfl, rfl, fun _ => rfl⟩

theorem Circuit.Relit.trans {c d e : Circuit} (h : c.Relit d) (k : d.Relit e) : c.Relit e where
  setup := k.setup.trans h.setup
  burn := k.burn.trans h.burn
  available := k.available.trans h.available
  kept ha := (k.kept (h.available.trans ha)).trans (h.kept ha)

/-- A change of an available circuit that stays available. -/
theorem Circuit.relit_of_available {c d : Circuit} (hs : d.setup = c.setup) (hb : d.burn = c.burn) (hc : c.available = true)
    (hd : d.available = true) : c.Relit d where
  setup := hs
  burn := hb
  available := hd.trans hc.symm
  kept h := absurd (hc.symm.trans h) (by decide)

theorem Circuit.relit_switchOn {c : Circuit} (h : c.inReserve = true) (now : Uptime) (settle : Nat) :
    c.Relit (c.switchOn now settle) := by
  obtain ⟨-, hs⟩ := Circuit.inReserve_iff.mp h
  refine Circuit.relit_of_available (Circuit.setup_switchOn now settle c) ?_ ?_ ?_
  · unfold Circuit.switchOn
    split <;> rfl
  · obtain hs | hs := hs <;> rw [Circuit.available, hs]
  · unfold Circuit.switchOn
    split <;> rfl

theorem Circuit.relit_setLevel {c : Circuit} (h : c.inCd = true) (level : Nat) : c.Relit (c.setLevel level) := by
  refine Circuit.relit_of_available (Circuit.setup_setLevel level c) rfl (Circuit.inCd_iff.mp h).2 ?_
  by_cases h0 : level = 0 <;> simp [Circuit.setLevel, Circuit.available, h0]

theorem Circuit.relit_startLoss {c : Circuit} (h : c.state = .off) (now : Uptime) (settle : Nat) :
    c.Relit (c.startLoss now settle) :=
  Circuit.relit_of_available (Circuit.setup_startLoss now settle c) rfl (by rw [Circuit.available, h])
    (by rw [Circuit.available, Circuit.startLoss, h])

/-- What a circuit adds to the capacity of its zone (R66). -/
def Circuit.share (o : Option Circuit) : Nat :=
  contribution Circuit.inSon o + contribution Circuit.inReserve o + contribution Circuit.inCd o

theorem Zone.capacity_eq_sum_share (z : Zone) : z.capacity = ∑ k : Fin 8, Circuit.share (z.slots.get k) := by
  rw [Zone.capacity, Zone.son, Zone.cd, Zone.sumOf_eq, Zone.sumOf_eq, Zone.sumOf_eq, ← Finset.sum_add_distrib,
    ← Finset.sum_add_distrib]
  rfl

/-- An available circuit adds its rated contribution, whatever its command. -/
theorem Circuit.share_of_available {c : Circuit} (h : c.available = true) : Circuit.share (some c) = c.rating := by
  obtain ⟨kind, rating, output, feedback, state, level, timer, burn⟩ := c
  cases kind with
  | switched =>
    cases state <;> simp_all [Circuit.share, contribution, Circuit.inSon, Circuit.inReserve, Circuit.inCd, Circuit.isSwitched,
      Circuit.isDimmed, Circuit.available]
  | dimmed =>
    simp [Circuit.share, contribution, Circuit.inSon, Circuit.inReserve, Circuit.inCd, Circuit.isSwitched, Circuit.isDimmed, h]

theorem Circuit.Relit.share {c d : Circuit} (h : c.Relit d) : Circuit.share (some d) = Circuit.share (some c) := by
  cases ha : c.available with
  | false => rw [h.kept ha]
  | true =>
    rw [Circuit.share_of_available ha, Circuit.share_of_available (h.available.trans ha)]
    exact congrArg CircuitSetup.rating h.setup

/-- The circuits of the second zone record are those of the first relit, slot by slot. -/
def Zone.Relit (x y : Zone) : Prop :=
  ∀ k, Option.Rel Circuit.Relit (x.slots.get k) (y.slots.get k)

namespace Zone.Relit

variable {x y z : Zone}

theorem of_slots (h : y.slots = x.slots) : x.Relit y := fun k => by
  rw [h]
  cases x.slots.get k with
  | none => exact .none
  | some c => exact .some (.refl c)

theorem trans (h : x.Relit y) (k : y.Relit z) : x.Relit z := fun i => by
  have hi := h i
  have ki := k i
  revert hi ki
  cases x.slots.get i <;> cases y.slots.get i <;> cases z.slots.get i <;> intro hi ki <;> cases hi <;> cases ki
  next => exact .none
  next h k => exact .some (Circuit.Relit.trans h k)

theorem modWhere {cond : Circuit → Bool} {f : Circuit → Circuit} (h : ∀ c, cond c = true → c.Relit (f c)) :
    x.Relit (x.modWhere cond f) := fun k => by
  rw [Zone.modWhere, Tab.get_mapWith]
  cases x.slots.get k with
  | none => exact .none
  | some c =>
    refine .some ?_
    dsimp only
    split
    next hc => exact h c hc
    · exact .refl c

theorem capacity (h : x.Relit y) : y.capacity = x.capacity := by
  rw [Zone.capacity_eq_sum_share, Zone.capacity_eq_sum_share]
  refine Finset.sum_congr rfl fun k _ => ?_
  have hk := h k
  revert hk
  cases x.slots.get k <;> cases y.slots.get k <;> intro hk <;> cases hk
  next => rfl
  next hk => exact hk.share

theorem circuit (h : x.Relit y) {k : Fin 8} {c : Circuit} (hc : x.slots.get k = some c) :
    ∃ d, y.slots.get k = some d ∧ c.Relit d := by
  have hk := h k
  rw [hc] at hk
  cases hd : y.slots.get k with
  | none => rw [hd] at hk; cases hk
  | some d =>
    rw [hd] at hk
    cases hk with
    | some h => exact ⟨d, rfl, h⟩

end Zone.Relit

theorem Zone.relit_handDim (x : Zone) (dim : Option Nat) : x.Relit (x.handDim dim) := by
  cases dim with
  | none => exact .of_slots rfl
  | some level => exact (Zone.Relit.modWhere fun c hc => Circuit.relit_setLevel hc level).trans (.of_slots rfl)

theorem Zone.relit_lightAll (x : Zone) (now : Uptime) : x.Relit (x.lightAll now) :=
  (Zone.Relit.modWhere fun _ hc => Circuit.relit_switchOn hc now x.settle).trans (Zone.relit_handDim _ _)

theorem State.relit_startSupervision {s : State} (x : Zone) : x.Relit (s.startSupervision x) :=
  .modWhere fun c hc => Circuit.relit_startLoss (c := c) (by
    simp only [Bool.and_eq_true, beq_iff_eq] at hc
    exact hc.1.2) _ _

/-- A lit circuit, as its kind has it (R79). -/
theorem Circuit.lit_of_fullyLit {c : Circuit} (h : c.legal = true) (hl : c.fullyLit = true) :
    match c.kind with
    | .switched => c.state = .switchingOn ∨ c.state = .on
    | .dimmed => c.state = .on ∧ c.level = 1000 := by
  split
  next hk => exact (Circuit.fullyLit_iff_of_switched hk).mp hl
  next hk =>
    have hlevel := (Circuit.fullyLit_iff_of_dimmed hk).mp hl
    refine ⟨?_, hlevel⟩
    rw [Circuit.legal, hk, hlevel] at h
    cases hs : c.state <;> simp [hs] at h ⊢

theorem Zone.litFrom_litUp {x : Zone} (h : x.legal = true) (now : Uptime) : x.litFrom (x.litUp now) := by
  have hrelit : x.Relit (x.litUp now) := ((Zone.Relit.of_slots rfl).trans (x.atCapacity.relit_lightAll now)).trans (.of_slots rfl)
  have hlegal : (x.atCapacity.lightAll now).legal = true := Zone.legal_lightAll (z := x.atCapacity) h now
  have hlit := Zone.lit_lightAll (z := x.atCapacity) h now
  have hcommanded := x.atCapacity.commanded_lightAll now
  have hramped : (x.litUp now).ramped = min 60000 x.capacity := congrArg Zone.ramped hcommanded
  have hdemand : (x.litUp now).demand = x.demand :=
    (congrArg Zone.demand hcommanded : (x.atCapacity.lightAll now).demand = _)
  refine ⟨hramped, hrelit.capacity, hdemand, ?_, fun k c hc => ?_⟩
  · have hflag : (x.litUp now).shortfall = decide ((x.litUp now).capacity < (x.litUp now).ramped) := rfl
    rw [hflag, hrelit.capacity, hramped]
    exact decide_eq_false (by omega)
  · obtain ⟨d, hd, hcd⟩ := hrelit.circuit hc
    refine ⟨d, hd, hcd.setup, hcd.burn, hcd.available, hcd.kept, fun ha => ?_⟩
    have hda : d.available = true := hcd.available.trans ha
    have := Circuit.lit_of_fullyLit ((Zone.legal_iff.mp hlegal).1 k d hd) (hlit k d hd hda)
    rw [show d.kind = c.kind from congrArg CircuitSetup.kind hcd.setup] at this
    exact this

theorem Zone.litFrom_of_relit {x y z : Zone} (h : x.Relit y) (hd : y.demand = x.demand) (hl : y.litFrom z) : x.litFrom z := by
  obtain ⟨hramped, hcapacity, hdemand, hflag, hslots⟩ := hl
  rw [h.capacity] at hramped hcapacity
  refine ⟨hramped, hcapacity, hdemand.trans hd, hflag, fun k c hc => ?_⟩
  obtain ⟨d, hyd, hcd⟩ := h.circuit hc
  obtain ⟨e, hze, hsetup, hburn, havailable, hkept, hlit⟩ := hslots k d hyd
  refine ⟨e, hze, hsetup.trans hcd.setup, hburn.trans hcd.burn, havailable.trans hcd.available, fun ha => ?_, fun ha => ?_⟩
  · exact (hkept (hcd.available.trans ha)).trans (hcd.kept ha)
  · have := hlit (hcd.available.trans ha)
    rw [show d.kind = c.kind from congrArg CircuitSetup.kind hcd.setup] at this
    exact this

/-- The interior zone that rises to DRIVEN, or stays so, as an emergency lights it (R136, R140). -/
theorem State.litFrom_reconditioned {s : State} {was : Condition} {x : Zone} (h : x.legal = true) (hwas : was ≠ .driven) :
    x.litFrom (s.reconditioned was .driven true x) := by
  cases was with
  | driven => exact absurd rfl hwas
  | held => exact Zone.litFrom_litUp h _
  | released =>
    have hlegal : (s.startSupervision x).legal = true := legalRules.startSupervision s (v := false) (e := false) h
    exact Zone.litFrom_of_relit (State.relit_startSupervision x) rfl (Zone.litFrom_litUp hlegal _)

end Sys2Proof.Machine
end

