-- ==== Sys2Proof/Proofs/Obligations/EmergencySet2.lean ====
section
/-! SUPPORT. Pending actions abandoned, and the statement about the start of an emergency (O32). -/

namespace Sys2Proof.Machine

variable {s t u : State}

/-! ### Responses that operations place (R125, R172) -/

/-- The links of the second state are those of the first with the responses `f` at the tails of their lists, and but for
the notices that wait. -/
def State.Replies (f : Link → List Response) (s t : State) : Prop :=
  ∀ k, t.link k = { s.link k with notices := (t.link k).notices, responses := (s.link k).responses ++ f k }

theorem State.onlyNotices.replies (h : s.onlyNotices t) : s.Replies (fun _ => []) t := fun k => by
  rw [List.append_nil]
  exact h k

theorem State.Replies.trans {f g : Link → List Response} (h : s.Replies f t) (k : t.Replies g u) :
    s.Replies (fun l => f l ++ g l) u := fun l => by
  rw [k l, h l, List.append_assoc]

theorem State.Replies.then_notices {f : Link → List Response} (h : s.Replies f t) (k : t.onlyNotices u) : s.Replies f u :=
  fun l => by simpa only [List.append_nil] using h.trans k.replies l

theorem State.Replies.after_notices {f : Link → List Response} (h : s.onlyNotices t) (k : t.Replies f u) : s.Replies f u :=
  h.replies.trans k

/-- The answer of a pending action that is abandoned (R113, R117, R125). -/
def PendingAction.abandonment (a : PendingAction) (p : Fin 4) : Response :=
  { tag := a.tag, code := a.kind.request.octet, target := BitVec.ofNat 8 (2 ^ p.val), frame := .abandoned,
    each := [.abandoned], data := [] }

/-- The answer owed at the abandonment of a portal's pending action is placed in the list of the link its record names, where
that has room. -/
theorem State.link_abandonAction (p : Fin 4) (k : Link) : (s.abandonAction p).link k = { s.link k with
    responses := (s.link k).responses ++
      match (s.portal p).action with
      | none => []
      | some a =>
        if a.link = k ∧ a.answerOwed = true ∧ (s.link k).responses.length < 8 then [a.abandonment p] else [] } := by
  unfold State.abandonAction
  cases ha : (s.portal p).action with
  | none => rw [List.append_nil]
  | some a =>
    have hremove : ∀ t : State, (t.removeAction p).link k = t.link k := fun _ => rfl
    dsimp only
    rw [hremove, State.answerAction]
    cases howed : a.answerOwed with
    | false => simp
    | true =>
      rw [if_pos (by cases a.ackWanted <;> rfl), State.link_place]
      by_cases hk : k = a.link
      · subst hk
        by_cases hroom : (s.link a.link).responses.length < 8
        · simp [LinkRec.place, hroom, PendingAction.abandonment]
        · simp [LinkRec.place, hroom]
      · simp [hk, Ne.symm hk]

/-- A link that owes an answer has room for it (R172). -/
theorem State.AnswersBounded.room (h : s.AnswersBounded) {p : Fin 4} {a : PendingAction} (ha : (s.portal p).action = some a)
    (howed : a.answerOwed = true) : (s.link a.link).responses.length < 8 := by
  have hmem : p ∈ s.owedTo a.link := List.mem_filter.mpr ⟨List.mem_finRange p, by simp [ha, howed]⟩
  have hpos := List.length_pos_of_mem hmem
  have := h a.link
  omega

theorem State.announces_abandonAction {Z : Fin 14 → Prop} {K : NoticeKind → Nat → Prop} (p : Fin 4) :
    s.Announces Z K (s.abandonAction p) where
  tells k := .same (by rw [State.link_abandonAction]) (by rw [State.link_abandonAction])
  kept z _ := by
    rw [State.zone_abandonAction]
    exact .refl _
  raised z hz := absurd (congrArg Zone.shortfall (s.zone_abandonAction p z)) hz

/-! ### A portal's entry into EMERGENCY (R117) -/

/-- The portal's record as it enters EMERGENCY, before its zones are lit. -/
def State.toEmergency (s : State) (p : Fin 4) : State :=
  let t := s.abandonAction p
  ((t.setPortal p { t.portal p with dryRun := none }).dropPreviews p).setPortalState p .emergency

theorem State.enterEmergency_eq (p : Fin 4) :
    s.enterEmergency p = (zonesOf p).foldl State.light ((s.toEmergency p).raisePortalState p) := rfl

theorem State.portal_toEmergency (p : Fin 4) :
    (s.toEmergency p).portal p = { s.portal p with state := .emergency, action := none, dryRun := none } := by
  simp [State.toEmergency, State.portal_setPortalState, State.portal_abandonAction]

theorem State.announces_dropPreviews {Z : Fin 14 → Prop} {K : NoticeKind → Nat → Prop} (p : Fin 4) :
    s.Announces Z K (s.dropPreviews p) :=
  .quiet rfl fun z => by
    rw [State.zone_dropPreviews]
    split
    · exact ⟨rfl, rfl, rfl⟩
    · exact .refl _

theorem State.announces_enterEmergency (p : Fin 4) :
    s.Announces (· ∈ zonesOf p) (fun k m => k = .portalState ∧ m = p.val) (s.enterEmergency p) := by
  have hdrop : ∀ (t : State) x, t.Announces (fun _ => False) (fun _ _ => False)
      (((t.setPortal p x).dropPreviews p).setPortalState p .emergency) := fun t x =>
    State.Announces.after_quiet (t := t.setPortal p x) rfl (fun _ => .refl _)
      (State.Announces.then_quiet (t := (t.setPortal p x).dropPreviews p) (State.announces_dropPreviews p) rfl
        fun _ => .refl _)
  have hto : s.Announces (fun _ => False) (fun _ _ => False) (s.toEmergency p) :=
    ((State.announces_abandonAction (Z := fun _ => False) (K := fun _ _ => False) p).trans (hdrop _ _) fun _ h => h.elim).mono
      (fun _ h => h.elim id id) fun _ _ h => h.elim id id
  have hraise := State.announces_raisePortalState (s.toEmergency p) p (Z := fun _ => False)
  rw [State.enterEmergency_eq]
  exact ((hto.trans hraise fun _ h => h.elim).trans (State.Announces.foldl_zones (K := fun _ _ => False)
    (fun t z => t.announces_light z) (nodup_zonesOf p) _) fun _ h => (h.elim id id).elim).mono
    (fun _ h => h.elim (fun h => h.elim (fun h => h.elim) fun h => h.elim) id)
    fun _ _ h => h.elim (fun h => h.elim (fun h => h.elim) id) fun h => h.elim

theorem State.waiting_enterEmergency (p : Fin 4) :
    (s.enterEmergency p).Waiting (.portalState p .emergency (s.portal p).role none) := by
  have hraise := (s.toEmergency p).waiting_raise (.portalState p .emergency (s.portal p).role none)
  have heq : (s.toEmergency p).raisePortalState p
      = (s.toEmergency p).raise (.portalState p .emergency (s.portal p).role none) := by
    rw [State.raisePortalState, State.portal_toEmergency]
    rfl
  rw [State.enterEmergency_eq, heq]
  exact (State.Announces.foldl_zones (K := fun _ _ => False) (fun t z => t.announces_light z) (nodup_zonesOf p) _).waiting hraise
    (fun h => by cases h) id

theorem State.notices_abandonAction_enterEmergency (p : Fin 4) : (s.abandonAction p).onlyNotices (s.enterEmergency p) := by
  rw [State.enterEmergency_eq]
  exact ((((State.notices_setPortal _ p _).trans (State.notices_dropPreviews _ p)).trans
    (State.notices_setPortalState _ p _)).trans (State.notices_raisePortalState _ p)).trans (.foldl State.notices_light _ _)

/-! ### The portals of a bore reached by an emergency (R117, R136) -/

theorem Portal.reachable_iff {x : Portal} : x.reachable = true ↔ x.state ∈ [PortalState.auto, .held, .dryRun] := by
  unfold Portal.reachable
  cases x.state <;> decide

theorem State.reachPortal_eq (p : Fin 4) :
    s.reachPortal p = if (s.portal p).state ∈ [PortalState.auto, .held, .dryRun] then s.enterEmergency p else s := by
  unfold State.reachPortal
  cases (s.portal p).state <;> rfl

theorem State.announces_reachPortal (p : Fin 4) :
    s.Announces (· ∈ zonesOf p) (fun k m => k = .portalState ∧ m = p.val) (s.reachPortal p) := by
  rw [State.reachPortal_eq]
  exact .ite (State.announces_enterEmergency p) (.refl s)

/-- The answer that an emergency makes owing to a link, for the pending action of a portal it reaches. -/
def State.emergencyReply (s : State) (k : Link) (p : Fin 4) : Option Response :=
  (s.portal p).action.bind fun a =>
    if (s.portal p).state ∈ [PortalState.auto, .held, .dryRun] ∧ a.link = k ∧ a.answerOwed = true then some (a.abandonment p)
    else none

theorem State.replies_reachPortal (h : s.AnswersBounded) (p : Fin 4) :
    s.Replies (fun k => (s.emergencyReply k p).toList) (s.reachPortal p) := fun k => by
  rw [State.reachPortal_eq]
  unfold State.emergencyReply
  split
  next hst =>
    rw [State.notices_abandonAction_enterEmergency p k, State.link_abandonAction]
    cases ha : (s.portal p).action with
    | none => rfl
    | some a =>
      by_cases hk : a.link = k ∧ a.answerOwed = true
      · obtain ⟨rfl, howed⟩ := hk
        simp [hst, howed, h.room ha howed]
      · have hno : ¬ (a.link = k ∧ a.answerOwed = true ∧ (s.link k).responses.length < 8) := fun ⟨h1, h2, _⟩ => hk ⟨h1, h2⟩
        simp [hno, hk]
  next hst =>
    cases ha : (s.portal p).action <;> simp [hst]

theorem State.replies_reachPortals (ps : List (Fin 4)) (hn : ps.Nodup) (h : s.AnswersBounded) :
    s.Replies (fun k => ps.filterMap (s.emergencyReply k)) (ps.foldl State.reachPortal s) := by
  suffices H : ∀ t : State, t.AnswersBounded → (∀ p ∈ ps, t.portal p = s.portal p) →
      t.Replies (fun k => ps.filterMap (s.emergencyReply k)) (ps.foldl State.reachPortal t) from H s h fun _ _ => rfl
  induction ps with
  | nil => exact fun t _ _ => (State.onlyNotices.refl t).replies
  | cons p ps ih =>
    intro t ht hsame
    obtain ⟨hp, hps⟩ := List.nodup_cons.mp hn
    have hrest := ih hps (t.reachPortal p) (AnswersBounded.of_unloads (State.unloads_reachPortal t p) ht) fun q hq => by
      rw [State.portal_reachPortal', if_neg fun h : q = p => hp (h ▸ hq), hsame q (List.mem_cons_of_mem p hq)]
    have hfirst := State.replies_reachPortal ht p
    intro k
    have hreply : t.emergencyReply k p = s.emergencyReply k p := by
      unfold State.emergencyReply
      rw [hsame p List.mem_cons_self]
    have hlist : (p :: ps).filterMap (s.emergencyReply k)
        = (t.emergencyReply k p).toList ++ ps.filterMap (s.emergencyReply k) := by
      rw [hreply, List.filterMap_cons]
      cases s.emergencyReply k p <;> rfl
    dsimp only
    rw [hlist]
    exact hfirst.trans hrest k

/-! ### EMERGENCY_SET (R117, R136) -/

theorem State.announces_emergencyInterior {K : NoticeKind → Nat → Prop} (b : Fin 2) :
    s.Announces (· = interiorOf b) K (s.emergencyInterior b) := by
  unfold State.emergencyInterior
  dsimp only
  split
  next h =>
    obtain ⟨hwas, hnow⟩ := h
    rw [State.bore_workCondition, if_pos rfl] at hnow
    rw [State.workCondition_self (hnow.trans hwas.symm)]
    exact State.announces_light _
  next => exact State.announces_workCondition b

theorem State.notices_emergencyInterior (b : Fin 2) : s.onlyNotices (s.emergencyInterior b) :=
  .ite ((State.notices_workCondition s b).trans (State.notices_light _ _)) (State.notices_workCondition s b)

/-- The bore in emergency and its portals reached, before its interior is worked and its notice is raised. -/
def State.emergencyReached (s : State) (b : Fin 2) : State :=
  (portalsOf b).foldl State.reachPortal (s.setBore b { s.bore b with emergency := true, demand := 60000 })

theorem State.emergencyOne_eq {b : Fin 2} (h : (s.bore b).emergency = false) :
    (State.emergencyOne b s).1 = ((s.emergencyReached b).emergencyInterior b).raiseTrafficState b := by
  simp only [State.emergencyOne, h, Bool.false_eq_true, if_false]
  rfl

theorem State.emergencyOne_same {b : Fin 2} (h : (s.bore b).emergency = true) : (State.emergencyOne b s).1 = s := by
  simp [State.emergencyOne, h]

theorem State.announces_emergencyReached (b : Fin 2) :
    s.Announces (fun z => ∃ q ∈ portalsOf b, z ∈ zonesOf q) (fun k m => k = .portalState ∧ ∃ q ∈ portalsOf b, m = q.val)
      (s.emergencyReached b) :=
  .after_quiet (t := s.setBore b _) rfl (fun _ => .refl _)
    (State.announces_foldl_portals (fun _ q => State.announces_reachPortal q)
      (fun _ _ _ hne hq hr => hne (Owner.portal.inj ((mem_zonesOf_iff_owner.mp hq).symm.trans (mem_zonesOf_iff_owner.mp hr)))) (nodup_portalsOf b) _)

theorem State.announces_emergencyOne {b : Fin 2} (h : (s.bore b).emergency = false) :
    s.Announces (fun z => (∃ q ∈ portalsOf b, z ∈ zonesOf q) ∨ z = interiorOf b)
      (fun k m => (k = .portalState ∧ ∃ q ∈ portalsOf b, m = q.val) ∨ (k = .trafficState ∧ m = b.val))
      (State.emergencyOne b s).1 := by
  have hinterior : (s.emergencyReached b).Announces (· = interiorOf b) (fun _ _ => False) ((s.emergencyReached b).emergencyInterior b) :=
    State.announces_emergencyInterior b
  rw [State.emergencyOne_eq h]
  refine (((State.announces_emergencyReached b).trans hinterior ?_).trans
    (State.announces_raiseTrafficState _ b (Z := fun _ => False)) fun _ _ => id).mono
    (fun _ h => h.elim id fun h => h.elim) fun _ _ h => h.imp (fun h => h.elim id fun h => h.elim) id
  rintro z ⟨q, -, hq⟩ rfl
  exact interiorOf_notMem_zonesOf _ _ hq

theorem State.waiting_emergencyOne {b : Fin 2} (h : (s.bore b).emergency = false) {p : Fin 4} (hp : boreOf p = b)
    (hst : (s.portal p).state ∈ [PortalState.auto, .held, .dryRun]) :
    (State.emergencyOne b s).1.Waiting (.portalState p .emergency (s.portal p).role none) := by
  have hreached : (s.emergencyReached b).Waiting (.portalState p .emergency (s.portal p).role none) :=
    State.waiting_foldl_portals (p := p) (fun _ q => State.announces_reachPortal q)
      (fun _ _ _ hne hq hr => hne (Owner.portal.inj ((mem_zonesOf_iff_owner.mp hq).symm.trans (mem_zonesOf_iff_owner.mp hr))))
      (fun t q hq => by rw [State.portal_reachPortal', if_neg (Ne.symm hq)]) rfl rfl
      (fun t ht => by
        rw [State.portal_setBore] at ht
        have hwait := State.waiting_enterEmergency (s := t) p
        rw [ht] at hwait
        rwa [State.reachPortal_eq, if_pos (by rw [ht]; exact hst)])
      (nodup_portalsOf b) (mem_portalsOf.mpr hp)
  rw [State.emergencyOne_eq h]
  exact (State.announces_raiseTrafficState _ b (Z := fun _ => False)).waiting
    ((State.announces_emergencyInterior (K := fun _ _ => False) b).waiting hreached (fun h => by cases h) id)
    (fun h => by cases h) fun h => by cases h.1

theorem State.waiting_traffic_emergencyOne {b : Fin 2} (h : (s.bore b).emergency = false) :
    (State.emergencyOne b s).1.Waiting
      (.trafficState b (s.bore b).mode (s.bore b).speedClass (s.bore b).congested (s.bore b).stale true) := by
  have hwait := ((s.emergencyReached b).emergencyInterior b).waiting_raise
    (.trafficState b (s.bore b).mode (s.bore b).speedClass (s.bore b).congested (s.bore b).stale true)
  rw [State.emergencyOne_eq h, State.raiseTrafficState, State.bore_emergencyInterior, if_pos rfl, State.emergencyReached,
    State.bore_reachPortals, State.bore_setBore_self]
  exact hwait

theorem State.replies_emergencyOne {b : Fin 2} (h : (s.bore b).emergency = false) (ha : s.AnswersBounded) :
    s.Replies (fun k => (portalsOf b).filterMap (s.emergencyReply k)) (State.emergencyOne b s).1 := by
  have hset : (s.setBore b { s.bore b with emergency := true, demand := 60000 }).AnswersBounded := ha
  rw [State.emergencyOne_eq h]
  exact ((State.replies_reachPortals (portalsOf b) (nodup_portalsOf b) hset).then_notices
    (State.notices_emergencyInterior b)).then_notices (State.notices_raiseTrafficState _ b)

theorem Portal.reached_of_reachable {x : Portal} (h : x.state ∈ [PortalState.auto, .held, .dryRun]) :
    x.reached = { x with state := .emergency, action := none, dryRun := none } := by
  unfold Portal.reached
  cases hs : x.state <;> rw [hs] at h <;> first | rfl | exact absurd h (by decide)

theorem Portal.reached_of_not {x : Portal} (h : x.state ∉ [PortalState.auto, .held, .dryRun]) : x.reached = x := by
  unfold Portal.reached
  cases hs : x.state <;> rw [hs] at h <;> first | rfl | exact absurd h (by decide)

/-- An interior that an emergency leaves undriven was RELEASED, and its condition stays. -/
theorem State.condition_of_undriven {b : Fin 2} (h : (s.bore b).emergency = false) (hc : s.ConditionsFollow)
    (hd : (State.emergencyOne b s).1.conditionFor b ≠ .driven) :
    (State.emergencyOne b s).1.conditionFor b = (s.bore b).condition := by
  refine (State.conditionFor_congr fun p hp => ?_).trans (hc b).symm
  have hno : ((State.emergencyOne b s).1.portal p).state ≠ .emergency := fun he => hd (by
    have hany : (portalsOf b).any (fun q => ((State.emergencyOne b s).1.portal q).state == .auto
        || ((State.emergencyOne b s).1.portal q).state == .emergency) = true :=
      List.any_eq_true.mpr ⟨p, mem_portalsOf.mpr hp, by rw [he]; decide⟩
    rw [State.conditionFor, if_pos hany])
  rw [State.portal_emergencyOne _ b h, if_pos hp] at hno ⊢
  by_cases hst : (s.portal p).state ∈ [PortalState.auto, .held, .dryRun]
  · exact absurd (congrArg Portal.state (Portal.reached_of_reachable hst)) hno
  · rw [Portal.reached_of_not hst]

theorem State.zone_emergencyOne_portal {b : Fin 2} (h : (s.bore b).emergency = false) {p : Fin 4} {z : Fin 14}
    (hz : z ∈ zonesOf p) : (State.emergencyOne b s).1.zone z
      = if boreOf p = b ∧ (s.portal p).state ∈ [PortalState.auto, .held, .dryRun] then
          ({ s.zone z with preview := none } : Zone).litUp s.uptime
        else s.zone z := by
  rw [State.zone_emergencyOne _ b h]
  simp only [mem_zonesOf_iff_owner.mp hz, Portal.reachable_iff]

theorem State.zone_emergencyOne_interior {b : Fin 2} (h : (s.bore b).emergency = false) :
    (State.emergencyOne b s).1.zone (interiorOf b)
      = if (s.bore b).condition = .driven ∧ (State.emergencyOne b s).1.conditionFor b = .driven then
          (s.zone (interiorOf b)).litUp s.uptime
        else s.reconditioned (s.bore b).condition ((State.emergencyOne b s).1.conditionFor b) true (s.zone (interiorOf b)) := by
  rw [State.zone_emergencyOne _ b h]
  simp only [ownerOf_interiorOf, if_true]

theorem Zone.preview_litUp (x : Zone) (now : Uptime) : (x.litUp now).preview = x.preview :=
  (congrArg Zone.preview (x.atCapacity.commanded_lightAll now) : (x.atCapacity.lightAll now).preview = _)

/-- Settles O32. -/
theorem emergencySetLightsTheBore : Obligations.EmergencySetLightsTheBore := by
  intro s l r us hs hus
  refine ⟨_, visited_same (f := fun t b => (State.emergencyOne b t).1) (fun b t => ⟨rfl, fun he => State.emergencyOne_same he,
    fun he hc hl => ?_⟩) us (s.popRequest l), congrArg _ (hs.foldUnits hs.isFor hus rfl rfl (visit := State.emergencyOne) rfl
      fun b t => by unfold State.emergencyOne; split <;> rfl)⟩
  have hfollow := conditionsFollow_kept.emergency t b hc
  have hbore := t.bore_emergencyOne b he
  have hcondition : ((State.emergencyOne b t).1.bore b).condition = (State.emergencyOne b t).1.conditionFor b := hfollow b
  have hlit : ∀ z, (t.zone z).litFrom (({ t.zone z with preview := none } : Zone).litUp t.uptime)
      ∧ (({ t.zone z with preview := none } : Zone).litUp t.uptime).preview = none := fun z =>
    ⟨Zone.litFrom_litUp (x := { t.zone z with preview := none }) (hl z) t.uptime, Zone.preview_litUp _ _⟩
  refine ⟨(t.acts_emergencyOne b).frame, hfollow, legalRules.emergencyOne hl b, (State.announces_emergencyOne he).raised, ?_,
    fun c hcb => ?_, State.waiting_traffic_emergencyOne he, fun ha => State.replies_emergencyOne he ha, fun p hp => ⟨?_, ?_⟩,
    fun p hp hst => ⟨?_, State.waiting_emergencyOne he hp hst, fun z hz => ?_⟩, fun p hp hst => ⟨?_, fun z hz => ?_⟩,
    fun hd => ?_, fun hd => ?_⟩
  · rw [hbore, if_pos rfl]
  · rw [hbore, if_neg hcb]
  · rw [State.portal_emergencyOne _ b he, if_neg hp]
  · intro z hz
    rw [State.zone_emergencyOne_portal he hz, if_neg fun h => hp h.1]
  · rw [State.portal_emergencyOne _ b he, if_pos hp, Portal.reached_of_reachable hst]
  · rw [State.zone_emergencyOne_portal he hz, if_pos ⟨hp, hst⟩]
    exact hlit z
  · rw [State.portal_emergencyOne _ b he, if_pos hp, Portal.reached_of_not hst]
  · rw [State.zone_emergencyOne_portal he hz, if_neg fun h => hst h.2]
  · rw [hcondition] at hd
    rw [State.zone_emergencyOne_interior he, hd]
    split
    next => exact Zone.litFrom_litUp (hl _) _
    next hwas => exact State.litFrom_reconditioned (hl _) fun h => hwas ⟨h, rfl⟩
  · rw [hcondition] at hd
    rw [State.zone_emergencyOne_interior he, if_neg fun h => hd h.2, State.condition_of_undriven he hc hd,
      State.reconditioned_same]

end Sys2Proof.Machine
end

