-- ==== Sys2Proof/Proofs/Obligations/Commission.lean ====
section
/-! SUPPORT. Lines of several zones that begin to serve their circuits, and the statement about COMMISSION (O25). -/

namespace Sys2Proof.Machine

variable {s t : State}

/-! ### The lines of several zones (R149) -/

/-- The output lines of wired zones, after those of the circuits of several of them were written. -/
theorem State.Wired.line_serveZones {W : Fin 14 → Bool} {g : Circuit → Line → Line} (hfn : ∀ c x, (g c x).fn = x.fn)
    (hagain : ∀ c x, g c (g c x) = g c x) (hw : s.Wired W) {zs : List (Fin 14)} (hzs : ∀ z ∈ zs, W z = true) {x : Fin 14 → Zone}
    (hset : ∀ z, (s.zone z).SameSetup (x z)) {z : Fin 14} (hz : z ∈ zs) {k : Fin 8} {c : Circuit}
    (hc : (x z).slots.get k = some c) :
    (serveLines g (zs.flatMap fun z => (x z).circuits) s.lines).get c.output = g c (s.line c.output)
      ∧ (s.line c.output).fn = c.kind.outputFn := by
  obtain ⟨a, ha, hsetup⟩ := (hset z).circuit hc
  have houtput : c.output = a.output := congrArg CircuitSetup.output hsetup
  have hkind : c.kind = a.kind := congrArg CircuitSetup.kind hsetup
  have hfits : (s.line c.output).fn = c.kind.outputFn := by
    rw [houtput, hkind]
    exact hw.fits ⟨hzs z hz, ha⟩
  refine ⟨?_, hfits⟩
  have hserve := get_serveLines hfn hagain (c := c) (cs := zs.flatMap fun z => (x z).circuits)
    (fun b hb hout => by
      obtain ⟨y, hy, hb⟩ := List.mem_flatMap.mp hb
      obtain ⟨j, hj⟩ := Zone.mem_circuits.mp hb
      obtain ⟨a', ha', hsetup'⟩ := (hset y).circuit hj
      have houtput' : b.output = a'.output := congrArg CircuitSetup.output hsetup'
      obtain ⟨rfl, rfl, -⟩ := hw.unique ⟨hzs y hy, ha'⟩ ⟨hzs z hz, ha⟩ (houtput'.symm.trans (hout.trans houtput))
      exact Option.some.inj (hj.symm.trans hc))
    s.lines (by rw [show s.lines.get c.output = s.line c.output from rfl, hfits]; exact c.kind.outputFn_isOutput)
  rwa [if_pos (List.mem_flatMap.mpr ⟨z, hz, Zone.mem_circuits.mpr ⟨k, hc⟩⟩)] at hserve

theorem State.lines_superviseZones {zs : List (Fin 14)} (hn : zs.Nodup) :
    (zs.foldl State.supervise s).lines
      = serveLines Circuit.start (zs.flatMap fun z => (s.startSupervision (s.zone z)).circuits) s.lines := by
  suffices H : ∀ t : State, s.Works t → (∀ z ∈ zs, t.zone z = s.zone z) → (zs.foldl State.supervise t).lines
      = serveLines Circuit.start (zs.flatMap fun z => (s.startSupervision (s.zone z)).circuits) t.lines from
    H s (.refl s) fun _ _ => rfl
  induction zs with
  | nil => exact fun _ _ _ => rfl
  | cons z zs ih =>
    intro t ht hsame
    obtain ⟨hz, hzs⟩ := List.nodup_cons.mp hn
    rw [List.foldl_cons, ih hzs _ (ht.trans (t.works_supervise z)) fun y hy => by
      rw [State.zone_supervise, if_neg fun h : y = z => hz (h ▸ hy), hsame y (List.mem_cons_of_mem z hy)],
      State.lines_supervise, hsame z List.mem_cons_self, State.startSupervision_congr ht, startOutputs_eq, List.flatMap_cons]
    exact List.foldl_append.symm

/-! ### Entry into HELD (R115) -/

/-- The circuits that a COMMISSION has checked are wired, as far as their own lines go (R198, R199). -/
theorem State.wired_checked {p : Fin 4} (h : s.failures p = []) : s.Wired fun z => (s.checkedZones p).contains z := by
  obtain ⟨hfits, hnodup, -⟩ := State.checks_of_failures h
  rw [State.checked_namings, State.nodup_namings_iff s (s.nodup_checkedZones p)] at hnodup
  obtain ⟨hsingle, hapart⟩ := hnodup
  have hmem : ∀ {z k c}, s.Serves (fun z => (s.checkedZones p).contains z) z k c →
      (z, k, c) ∈ s.slotCircuits (s.checkedZones p) := fun ⟨hz, hc⟩ => s.mem_slotCircuits.mpr ⟨List.contains_iff_mem.mp hz, hc⟩
  exact ⟨fun hc => hsingle _ (hmem hc), fun hc hd hne => hapart _ (hmem hc) _ (hmem hd) hne,
    fun ⟨hz, hc⟩ => hfits _ (s.mem_checkedCircuits.mpr ⟨_, List.contains_iff_mem.mp hz, _, hc⟩)⟩

/-- The interior condition once a portal in OFFLINE has entered HELD: one that was RELEASED is HELD (R139). -/
theorem State.conditionFor_enterHeld {p : Fin 4} (hst : (s.portal p).state = .offline) :
    (s.enterHeld p).conditionFor (boreOf p)
      = if s.conditionFor (boreOf p) = .released then .held else s.conditionFor (boreOf p) := by
  have hportal : ∀ q, ((s.enterHeld p).portal q).state = if q = p then .held else (s.portal q).state := fun q => by
    rw [State.portal_enterHeld]
    split <;> rfl
  have hdriving : ((portalsOf (boreOf p)).any fun q => ((s.enterHeld p).portal q).state == .auto
      || ((s.enterHeld p).portal q).state == .emergency)
      = (portalsOf (boreOf p)).any fun q => (s.portal q).state == .auto || (s.portal q).state == .emergency :=
    congrArg (List.any _) (funext fun q => by
      rw [hportal]
      split
      next hq => rw [hq, hst]; rfl
      next => rfl)
  have hheld : ((portalsOf (boreOf p)).any fun q => ((s.enterHeld p).portal q).state == .held
      || ((s.enterHeld p).portal q).state == .dryRun) = true :=
    List.any_eq_true.mpr ⟨p, mem_portalsOf.mpr rfl, by rw [hportal, if_pos rfl]; rfl⟩
  unfold State.conditionFor
  rw [hdriving, hheld]
  cases (portalsOf (boreOf p)).any fun q => (s.portal q).state == .auto || (s.portal q).state == .emergency with
  | true => rfl
  | false => cases (portalsOf (boreOf p)).any fun q => (s.portal q).state == .held || (s.portal q).state == .dryRun <;> rfl

/-- The state once a portal that enters HELD has its zones supervised, before its notice is raised (R115). -/
def State.toHeld (s : State) (p : Fin 4) : State :=
  (zonesOf p).foldl State.supervise
    (s.setPortal p { s.portal p with state := .held, timer := some (msAfter s.uptime 1000) })

theorem State.enterHeld_eq (p : Fin 4) : s.enterHeld p = ((s.toHeld p).raisePortalState p).workCondition (boreOf p) := rfl

theorem State.works_toHeld (p : Fin 4) : s.Works (s.toHeld p) :=
  (s.works_setPortal p (by exact ⟨rfl, rfl, rfl, rfl, rfl⟩)).trans (State.Works.foldl State.works_supervise (zonesOf p) _)

theorem State.bore_toHeld (p : Fin 4) (b : Fin 2) : (s.toHeld p).bore b = s.bore b :=
  foldl_keeps (f := State.supervise) (v := fun t => t.bore b) (fun t z => t.bore_supervise z b) _ _

theorem State.portal_toHeld (p : Fin 4) :
    (s.toHeld p).portal p = { s.portal p with state := .held, timer := some (msAfter s.uptime 1000) } :=
  (foldl_keeps (f := State.supervise) (v := fun t => t.portal p) (fun t z => t.portal_supervise z p) _ _).trans
    (State.portal_setPortal_self _ _ _)

theorem State.interior_toHeld (p : Fin 4) : (s.toHeld p).zone (interiorOf (boreOf p)) = s.zone (interiorOf (boreOf p)) := by
  rw [State.toHeld, State.zone_superviseZones, if_neg (interiorOf_notMem_zonesOf _ p), State.zone_setPortal]

theorem State.lines_toHeld (p : Fin 4) : (s.toHeld p).lines
    = serveLines Circuit.start ((zonesOf p).flatMap fun z => (s.startSupervision (s.zone z)).circuits) s.lines :=
  State.lines_superviseZones (s := s.setPortal p _) (nodup_zonesOf p)

theorem State.waiting_enterHeld (p : Fin 4) :
    (s.enterHeld p).Waiting (.portalState p .held (s.portal p).role ((s.portal p).action.map PendingAction.kind)) := by
  have hwait := (s.toHeld p).waiting_raise
    (.portalState p .held (s.portal p).role ((s.portal p).action.map PendingAction.kind))
  have heq : (s.toHeld p).raisePortalState p
      = (s.toHeld p).raise (.portalState p .held (s.portal p).role ((s.portal p).action.map PendingAction.kind)) := by
    rw [State.raisePortalState, State.portal_toHeld]
  rw [State.enterHeld_eq, heq]
  exact (State.announces_workCondition (K := fun _ _ => False) _).waiting hwait (fun h => by cases h) id

variable {p : Fin 4} (hc : s.ConditionsFollow) (hst : (s.portal p).state = .offline)
include hc hst

theorem State.condition_enterHeld : (s.enterHeld p).conditionFor (boreOf p)
    = if (s.bore (boreOf p)).condition = .released then .held else (s.bore (boreOf p)).condition := by
  rw [State.conditionFor_enterHeld hst, hc]

/-- The zones checked become supervised, no other zone changes (R115, R140). -/
theorem State.zone_enterHeld_checked (z : Fin 14) :
    (s.enterHeld p).zone z = if z ∈ s.checkedZones p then s.startSupervision (s.zone z) else s.zone z := by
  rw [State.zone_enterHeld, State.condition_enterHeld hc hst]
  unfold State.checkedZones
  by_cases hz : z ∈ zonesOf p
  · rw [if_pos hz, if_pos (List.mem_append_left _ hz)]
  · by_cases hi : z = interiorOf (boreOf p)
    · cases hcond : (s.bore (boreOf p)).condition <;> simp [hi, State.reconditioned, interiorOf_notMem_zonesOf]
    · rw [if_neg hz, if_neg hi, if_neg]
      rw [List.mem_append]
      rintro (h | h)
      · exact hz h
      · split at h
        · exact hi (List.mem_singleton.mp h)
        · cases h

/-- The output lines of the circuits checked begin to serve them, no other line changes (R149). -/
theorem State.lines_enterHeld : (s.enterHeld p).lines
    = serveLines Circuit.start ((s.checkedZones p).flatMap fun z => (s.startSupervision (s.zone z)).circuits) s.lines := by
  have hnow := State.condition_enterHeld hc hst
  have hwas : ((s.toHeld p).raisePortalState p).bore (boreOf p) = s.bore (boreOf p) := s.bore_toHeld p _
  have hlines : ((s.toHeld p).raisePortalState p).lines = _ := s.lines_toHeld p
  rw [State.enterHeld_eq, State.conditionFor_workCondition] at hnow
  rw [State.enterHeld_eq]
  by_cases hcond : (s.bore (boreOf p)).condition = .released
  · rw [if_pos hcond] at hnow
    have hwork : (((s.toHeld p).raisePortalState p).workCondition (boreOf p))
        = (((s.toHeld p).raisePortalState p).setCondition (boreOf p) .held).supervise (interiorOf (boreOf p)) := by
      rw [State.workCondition, hnow, hwas, hcond]
    have hstart : (((s.toHeld p).raisePortalState p).setCondition (boreOf p) .held).startSupervision
        = s.startSupervision := State.startSupervision_congr
          (((s.works_toHeld p).trans (State.works_raisePortalState _ p)).trans (State.works_setCondition _ _ _))
    have hzone : (((s.toHeld p).raisePortalState p).setCondition (boreOf p) .held).zone (interiorOf (boreOf p))
        = s.zone (interiorOf (boreOf p)) := s.interior_toHeld p
    rw [hwork, State.lines_supervise, hstart, hzone, State.checkedZones, if_pos hcond, List.flatMap_append, startOutputs_eq]
    exact (congrArg (serveLines _ _) hlines).trans (by
      rw [List.flatMap_singleton]
      exact List.foldl_append.symm)
  · rw [if_neg hcond] at hnow
    rw [State.workCondition_self (hnow.trans (congrArg Bore.condition hwas).symm), hlines, State.checkedZones,
      if_neg hcond, List.append_nil]

omit hc hst

/-! ### COMMISSION (R115, R191) -/

/-- The circuit of a slot as its zone becomes supervised (R88). -/
theorem State.circuit_startSupervision (x : Zone) (k : Fin 8) :
    (s.startSupervision x).slots.get k = (x.slots.get k).map fun c =>
      if c.kind = .dimmed ∧ c.state = .off ∧ s.feedbackPresent c = true then
        { c with timer := some ⟨.loss, msAfter s.uptime x.settle⟩ }
      else c := by
  rw [State.startSupervision, Zone.modWhere, Tab.get_mapWith]
  congr 1
  funext c
  simp only [Circuit.isDimmed, Bool.and_eq_true, beq_iff_eq, and_assoc]
  rfl

/-- The line of a circuit that begins to be served (R149, R151). -/
theorem Circuit.start_of_fits {c : Circuit} {x : Line} (h : x.fn = c.kind.outputFn) :
    c.start x = { x with
      drive := .driven
      output := match c.kind with | .switched => .level c.active | .dimmed => .duty c.level
      period := match c.kind with | .switched => none | .dimmed => some 0 } := by
  cases hk : c.kind with
  | switched =>
    rw [hk] at h
    rw [Circuit.start, h, show c.outputFor CircuitKind.switched.outputFn = .level c.active from rfl]
    rfl
  | dimmed =>
    rw [hk] at h
    rw [Circuit.start, h, show c.outputFor CircuitKind.dimmed.outputFn = .duty c.level from rfl]
    rfl

theorem State.sameSetup_startSupervision (x : Zone) : x.SameSetup (s.startSupervision x) :=
  Zone.sameSetup_modWhere _ _ (Circuit.setup_startLoss _ _)

theorem State.line_enterHeld (hc : s.ConditionsFollow) (hst : (s.portal p).state = .offline) (hf : s.failures p = [])
    {z : Fin 14} (hz : z ∈ s.checkedZones p) {k : Fin 8} {c : Circuit} (hslot : s.circuit z k = some c) :
    (s.enterHeld p).line c.output = c.start (s.line c.output) ∧ (s.line c.output).fn = c.kind.outputFn := by
  have hstart : ∃ d, (s.startSupervision (s.zone z)).slots.get k = some d ∧ d.output = c.output ∧ d.kind = c.kind
      ∧ d.start = c.start := by
    rw [State.circuit_startSupervision, show (s.zone z).slots.get k = some c from hslot, Option.map_some]
    refine ⟨_, rfl, ?_⟩
    split <;> exact ⟨rfl, rfl, rfl⟩
  obtain ⟨d, hd, houtput, hkind, hstart⟩ := hstart
  have hline := (State.wired_checked hf).line_serveZones (g := Circuit.start) (fun _ _ => rfl) (fun _ _ => rfl)
    (fun z hz => List.contains_iff_mem.mpr hz) (fun z => State.sameSetup_startSupervision (s.zone z)) hz hd
  rw [houtput, hkind, hstart] at hline
  refine ⟨?_, hline.2⟩
  rw [State.line, State.lines_enterHeld hc hst]
  exact hline.1

theorem State.line_enterHeld_of_ne (hc : s.ConditionsFollow) (hst : (s.portal p).state = .offline) {i : Fin 192}
    (h : ∀ z ∈ s.checkedZones p, ∀ k c, s.circuit z k = some c → c.output ≠ i) : (s.enterHeld p).line i = s.line i := by
  rw [State.line, State.lines_enterHeld hc hst]
  refine get_serveLines_of_ne (fun d hd => ?_) _
  obtain ⟨z, hz, hd⟩ := List.mem_flatMap.mp hd
  obtain ⟨k, hk⟩ := Zone.mem_circuits.mp hd
  obtain ⟨c, hc, hsetup⟩ := (State.sameSetup_startSupervision (s.zone z)).circuit hk
  have houtput : d.output = c.output := congrArg CircuitSetup.output hsetup
  rw [houtput]
  exact h z hz k c hc

/-- Settles O25. -/
theorem commissionTakesPortalsToHeld : Obligations.CommissionTakesPortalsToHeld := by
  intro s l r us hs hus entersHeld
  have hdata : r.returnsData = false := hs.returnsData
  refine ⟨_, _, visited_visitAll (f := fun p t => ((t.commissionOne p).1, (t.commissionOne p).2)) (fun p t => ?_) us
    (s.popRequest l), congrArg _ ((hs.take hs.isFor).trans ?_)⟩
  · refine ⟨fun hst => ?_, fun hst hf => ?_, fun hst hf => ?_⟩
    · rw [State.commissionOne, if_pos hst]
      exact ⟨rfl, rfl⟩
    · rw [State.commissionOne, if_neg (not_not_intro hst), if_neg hf]
      exact ⟨rfl, rfl⟩
    · have heq : t.commissionOne p = (t.enterHeld p, .done, []) := by
        rw [State.commissionOne, if_neg (not_not_intro hst), if_pos hf]
      rw [heq]
      refine ⟨rfl, (t.acts_enterHeld p).frame, t.notices_enterHeld p, t.waiting_enterHeld p, fun q => t.portal_enterHeld p q,
        fun hc => ⟨?_, fun b => ?_, fun z => ?_, fun z k => ?_, fun z hz k c hslot => ?_, fun i hi => ?_⟩⟩
      · have hfollow := conditionsFollow_kept.commission t p hc
        rwa [heq] at hfollow
      · rw [State.bore_enterHeld]
        split
        next hb => rw [hb]
        next => rfl
      · rw [State.zone_enterHeld_checked hc hst]
        split <;> rfl
      · rw [State.circuit, State.zone_enterHeld_checked hc hst]
        by_cases hz : z ∈ t.checkedZones p
        · rw [if_pos hz]
          exact (State.circuit_startSupervision (t.zone z) k).trans (if_pos hz).symm
        · rw [if_neg hz]
          exact (if_neg hz).symm
      · obtain ⟨hline, hfits⟩ := State.line_enterHeld hc hst hf hz hslot
        exact hline.trans (Circuit.start_of_fits hfits)
      · exact State.line_enterHeld_of_ne hc hst hi
  · simp only [hus, State.respond_some, Reply.made, hdata, Bool.false_or]
    simp only [List.map_map, List.flatMap_map]
    rfl

end Sys2Proof.Machine
end

