-- ==== Sys2Proof/Proofs/Obligations/StopImmediate.lean ====
section
/-! SUPPORT. A portal's entry into OFFLINE, and the statement about STOP IMMEDIATE (O27). -/

namespace Sys2Proof.Machine

variable {s t u : State}

/-! ### Lines that stop serving their circuits (R99, R149) -/

theorem get_serveLines_stop (cs : List Circuit) (t : Tab 192 Line) (i : Fin 192) :
    (serveLines (fun _ => Line.stop) cs t).get i
      = if (∃ c ∈ cs, c.output = i) ∧ (t.get i).fn.isOutput = true then (t.get i).stop else t.get i := by
  induction cs generalizing t with
  | nil => simp [serveLines]
  | cons c cs ih =>
    have hstep : serveLines (fun _ => Line.stop) (c :: cs) t = serveLines (fun _ => Line.stop) cs
        (if (t.get c.output).fn.isOutput then t.put c.output (t.get c.output).stop else t) := rfl
    rw [hstep, ih]
    by_cases hi : c.output = i
    · subst hi
      cases hfn : (t.get c.output).fn.isOutput with
      | false => simp [hfn]
      | true =>
        have hstop : (t.get c.output).stop.fn.isOutput = true := hfn
        have hagain : (t.get c.output).stop.stop = (t.get c.output).stop := rfl
        simp [hstop, hagain]
    · have hget : (if (t.get c.output).fn.isOutput then t.put c.output (t.get c.output).stop else t).get i = t.get i := by
        split
        · exact Tab.get_put_ne t (Ne.symm hi) _
        · rfl
      simp only [hget, List.mem_cons, exists_eq_or_imp, hi, false_or]

/-- The line has an output function and serves a circuit of one of the zones. -/
def State.ServedBy (s : State) (Z : Fin 14 → Prop) (i : Fin 192) : Prop :=
  ∃ z k c, Z z ∧ s.circuit z k = some c ∧ c.output = i ∧ ((s.line i).fn = .switchOut ∨ (s.line i).fn = .dimOut)

/-- The lines that serve the circuits of some zones have stopped serving, every other line is as it was. -/
structure State.Unserves (Z : Fin 14 → Prop) (s t : State) : Prop where
  stopped : ∀ i, s.ServedBy Z i → t.line i = (s.line i).stop
  kept : ∀ i, ¬ s.ServedBy Z i → t.line i = s.line i

namespace State.Unserves

variable {Z W : Fin 14 → Prop}

theorem congr (h : s.Unserves Z t) (hZ : ∀ z, Z z ↔ W z) : s.Unserves W t := by
  rwa [← show Z = W from funext fun z => propext (hZ z)]

theorem quiet (h : t.lines = s.lines) : s.Unserves (fun _ => False) t where
  stopped _ hi := by
    obtain ⟨z, k, c, hz, -⟩ := hi
    exact hz.elim
  kept i _ := by rw [State.line, h]; rfl

theorem servedBy_works (h : s.Works t) {i : Fin 192} : t.ServedBy Z i ↔ s.ServedBy Z i := by
  have hfn : (t.line i).fn = (s.line i).fn := by rw [h.lines i]
  have hcircuit : ∀ {z k c}, t.circuit z k = some c → ∃ d, s.circuit z k = some d ∧ d.output = c.output := fun {z k c} hc => by
    obtain ⟨d, hd, hsetup⟩ := (h.zones z).circuit hc
    exact ⟨d, hd, (congrArg CircuitSetup.output hsetup).symm⟩
  have hback : ∀ {z k c}, s.circuit z k = some c → ∃ d, t.circuit z k = some d ∧ d.output = c.output := fun {z k c} hc => by
    obtain ⟨d, hd, hsetup⟩ := (h.zones z).symm.circuit hc
    exact ⟨d, hd, (congrArg CircuitSetup.output hsetup).symm⟩
  constructor
  · rintro ⟨z, k, c, hz, hc, hi, hf⟩
    obtain ⟨d, hd, hout⟩ := hcircuit hc
    exact ⟨z, k, d, hz, hd, hout.trans hi, hfn ▸ hf⟩
  · rintro ⟨z, k, c, hz, hc, hi, hf⟩
    obtain ⟨d, hd, hout⟩ := hback hc
    exact ⟨z, k, d, hz, hd, hout.trans hi, hfn ▸ hf⟩

theorem trans (h : s.Unserves Z t) (hw : s.Works t) (k : t.Unserves W u) : s.Unserves (fun z => Z z ∨ W z) u where
  stopped i := by
    rintro ⟨z, j, c, hz, hc, hi, hf⟩
    have hstop : ∀ x y : Line, (y = x.stop ∨ y = x) → y.stop = x.stop := by
      rintro x y (rfl | rfl) <;> rfl
    have ht : t.line i = (s.line i).stop ∨ t.line i = s.line i := by
      by_cases hs : s.ServedBy Z i
      · exact .inl (h.stopped i hs)
      · exact .inr (h.kept i hs)
    by_cases hW : s.ServedBy W i
    · rw [k.stopped i ((servedBy_works hw).mpr hW)]
      exact hstop _ _ ht
    · rw [k.kept i fun hs => hW ((servedBy_works hw).mp hs)]
      obtain hz | hz := hz
      · exact h.stopped i ⟨z, j, c, hz, hc, hi, hf⟩
      · exact absurd ⟨z, j, c, hz, hc, hi, hf⟩ hW
  kept i hi := by
    have hZ : ¬ s.ServedBy Z i := fun ⟨z, j, c, hz, hrest⟩ => hi ⟨z, j, c, .inl hz, hrest⟩
    have hW : ¬ s.ServedBy W i := fun ⟨z, j, c, hz, hrest⟩ => hi ⟨z, j, c, .inr hz, hrest⟩
    rw [k.kept i fun hs => hW ((servedBy_works hw).mp hs), h.kept i hZ]

theorem after_quiet (hl : t.lines = s.lines) (hw : s.Works t) (k : t.Unserves W u) : s.Unserves W u :=
  ((quiet hl).trans hw k).congr fun _ => ⟨fun h => h.resolve_left id, .inr⟩

theorem then_quiet (h : s.Unserves Z t) (hl : u.lines = t.lines) : s.Unserves Z u where
  stopped i hi := by rw [State.line, hl]; exact h.stopped i hi
  kept i hi := by rw [State.line, hl]; exact h.kept i hi

end State.Unserves

theorem LineFn.isOutput_iff {f : LineFn} : f.isOutput = true ↔ f = .switchOut ∨ f = .dimOut := by
  cases f <;> decide

theorem State.unserves_clearZone (z : Fin 14) : s.Unserves (· = z) (s.clearZone z) := by
  have hline : ∀ i, (s.clearZone z).line i = if (∃ c ∈ (s.zone z).cleared.circuits, c.output = i)
      ∧ (s.line i).fn.isOutput = true then (s.line i).stop else s.line i := fun i => by
    rw [State.line, State.lines_clearZone, stopOutputs_eq, get_serveLines_stop]
    rfl
  have hserved : ∀ i, s.ServedBy (· = z) i
      ↔ (∃ c ∈ (s.zone z).cleared.circuits, c.output = i) ∧ (s.line i).fn.isOutput = true := fun i => by
    rw [LineFn.isOutput_iff]
    constructor
    · rintro ⟨y, k, c, rfl, hc, hi, hf⟩
      obtain ⟨d, hd, hsetup⟩ := (Zone.sameSetup_cleared (s.zone y)).symm.circuit hc
      exact ⟨⟨d, Zone.mem_circuits.mpr ⟨k, hd⟩, (congrArg CircuitSetup.output hsetup).symm.trans hi⟩, hf⟩
    · rintro ⟨⟨d, hd, hi⟩, hf⟩
      obtain ⟨k, hk⟩ := Zone.mem_circuits.mp hd
      obtain ⟨c, hc, hsetup⟩ := (Zone.sameSetup_cleared (s.zone z)).circuit hk
      exact ⟨z, k, c, rfl, hc, (congrArg CircuitSetup.output hsetup).symm.trans hi, hf⟩
  exact ⟨fun i hi => by rw [hline, if_pos ((hserved i).mp hi)], fun i hi => by rw [hline, if_neg fun h => hi ((hserved i).mpr h)]⟩

theorem State.unserves_clearZones (zs : List (Fin 14)) (s : State) : s.Unserves (· ∈ zs) (zs.foldl State.clearZone s) := by
  induction zs generalizing s with
  | nil => exact (State.Unserves.quiet rfl).congr fun _ => by simp
  | cons z zs ih =>
    exact ((State.unserves_clearZone z).trans (s.works_clearZone z) (ih _)).congr fun y => List.mem_cons.symm

/-- The work on an interior condition that takes no zone into service: one that falls to RELEASED is cleared (R142). -/
theorem State.unserves_workCondition {b : Fin 2} (hreleased : (s.bore b).condition = .released → s.conditionFor b = .released)
    (hdriven : (s.bore b).condition = .held → s.conditionFor b ≠ .driven) :
    s.Unserves (fun z => z = interiorOf b ∧ (s.bore b).condition ≠ .released ∧ s.conditionFor b = .released)
      (s.workCondition b) := by
  have hclear : ∀ c, s.Unserves (· = interiorOf b) ((s.setCondition b c).clearZone (interiorOf b)) := fun c =>
    .after_quiet (t := s.setCondition b c) rfl (s.works_setCondition b c) (State.unserves_clearZone _)
  unfold State.workCondition
  cases hwas : (s.bore b).condition <;> cases hnow : s.conditionFor b
  case held.released | driven.released => exact (hclear _).congr fun _ => by simp
  case released.held | released.driven => exact absurd (hnow.symm.trans (hreleased hwas)) (by decide)
  case held.driven => exact absurd hnow (hdriven hwas)
  case driven.held => exact (State.Unserves.quiet (s := s) (t := s.setCondition b .held) rfl).congr fun _ => by simp
  all_goals exact (State.Unserves.quiet (t := s) rfl).congr fun _ => by simp

/-! ### Entry into OFFLINE (R114) -/

/-- The state once a portal that enters OFFLINE has its records cleared and its source dropped. -/
def State.cleared (s : State) (p : Fin 4) : State :=
  (s.setPortal p (s.portal p).toOffline).dropSource p

/-- The state once a portal that enters OFFLINE has its zones cleared, before its notice is raised. -/
def State.toOffline (s : State) (p : Fin 4) : State :=
  (zonesOf p).foldl State.clearZone (s.cleared p)

theorem State.enterOffline_eq (p : Fin 4) :
    s.enterOffline p = ((s.toOffline p).raisePortalState p).workCondition (boreOf p) := rfl

theorem State.works_cleared (p : Fin 4) : s.Works (s.cleared p) :=
  (s.works_setPortal p (by exact ⟨rfl, rfl, rfl, rfl, rfl⟩)).trans (State.works_dropSource _ p)

theorem State.works_toOffline (p : Fin 4) : s.Works (s.toOffline p) :=
  (s.works_cleared p).trans (State.Works.foldl State.works_clearZone _ _)

theorem State.bore_toOffline (p : Fin 4) (b : Fin 2) : (s.toOffline p).bore b = s.bore b :=
  (foldl_keeps (f := State.clearZone) (v := fun t => t.bore b) (fun t z => t.bore_clearZone z b) _ _).trans (by
    rw [State.cleared, State.bore_dropSource, State.bore_setPortal])

theorem State.portal_toOffline (p q : Fin 4) : (s.toOffline p).portal q = (s.cleared p).portal q :=
  foldl_keeps (f := State.clearZone) (v := fun t => t.portal q) (fun t z => t.portal_clearZone z q) _ _

theorem State.announces_cleared (p : Fin 4) : s.Announces (fun _ => False) (fun k _ => k = .source) (s.cleared p) :=
  .after_quiet (t := s.setPortal p (s.portal p).toOffline) rfl (fun _ => .refl _) (State.announces_dropSource p)

theorem State.announces_clearZones (p : Fin 4) {K : NoticeKind → Nat → Prop} :
    s.Announces (· ∈ zonesOf p) K ((zonesOf p).foldl State.clearZone s) :=
  .foldl_zones (fun t z => t.announces_clearZone z) (nodup_zonesOf p) s

/-- The notices raised between the drop of the source and the end of an entry into OFFLINE. -/
theorem State.announces_cleared_enterOffline (p : Fin 4) :
    (s.cleared p).Announces (fun z => z ∈ zonesOf p ∨ z = interiorOf (boreOf p)) (fun k m => k = .portalState ∧ m = p.val)
      (s.enterOffline p) := by
  have hzones : (s.cleared p).Announces (· ∈ zonesOf p) (fun _ _ => False) (s.toOffline p) := State.announces_clearZones p
  have hraise := State.announces_raisePortalState (s.toOffline p) p (Z := fun _ => False)
  have hwork : ((s.toOffline p).raisePortalState p).Announces (· = interiorOf (boreOf p)) (fun _ _ => False)
      (((s.toOffline p).raisePortalState p).workCondition (boreOf p)) := State.announces_workCondition _
  rw [State.enterOffline_eq]
  exact ((hzones.trans hraise fun _ _ => id).trans hwork fun z hz hi =>
    interiorOf_notMem_zonesOf (boreOf p) p (hi ▸ hz.resolve_right id)).mono
    (fun _ h => h.imp_left fun h => h.resolve_right id) fun _ _ h => (h.resolve_right id).resolve_left id

theorem State.announces_enterOffline (p : Fin 4) :
    s.Announces (fun z => z ∈ zonesOf p ∨ z = interiorOf (boreOf p)) (fun k m => k = .source ∨ (k = .portalState ∧ m = p.val))
      (s.enterOffline p) :=
  ((State.announces_cleared p).trans (State.announces_cleared_enterOffline p) fun _ h => h.elim).mono
    (fun _ h => h.resolve_left id) fun _ _ => id

theorem State.waiting_source_enterOffline {p : Fin 4} (h : (s.portal p).source.isSome = true) :
    (s.enterOffline p).Waiting (.source p none none) := by
  have hdrop : (s.cleared p).Waiting (.source p none none) := State.waiting_dropSource (by
    rw [State.portal_setPortal_self]
    exact h)
  exact (State.announces_cleared_enterOffline p).waiting hdrop (fun h => by cases h) fun h => by cases h.1

theorem State.portal_cleared (p : Fin 4) :
    (s.cleared p).portal p = { (s.portal p).toOffline with source := none, access := none } := by
  rw [State.cleared, State.portal_dropSource, if_pos rfl, State.portal_setPortal_self]

theorem State.waiting_enterOffline (p : Fin 4) :
    (s.enterOffline p).Waiting (.portalState p .offline none ((s.portal p).action.map PendingAction.kind)) := by
  have hwait := (s.toOffline p).waiting_raise (.portalState p .offline none ((s.portal p).action.map PendingAction.kind))
  have heq : (s.toOffline p).raisePortalState p
      = (s.toOffline p).raise (.portalState p .offline none ((s.portal p).action.map PendingAction.kind)) := by
    rw [State.raisePortalState, State.portal_toOffline, State.portal_cleared]
    rfl
  rw [State.enterOffline_eq, heq]
  exact (State.announces_workCondition (K := fun _ _ => False) _).waiting hwait (fun h => by cases h) id

theorem State.pullsOff_enterOffline (p : Fin 4) : s.PullsOff (s.enterOffline p) p ((s.portal p).source = some .own) := by
  have hdrop := State.pullsOff_dropSource (s := s.setPortal p (s.portal p).toOffline) p
  rw [State.portal_setPortal_self] at hdrop
  refine (hdrop.after (s := s) (fun q hq => State.portal_setPortal_ne _ hq _) fun q hq =>
    State.lateCascade_congr (State.portal_setPortal_ne _ hq _) rfl rfl rfl).then (fun q _ => ?_)
    (State.announces_cleared_enterOffline p) fun m h => by cases h.1
  rw [State.enterOffline_eq, State.portal_workCondition, State.portal_raisePortalState, State.portal_toOffline]
  rfl

theorem Zone.releasedFrom_stopped (x : Zone) : x.releasedFrom x.stopped := by
  refine ⟨rfl, fun k => ?_⟩
  have hslot : x.stopped.slots.get k = (x.slots.get k).map Circuit.stopped := by
    rw [Zone.stopped, Zone.cleared]
    exact Tab.get_mapWith _ _ _
  rw [hslot]
  congr 1
  funext c
  unfold Circuit.stopped Circuit.outOfService Circuit.available
  cases c.state <;> rfl

/-- A portal that goes OFFLINE drives no interior (R139). -/
theorem State.driven_of_enterOffline {p : Fin 4} {b : Fin 2} (h : (s.enterOffline p).conditionFor b = .driven) :
    s.conditionFor b = .driven := by
  have hdriving : ∀ {t : State}, t.conditionFor b = .driven ↔
      ((portalsOf b).any fun q => (t.portal q).state == .auto || (t.portal q).state == .emergency) = true := by
    intro t
    unfold State.conditionFor
    split
    next h => simp only [h]
    next h =>
      refine ⟨fun hd => ?_, fun hd => absurd hd h⟩
      split at hd <;> cases hd
  rw [hdriving] at h ⊢
  obtain ⟨q, hq, hst⟩ := List.any_eq_true.mp h
  refine List.any_eq_true.mpr ⟨q, hq, ?_⟩
  by_cases hqp : q = p
  · rw [hqp, State.portal_enterOffline, if_pos rfl] at hst
    exact absurd hst (by decide : ¬ (PortalState.offline == .auto || PortalState.offline == .emergency) = true)
  · rwa [s.state_enterOffline_ne hqp] at hst

section
variable {p : Fin 4} (hc : s.ConditionsFollow) (hst : (s.portal p).state ≠ .offline)
include hc hst

/-- A portal in service holds its interior out of RELEASED; its entry into OFFLINE drives none (R139). -/
theorem State.conditions_enterOffline : (s.bore (boreOf p)).condition ≠ .released
    ∧ ((s.bore (boreOf p)).condition = .held → (s.enterOffline p).conditionFor (boreOf p) ≠ .driven) := by
  refine ⟨fun h => hst ((s.conditionFor_eq_released_iff (boreOf p)).mp ((hc _).symm.trans h) p rfl), fun h hd => ?_⟩
  have := (hc (boreOf p)).symm.trans h
  rw [State.driven_of_enterOffline hd] at this
  cases this

theorem State.interior_enterOffline (b : Fin 2) :
    ((s.bore b).condition ≠ .released → ((s.enterOffline p).bore b).condition = .released →
        (s.zone (interiorOf b)).releasedFrom ((s.enterOffline p).zone (interiorOf b)))
    ∧ ((s.bore b).condition = .released ∨ ((s.enterOffline p).bore b).condition ≠ .released →
        (s.enterOffline p).zone (interiorOf b) = s.zone (interiorOf b)) := by
  obtain ⟨hin, hdriven⟩ := State.conditions_enterOffline hc hst
  rw [State.bore_enterOffline, State.zone_enterOffline, if_neg (interiorOf_notMem_zonesOf b p)]
  by_cases hb : b = boreOf p
  · subst hb
    rw [if_pos rfl, if_pos rfl]
    dsimp only
    refine ⟨fun hwas hnow => ?_, fun h => ?_⟩
    · rw [hnow]
      have hstopped : s.reconditioned (s.bore (boreOf p)).condition .released (s.bore (boreOf p)).emergency
          (s.zone (interiorOf (boreOf p))) = (s.zone (interiorOf (boreOf p))).stopped := by
        cases hcond : (s.bore (boreOf p)).condition
        case released => exact absurd hcond hwas
        all_goals rfl
      rw [hstopped]
      exact Zone.releasedFrom_stopped _
    · have hnow := h.resolve_left hin
      cases hcond : (s.bore (boreOf p)).condition <;> cases hnext : (s.enterOffline p).conditionFor (boreOf p)
      case held.driven => exact absurd hnext (hdriven hcond)
      case held.released | driven.released => exact absurd hnext hnow
      case released.released | released.held | released.driven => exact absurd hcond hin
      all_goals rfl
  · rw [if_neg hb, if_neg fun h => hb (Fin.ext (by
      have := congrArg Fin.val h
      simpa [interiorOf] using this))]
    exact ⟨fun h1 h2 => absurd h2 h1, fun _ => rfl⟩

theorem State.unserves_enterOffline : s.Unserves (fun z => z ∈ zonesOf p
      ∨ ∃ b, z = interiorOf b ∧ (s.bore b).condition ≠ .released ∧ ((s.enterOffline p).bore b).condition = .released)
    (s.enterOffline p) := by
  obtain ⟨hin, hdriven⟩ := State.conditions_enterOffline hc hst
  have hwas : ((s.toOffline p).raisePortalState p).bore (boreOf p) = s.bore (boreOf p) := by
    rw [State.bore_raisePortalState, State.bore_toOffline]
  have hnow : ((s.toOffline p).raisePortalState p).conditionFor (boreOf p) = (s.enterOffline p).conditionFor (boreOf p) := by
    rw [State.enterOffline_eq, State.conditionFor_workCondition]
  have hwork := State.unserves_workCondition (s := (s.toOffline p).raisePortalState p) (b := boreOf p)
    (fun h => absurd ((congrArg Bore.condition hwas).symm.trans h) hin)
    (fun h => by
      rw [hnow]
      exact hdriven ((congrArg Bore.condition hwas).symm.trans h))
  rw [hwas, hnow] at hwork
  have hlines : (s.cleared p).lines = s.lines := State.lines_dropSource _ p
  have hclear : s.Unserves (· ∈ zonesOf p) (s.toOffline p) :=
    .after_quiet hlines (s.works_cleared p) (State.unserves_clearZones (zonesOf p) (s.cleared p))
  have hzones : s.Unserves (· ∈ zonesOf p) ((s.toOffline p).raisePortalState p) := hclear.then_quiet rfl
  have hall := hzones.trans ((s.works_toOffline p).trans (State.works_raisePortalState _ p)) hwork
  rw [← State.enterOffline_eq] at hall
  have hinterior : ∀ z, (z = interiorOf (boreOf p) ∧ (s.bore (boreOf p)).condition ≠ .released
        ∧ (s.enterOffline p).conditionFor (boreOf p) = .released)
      ↔ ∃ b, z = interiorOf b ∧ (s.bore b).condition ≠ .released ∧ ((s.enterOffline p).bore b).condition = .released := by
    intro z
    constructor
    · rintro ⟨hz, h1, h2⟩
      exact ⟨boreOf p, hz, h1, (hc.enterOffline p (boreOf p)).trans h2⟩
    · rintro ⟨b, hz, h1, h2⟩
      by_cases hb : b = boreOf p
      · rw [hb] at hz h1 h2
        exact ⟨hz, h1, (hc.enterOffline p (boreOf p)).symm.trans h2⟩
      · rw [State.bore_enterOffline, if_neg hb] at h2
        exact absurd h2 h1
  exact hall.congr fun z => or_congr_right (hinterior z)

end

/-! ### STOP IMMEDIATE (R113) -/

theorem State.stopOne_eq {p : Fin 4} (h1 : (s.portal p).state ≠ .offline) (h2 : (s.portal p).state ≠ .emergency) :
    State.stopOne p s = ((s.abandonAction p).enterOffline p, .done) := by
  unfold State.stopOne
  cases hst : (s.portal p).state <;> first | rfl | exact absurd hst h1 | exact absurd hst h2

theorem State.portal_abandonAction_self (p : Fin 4) :
    (s.abandonAction p).portal p = { s.portal p with action := none } := by
  rw [State.portal_abandonAction, if_pos rfl]

theorem State.portal_stopped (p : Fin 4) : ((s.abandonAction p).enterOffline p).portal p = { s.portal p with
    state := .offline, timer := none, source := none, access := none, planInUse := none, role := none, night := false,
    lowCount := 0, override := none, action := none, dryRun := none } := by
  rw [State.portal_enterOffline, if_pos rfl, State.portal_abandonAction_self]
  rfl

theorem State.lines_abandonAction (p : Fin 4) : (s.abandonAction p).lines = s.lines :=
  Tab.ext_get fun i => s.line_abandonAction p i

/-- Settles O27. -/
theorem stopImmediateTakesPortalsOffline : Obligations.StopImmediateTakesPortalsOffline := by
  intro s l r us hs hbody hus entersOffline
  have hmine : r.isStopImmediate = true := by
    rw [Request.isStopImmediate, hs.isFor, hbody]
    rfl
  refine ⟨_, _, visited_visitAll (f := State.stopOne) (fun p t => ⟨fun hst => ?_, fun hst => ?_, fun h1 h2 => ?_⟩) us
    (s.popRequest l), congrArg _ (hs.visits hmine hus rfl (visit := State.stopOne) rfl)⟩
  · unfold State.stopOne
    rw [hst]
    exact ⟨rfl, rfl⟩
  · unfold State.stopOne
    rw [hst]
    exact ⟨rfl, rfl⟩
  · rw [State.stopOne_eq h1 h2]
    have hportal := State.portal_abandonAction_self (s := t) p
    have hst : ((t.abandonAction p).portal p).state ≠ .offline := by
      rw [hportal]
      exact h1
    have hnotice := State.waiting_enterOffline (s := t.abandonAction p) p
    have hsource := State.waiting_source_enterOffline (s := t.abandonAction p) (p := p)
    have hpulls := State.pullsOff_enterOffline (s := t.abandonAction p) p
    rw [hportal] at hnotice hsource hpulls
    have hframe := ((t.acts_abandonAction p).trans (State.acts_enterOffline _ p)).frame
    have hlate : ∀ q, q ≠ p → (t.abandonAction p).lateCascade q = t.lateCascade q := fun q hq =>
      State.lateCascade_congr (by rw [State.portal_abandonAction, if_neg hq]) (t.bore_abandonAction p _)
        (t.acts_abandonAction p).clock (t.acts_abandonAction p).schedule
    have hpulls' : t.PullsOff ((t.abandonAction p).enterOffline p) p ((t.portal p).source = some .own) :=
      hpulls.after (fun q hq => by rw [State.portal_abandonAction, if_neg hq]) hlate
    have hraised := ((State.announces_abandonAction (s := t) (Z := fun _ => False) (K := fun _ _ => False) p).trans
      (State.announces_enterOffline p) fun _ h => h.elim).raised
    refine ⟨rfl, ?_⟩
    dsimp only
    refine ⟨hframe, hnotice, fun k => ?_, State.portal_stopped p, hsource, hpulls', hraised, fun z hz => ?_, fun q hq z hz => ?_,
      fun hc => ?_⟩
    · exact (State.notices_enterOffline _ p k).trans (by rw [State.link_abandonAction]; rfl)
    · rw [State.zone_enterOffline, if_pos hz, State.zone_abandonAction]
      exact Zone.releasedFrom_stopped _
    · have hother : z ∉ zonesOf p := fun h =>
        hq (Owner.portal.inj ((mem_zonesOf_iff_owner.mp hz).symm.trans (mem_zonesOf_iff_owner.mp h)))
      rw [State.zone_enterOffline, if_neg hother, if_neg fun h => interiorOf_notMem_zonesOf _ q (h ▸ hz),
        State.zone_abandonAction]
    · have hfollow : (t.abandonAction p).ConditionsFollow := State.ConditionsFollow.abandonAction hc p
      have hinterior := State.interior_enterOffline hfollow hst
      have hlines := State.unserves_enterOffline hfollow hst
      simp only [State.bore_abandonAction, State.zone_abandonAction] at hinterior hlines
      refine ⟨hfollow.enterOffline p, fun b => ?_, hinterior, fun i => ?_⟩
      · rw [State.bore_enterOffline, State.bore_abandonAction]
        split <;> rfl
      · have hserved := State.Unserves.after_quiet (t.lines_abandonAction p) (t.works_abandonAction p) hlines
        exact ⟨hserved.stopped i, hserved.kept i⟩

end Sys2Proof.Machine
end

