-- ==== Sys2Proof/Proofs/Obligations/BoreEvaluation.lean ====
section
/-! SUPPORT. The interior offers of a bore, and the statement about its evaluation (O37). -/

namespace Sys2Proof.Machine

variable {s t u : State}

/-! ### The announcements of a bore's evaluation (R78, R143, R144) -/

theorem State.announces_interiorNightEntry {K : NoticeKind → Nat → Prop} {b : Fin 2} {was : Bool}
    (h : (s.interiorNightEntry b was).Announces (· = interiorOf b) K u) : s.Announces (· = interiorOf b) K u := by
  refine h.after_touch ?_ ?_ fun y hy => ?_
  · unfold State.interiorNightEntry
    split <;> rfl
  · rw [State.zone_interiorNightEntry]
    split <;> rfl
  · rw [State.zone_interiorNightEntry, if_neg fun h => hy h.1]
    exact .refl _

theorem State.announces_actInterior {K : NoticeKind → Nat → Prop} (b : Fin 2) (c : InteriorCase) (was : Bool) :
    s.Announces (· = interiorOf b) K (s.actInterior b c was) := by
  unfold State.actInterior
  cases (s.bore b).condition with
  | released => exact .refl s
  | held =>
    exact State.announces_setZone (x := { s.zone (interiorOf b) with demand := (s.bore b).demand }) rfl
      (State.announces_testShortfall _)
  | driven =>
    refine State.announces_interiorNightEntry (was := was) ?_
    dsimp only
    generalize s.interiorNightEntry b was = t
    split
    · exact State.announces_setZone (x := { t.zone (interiorOf b) with demand := (t.bore b).demand }) rfl
        (State.announces_light _)
    · unfold State.driveInterior
      cases c.rates <;> exact State.announces_driveZone _ _ _ _ _

/-! ### An evaluation of a bore, whatever its case (R143) -/

/-- The ramp step and allocation of a driven interior zone that a case of R40 brings, its demand stored (R53, R57). -/
def InteriorCase.drive (now : Uptime) : InteriorCase → Zone → Zone
  | .emergency, w => w.atCapacity.lightAll now
  | .closedAuto o, w | .entryAuto o, w =>
    ({ w with ramped := rampStep w.ramped w.demand o.plan.riseStep o.plan.fallStep } : Zone).allocate now
  | .closedIdle, w | .noEntry, w => w.allocate now

/-- What the evaluation of bore `b` leaves, where its record takes I, Ib, supplier and interior night flag from `y` and a
driven interior zone takes the step `drive`. -/
def State.BoreEnds (s : State) (b : Fin 2) (now : Uptime) (y : Bore) (drive : Zone → Zone) (u : State) : Prop :=
  let x := s.bore b
  let z := s.zone (interiorOf b)
  u = { s with uptime := now, lines := u.lines, bores := u.bores, zones := u.zones, links := u.links }
  ∧ s.onlyNotices u
  ∧ (∀ c, u.bore c = if c = b then { y with timer := x.timer + 1000 } else s.bore c)
  ∧ (∀ k, k ≠ interiorOf b → u.zone k = s.zone k)
  ∧ s.ShortfallsRaised u
  ∧ (x.condition = .released → u.zone (interiorOf b) = z)
  ∧ (x.condition = .held → u.zone (interiorOf b) =
      { z with demand := y.demand, shortfall := decide (z.capacity < z.ramped) })
  ∧ (x.condition = .driven →
      let w := drive { z with
        rotation := if y.interiorNight && !x.interiorNight then z.rotation + 1 else z.rotation
        demand := y.demand }
      u.zone (interiorOf b) = { w with shortfall := decide (w.capacity < w.ramped) })

/-- The state in which a bore's evaluation runs: its timer's expiry reached, the next one set. -/
def State.atBoreEvaluation (s : State) (b : Fin 2) : State :=
  (s.reach (s.bore b).timer).setBore b { s.bore b with timer := msAfter (s.bore b).timer 1000 }

theorem exec_boreEvaluation (hs : s.Settled) (b : Fin 2) :
    exec (.boreEvaluation b) s = .next ((s.atBoreEvaluation b).evaluateBore b).arbitrate :=
  congrArg Host.Outcome.next (State.event_settled hs _)

theorem State.bore_atBoreEvaluation (b c : Fin 2) : (s.atBoreEvaluation b).bore c
    = if c = b then { s.bore b with timer := (s.bore b).timer + 1000 } else s.bore c :=
  (State.bore_setBore _ _ _ _).trans rfl

theorem State.offers_congr {b : Fin 2} (hp : ∀ p, t.portal p = s.portal p) (hb : (t.bore b).congested = (s.bore b).congested) :
    t.offers b = s.offers b := by
  have hslot : ∀ p ∈ portalsOf b, t.selectSlot p = s.selectSlot p := fun p hp' => by
    rw [State.selectSlot, State.selectSlot, hp, mem_portalsOf.mp hp', hb]
  refine List.filterMap_congr fun p hp' => ?_
  rw [State.selectedPlan, State.selectedPlan, hslot p hp', hp]

theorem State.interiorCase_atBoreEvaluation (b : Fin 2) : (s.atBoreEvaluation b).interiorCase b = s.interiorCase b := by
  have hbore : (s.atBoreEvaluation b).bore b = { s.bore b with timer := (s.bore b).timer + 1000 } := by
    rw [State.bore_atBoreEvaluation, if_pos rfl]
  have hoffers : (s.atBoreEvaluation b).offers b = s.offers b := State.offers_congr (fun _ => rfl) (by rw [hbore])
  unfold State.interiorCase
  rw [hoffers, hbore]

theorem Bore.withInterior_timer (x : Bore) (e : Uptime) (c : InteriorCase) :
    ({ x with timer := e } : Bore).withInterior c = { x.withInterior c with timer := e } := by
  cases c <;> rfl

theorem Bore.withInterior_condition (x : Bore) (c : InteriorCase) : (x.withInterior c).condition = x.condition := by
  cases c <;> rfl

/-- A driven interior zone after its steps, by the case of R40. -/
theorem State.actedInterior_driven {b : Fin 2} (h : (s.bore b).condition = .driven) (c : InteriorCase) (was : Bool) (z : Zone) :
    s.actedInterior b c was z = (c.drive s.uptime { z with
      rotation := if (s.bore b).interiorNight && !was then z.rotation + 1 else z.rotation
      demand := (s.bore b).demand }).tested := by
  unfold State.actedInterior
  rw [h]
  cases (s.bore b).interiorNight && !was <;> cases c <;> rfl

theorem State.frame_evaluateBore (s : State) (b : Fin 2) : s.evaluateBore b = { s with
    lines := (s.evaluateBore b).lines, bores := (s.evaluateBore b).bores, zones := (s.evaluateBore b).zones
    links := (s.evaluateBore b).links } := by
  have hframe := (s.acts_evaluateBore b).frame
  have hportals : (s.evaluateBore b).portals = s.portals := Tab.ext_get fun p => State.portal_evaluateBore _ b p
  rwa [hportals] at hframe

theorem boreEnds_evaluateBore (b : Fin 2) :
    s.BoreEnds b (if reached s.uptime (s.bore b).timer then s.uptime else (s.bore b).timer)
      ((s.bore b).withInterior (s.interiorCase b)) ((s.interiorCase b).drive (if reached s.uptime (s.bore b).timer then s.uptime
        else (s.bore b).timer)) ((s.atBoreEvaluation b).evaluateBore b) := by
  have hcase := s.interiorCase_atBoreEvaluation b
  have hself : (s.atBoreEvaluation b).bore b = { s.bore b with timer := (s.bore b).timer + 1000 } := by
    rw [State.bore_atBoreEvaluation, if_pos rfl]
  have hbore : ∀ c, ((s.atBoreEvaluation b).evaluateBore b).bore c = if c = b then
      { (s.bore b).withInterior (s.interiorCase b) with timer := (s.bore b).timer + 1000 } else s.bore c := fun c => by
    rw [State.bore_evaluateBore, hcase, hself, Bore.withInterior_timer, State.bore_atBoreEvaluation]
    split
    next hc => rfl
    next hc => rfl
  have hzone : ∀ y, ((s.atBoreEvaluation b).evaluateBore b).zone y = if y = interiorOf b then
      ((s.atBoreEvaluation b).setBore b { (s.bore b).withInterior (s.interiorCase b) with
        timer := (s.bore b).timer + 1000 }).actedInterior b (s.interiorCase b) (s.bore b).interiorNight (s.zone y)
      else s.zone y := fun y => by
    rw [State.evaluateBore]
    dsimp only
    rw [State.zone_actInterior, hcase, hself, Bore.withInterior_timer]
    rfl
  have hnew : ((s.atBoreEvaluation b).setBore b { (s.bore b).withInterior (s.interiorCase b) with
      timer := (s.bore b).timer + 1000 }).bore b = { (s.bore b).withInterior (s.interiorCase b) with
      timer := (s.bore b).timer + 1000 } := State.bore_setBore_self _ _ _
  have hcondition : (((s.atBoreEvaluation b).setBore b { (s.bore b).withInterior (s.interiorCase b) with
      timer := (s.bore b).timer + 1000 }).bore b).condition = (s.bore b).condition := by
    rw [hnew]
    exact Bore.withInterior_condition (s.bore b) (s.interiorCase b)
  refine ⟨?_, ?_, hbore, fun k hk => by rw [hzone, if_neg hk], ?_, fun hc => ?_, fun hc => ?_, fun hc => ?_⟩
  · have hframe := (s.atBoreEvaluation b).frame_evaluateBore b
    generalize (s.atBoreEvaluation b).evaluateBore b = u at hframe ⊢
    exact hframe
  · exact State.onlyNotices.trans (.of_links rfl) (State.notices_evaluateBore _ b)
  · exact (State.Announces.after_quiet (t := (s.atBoreEvaluation b).setBore b _) rfl (fun _ => .refl _)
      (State.announces_actInterior (K := fun _ _ => False) b _ _)).raised
  · rw [hzone, if_pos rfl, State.actedInterior, hcondition, hc]
  · rw [hzone, if_pos rfl, State.actedInterior, hcondition, hc, hnew]
    rfl
  · rw [hzone, if_pos rfl, State.actedInterior_driven (hcondition.trans hc), hnew]
    rfl

/-! ### The offers of a bore (R40, R41) -/

/-- A portal in AUTO gives its selected plan to the interior. -/
def State.Gives (s : State) (b : Fin 2) (p : Fin 4) (plan : Plan) : Prop :=
  p ∈ portalsOf b ∧ (s.portal p).state = .auto ∧ s.selectedPlan p = some plan

/-- What a portal offers its interior, if it is in AUTO. -/
def State.offer (s : State) (p : Fin 4) : Option InteriorOffer :=
  if (s.portal p).state == .auto then
    (s.selectedPlan p).map fun plan => ⟨p, s.selectSlot p, plan, (s.portal p).night⟩
  else none

theorem State.offers_eq (b : Fin 2) : s.offers b = (portalsOf b).filterMap s.offer := rfl

theorem State.offer_eq_some {b : Fin 2} {p : Fin 4} (hp : p ∈ portalsOf b) {o : InteriorOffer} :
    s.offer p = some o ↔ ∃ plan, s.Gives b p plan ∧ o = ⟨p, s.selectSlot p, plan, (s.portal p).night⟩ := by
  unfold State.offer State.Gives
  by_cases hst : (s.portal p).state = .auto
  · simp [hst, hp, eq_comm]
  · simp [hst]

/-- The level that a portal's plan would give the interior (R41). -/
def State.interiorLevelOf (s : State) (p : Fin 4) (plan : Plan) : Nat :=
  if (s.portal p).night then plan.interiorNight else plan.interiorDay

section
variable {b : Fin 2}

/-- The two portals of a bore. -/
theorem portalsOf_cases {p : Fin 4} (h : p ∈ portalsOf b) :
    ∃ q, q ≠ p ∧ ((q < p ∧ portalsOf b = [q, p]) ∨ (p < q ∧ portalsOf b = [p, q])) := by
  unfold portalsOf at h ⊢
  simp only [List.mem_cons, List.not_mem_nil, or_false] at h
  obtain rfl | rfl := h
  · exact ⟨⟨2 * b.val + 1, by omega⟩, by simp [Fin.ext_iff], .inr ⟨by simp [Fin.lt_def], rfl⟩⟩
  · exact ⟨⟨2 * b.val, by omega⟩, by simp [Fin.ext_iff], .inl ⟨by simp [Fin.lt_def], rfl⟩⟩

/-- The first offer is that of the lowest portal that gives a plan. -/
theorem State.head_offers {p : Fin 4} {plan : Plan} (h : s.Gives b p plan) (hmin : ∀ q other, s.Gives b q other → p ≤ q) :
    (s.offers b).head? = some ⟨p, s.selectSlot p, plan, (s.portal p).night⟩ := by
  have hoffer : s.offer p = some ⟨p, s.selectSlot p, plan, (s.portal p).night⟩ := (State.offer_eq_some h.1).mpr ⟨plan, h, rfl⟩
  obtain ⟨q, hne, ⟨hlt, hps⟩ | ⟨hlt, hps⟩⟩ := portalsOf_cases h.1
  · have hq : s.offer q = none := by
      cases hq : s.offer q with
      | none => rfl
      | some o =>
        obtain ⟨other, hgives, -⟩ := (State.offer_eq_some (b := b) (by rw [hps]; exact List.mem_cons_self)).mp hq
        exact absurd hlt (not_lt.mpr (hmin q other hgives))
    rw [State.offers_eq, hps]
    simp [hq, hoffer]
  · rw [State.offers_eq, hps]
    simp [hoffer]

theorem State.offers_eq_nil (h : ∀ p plan, ¬ s.Gives b p plan) : s.offers b = [] :=
  List.filterMap_eq_nil_iff.mpr fun p hp => by
    cases ho : s.offer p with
    | none => exact ho
    | some o =>
      obtain ⟨plan, hgives, -⟩ := (State.offer_eq_some hp).mp ho
      exact absurd hgives (h p plan)

/-- A portal that gives a plan as the entry of its bore. -/
def State.GivesEntry (s : State) (b : Fin 2) (p : Fin 4) (plan : Plan) : Prop :=
  s.Gives b p plan ∧ roleOf (s.bore b).mode p = .entry

/-- What the entry portals of the bore offer. -/
def State.entryOffer (s : State) (b : Fin 2) (p : Fin 4) : Option InteriorOffer :=
  (s.offer p).filter fun o => roleOf (s.bore b).mode o.portal == .entry

theorem State.entryOffers_eq (b : Fin 2) :
    (s.offers b).filter (fun x => roleOf (s.bore b).mode x.portal == .entry) = (portalsOf b).filterMap (s.entryOffer b) := by
  rw [State.offers_eq, List.filter_filterMap]
  rfl

theorem State.entryOffer_eq_some {p : Fin 4} (hp : p ∈ portalsOf b) {o : InteriorOffer} :
    s.entryOffer b p = some o ↔ ∃ plan, s.GivesEntry b p plan ∧ o = ⟨p, s.selectSlot p, plan, (s.portal p).night⟩ := by
  unfold State.entryOffer State.GivesEntry
  rw [Option.filter_eq_some_iff, State.offer_eq_some hp]
  constructor
  · rintro ⟨⟨plan, hgives, rfl⟩, hrole⟩
    exact ⟨plan, ⟨hgives, eq_of_beq hrole⟩, rfl⟩
  · rintro ⟨plan, ⟨hgives, hrole⟩, rfl⟩
    exact ⟨⟨plan, hgives, rfl⟩, beq_iff_eq.mpr hrole⟩

/-- The best offer is the largest one, the lower portal's on a tie (R41). -/
theorem State.bestOffer_entry {p : Fin 4} {plan : Plan} (h : s.GivesEntry b p plan)
    (hbest : ∀ q other, s.GivesEntry b q other → s.interiorLevelOf q other ≤ s.interiorLevelOf p plan
      ∧ (q < p → s.interiorLevelOf q other < s.interiorLevelOf p plan)) :
    bestOffer ((s.offers b).filter fun x => roleOf (s.bore b).mode x.portal == .entry)
      = some ⟨p, s.selectSlot p, plan, (s.portal p).night⟩ := by
  have hoffer : s.entryOffer b p = some ⟨p, s.selectSlot p, plan, (s.portal p).night⟩ :=
    (State.entryOffer_eq_some h.1.1).mpr ⟨plan, h, rfl⟩
  rw [State.entryOffers_eq]
  obtain ⟨q, hne, hps⟩ := portalsOf_cases h.1.1
  have hmem : q ∈ portalsOf b := by
    obtain ⟨-, hps⟩ | ⟨-, hps⟩ := hps <;> rw [hps] <;> simp
  cases hq : s.entryOffer b q with
  | none => obtain ⟨-, hps⟩ | ⟨-, hps⟩ := hps <;> rw [hps] <;> simp [hq, hoffer, bestOffer]
  | some o =>
    obtain ⟨other, hgives, rfl⟩ := (State.entryOffer_eq_some hmem).mp hq
    obtain ⟨hle, hlt⟩ := hbest q other hgives
    obtain ⟨hqp, hps⟩ | ⟨-, hps⟩ := hps
    · have hlevel : betterOffer ⟨q, s.selectSlot q, other, (s.portal q).night⟩ ⟨p, s.selectSlot p, plan, (s.portal p).night⟩
          = ⟨p, s.selectSlot p, plan, (s.portal p).night⟩ := if_pos (hlt hqp)
      rw [hps]
      simp [hq, hoffer, bestOffer, hlevel]
    · have hlevel : betterOffer ⟨p, s.selectSlot p, plan, (s.portal p).night⟩ ⟨q, s.selectSlot q, other, (s.portal q).night⟩
          = ⟨p, s.selectSlot p, plan, (s.portal p).night⟩ := if_neg (not_lt.mpr hle)
      rw [hps]
      simp [hq, hoffer, bestOffer, hlevel]

theorem State.entryOffers_eq_nil (h : ∀ p plan, ¬ s.GivesEntry b p plan) :
    (s.offers b).filter (fun x => roleOf (s.bore b).mode x.portal == .entry) = [] := by
  rw [State.entryOffers_eq]
  refine List.filterMap_eq_nil_iff.mpr fun p hp => ?_
  cases ho : s.entryOffer b p with
  | none => rfl
  | some o =>
    obtain ⟨plan, hgives, -⟩ := (State.entryOffer_eq_some hp).mp ho
    exact absurd hgives (h p plan)

end

/-- Settles O37, by the case of R40 that applies. -/
theorem aBoreEvaluationWorksTheInterior : Obligations.ABoreEvaluationWorksTheInterior := by
  intro s b hs x now z ends ramps gives entry level
  have hends : ∀ c, s.interiorCase b = c → ends ((s.bore b).withInterior c) (c.drive now) := by
    rintro _ rfl
    exact ⟨_, exec_boreEvaluation hs b, boreEnds_evaluateBore b⟩
  clear_value ends
  refine ⟨fun he => hends .emergency ?_, fun he hm p plan hp hmin => hends (.closedAuto ⟨p, s.selectSlot p, plan, (s.portal p).night⟩) ?_,
    fun he hm hno => hends .closedIdle ?_, fun he hm p plan hp hbest => hends (.entryAuto ⟨p, s.selectSlot p, plan, (s.portal p).night⟩) ?_,
    fun he hm hno => hends .noEntry ?_⟩
  · exact (s.interiorCase_emergency_iff b).mpr he
  · rw [State.interiorCase, he, hm, State.head_offers hp hmin]
    rfl
  · rw [State.interiorCase, he, hm, State.offers_eq_nil hno]
    rfl
  · rw [State.interiorCase, he, if_neg (by decide), if_neg (by simpa using hm), State.bestOffer_entry hp hbest]
  · rw [State.interiorCase, he, if_neg (by decide), if_neg (by simpa using hm), State.entryOffers_eq_nil hno]
    rfl

end Sys2Proof.Machine
end

