-- ==== Sys2Proof/Proofs/PortalSteps.lean ====
section
/-! SUPPORT. Steps 2 to 6 of a portal's evaluation (R107): what they read, and what they leave. -/

namespace Sys2Proof.Machine

variable {s t u : State}

/-! ### What an evaluation reads -/

/-- The second state gives a portal's evaluation the same readings, plans and traffic as the first. -/
structure State.SameInputs (s t : State) : Prop where
  meter : ∀ q, (t.portal q).meter = (s.portal q).meter
  partner : ∀ q, (t.portal q).partner = (s.portal q).partner
  factor : ∀ q, (t.portal q).factor = (s.portal q).factor
  source : ∀ q, (t.portal q).source = (s.portal q).source
  planA : ∀ q, (t.portal q).planA = (s.portal q).planA
  planB : ∀ q, (t.portal q).planB = (s.portal q).planB
  mode : ∀ b, (t.bore b).mode = (s.bore b).mode
  speedClass : ∀ b, (t.bore b).speedClass = (s.bore b).speedClass
  congested : ∀ b, (t.bore b).congested = (s.bore b).congested
  demand : ∀ b, (t.bore b).demand = (s.bore b).demand
  clock : t.clock = s.clock
  schedule : t.schedule = s.schedule
  meters : t.meters = s.meters

namespace State.SameInputs

variable (h : s.SameInputs t)
include h

theorem selectSlot (p : Fin 4) : t.selectSlot p = s.selectSlot p := by
  rw [State.selectSlot, State.selectSlot, h.congested, h.planB]

theorem selectedPlan (p : Fin 4) : t.selectedPlan p = s.selectedPlan p := by
  rw [State.selectedPlan, State.selectedPlan, h.selectSlot, Portal.plan.eq_def, Portal.plan.eq_def, h.planA, h.planB]

theorem previewPlan (p : Fin 4) (x : DryRunInput) : t.previewPlan p x = s.previewPlan p x := by
  unfold State.previewPlan
  rw [h.selectedPlan, h.planA, h.planB]

theorem roleNow (p : Fin 4) : t.roleNow p = s.roleNow p := by
  rw [State.roleNow, State.roleNow, h.mode]

theorem lateCascade (p : Fin 4) : t.lateCascade p = s.lateCascade p := by
  have hscheduled : t.scheduled = s.scheduled := by
    unfold State.scheduled
    rw [h.clock, h.schedule]
  unfold State.lateCascade
  rw [hscheduled, h.selectedPlan]

theorem validReading (m : Option (Fin 4)) : t.validReading m = s.validReading m := by
  have hmeter : ∀ k, t.meter k = s.meter k := fun k => by
    rw [State.meter, h.meters]
    rfl
  unfold State.validReading
  cases m with
  | none => rfl
  | some k => simp only [hmeter]

theorem cascade (p : Fin 4) : t.cascade p = s.cascade p := by
  have hpartner : t.partnerReading p = s.partnerReading p := by
    unfold State.partnerReading
    rw [h.partner]
    cases (s.portal p).partner with
    | none => rfl
    | some q => simp only [h.source, h.validReading, h.meter, h.factor]
  unfold State.cascade
  rw [h.meter, h.validReading, hpartner, h.lateCascade]

theorem trans {u : State} (k : t.SameInputs u) : s.SameInputs u where
  meter q := (k.meter q).trans (h.meter q)
  partner q := (k.partner q).trans (h.partner q)
  factor q := (k.factor q).trans (h.factor q)
  source q := (k.source q).trans (h.source q)
  planA q := (k.planA q).trans (h.planA q)
  planB q := (k.planB q).trans (h.planB q)
  mode b := (k.mode b).trans (h.mode b)
  speedClass b := (k.speedClass b).trans (h.speedClass b)
  congested b := (k.congested b).trans (h.congested b)
  demand b := (k.demand b).trans (h.demand b)
  clock := k.clock.trans h.clock
  schedule := k.schedule.trans h.schedule
  meters := k.meters.trans h.meters

end State.SameInputs

/-- Work that moves no source and no traffic input. -/
theorem State.SameInputs.of_works (h : s.Works t) (hsource : ∀ q, (t.portal q).source = (s.portal q).source)
    (hbore : ∀ b, (t.bore b).speedClass = (s.bore b).speedClass ∧ (t.bore b).congested = (s.bore b).congested
      ∧ (t.bore b).demand = (s.bore b).demand) : s.SameInputs t where
  meter q := (h.portals q).meter
  partner q := (h.portals q).partner
  factor q := (h.portals q).factor
  source := hsource
  planA q := (h.portals q).planA
  planB q := (h.portals q).planB
  mode b := (h.bores b).mode
  speedClass b := (hbore b).1
  congested b := (hbore b).2.1
  demand b := (hbore b).2.2
  clock := h.acts.clock
  schedule := h.acts.schedule
  meters := h.acts.meters

/-- A zone as an evaluation leaves it depends on the inputs, on the zone, and on the portal's own night flag, override and
dry-run inputs. -/
theorem State.SameInputs.evaluatedZone (h : s.SameInputs t) {p : Fin 4} {j : Fin 3}
    (hzone : t.zone (zoneOf p j) = s.zone (zoneOf p j)) (hnight : (t.portal p).night = (s.portal p).night)
    (hlow : (t.portal p).lowCount = (s.portal p).lowCount) (hover : (t.portal p).override = (s.portal p).override)
    (hdry : (t.portal p).dryRun = (s.portal p).dryRun) (plan : Plan) (acting : PortalState) (now : Uptime) :
    t.evaluatedZone p plan acting now j = s.evaluatedZone p plan acting now j := by
  have hafter : ∀ src acc, (t.portal p).nightAfter plan src acc = (s.portal p).nightAfter plan src acc := fun src acc => by
    unfold Portal.nightAfter
    rw [hnight, hlow]
  have hdemands : ∀ acc, t.demandsAt p plan acc = s.demandsAt p plan acc := fun acc => by
    unfold State.demandsAt
    simp only [h.mode, h.speedClass, h.demand, hover]
  have hpreview : ∀ x q, t.previewDemandsAt p x q = s.previewDemandsAt p x q := fun x q => by
    unfold State.previewDemandsAt
    simp only [h.mode, h.speedClass, h.demand]
  unfold State.evaluatedZone
  simp only [h.cascade, hafter, hdemands, hpreview, hzone, hnight, hover, hdry, h.previewPlan]

/-! ### The source that a cascade finds -/

/-- A cascade never finds its own portal as the partner that lends (R18). -/
theorem State.cascade_not_self (p : Fin 4) : ¬ ((s.cascade p).1 = .partner ∧ (s.portal p).partner = some p) := by
  rintro ⟨hsource, hpartner⟩
  have hlate : ∀ q, (s.lateCascade q).1 ≠ .partner := fun q => by
    unfold State.lateCascade
    split <;> exact fun h => by cases h
  unfold State.cascade at hsource
  cases hown : s.validReading (s.portal p).meter with
  | some f =>
    rw [hown] at hsource
    cases hsource
  | none =>
    have hnone : s.partnerReading p = none := by
      rw [State.partnerReading, hpartner]
      simp [hown]
    rw [hown, hnone] at hsource
    exact hlate p hsource

/-! ### Steps 2 to 5 (R33, R17, R38, R39, R43) -/

/-- A portal's record after steps 2 to 4: the plan in use, the source and A, the night test on what they store. -/
theorem Portal.nightTested_withSource (x : Portal) (plan : Plan) (slot : PlanSlot) (src : Source) (acc : Option Nat) :
    (({ x with planInUse := some slot } : Portal).withSource src acc).nightTested plan
      = { x with
          planInUse := some slot, source := some src, access := acc
          night := (x.nightAfter plan src acc).1, lowCount := (x.nightAfter plan src acc).2 } := by
  by_cases hsrc : src = .blind
  · subst hsrc
    rfl
  · have hsome : some src ≠ some .blind := fun h => hsrc (Option.some.inj h)
    rw [Portal.withSource, if_neg hsrc, Portal.nightTested, if_neg hsome]
    unfold Portal.nightAfter
    cases acc with
    | none => cases src <;> first | rfl | exact absurd rfl hsrc
    | some a =>
      dsimp only
      unfold Portal.nightTest
      by_cases hlow : a < plan.nightThreshold
      · cases src <;> first | exact absurd rfl hsrc | simp [hlow]
      · by_cases hday : a < plan.dayThreshold
        · cases src <;> first | exact absurd rfl hsrc | simp [hlow, hday]
        · cases src <;> first | exact absurd rfl hsrc | simp [hlow, hday]

/-- The state after steps 2 and 3. -/
def State.sourced (s : State) (p : Fin 4) : State :=
  (s.selectPlan p).runCascade p

/-- The state after steps 2 to 5. -/
def State.judged (s : State) (p : Fin 4) (plan : Plan) : State :=
  ((s.sourced p).testNight p plan).storeRole p

theorem State.evaluateSteps_eq {p : Fin 4} {plan : Plan} (h : s.selectedPlan p = some plan) :
    s.evaluateSteps p = (s.judged p plan).act p plan := by
  unfold State.evaluateSteps
  rw [h]
  rfl

theorem State.sameInputs_selectPlan (p : Fin 4) : s.SameInputs (s.selectPlan p) :=
  .of_works (s.works_setPortal p (by exact ⟨rfl, rfl, rfl, rfl, rfl⟩)) (fun q => by
    rw [State.portal_selectPlan]
    split
    next hq => rw [hq]
    next => rfl) fun _ => ⟨rfl, rfl, rfl⟩

theorem State.sourced_eq (p : Fin 4) : s.sourced p = (s.selectPlan p).setSource p (s.cascade p).1 (s.cascade p).2 := by
  have hcascade := (s.sameInputs_selectPlan p).cascade p
  rw [State.sourced, State.runCascade, hcascade]

theorem State.portal_selectPlan_self (p : Fin 4) :
    (s.selectPlan p).portal p = { s.portal p with planInUse := some (s.selectSlot p) } := by
  rw [State.portal_selectPlan, if_pos rfl]

theorem State.portal_sourced (p : Fin 4) :
    (s.sourced p).portal p
      = ({ s.portal p with planInUse := some (s.selectSlot p) } : Portal).withSource (s.cascade p).1 (s.cascade p).2 := by
  have hself : ¬ ((s.cascade p).1 = .partner ∧ ((s.selectPlan p).portal p).partner = some p) := by
    rw [State.portal_selectPlan_self]
    exact s.cascade_not_self p
  rw [State.sourced_eq, State.portal_setSource_self _ hself, State.portal_selectPlan_self]

theorem State.portal_judged (p : Fin 4) (plan : Plan) :
    (s.judged p plan).portal p = { s.portal p with
      planInUse := some (s.selectSlot p), source := some (s.cascade p).1, access := (s.cascade p).2
      night := ((s.portal p).nightAfter plan (s.cascade p).1 (s.cascade p).2).1
      lowCount := ((s.portal p).nightAfter plan (s.cascade p).1 (s.cascade p).2).2
      role := some (roleOf (s.bore (boreOf p)).mode p) } := by
  have hrole : ((s.sourced p).testNight p plan).roleNow p = roleOf (s.bore (boreOf p)).mode p := by
    rw [State.roleNow, State.bore_testNight, State.sourced, State.runCascade, State.bore_setSource, State.bore_selectPlan]
  rw [State.judged, State.portal_storeRole, if_pos rfl, hrole, State.portal_testNight, if_pos rfl, State.portal_sourced,
    Portal.nightTested_withSource]

theorem State.portal_judged_ne {p q : Fin 4} (h : q ≠ p) (plan : Plan) : (s.judged p plan).portal q = (s.sourced p).portal q := by
  rw [State.judged, State.portal_storeRole, if_neg h, State.portal_testNight, if_neg h]

theorem State.bore_judged (p : Fin 4) (plan : Plan) (b : Fin 2) : (s.judged p plan).bore b = s.bore b := by
  rw [State.judged, State.bore_storeRole, State.bore_testNight, State.sourced, State.runCascade, State.bore_setSource,
    State.bore_selectPlan]

theorem State.zone_sourced (p : Fin 4) (y : Fin 14) : (s.sourced p).zone y = s.zone y := by
  rw [State.sourced, State.runCascade, State.zone_setSource]
  rfl

/-- Step 4 turns the rotation start of the portal's zones at night entry (R39). -/
theorem State.zone_judged {p : Fin 4} (plan : Plan) (y : Fin 14) :
    (s.judged p plan).zone y
      = if y ∈ zonesOf p ∧ ((s.portal p).nightAfter plan (s.cascade p).1 (s.cascade p).2).1 = true
            ∧ (s.portal p).night = false then
          { s.zone y with rotation := (s.zone y).rotation + 1 }
        else s.zone y := by
  have hzone : (s.judged p plan).zone y = ((s.sourced p).testNight p plan).zone y := rfl
  have hnight : (((s.sourced p).portal p).nightTested plan).night
      = ((s.portal p).nightAfter plan (s.cascade p).1 (s.cascade p).2).1 := by
    rw [State.portal_sourced, Portal.nightTested_withSource]
  have hwas : ((s.portal p).nightAfter plan (s.cascade p).1 (s.cascade p).2).1 = true →
      ((s.sourced p).portal p).night = (s.portal p).night := fun h => by
    have hsrc : (s.cascade p).1 ≠ .blind := fun hb => by
      rw [hb] at h
      cases h
    rw [State.portal_sourced, Portal.withSource, if_neg hsrc]
  rw [hzone, State.zone_testNight, hnight, State.zone_sourced]
  by_cases h : ((s.portal p).nightAfter plan (s.cascade p).1 (s.cascade p).2).1 = true
  · rw [hwas h]
  · rw [if_neg fun hn => h hn.2.1, if_neg fun hn => h hn.2.1]

end Sys2Proof.Machine
end

