-- ==== Sys2Proof/Proofs/PortalSteps2.lean ====
section
/-! SUPPORT. Step 6 of a portal's evaluation (R107), and what an evaluation's steps leave and announce. -/

namespace Sys2Proof.Machine

variable {s t u : State} {p : Fin 4} {plan : Plan}

/-! ### The notices of the steps (R20, R78) -/

/-- Step 4 changes no level of a zone and raises nothing. -/
theorem State.announces_sourced_judged {Z : Fin 14 → Prop} {K : NoticeKind → Nat → Prop} :
    (s.sourced p).Announces Z K (s.judged p plan) := by
  have hturn : ∀ t : State, ((zonesOf p).foldl State.advanceRotation t).links = t.links := fun t =>
    foldl_keeps (f := State.advanceRotation) (v := State.links) (fun _ _ => rfl) _ t
  refine .quiet ?_ fun z => ?_
  · have hlinks : (s.judged p plan).links = ((s.sourced p).testNight p plan).links := rfl
    rw [hlinks]
    unfold State.testNight
    dsimp only
    split
    · rfl
    · split
      · rfl
      · split
        · exact hturn _
        · rfl
  · rw [State.zone_judged, State.zone_sourced]
    split
    · exact ⟨rfl, rfl, rfl⟩
    · exact .refl _

theorem State.announces_previewZone {Z : Fin 14 → Prop} {K : NoticeKind → Nat → Prop} (z : Fin 14) (d : Nat) :
    s.Announces Z K (s.previewZone z d) :=
  .quiet rfl fun y => by
    rw [State.zone_previewZone]
    split
    next hy => rw [hy]; exact ⟨rfl, rfl, rfl⟩
    next => exact .refl _

theorem State.announces_actHeld {K : NoticeKind → Nat → Prop} : s.Announces (· ∈ zonesOf p) K (s.actHeld p) :=
  .foldl_zones (fun t z => t.announces_testShortfall z) (nodup_zonesOf p) s

theorem State.announces_actDryRun {K : NoticeKind → Nat → Prop} : s.Announces (· ∈ zonesOf p) K (s.actDryRun p) := by
  unfold State.actDryRun
  split
  · exact State.announces_actHeld
  · split
    · exact State.announces_actHeld
    · have hpreviews : ∀ (t : State) a b c, t.Announces (fun _ => False) (fun _ _ => False)
          (((t.previewZone (zoneOf p 0) a).previewZone (zoneOf p 1) b).previewZone (zoneOf p 2) c) := fun t a b c =>
        (((State.announces_previewZone _ a).trans (State.announces_previewZone _ b) fun _ _ => id).trans
          (State.announces_previewZone _ c) fun _ _ => id).mono (fun _ h => h.elim (fun h => h.elim id id) id)
          fun _ _ h => h.elim (fun h => h.elim id id) id
      exact ((hpreviews s _ _ _).trans State.announces_actHeld fun _ h => h.elim).mono (fun _ h => h.resolve_left id)
        fun _ _ h => h.resolve_left id

theorem State.announces_actAuto {K : NoticeKind → Nat → Prop} : s.Announces (· ∈ zonesOf p) K (s.actAuto p plan) := by
  have hdrives : ∀ (t : State) (f : Bool) (r l a b c : Nat), t.Announces (· ∈ zonesOf p) K
      (((t.driveZone (zoneOf p 0) f r l a).driveZone (zoneOf p 1) f r l b).driveZone (zoneOf p 2) f r l c) :=
    fun t f r l a b c => by
      refine (((State.announces_driveZone (K := K) (zoneOf p 0) f r l a).trans
        (State.announces_driveZone (K := K) (zoneOf p 1) f r l b) ?_).trans
        (State.announces_driveZone (K := K) (zoneOf p 2) f r l c) ?_).mono ?_ fun _ _ h => h.elim (fun h => h.elim id id) id
      · rintro _ rfl h
        exact absurd (zoneOf_inj.mp h).2 (by decide)
      · rintro _ (rfl | rfl) h
        · exact absurd (zoneOf_inj.mp h).2 (by decide)
        · exact absurd (zoneOf_inj.mp h).2 (by decide)
      · rintro _ ((rfl | rfl) | rfl)
        · exact mem_zonesOf.mpr ⟨0, rfl⟩
        · exact mem_zonesOf.mpr ⟨1, rfl⟩
        · exact mem_zonesOf.mpr ⟨2, rfl⟩
  exact hdrives s _ _ _ _ _ _

theorem State.announces_act {K : NoticeKind → Nat → Prop} : s.Announces (· ∈ zonesOf p) K (s.act p plan) := by
  unfold State.act
  split
  · exact .refl s
  · exact State.announces_actHeld
  · exact State.announces_actDryRun
  · exact State.announces_actAuto
  · exact .foldl_zones (fun t z => t.announces_emergencyZone z) (nodup_zonesOf p) s

theorem State.announces_sourced : s.Announces (fun _ => False) (fun k _ => k = .source) (s.sourced p) := by
  rw [State.sourced_eq]
  exact .after_quiet (t := s.selectPlan p) rfl (fun _ => .refl _) (State.announces_setSource p _ _)

theorem State.announces_judged : s.Announces (fun _ => False) (fun k _ => k = .source) (s.judged p plan) :=
  (State.announces_sourced.trans (State.announces_sourced_judged (Z := fun _ => False) (K := fun _ _ => False))
    fun _ _ => id).mono (fun _ h => h.elim id id) fun _ _ h => h.resolve_right id

section
variable (h : s.selectedPlan p = some plan)
include h

theorem State.announces_evaluateSteps :
    s.Announces (· ∈ zonesOf p) (fun k _ => k = .source) (s.evaluateSteps p) := by
  rw [State.evaluateSteps_eq h]
  exact (State.announces_judged.trans (State.announces_act (K := fun _ _ => False)) fun _ h => h.elim).mono
    (fun _ h => h.resolve_left id) fun _ _ h => h.resolve_right id

/-- A change of the portal's source has its notice waiting after the evaluation (R20). -/
theorem State.waiting_evaluateSteps (hsource : (s.portal p).source ≠ some (s.cascade p).1) :
    (s.evaluateSteps p).Waiting (.source p (some (s.cascade p).1) (s.cascade p).2) := by
  have hset : (s.sourced p).Waiting (.source p (some (s.cascade p).1) (s.cascade p).2) := by
    rw [State.sourced_eq]
    refine State.waiting_setSource ?_ ?_ <;> rw [State.portal_selectPlan_self]
    · exact hsource
    · exact s.cascade_not_self p
  rw [State.evaluateSteps_eq h]
  exact (State.announces_act (K := fun _ _ => False)).waiting
    ((State.announces_sourced_judged (Z := fun _ => False) (K := fun _ _ => False) (plan := plan)).waiting hset
      (fun h => by cases h) id) (fun h => by cases h) id

/-- The portals that follow one that leaves OWN are pulled off (R21). -/
theorem State.pullsOff_evaluateSteps :
    s.PullsOff (s.evaluateSteps p) p ((s.portal p).source = some .own ∧ (s.cascade p).1 ≠ .own) := by
  have hset := State.pullsOff_setSource (s := s.selectPlan p) p (s.cascade p).1 (s.cascade p).2
  rw [← State.sourced_eq, State.portal_selectPlan_self] at hset
  have hs := hset.after (s := s) (fun q hq => by rw [State.portal_selectPlan, if_neg hq])
    fun q _ => (s.sameInputs_selectPlan p).lateCascade q
  rw [State.evaluateSteps_eq h]
  exact (hs.then (fun q hq => State.portal_judged_ne hq plan)
    (State.announces_sourced_judged (Z := fun _ => False) (K := fun _ _ => False)) fun _ => id).then
    (fun q _ => by rw [State.portal_act]) (State.announces_act (K := fun _ _ => False)) fun _ => id

theorem State.portal_evaluateSteps_self : (s.evaluateSteps p).portal p = { s.portal p with
      planInUse := some (s.selectSlot p), source := some (s.cascade p).1, access := (s.cascade p).2
      night := ((s.portal p).nightAfter plan (s.cascade p).1 (s.cascade p).2).1
      lowCount := ((s.portal p).nightAfter plan (s.cascade p).1 (s.cascade p).2).2
      role := some (roleOf (s.bore (boreOf p)).mode p) } := by
  rw [State.evaluateSteps_eq h, State.portal_act, State.portal_judged]

theorem State.zone_evaluateSteps_ne {y : Fin 14} (hy : y ∉ zonesOf p) : (s.evaluateSteps p).zone y = s.zone y := by
  rw [State.evaluateSteps_eq h, State.zone_act_ne _ _ _ hy, State.zone_judged, if_neg fun hn => hy hn.1]

end

/-! ### The zones after step 6 -/

theorem State.uptime_judged : (s.judged p plan).uptime = s.uptime :=
  (((s.works_selectPlan p).trans (State.works_setSource _ p _ _)).trans (State.works_testNight _ p _)).acts.uptime

theorem Portal.actingState_judged {x y : Portal} (hs : y.state = x.state) (ha : y.action = x.action) :
    y.actingState = x.actingState := by
  unfold Portal.actingState
  rw [hs, ha]

theorem State.demands_judged (plan' : Plan) :
    (s.judged p plan).liveDemands p plan' = s.demandsAt p plan' (s.cascade p).2 := by
  unfold State.liveDemands State.liveBase State.demandsAt State.roleNow demandsFor demandsFrom Plan.thresholdBase
  rw [State.bore_judged, State.portal_judged]
  dsimp only
  cases (s.portal p).override with
  | none => cases roleOf (s.bore (boreOf p)).mode p <;> rfl
  | some v =>
    obtain ⟨kind, term, expiry⟩ := v
    cases kind <;> cases roleOf (s.bore (boreOf p)).mode p <;> rfl

theorem State.previewDemands_judged (x : DryRunInput) (q : Plan) :
    (s.judged p plan).previewDemands p x q = s.previewDemandsAt p x q := by
  unfold State.previewDemands State.previewDemandsAt State.roleNow Plan.thresholdBase
  rw [State.bore_judged]

theorem State.previewPlan_judged (x : DryRunInput) : (s.judged p plan).previewPlan p x = s.previewPlan p x := by
  have hslot : (s.judged p plan).selectSlot p = s.selectSlot p := by
    rw [State.selectSlot, State.bore_judged, State.portal_judged]
    rfl
  unfold State.previewPlan State.selectedPlan Portal.plan
  rw [hslot, State.portal_judged]

/-- Each zone of the portal after the steps, by the state the evaluation acts in (R107). -/
theorem State.zone_evaluateSteps (h : s.selectedPlan p = some plan) {acting : PortalState}
    (hacting : (s.portal p).actingState = acting) (hin : acting ≠ .offline) (j : Fin 3) :
    (s.evaluateSteps p).zone (zoneOf p j) = s.evaluatedZone p plan acting s.uptime j := by
  have hmem : zoneOf p j ∈ zonesOf p := mem_zonesOf.mpr ⟨j, rfl⟩
  have hsame : ((s.judged p plan).portal p).actingState = acting := by
    rw [← hacting, State.portal_judged]
    exact Portal.actingState_judged rfl rfl
  have hzone : (s.judged p plan).zone (zoneOf p j) = { s.zone (zoneOf p j) with
      rotation := if ((s.portal p).nightAfter plan (s.cascade p).1 (s.cascade p).2).1 && !(s.portal p).night then
        (s.zone (zoneOf p j)).rotation + 1 else (s.zone (zoneOf p j)).rotation } := by
    rw [State.zone_judged]
    simp only [hmem, true_and, Bool.and_eq_true, Bool.not_eq_true']
    split <;> rfl
  rw [State.evaluateSteps_eq h, State.zone_act, hsame, hzone]
  unfold State.actedZone State.evaluatedZone
  rw [State.uptime_judged, State.demands_judged, State.portal_judged]
  simp only [State.previewPlan_judged, State.previewDemands_judged]
  cases acting with
  | offline => exact absurd rfl hin
  | held => rfl
  | dryRun =>
    dsimp only
    cases (s.portal p).dryRun with
    | none => rfl
    | some x =>
      obtain hq | ⟨q, hq⟩ := Option.eq_none_or_eq_some (s.previewPlan p x)
      · simp only [hq]
        rfl
      · simp only [hq]
        rfl
  | auto =>
    simp only [Portal.frozen]
    cases (s.portal p).override with
    | none => rfl
    | some v =>
      obtain ⟨kind, term, expiry⟩ := v
      cases kind <;> rfl
  | emergency => rfl

end Sys2Proof.Machine
end

