-- ==== Sys2Proof/Proofs/Obligations/PortalEvaluation.lean ====
section
/-! SUPPORT. The event of a portal's evaluation, and the statement about one at which no action takes effect (O35). -/

namespace Sys2Proof.Machine

variable {s t u : State} {p : Fin 4} {plan : Plan}

/-! ### The event (R106) -/

/-- The state in which a portal's evaluation runs: its timer's expiry reached, the next one set. -/
def State.atPortalEvaluation (s : State) (p : Fin 4) (e : Uptime) : State :=
  (s.reach e).setPortal p { s.portal p with timer := some (msAfter e 1000) }

theorem exec_portalEvaluation (hs : s.Settled) {e : Uptime} (he : (s.portal p).timer = some e) :
    exec (.portalEvaluation p) s = .next ((s.atPortalEvaluation p e).evaluatePortal p).arbitrate := by
  refine congrArg Host.Outcome.next ((State.event_settled hs _).trans ?_)
  simp only [he]
  rfl

theorem State.portal_atPortalEvaluation (e : Uptime) :
    (s.atPortalEvaluation p e).portal p = { s.portal p with timer := some (e + 1000) } :=
  State.portal_setPortal_self _ _ _

theorem State.portal_atPortalEvaluation_ne {q : Fin 4} (h : q ≠ p) (e : Uptime) :
    (s.atPortalEvaluation p e).portal q = s.portal q :=
  State.portal_setPortal_ne _ h _

theorem State.sameInputs_atPortalEvaluation (e : Uptime) : s.SameInputs (s.atPortalEvaluation p e) := by
  have hsame : ∀ {α : Type} (f : Portal → α), f ((s.atPortalEvaluation p e).portal p) = f (s.portal p) →
      ∀ q, f ((s.atPortalEvaluation p e).portal q) = f (s.portal q) := fun f h q => by
    by_cases hq : q = p
    · rw [hq]
      exact h
    · rw [State.portal_atPortalEvaluation_ne hq]
  have hself := State.portal_atPortalEvaluation (s := s) (p := p) e
  exact
    { meter := hsame Portal.meter (by rw [hself])
      partner := hsame Portal.partner (by rw [hself])
      factor := hsame Portal.factor (by rw [hself])
      source := hsame Portal.source (by rw [hself])
      planA := hsame Portal.planA (by rw [hself])
      planB := hsame Portal.planB (by rw [hself])
      mode := fun _ => rfl
      speedClass := fun _ => rfl
      congested := fun _ => rfl
      demand := fun _ => rfl
      clock := rfl
      schedule := rfl
      meters := rfl }

/-- The readings that the pull-offs and zones take are those before the event. -/
theorem State.evaluatedZone_atPortalEvaluation (e : Uptime) (acting : PortalState) (now : Uptime) (j : Fin 3) :
    (s.atPortalEvaluation p e).evaluatedZone p plan acting now j = s.evaluatedZone p plan acting now j := by
  have hself := State.portal_atPortalEvaluation (s := s) (p := p) e
  exact (State.sameInputs_atPortalEvaluation e).evaluatedZone rfl (by rw [hself]) (by rw [hself]) (by rw [hself]) (by rw [hself])
    plan acting now

theorem State.frame_evaluateSteps (s : State) (p : Fin 4) : s.evaluateSteps p = { s with
    lines := (s.evaluateSteps p).lines, portals := (s.evaluateSteps p).portals, zones := (s.evaluateSteps p).zones
    links := (s.evaluateSteps p).links } := by
  have hframe := (s.acts_evaluateSteps p).frame
  have hbores : (s.evaluateSteps p).bores = s.bores := Tab.ext_get fun b => State.bore_evaluateSteps _ p b
  rwa [hbores] at hframe

/-- An evaluation at whose first step no action takes effect is the rest of its steps. -/
theorem State.evaluatePortal_of_waiting (hst : (s.portal p).state ≠ .offline)
    (ha : (s.portal p).action = none
      ∨ (∃ a, (s.portal p).action = some a ∧ a.kind = .stopOrderly) ∧ s.portalInFlight p = true) :
    s.evaluatePortal p = s.evaluateSteps p := by
  have htake : s.takeAction p = s := by
    unfold State.takeAction
    obtain ha | ⟨⟨a, ha, hk⟩, hflight⟩ := ha
    · rw [ha]
    · rw [ha]
      dsimp only
      rw [hk]
      exact if_pos hflight
  unfold State.evaluatePortal
  dsimp only
  rw [htake, if_neg hst]

theorem Portal.actingState_of_waiting {x : Portal}
    (ha : x.action = none ∨ ∃ a, x.action = some a ∧ a.kind = .stopOrderly) :
    x.actingState = if x.state = .auto ∧ x.action.isSome = true then .held else x.state := by
  unfold Portal.actingState
  obtain ha | ⟨a, ha, hk⟩ := ha
  · cases x.state <;> simp [ha]
  · cases x.state <;> simp [ha, hk]

/-- Settles O35. -/
theorem anEvaluationRunsItsSteps : Obligations.AnEvaluationRunsItsSteps := by
  intro s p e plan hs he hst hplan ha x now src acc acting
  have hin := State.sameInputs_atPortalEvaluation (s := s) (p := p) e
  have hself := State.portal_atPortalEvaluation (s := s) (p := p) e
  have hplan' : (s.atPortalEvaluation p e).selectedPlan p = some plan := (hin.selectedPlan p).trans hplan
  have hcascade := hin.cascade p
  have heval : (s.atPortalEvaluation p e).evaluatePortal p = (s.atPortalEvaluation p e).evaluateSteps p :=
    State.evaluatePortal_of_waiting (by rw [hself]; exact hst) (by rw [hself]; exact ha)
  have hacting : ((s.atPortalEvaluation p e).portal p).actingState = acting := by
    rw [hself]
    exact Portal.actingState_of_waiting (x := { s.portal p with timer := _ }) (ha.imp_right And.left)
  have hon : acting ≠ .offline := by
    change (if x.state = .auto ∧ x.action.isSome = true then PortalState.held else x.state) ≠ .offline
    split
    · decide
    · exact hst
  have hpulls := State.pullsOff_evaluateSteps hplan'
  have hraised := State.announces_evaluateSteps hplan'
  have hportal := State.portal_evaluateSteps_self hplan'
  have hwait := State.waiting_evaluateSteps hplan'
  rw [hcascade] at hpulls hportal hwait
  rw [hself] at hpulls hportal hwait
  refine ⟨(s.atPortalEvaluation p e).evaluateSteps p, heval ▸ exec_portalEvaluation hs he, ?_, ?_, ?_, ?_, fun j => ?_, fun z hz => ?_,
    hwait, ?_⟩
  · have hframe := (s.atPortalEvaluation p e).frame_evaluateSteps p
    generalize (s.atPortalEvaluation p e).evaluateSteps p = u at hframe ⊢
    exact hframe
  · exact State.onlyNotices.trans (.of_links rfl) (State.notices_evaluateSteps _ p)
  · rw [hportal, hin.selectSlot, State.selectSlot]
    simp only [Bool.and_eq_true]
    rfl
  · exact hpulls.after (fun q hq => State.portal_atPortalEvaluation_ne hq e) fun q _ => hin.lateCascade q
  · rw [State.zone_evaluateSteps hplan' hacting hon, State.evaluatedZone_atPortalEvaluation]
    rfl
  · rw [State.zone_evaluateSteps_ne hplan' hz]
    rfl
  · exact (State.Announces.after_quiet rfl (fun _ => .refl _) hraised).raised

end Sys2Proof.Machine
end

