-- ==== Sys2Proof/Proofs/Obligations/PendingActions.lean ====
section
/-! SUPPORT. Pending actions that take effect at step 1 of an evaluation (R110 to R112). -/

namespace Sys2Proof.Machine

variable {s t u : State} {p : Fin 4} {plan : Plan} {e : Uptime}

/-! ### Completions (R125) -/

/-- The completion of a pending action (R125). -/
def PendingAction.completion (a : PendingAction) (p : Fin 4) : Response :=
  { tag := a.tag, code := a.kind.request.octet, target := BitVec.ofNat 8 (2 ^ p.val), frame := .done, each := [.done],
    data := [] }

/-- A completion is placed where it is owed and wanted and the list has room. -/
theorem State.link_answerAction_done (a : PendingAction) (k : Link) : (s.answerAction p a .done).link k = { s.link k with
    responses := (s.link k).responses ++
      if a.link = k ∧ a.answerOwed = true ∧ a.ackWanted = true ∧ (s.link k).responses.length < 8 then [a.completion p]
      else [] } := by
  unfold State.answerAction
  by_cases howed : a.answerOwed = true ∧ a.ackWanted = true
  · obtain ⟨h1, h2⟩ := howed
    rw [if_pos (by rw [h1, h2]; rfl), State.link_place]
    by_cases hk : k = a.link
    · subst hk
      by_cases hroom : (s.link a.link).responses.length < 8
      · simp [LinkRec.place, hroom, h1, h2, PendingAction.completion]
      · simp [LinkRec.place, hroom]
    · simp [hk, Ne.symm hk]
  · have hcond : ¬ (a.answerOwed && (a.ackWanted || !Disposition.done.tookEffect)) = true := fun h => howed (by
      simp only [Bool.and_eq_true, Bool.or_eq_true] at h
      exact ⟨h.1, h.2.resolve_right (by decide)⟩)
    rw [if_neg hcond, if_neg fun h => howed ⟨h.2.1, h.2.2.1⟩, List.append_nil]

theorem State.announces_answerAction_done {Z : Fin 14 → Prop} {K : NoticeKind → Nat → Prop} (a : PendingAction) :
    s.Announces Z K (s.answerAction p a .done) where
  tells k := .same (by rw [State.link_answerAction_done]) (by rw [State.link_answerAction_done])
  kept z _ := by
    rw [State.zone_answerAction]
    exact .refl _
  raised z hz := absurd (congrArg Zone.shortfall (s.zone_answerAction p a .done z)) hz

/-! ### Step 1 (R107) -/

/-- Step 1 of an evaluation has taken effect: the portal is in `st` without its action, its completion is placed, and the
PORTAL_STATE notice waits with role and action as they were when it was raised. -/
structure State.Effected (s : State) (p : Fin 4) (e : Uptime) (a : PendingAction) (st : PortalState) (act : Option ActionKind)
    (t : State) : Prop where
  inputs : s.SameInputs t
  state : (t.portal p).state = st
  action : (t.portal p).action = none
  timer : (t.portal p).timer = some (e + 1000)
  night : (t.portal p).night = (s.portal p).night
  lowCount : (t.portal p).lowCount = (s.portal p).lowCount
  other : ∀ q, q ≠ p → t.portal q = s.portal q
  responses : ∀ k, (t.link k).responses = (s.link k).responses ++
    if a.link = k ∧ a.answerOwed = true ∧ a.ackWanted = true ∧ (s.link k).responses.length < 8 then [a.completion p] else []
  uptime : t.uptime = if reached s.uptime e then s.uptime else e
  waiting : t.Waiting (.portalState p st (s.portal p).role act)
  zones : ∀ q, q ≠ p → ∀ z ∈ zonesOf q, t.zone z = s.zone z

theorem State.bores_workCondition_inputs (b c : Fin 2) : ((s.workCondition b).bore c).speedClass = (s.bore c).speedClass
    ∧ ((s.workCondition b).bore c).congested = (s.bore c).congested ∧ ((s.workCondition b).bore c).demand = (s.bore c).demand := by
  rw [State.bore_workCondition]
  split
  next h => rw [h]; exact ⟨rfl, rfl, rfl⟩
  next => exact ⟨rfl, rfl, rfl⟩

theorem State.sameInputs_workCondition (b : Fin 2) : s.SameInputs (s.workCondition b) :=
  .of_works (s.works_workCondition b) (fun q => by rw [State.portal_workCondition]) fun c => s.bores_workCondition_inputs b c

theorem State.Effected.workCondition {a : PendingAction} {st : PortalState} {act : Option ActionKind}
    (h : s.Effected p e a st act t) : s.Effected p e a st act (t.workCondition (boreOf p)) where
  inputs := h.inputs.trans (State.sameInputs_workCondition _)
  state := by rw [State.portal_workCondition]; exact h.state
  action := by rw [State.portal_workCondition]; exact h.action
  timer := by rw [State.portal_workCondition]; exact h.timer
  night := by rw [State.portal_workCondition]; exact h.night
  lowCount := by rw [State.portal_workCondition]; exact h.lowCount
  other q hq := by rw [State.portal_workCondition]; exact h.other q hq
  responses k := by rw [(State.notices_workCondition t _).responses]; exact h.responses k
  uptime := (State.works_workCondition t _).acts.uptime.trans h.uptime
  waiting := (State.announces_workCondition (K := fun _ _ => False) _).waiting h.waiting (fun h => by cases h) id
  zones q hq z hz := by
    rw [State.zone_workCondition, if_neg fun hi => interiorOf_notMem_zonesOf _ q (hi ▸ hz)]
    exact h.zones q hq z hz

theorem State.zone_evaluateSteps_other {q : Fin 4} (hplan : t.selectedPlan p = some plan) (hq : q ≠ p) {z : Fin 14}
    (hz : z ∈ zonesOf q) : (t.evaluateSteps p).zone z = t.zone z :=
  State.zone_evaluateSteps_ne hplan fun hp =>
    hq (Owner.portal.inj ((mem_zonesOf_iff_owner.mp hz).symm.trans (mem_zonesOf_iff_owner.mp hp)))

/-- What the steps after step 1 leave of its effect, and what they add (R107). -/
theorem State.Effected.steps {a : PendingAction} {st : PortalState} {act : Option ActionKind} (h : s.Effected p e a st act t)
    (hplan : s.selectedPlan p = some plan) (hc : t.ConditionsFollow) :
    let u := t.evaluateSteps p
    u.uptime = (if reached s.uptime e then s.uptime else e) ∧ u.ConditionsFollow
      ∧ (∀ k, (u.link k).responses = (s.link k).responses ++
          if a.link = k ∧ a.answerOwed = true ∧ a.ackWanted = true ∧ (s.link k).responses.length < 8 then [a.completion p]
          else [])
      ∧ (u.portal p).state = st ∧ (u.portal p).action = none ∧ u.Waiting (.portalState p st (s.portal p).role act)
      ∧ ((s.portal p).source ≠ (u.portal p).source → u.Waiting (.source p (u.portal p).source (u.portal p).access))
      ∧ s.PullsOff u p ((s.portal p).source = some .own ∧ (u.portal p).source ≠ some .own)
      ∧ (∀ q, q ≠ p → ∀ z ∈ zonesOf q, u.zone z = s.zone z) ∧ (u.portal p).timer = some (e + 1000) := by
  have hplan' : t.selectedPlan p = some plan := (h.inputs.selectedPlan p).trans hplan
  have hportal := State.portal_evaluateSteps_self hplan'
  have hwait := State.waiting_evaluateSteps hplan'
  have hpulls := State.pullsOff_evaluateSteps hplan'
  rw [h.inputs.source, h.inputs.cascade] at hwait hpulls
  rw [h.inputs.cascade] at hportal
  have hsource : ((t.evaluateSteps p).portal p).source = some (s.cascade p).1 := congrArg Portal.source hportal
  have haccess : ((t.evaluateSteps p).portal p).access = (s.cascade p).2 := congrArg Portal.access hportal
  have hstate : ((t.evaluateSteps p).portal p).state = st := (congrArg Portal.state hportal).trans h.state
  have haction : ((t.evaluateSteps p).portal p).action = none := (congrArg Portal.action hportal).trans h.action
  have htimer : ((t.evaluateSteps p).portal p).timer = some (e + 1000) := (congrArg Portal.timer hportal).trans h.timer
  refine ⟨(State.acts_evaluateSteps t p).uptime.trans h.uptime, ?_, fun k => ?_, hstate, haction, ?_, fun hne => ?_, ?_, fun q hq z hz => ?_,
    htimer⟩
  · exact State.ConditionsFollow.congr hc (fun _ => by rw [State.bore_evaluateSteps]) fun q => (State.portal_evaluateSteps t p q).state
  · rw [(State.notices_evaluateSteps t p).responses]
    exact h.responses k
  · exact (State.announces_evaluateSteps hplan').waiting h.waiting (fun h => by cases h) fun h => by cases h
  · rw [hsource] at hne ⊢
    rw [haccess]
    exact hwait hne
  · have hleaves : ((s.portal p).source = some .own ∧ ((t.evaluateSteps p).portal p).source ≠ some .own)
        = ((s.portal p).source = some .own ∧ (s.cascade p).1 ≠ .own) := by
      rw [hsource]
      simp only [ne_eq, Option.some.injEq]
    rw [hleaves]
    exact hpulls.after h.other fun q _ => h.inputs.lateCascade q
  · rw [State.zone_evaluateSteps_other hplan' hq hz]
    exact h.zones q hq z hz

end Sys2Proof.Machine
end

