-- ==== Sys2Proof/Proofs/Obligations/PendingActions2.lean ====
section
/-! SUPPORT. A pending HOLD or RELEASE that puts its portal in HELD or AUTO (R110, R111). -/

namespace Sys2Proof.Machine

variable {s t u : State} {p : Fin 4} {plan : Plan} {e : Uptime} {a : PendingAction}

/-! ### A portal put in another state (R110, R111) -/

/-- The state once a portal with a pending action has entered `st` and the action is answered, before the interior condition
is worked. -/
def State.transferred (s : State) (p : Fin 4) (st : PortalState) (a : PendingAction) : State :=
  (((s.setPortalState p st).raisePortalState p).removeAction p).answerAction p a .done

theorem State.works_transferred (st : PortalState) : s.Works (s.transferred p st a) :=
  (((s.works_setPortalState p st).trans (State.works_raisePortalState _ p)).trans (State.works_removeAction _ p)).trans
    (State.works_answerAction _ p a _)

theorem State.portal_transferred (st : PortalState) (q : Fin 4) :
    (s.transferred p st a).portal q = if q = p then { s.portal p with state := st, action := none } else s.portal q := by
  rw [State.transferred, State.portal_answerAction, State.portal_removeAction, State.portal_raisePortalState,
    State.portal_raisePortalState, State.portal_setPortalState, State.portal_setPortalState, if_pos rfl]
  split <;> rfl

theorem State.bore_transferred (st : PortalState) (b : Fin 2) : (s.transferred p st a).bore b = s.bore b := by
  rw [State.transferred, State.bore_answerAction]
  rfl

theorem State.zone_transferred (st : PortalState) (z : Fin 14) : (s.transferred p st a).zone z = s.zone z := by
  rw [State.transferred, State.zone_answerAction]
  rfl

theorem State.announces_transferred (st : PortalState) :
    s.Announces (fun _ => False) (fun k m => k = .portalState ∧ m = p.val) (s.transferred p st a) := by
  have hraise : s.Announces (fun _ => False) (fun k m => k = .portalState ∧ m = p.val)
      (((s.setPortalState p st).raisePortalState p).removeAction p) :=
    State.Announces.then_quiet (t := (s.setPortalState p st).raisePortalState p)
      (.after_quiet (t := s.setPortalState p st) rfl (fun _ => .refl _) (State.announces_raisePortalState _ p)) rfl
      fun _ => .refl _
  exact (hraise.trans (State.announces_answerAction_done (Z := fun _ => False) (K := fun _ _ => False) a) fun _ _ => id).mono
    (fun _ h => h.elim id id) fun _ _ h => h.resolve_right id

theorem State.waiting_transferred (st : PortalState) : (s.transferred p st a).Waiting
    (.portalState p st (s.portal p).role ((s.portal p).action.map PendingAction.kind)) := by
  have hwait := (s.setPortalState p st).waiting_raise
    (.portalState p st (s.portal p).role ((s.portal p).action.map PendingAction.kind))
  have heq : (s.setPortalState p st).raisePortalState p = (s.setPortalState p st).raise
      (.portalState p st (s.portal p).role ((s.portal p).action.map PendingAction.kind)) := by
    rw [State.raisePortalState, State.portal_setPortalState, if_pos rfl]
  have hremove : (((s.setPortalState p st).raisePortalState p).removeAction p).Waiting
      (.portalState p st (s.portal p).role ((s.portal p).action.map PendingAction.kind)) :=
    State.Waiting.of_links (heq ▸ hwait) rfl
  exact (State.announces_answerAction_done (Z := fun _ => False) (K := fun _ _ => False) a).waiting hremove
    (fun h => by cases h) id

theorem State.responses_transferred (st : PortalState) (k : Link) : ((s.transferred p st a).link k).responses = (s.link k).responses ++
    if a.link = k ∧ a.answerOwed = true ∧ a.ackWanted = true ∧ (s.link k).responses.length < 8 then [a.completion p] else [] := by
  have hbefore : ((((s.setPortalState p st).raisePortalState p).removeAction p).link k).responses = (s.link k).responses :=
    State.onlyNotices.responses (((s.notices_setPortalState p st).trans (State.notices_raisePortalState _ p)).trans (.of_links rfl)) k
  rw [State.transferred, State.link_answerAction_done]
  dsimp only
  rw [hbefore]

/-- A pending action whose effect is another state of its portal has taken effect (R110, R111). -/
theorem State.effected_transferred (ha : (s.portal p).action = some a) (st : PortalState) :
    s.Effected p e a st (some a.kind)
      (((s.atPortalEvaluation p e).transferred p st a).workCondition (boreOf p)) := by
  have hself := State.portal_atPortalEvaluation (s := s) (p := p) e
  have hportal : ((s.atPortalEvaluation p e).transferred p st a).portal p
      = { s.portal p with timer := some (e + 1000), state := st, action := none } := by
    rw [State.portal_transferred, if_pos rfl, hself]
  have hwait := State.waiting_transferred (s := s.atPortalEvaluation p e) (p := p) (a := a) st
  rw [hself] at hwait
  have hkind : (some a).map PendingAction.kind = some a.kind := rfl
  dsimp only at hwait
  rw [ha, hkind] at hwait
  refine State.Effected.workCondition
    { inputs := (State.sameInputs_atPortalEvaluation e).trans (.of_works (State.works_transferred st) (fun q => ?_) fun b => ?_)
      state := by rw [hportal]
      action := by rw [hportal]
      timer := by rw [hportal]
      night := by rw [hportal]
      lowCount := by rw [hportal]
      other := fun q hq => by rw [State.portal_transferred, if_neg hq, State.portal_atPortalEvaluation_ne hq]
      responses := fun k => State.responses_transferred (s := s.atPortalEvaluation p e) st k
      uptime := (State.works_transferred (s := s.atPortalEvaluation p e) st).acts.uptime
      waiting := hwait
      zones := fun q hq z hz => State.zone_transferred (s := s.atPortalEvaluation p e) st z }
  · rw [State.portal_transferred]
    split
    next hq => rw [hq]
    next => rfl
  · rw [State.bore_transferred]
    exact ⟨rfl, rfl, rfl⟩

/-- The notices of such a step, and of the steps after it. -/
theorem State.raised_transferred (st : PortalState)
    (hplan : (((s.atPortalEvaluation p e).transferred p st a).workCondition (boreOf p)).selectedPlan p = some plan) :
    s.ShortfallsRaised ((((s.atPortalEvaluation p e).transferred p st a).workCondition (boreOf p)).evaluateSteps p) := by
  have hfirst : s.Announces (fun _ => False) (fun k m => k = .portalState ∧ m = p.val) ((s.atPortalEvaluation p e).transferred p st a) :=
    .after_quiet (t := s.atPortalEvaluation p e) rfl (fun _ => .refl _) (State.announces_transferred st)
  refine ((hfirst.trans (State.announces_workCondition (K := fun _ _ => False) (boreOf p)) fun _ h => h.elim).trans
    (State.announces_evaluateSteps hplan) fun z hz hmem => ?_).raised
  exact interiorOf_notMem_zonesOf (boreOf p) p (hz.resolve_left id ▸ hmem)

/-- The zones of the portal at the end of the evaluation, for a step 1 that has left them as they were. -/
theorem State.zone_transferred_evaluateSteps {st : PortalState} (hst : st = .held ∨ st = .auto) (hplan : s.selectedPlan p = some plan)
    (h : s.Effected p e a st (some a.kind) (((s.atPortalEvaluation p e).transferred p st a).workCondition (boreOf p))) (j : Fin 3) :
    ((((s.atPortalEvaluation p e).transferred p st a).workCondition (boreOf p)).evaluateSteps p).zone (zoneOf p j)
      = s.evaluatedZone p plan st (if reached s.uptime e then s.uptime else e) j := by
  have hself := State.portal_atPortalEvaluation (s := s) (p := p) e
  have hportal : (((s.atPortalEvaluation p e).transferred p st a).workCondition (boreOf p)).portal p
      = { s.portal p with timer := some (e + 1000), state := st, action := none } := by
    rw [State.portal_workCondition, State.portal_transferred, if_pos rfl, hself]
  have hne : zoneOf p j ≠ interiorOf (boreOf p) := fun hi =>
    interiorOf_notMem_zonesOf (boreOf p) p (hi ▸ mem_zonesOf.mpr ⟨j, rfl⟩)
  have hzone : (((s.atPortalEvaluation p e).transferred p st a).workCondition (boreOf p)).zone (zoneOf p j) = s.zone (zoneOf p j) := by
    rw [State.zone_workCondition, if_neg hne,
      State.zone_transferred]
    rfl
  have hacting : ((((s.atPortalEvaluation p e).transferred p st a).workCondition (boreOf p)).portal p).actingState = st := by
    rw [hportal]
    obtain rfl | rfl := hst <;> rfl
  rw [State.zone_evaluateSteps ((h.inputs.selectedPlan p).trans hplan) hacting (by obtain rfl | rfl := hst <;> decide) j,
    h.inputs.evaluatedZone hzone h.night h.lowCount (by rw [hportal]) (by rw [hportal]), h.uptime]

end Sys2Proof.Machine
end

