-- ==== Sys2Proof/Proofs/Obligations/PendingActions3.lean ====
section
/-! SUPPORT. Zones that are lit twice (R57, R79). -/

namespace Sys2Proof.Machine

variable {s t u : State} {p : Fin 4} {plan : Plan} {e : Uptime} {a : PendingAction}

/-! ### Zones lit twice (R57, R79) -/

namespace Zone

theorem modWhere_eq_self {z : Zone} {cond : Circuit → Bool} {f : Circuit → Circuit}
    (h : ∀ k c, z.slots.get k = some c → cond c = true → f c = c) : z.modWhere cond f = z := by
  have hslots : (z.slots.mapWith fun _ o => o.map fun c => if cond c then f c else c) = z.slots := by
    refine Tab.ext_get fun k => ?_
    rw [Tab.get_mapWith]
    cases hc : z.slots.get k with
    | none => rfl
    | some c =>
      refine congrArg some ?_
      dsimp only
      split
      next hcond => exact h k c hc hcond
      next => rfl
  rw [Zone.modWhere, hslots]

/-- The available DIMMED circuits are those that were, whatever level they are commanded. -/
theorem cd_handDim (z : Zone) (dim : Option Nat) : (z.handDim dim).cd = z.cd := by
  rw [Zone.cd, Zone.cd, Zone.sumOf_eq, Zone.sumOf_eq]
  refine Finset.sum_congr rfl fun k _ => ?_
  have hrelit := z.relit_handDim dim k
  revert hrelit
  cases z.slots.get k <;> cases (z.handDim dim).slots.get k <;> intro hrelit <;> cases hrelit
  next => rfl
  next h =>
    have hcd : ∀ {c d : Circuit}, c.Relit d → contribution Circuit.inCd (some d) = contribution Circuit.inCd (some c) :=
      fun {c d} h => by
        have hkind : d.kind = c.kind := congrArg CircuitSetup.kind h.setup
        have hrating : d.rating = c.rating := congrArg CircuitSetup.rating h.setup
        simp only [contribution, Option.elim_some, Circuit.inCd, Circuit.isDimmed, hkind, hrating, h.available]
        rfl
    exact hcd h

/-- A circuit to which a dim level has been handed, or not. -/
theorem circuit_handDim {z : Zone} {dim : Option Nat} {k : Fin 8} {c : Circuit} (hc : (z.handDim dim).slots.get k = some c) :
    ∃ b, z.slots.get k = some b ∧ (c = b ∧ (dim.isSome = true → b.inCd = false)
      ∨ ∃ d, dim = some d ∧ b.inCd = true ∧ c = b.setLevel d) := by
  cases dim with
  | none => exact ⟨c, hc, .inl ⟨rfl, fun h => by cases h⟩⟩
  | some d =>
    have hget : (z.handDim (some d)).slots.get k = (z.slots.get k).map fun b => if b.inCd then b.setLevel d else b :=
      Tab.get_mapWith _ _ _
    rw [hget, Option.map_eq_some_iff] at hc
    obtain ⟨b, hb, rfl⟩ := hc
    refine ⟨b, hb, ?_⟩
    cases hcd : b.inCd with
    | true => exact .inr ⟨d, rfl, rfl, rfl⟩
    | false => exact .inl ⟨rfl, fun _ => rfl⟩

theorem handDim_handDim (z : Zone) (dim : Option Nat) : (z.handDim dim).handDim dim = z.handDim dim := by
  cases dim with
  | none => rfl
  | some d =>
    have hagain : (z.handDim (some d)).modWhere Circuit.inCd (Circuit.setLevel d) = z.handDim (some d) := by
      refine modWhere_eq_self fun k c hc hin => ?_
      obtain ⟨b, -, ⟨rfl, hno⟩ | ⟨d', hd, -, rfl⟩⟩ := circuit_handDim hc
      · rw [hno rfl] at hin
        cases hin
      · cases hd
        rfl
    exact congrArg (fun x : Zone => { x with dim := some d }) hagain

/-- A lit zone has no SWITCHED circuit left to switch on, and its available DIMMED circuits at 1000. -/
theorem lightAll_lightAll (z : Zone) (now : Uptime) : (z.lightAll now).lightAll now = z.lightAll now := by
  have hon : ∀ k c, (z.modWhere Circuit.inReserve (Circuit.switchOn now z.settle)).slots.get k = some c → c.inReserve = false := by
    intro k c hc
    have hget : (z.modWhere Circuit.inReserve (Circuit.switchOn now z.settle)).slots.get k
        = (z.slots.get k).map fun b => if b.inReserve then b.switchOn now z.settle else b := Tab.get_mapWith _ _ _
    rw [hget, Option.map_eq_some_iff] at hc
    obtain ⟨b, -, rfl⟩ := hc
    cases hb : b.inReserve with
    | false => simpa using hb
    | true =>
      simp only [if_true]
      unfold Circuit.switchOn
      split <;> simp [Circuit.inReserve]
  have hreserve : (z.lightAll now).modWhere Circuit.inReserve (Circuit.switchOn now z.settle) = z.lightAll now := by
    refine modWhere_eq_self fun k c hc hres => ?_
    obtain ⟨b, hb, ⟨rfl, -⟩ | ⟨d, -, hcd, rfl⟩⟩ := circuit_handDim hc
    · rw [hon k c hb] at hres
      cases hres
    · have hkind : (b.setLevel d).kind = .dimmed := (Circuit.inCd_iff.mp hcd).1
      have := (Circuit.inReserve_iff.mp hres).1
      rw [hkind] at this
      cases this
  have hsettle : (z.lightAll now).settle = z.settle := (congrArg Zone.settle (z.commanded_lightAll now) :)
  have hcd : (z.lightAll now).cd = (z.modWhere Circuit.inReserve (Circuit.switchOn now z.settle)).cd := cd_handDim _ _
  rw [Zone.lightAll.eq_def now (z.lightAll now), hsettle]
  dsimp only
  rw [hreserve, hcd]
  exact handDim_handDim _ _

theorem capacity_litUp (z : Zone) (now : Uptime) : (z.litUp now).capacity = z.capacity :=
  Zone.Relit.capacity (((Zone.Relit.of_slots rfl).trans (z.atCapacity.relit_lightAll now)).trans (.of_slots rfl))

theorem ramped_litUp (z : Zone) (now : Uptime) : (z.litUp now).ramped = min 60000 z.capacity :=
  (congrArg Zone.ramped (z.atCapacity.commanded_lightAll now) : (z.atCapacity.lightAll now).ramped = _)

theorem shortfall_litUp (z : Zone) (now : Uptime) : (z.litUp now).shortfall = false := by
  have hflag : (z.litUp now).shortfall = decide ((z.litUp now).capacity < (z.litUp now).ramped) := rfl
  rw [hflag, capacity_litUp, ramped_litUp]
  exact decide_eq_false (by omega)

/-- The lighting of a zone reads neither its rotation start nor its demand, its preview or its flag. -/
theorem lightAll_with (z : Zone) (now : Uptime) (r : Fin 8) (d : Nat) (v : Option Preview) (f : Bool) :
    ({ z with rotation := r, demand := d, preview := v, shortfall := f } : Zone).lightAll now
      = { z.lightAll now with rotation := r, demand := d, preview := v, shortfall := f } := by
  have hdim : ∀ (y : Zone) dim, ({ y with rotation := r, demand := d, preview := v, shortfall := f } : Zone).handDim dim
      = { y.handDim dim with rotation := r, demand := d, preview := v, shortfall := f } := fun y dim => by
    cases dim <;> rfl
  exact hdim (z.modWhere Circuit.inReserve (Circuit.switchOn now z.settle)) _

theorem litUp_with (z : Zone) (now : Uptime) (r : Fin 8) (d : Nat) (v : Option Preview) :
    ({ z with rotation := r, demand := d, preview := v } : Zone).litUp now
      = { z.litUp now with rotation := r, demand := d, preview := v } :=
  congrArg Zone.tested (z.atCapacity.lightAll_with now r d v z.shortfall)

theorem litUp_litUp (z : Zone) (now : Uptime) : (z.litUp now).litUp now = z.litUp now := by
  have hcapacity : (z.litUp now).atCapacity = z.litUp now := by
    rw [Zone.atCapacity, capacity_litUp, ← ramped_litUp z now]
  have hlight : (z.litUp now).lightAll now = z.litUp now := by
    have hwith := (z.atCapacity.lightAll now).lightAll_with now (z.litUp now).rotation (z.litUp now).demand
      (z.litUp now).preview (z.litUp now).shortfall
    rw [lightAll_lightAll] at hwith
    exact hwith
  rw [Zone.litUp, hcapacity, hlight]
  rfl

end Zone

end Sys2Proof.Machine
end

