-- ==== Sys2Proof/Proofs/Obligations/PendingActions4.lean ====
section
/-! SUPPORT. A pending RELEASE that finds an emergency (R111). -/

namespace Sys2Proof.Machine

variable {s t u : State} {p : Fin 4} {plan : Plan} {e : Uptime} {a : PendingAction}

/-! ### A RELEASE that finds an emergency (R111) -/

/-- The state once a RELEASE has put its portal in EMERGENCY, before the interior condition is worked. -/
def State.releasedInto (s : State) (p : Fin 4) (a : PendingAction) : State :=
  ((s.removeAction p).answerAction p a .done).enterEmergency p

theorem State.portal_answered (q : Fin 4) : ((s.removeAction p).answerAction p a .done).portal q
    = if q = p then { s.portal p with action := none } else s.portal q := by
  rw [State.portal_answerAction, State.portal_removeAction]

theorem State.portal_releasedInto (q : Fin 4) : (s.releasedInto p a).portal q
    = if q = p then { s.portal p with action := none, dryRun := none, state := .emergency } else s.portal q := by
  rw [State.releasedInto, State.portal_enterEmergency, State.portal_answered, if_pos rfl, State.portal_answered]
  split <;> rfl

theorem State.bore_releasedInto (b : Fin 2) : (s.releasedInto p a).bore b = s.bore b := by
  rw [State.releasedInto, State.bore_enterEmergency, State.bore_answerAction]
  rfl

theorem State.works_releasedInto : s.Works (s.releasedInto p a) :=
  ((s.works_removeAction p).trans (State.works_answerAction _ p a _)).trans (State.works_enterEmergency _ p)

theorem State.zone_releasedInto (z : Fin 14) : (s.releasedInto p a).zone z
    = if z ∈ zonesOf p then ({ s.zone z with preview := none } : Zone).litUp s.uptime else s.zone z := by
  have huptime : ((s.removeAction p).answerAction p a .done).uptime = s.uptime :=
    (State.works_answerAction _ p a _).acts.uptime
  rw [State.releasedInto, State.zone_enterEmergency, huptime, State.zone_answerAction]
  rfl

theorem State.announces_answered {Z : Fin 14 → Prop} {K : NoticeKind → Nat → Prop} :
    s.Announces Z K ((s.removeAction p).answerAction p a .done) :=
  .after_quiet (t := s.removeAction p) rfl (fun _ => .refl _) (State.announces_answerAction_done a)

theorem State.announces_releasedInto :
    s.Announces (· ∈ zonesOf p) (fun k m => k = .portalState ∧ m = p.val) (s.releasedInto p a) :=
  ((State.announces_answered (Z := fun _ => False) (K := fun _ _ => False)).trans (State.announces_enterEmergency p)
    fun _ h => h.elim).mono (fun _ h => h.resolve_left id) fun _ _ h => h.resolve_left id

theorem State.responses_releasedInto (k : Link) : ((s.releasedInto p a).link k).responses = (s.link k).responses ++
    if a.link = k ∧ a.answerOwed = true ∧ a.ackWanted = true ∧ (s.link k).responses.length < 8 then [a.completion p] else [] := by
  have hnone : (((s.removeAction p).answerAction p a .done).portal p).action = none := by
    rw [State.portal_answered, if_pos rfl]
  have hlinks : ((s.removeAction p).link k) = s.link k := rfl
  rw [State.releasedInto, (State.notices_abandonAction_enterEmergency p).responses, State.link_abandonAction, hnone,
    State.link_answerAction_done, hlinks, List.append_nil]

/-- A RELEASE that finds the emergency flag of its bore set has taken effect (R111). -/
theorem State.effected_releasedInto : s.Effected p e a .emergency none
    (((s.atPortalEvaluation p e).releasedInto p a).workCondition (boreOf p)) := by
  have hself := State.portal_atPortalEvaluation (s := s) (p := p) e
  have hportal : ((s.atPortalEvaluation p e).releasedInto p a).portal p
      = { s.portal p with timer := some (e + 1000), action := none, dryRun := none, state := .emergency } := by
    rw [State.portal_releasedInto, if_pos rfl, hself]
  have hwait := State.waiting_enterEmergency (s := ((s.atPortalEvaluation p e).removeAction p).answerAction p a .done) p
  rw [State.portal_answered, if_pos rfl, hself] at hwait
  refine State.Effected.workCondition
    { inputs := (State.sameInputs_atPortalEvaluation e).trans (.of_works State.works_releasedInto (fun q => ?_) fun b => ?_)
      state := by rw [hportal]
      action := by rw [hportal]
      timer := by rw [hportal]
      night := by rw [hportal]
      lowCount := by rw [hportal]
      other := fun q hq => by rw [State.portal_releasedInto, if_neg hq, State.portal_atPortalEvaluation_ne hq]
      responses := fun k => State.responses_releasedInto (s := s.atPortalEvaluation p e) k
      uptime := (State.works_releasedInto (s := s.atPortalEvaluation p e)).acts.uptime
      waiting := hwait
      zones := fun q hq z hz => ?_ }
  · rw [State.portal_releasedInto]
    split
    next hq => rw [hq]
    next => rfl
  · rw [State.bore_releasedInto]
    exact ⟨rfl, rfl, rfl⟩
  · rw [State.zone_releasedInto, if_neg fun hp =>
      hq (Owner.portal.inj ((mem_zonesOf_iff_owner.mp hz).symm.trans (mem_zonesOf_iff_owner.mp hp)))]
    rfl

theorem Zone.rotation_litUp (z : Zone) (now : Uptime) : (z.litUp now).rotation = z.rotation :=
  (congrArg Zone.rotation (z.atCapacity.commanded_lightAll now) : (z.atCapacity.lightAll now).rotation = _)

/-- A zone lit without its preview and lit again with another rotation start and demand is lit once with them. -/
theorem Zone.litUp_again (z : Zone) (now : Uptime) (r : Fin 8) (d : Nat) :
    ({ ({ z with preview := none } : Zone).litUp now with rotation := r, demand := d } : Zone).litUp now
      = { ({ z with rotation := r, demand := d } : Zone).litUp now with preview := none } := by
  rw [Zone.litUp_with z now z.rotation z.demand none, Zone.litUp_with z now r d z.preview]
  exact (Zone.litUp_with (z.litUp now) now r d none).trans (by rw [Zone.litUp_litUp])

/-- The rotation start that an evaluation gives a zone of the portal (R39). -/
def State.turnedRotation (s : State) (p : Fin 4) (plan : Plan) (z : Fin 14) : Fin 8 :=
  if ((s.portal p).nightAfter plan (s.cascade p).1 (s.cascade p).2).1 && !(s.portal p).night then (s.zone z).rotation + 1
  else (s.zone z).rotation

theorem State.evaluatedZone_emergency (now : Uptime) (j : Fin 3) : s.evaluatedZone p plan .emergency now j
    = ({ s.zone (zoneOf p j) with rotation := s.turnedRotation p plan (zoneOf p j), demand := 60000 } : Zone).litUp now := rfl

section
variable (h : s.Effected p e a .emergency none t)
  (hzone : ∀ j, t.zone (zoneOf p j)
    = ({ s.zone (zoneOf p j) with preview := none } : Zone).litUp (if reached s.uptime e then s.uptime else e))
  (hplan : s.selectedPlan p = some plan)
include h hzone hplan

/-- The zones of a portal lit at its release are lit again by the same evaluation, and their previews are gone. -/
theorem State.Effected.zone_emergency (j : Fin 3) : (t.evaluateSteps p).zone (zoneOf p j)
    = { s.evaluatedZone p plan .emergency (if reached s.uptime e then s.uptime else e) j with preview := none } := by
  have hacting : (t.portal p).actingState = .emergency := by
    unfold Portal.actingState
    rw [h.state]
  have hrotation : t.turnedRotation p plan (zoneOf p j) = s.turnedRotation p plan (zoneOf p j) := by
    have hafter : ∀ src acc, (t.portal p).nightAfter plan src acc = (s.portal p).nightAfter plan src acc := fun src acc => by
      unfold Portal.nightAfter
      rw [h.night, h.lowCount]
    have hwas : (t.zone (zoneOf p j)).rotation = (s.zone (zoneOf p j)).rotation := by
      rw [hzone, Zone.rotation_litUp]
    unfold State.turnedRotation
    rw [h.inputs.cascade, hafter, h.night, hwas]
  rw [State.zone_evaluateSteps ((h.inputs.selectedPlan p).trans hplan) hacting (by decide) j, State.evaluatedZone_emergency,
    State.evaluatedZone_emergency, hrotation, hzone, h.uptime]
  exact Zone.litUp_again _ _ _ _

end

end Sys2Proof.Machine
end

