-- ==== Sys2Proof/Proofs/Obligations/PendingActions5.lean ====
section
/-! SUPPORT. The notices of a pending RELEASE that finds an emergency, and a pending STOP ORDERLY (R111, R112). -/

namespace Sys2Proof.Machine

variable {s t u : State} {p : Fin 4} {plan : Plan} {e : Uptime} {a : PendingAction}

/-! ### A zone at its capacity lit again announces nothing (R57, R77) -/

/-- A zone whose R is the smaller of 60 000 and its capacity, with no shortfall. -/
def Zone.Full (x : Zone) : Prop :=
  x.shortfall = false ∧ x.ramped = min 60000 x.capacity

theorem Zone.full_litUp (x : Zone) (now : Uptime) : (x.litUp now).Full :=
  ⟨x.shortfall_litUp now, by rw [Zone.ramped_litUp, Zone.capacity_litUp]⟩

theorem Zone.Full.sameLevels_litUp {x : Zone} (h : x.Full) (now : Uptime) (d : Nat) :
    x.SameLevels (({ x with demand := d } : Zone).litUp now) where
  shortfall := (Zone.shortfall_litUp _ now).trans h.1.symm
  ramped := (Zone.ramped_litUp _ now).trans h.2.symm
  capacity := Zone.capacity_litUp _ now

theorem State.full_emergencyZone {y : Fin 14} (z : Fin 14) (h : (s.zone y).Full) : ((s.emergencyZone z).zone y).Full := by
  rw [State.zone_emergencyZone]
  split
  · exact Zone.full_litUp _ _
  · exact h

theorem State.links_light {z : Fin 14} (h : (s.zone z).shortfall = false) : (s.light z).links = s.links := by
  have hkeep : (s.putZone z ((s.zone z).atCapacity.lightAll s.uptime)).testShortfall z
      = s.putZone z ((s.zone z).atCapacity.lightAll s.uptime) := by
    refine if_pos ?_
    rw [State.zone_putZone_self, Zone.shortfall_lightAll]
    exact h.trans (Zone.shortfall_litUp (s.zone z) s.uptime).symm
  rw [State.light, hkeep]
  rfl

theorem State.announces_emergencyZone_full {z : Fin 14} (h : (s.zone z).Full) :
    s.Announces (fun _ => False) (fun _ _ => False) (s.emergencyZone z) := by
  refine .quiet ?_ fun y => ?_
  · exact State.links_light (s := s.setZone z { s.zone z with demand := 60000 }) (by rw [State.zone_setZone_self]; exact h.1)
  · rw [State.zone_emergencyZone]
    split
    next hy => rw [hy]; exact h.sameLevels_litUp _ _
    next => exact .refl _

theorem State.announces_emergencyZones_full (zs : List (Fin 14)) (h : ∀ z ∈ zs, (s.zone z).Full) :
    s.Announces (fun _ => False) (fun _ _ => False) (zs.foldl State.emergencyZone s) := by
  induction zs generalizing s with
  | nil => exact .refl s
  | cons z zs ih =>
    have hfirst := State.announces_emergencyZone_full (h z List.mem_cons_self)
    have hrest := ih fun y hy => State.full_emergencyZone z (h y (List.mem_cons_of_mem _ hy))
    exact (hfirst.trans hrest fun _ _ => id).mono (fun _ h => h.elim id id) fun _ _ h => h.elim id id

/-- The steps after step 1 in EMERGENCY announce no shortfall where each zone of the portal stands at its capacity. -/
theorem State.announces_evaluateSteps_full (hplan : t.selectedPlan p = some plan) (hst : (t.portal p).state = .emergency)
    (hfull : ∀ z ∈ zonesOf p, (t.zone z).Full) :
    t.Announces (fun _ => False) (fun k _ => k = .source) (t.evaluateSteps p) := by
  have hacting : ((t.judged p plan).portal p).actingState = .emergency := by
    unfold Portal.actingState
    rw [State.portal_judged, hst]
  have hact : (t.judged p plan).act p plan = (zonesOf p).foldl State.emergencyZone (t.judged p plan) := by
    unfold State.act
    rw [hacting]
    rfl
  have hagain := State.announces_emergencyZones_full (s := t.judged p plan) (zonesOf p) fun z hz => by
    rw [State.zone_judged]
    split
    · exact hfull z hz
    · exact hfull z hz
  rw [← hact, ← State.evaluateSteps_eq hplan] at hagain
  exact (State.announces_judged.trans hagain fun _ _ => id).mono (fun _ h => h.elim id id) fun _ _ h => h.resolve_right id

theorem State.announces_releasedInto_worked :
    s.Announces (fun z => z ∈ zonesOf p ∨ z = interiorOf (boreOf p)) (fun k m => k = .portalState ∧ m = p.val)
      ((s.releasedInto p a).workCondition (boreOf p)) :=
  (State.announces_releasedInto.trans (State.announces_workCondition (K := fun _ _ => False) (boreOf p)) fun _ hz hi =>
    interiorOf_notMem_zonesOf (boreOf p) p (hi ▸ hz)).mono (fun _ => id) fun _ _ h => h.resolve_right id

theorem State.full_releasedInto_worked {z : Fin 14} (hz : z ∈ zonesOf p) :
    (((s.releasedInto p a).workCondition (boreOf p)).zone z).Full := by
  rw [State.zone_workCondition, if_neg fun hi => interiorOf_notMem_zonesOf _ p (hi ▸ hz), State.zone_releasedInto, if_pos hz]
  exact Zone.full_litUp _ _

/-! ### STOP ORDERLY (R112) -/

/-- The state once a STOP ORDERLY with nothing in flight has taken effect. -/
def State.stoppedOrderly (s : State) (p : Fin 4) (a : PendingAction) : State :=
  ((s.enterOffline p).removeAction p).answerAction p a .done

theorem State.announces_enterOffline_stopped {Z : Fin 14 → Prop} {K : NoticeKind → Nat → Prop} :
    (s.enterOffline p).Announces Z K (s.stoppedOrderly p a) := by
  rw [State.stoppedOrderly]
  exact State.announces_answered

theorem State.portal_stoppedOrderly (q : Fin 4) : (s.stoppedOrderly p a).portal q
    = if q = p then { (s.enterOffline p).portal p with action := none } else (s.enterOffline p).portal q := by
  rw [State.stoppedOrderly, State.portal_answered]

theorem State.zone_stoppedOrderly (z : Fin 14) : (s.stoppedOrderly p a).zone z = (s.enterOffline p).zone z := by
  rw [State.stoppedOrderly, State.zone_answerAction, State.zone_removeAction]

theorem State.responses_stoppedOrderly (k : Link) : ((s.stoppedOrderly p a).link k).responses = (s.link k).responses ++
    if a.link = k ∧ a.answerOwed = true ∧ a.ackWanted = true ∧ (s.link k).responses.length < 8 then [a.completion p] else [] := by
  have hbefore : (((s.enterOffline p).removeAction p).link k).responses = (s.link k).responses :=
    State.onlyNotices.responses ((State.notices_enterOffline s p).trans (State.notices_removeAction _ p)) k
  rw [State.stoppedOrderly, State.link_answerAction_done]
  dsimp only
  rw [hbefore]

end Sys2Proof.Machine
end

