-- ==== Sys2Proof/Proofs/Obligations/PendingActions6.lean ====
section
/-! SUPPORT. Step 1 of an evaluation by the kind of its pending action, and the statement about pending actions that take
effect (O36). -/

namespace Sys2Proof.Machine

variable {s t u : State} {p : Fin 4} {plan : Plan} {e : Uptime} {a : PendingAction}

/-! ### The pending action taken (R110 to R112) -/

section
variable (ha : (s.portal p).action = some a)
include ha

theorem State.takeAction_hold (hk : a.kind = .hold) :
    s.takeAction p = (s.transferred p .held a).workCondition (boreOf p) := by
  unfold State.takeAction
  rw [ha]
  dsimp only
  rw [hk]
  rfl

theorem State.takeAction_release (hk : a.kind = .release) : s.takeAction p
    = if (s.bore (boreOf p)).emergency = true then (s.releasedInto p a).workCondition (boreOf p)
      else (s.transferred p .auto a).workCondition (boreOf p) := by
  unfold State.takeAction
  rw [ha]
  dsimp only
  rw [hk]
  rfl

theorem State.takeAction_stop (hk : a.kind = .stopOrderly) (hflight : s.portalInFlight p = false) :
    s.takeAction p = s.stoppedOrderly p a := by
  unfold State.takeAction
  rw [ha]
  dsimp only
  rw [hk]
  exact if_neg (by rw [hflight]; decide)

end

theorem State.evaluatePortal_of_taken (htake : s.takeAction p = t) :
    s.evaluatePortal p = if (t.portal p).state = .offline then t else t.evaluateSteps p := by
  rw [State.evaluatePortal, htake]

theorem State.ConditionsFollow.atPortalEvaluation (hc : s.ConditionsFollow) : (s.atPortalEvaluation p e).ConditionsFollow :=
  hc.congr (fun _ => rfl) fun q => by
    by_cases hq : q = p
    · rw [hq, State.portal_atPortalEvaluation]
    · rw [State.portal_atPortalEvaluation_ne hq]

/-- The evaluation of a portal whose pending action leaves it in service: the steps run on the state of step 1. -/
theorem State.Effected.exec {st : PortalState} {act : Option ActionKind} (h : s.Effected p e a st act t)
    (hs : s.Settled) (he : (s.portal p).timer = some e) (htake : (s.atPortalEvaluation p e).takeAction p = t) (hst : st ≠ .offline) :
    Machine.exec (.portalEvaluation p) s = .next (t.evaluateSteps p).arbitrate := by
  rw [exec_portalEvaluation hs he, State.evaluatePortal_of_taken htake, if_neg (by rw [h.state]; exact hst)]

/-! ### STOP ORDERLY (R112) -/

/-- What a STOP ORDERLY that takes effect leaves of the portal, its source and its zones. -/
theorem State.portal_stoppedOrderly_self : (s.stoppedOrderly p a).portal p = { s.portal p with
    state := .offline, timer := none, source := none, access := none, planInUse := none, role := none, night := false,
    lowCount := 0, override := none, action := none, dryRun := none } := by
  rw [State.portal_stoppedOrderly, if_pos rfl, State.portal_enterOffline, if_pos rfl]
  rfl

theorem State.waiting_stoppedOrderly {n : Notice} (h : (s.enterOffline p).Waiting n) (hn : n.kind ≠ .shortfall) :
    (s.stoppedOrderly p a).Waiting n :=
  (State.announces_enterOffline_stopped (Z := fun _ => False) (K := fun _ _ => False)).waiting h hn id

theorem State.pullsOff_stoppedOrderly : s.PullsOff (s.stoppedOrderly p a) p ((s.portal p).source = some .own) :=
  (State.pullsOff_enterOffline p).then (fun q hq => by rw [State.portal_stoppedOrderly, if_neg hq])
    (State.announces_enterOffline_stopped (Z := fun _ => False) (K := fun _ _ => False)) fun _ => id

theorem State.raised_stoppedOrderly : s.ShortfallsRaised (s.stoppedOrderly p a) :=
  ((State.announces_enterOffline p).trans (State.announces_enterOffline_stopped (Z := fun _ => False) (K := fun _ _ => False))
    fun _ _ => id).raised

theorem State.zone_stoppedOrderly_ne {q : Fin 4} (hq : q ≠ p) {z : Fin 14} (hz : z ∈ zonesOf q) :
    (s.stoppedOrderly p a).zone z = s.zone z := by
  have hother : z ∉ zonesOf p := fun h =>
    hq (Owner.portal.inj ((mem_zonesOf_iff_owner.mp hz).symm.trans (mem_zonesOf_iff_owner.mp h)))
  rw [State.zone_stoppedOrderly, State.zone_enterOffline, if_neg hother, if_neg fun h => interiorOf_notMem_zonesOf _ q (h ▸ hz)]

theorem State.zone_stoppedOrderly_self {z : Fin 14} (hz : z ∈ zonesOf p) :
    (s.zone z).releasedFrom ((s.stoppedOrderly p a).zone z) := by
  rw [State.zone_stoppedOrderly, State.zone_enterOffline, if_pos hz]
  exact Zone.releasedFrom_stopped _

theorem State.uptime_stoppedOrderly : (s.stoppedOrderly p a).uptime = s.uptime :=
  ((s.acts_enterOffline p).trans ((State.acts_removeAction _ p).trans (State.acts_answerAction _ p a _))).uptime

/-- Settles O36. -/
theorem pendingActionsTakeEffect : Obligations.PendingActionsTakeEffect := by
  intro s p e a plan hs hc he ha hplan x now answered ends
  have hself := State.portal_atPortalEvaluation (s := s) (p := p) e
  have haction : ((s.atPortalEvaluation p e).portal p).action = some a := by
    rw [hself]
    exact ha
  have hfollow : (s.atPortalEvaluation p e).ConditionsFollow := hc.atPortalEvaluation
  have hin : ∀ {st : PortalState} {act : Option ActionKind} {t : State}, s.Effected p e a st act t → st ≠ .offline →
      (s.atPortalEvaluation p e).takeAction p = t → s.ShortfallsRaised (t.evaluateSteps p) →
      ends st x.role act (t.evaluateSteps p) ∧ ((t.evaluateSteps p).portal p).timer = some (e + 1000) := by
    intro st act t h hst htake hraised
    obtain ⟨huptime, hcond, hresponses, hstate, hnone, hwait, hsource, hpulls, hzones, htimer⟩ :=
      h.steps hplan (htake ▸ hfollow.takeAction p)
    exact ⟨⟨h.exec hs he htake hst, huptime, hcond, hresponses, hstate, hnone, hwait, hsource, hpulls, hzones, hraised⟩, htimer⟩
  refine ⟨fun hk hst => ?_, fun hk hst hem => ?_, fun hk hst hem => ?_, fun hk h1 h2 hflight => ?_⟩
  · have h := State.effected_transferred (e := e) ha .held
    rw [hk] at h
    obtain ⟨hends, htimer⟩ := hin h (by decide) (State.takeAction_hold haction hk)
      (State.raised_transferred .held ((h.inputs.selectedPlan p).trans hplan))
    exact ⟨_, hends, htimer, State.zone_transferred_evaluateSteps (.inl rfl) hplan (hk ▸ h)⟩
  · have h := State.effected_transferred (e := e) ha .auto
    rw [hk] at h
    have htake := State.takeAction_release haction hk
    rw [if_neg (by rw [show ((s.atPortalEvaluation p e).bore (boreOf p)).emergency = false from hem]; decide)] at htake
    obtain ⟨hends, htimer⟩ := hin h (by decide) htake
      (State.raised_transferred .auto ((h.inputs.selectedPlan p).trans hplan))
    exact ⟨_, hends, htimer, State.zone_transferred_evaluateSteps (.inr rfl) hplan (hk ▸ h)⟩
  · have h := State.effected_releasedInto (s := s) (p := p) (e := e) (a := a)
    have htake := State.takeAction_release haction hk
    rw [if_pos (show ((s.atPortalEvaluation p e).bore (boreOf p)).emergency = true from hem)] at htake
    have hraised := State.announces_releasedInto_worked.trans (State.announces_evaluateSteps_full
      ((h.inputs.selectedPlan p).trans hplan) h.state fun z => State.full_releasedInto_worked) fun _ _ => id
    obtain ⟨hends, htimer⟩ := hin h (by decide) htake
      (State.Announces.after_quiet (t := s.atPortalEvaluation p e) rfl (fun _ => .refl _) hraised).raised
    refine ⟨_, hends, htimer, h.zone_emergency (fun j => ?_) hplan⟩
    have hmem : zoneOf p j ∈ zonesOf p := mem_zonesOf.mpr ⟨j, rfl⟩
    rw [State.zone_workCondition, if_neg fun hi => interiorOf_notMem_zonesOf _ p (hi ▸ hmem), State.zone_releasedInto, if_pos hmem]
    rfl
  · have htake := State.takeAction_stop haction hk hflight
    have hself' := State.portal_stoppedOrderly_self (s := s.atPortalEvaluation p e) (p := p) (a := a)
    rw [hself] at hself'
    have hwait := State.waiting_enterOffline (s := s.atPortalEvaluation p e) p
    have hkind : (some a).map PendingAction.kind = some .stopOrderly := congrArg some hk
    rw [haction, hkind] at hwait
    have hsource := State.waiting_source_enterOffline (s := s.atPortalEvaluation p e) (p := p)
    have hpulls := State.pullsOff_stoppedOrderly (s := s.atPortalEvaluation p e) (p := p) (a := a)
    rw [hself] at hsource hpulls
    refine ⟨(s.atPortalEvaluation p e).stoppedOrderly p a, ⟨?_, State.uptime_stoppedOrderly, htake ▸ hfollow.takeAction p,
      State.responses_stoppedOrderly, congrArg Portal.state hself', congrArg Portal.action hself',
      State.waiting_stoppedOrderly hwait (fun h => by cases h), fun hne => ?_, ?_, fun q hq z hz => ?_, ?_⟩, hself',
      fun z hz => State.zone_stoppedOrderly_self (s := s.atPortalEvaluation p e) hz⟩
    · rw [exec_portalEvaluation hs he, State.evaluatePortal_of_taken htake, if_pos (congrArg Portal.state hself')]
    · rw [congrArg Portal.source hself'] at hne ⊢
      rw [congrArg Portal.access hself']
      exact State.waiting_stoppedOrderly (hsource (Option.isSome_iff_ne_none.mpr hne)) fun h => by cases h
    · have hleaves : (x.source = some .own ∧ (((s.atPortalEvaluation p e).stoppedOrderly p a).portal p).source ≠ some .own)
          = (x.source = some .own) := by
        rw [congrArg Portal.source hself']
        exact propext ⟨And.left, fun h => ⟨h, fun h => by cases h⟩⟩
      rw [hleaves]
      exact hpulls.after (fun q hq => State.portal_atPortalEvaluation_ne hq e) fun q _ =>
        (State.sameInputs_atPortalEvaluation e).lateCascade q
    · exact State.zone_stoppedOrderly_ne (s := s.atPortalEvaluation p e) hq hz
    · exact State.raised_stoppedOrderly (s := s.atPortalEvaluation p e)

end Sys2Proof.Machine
end

