-- ==== Sys2Proof/Proofs/Obligations/Settings.lean ====
section
/-! SUPPORT. What each effect of a command leaves of the settings, the input state and the PWM periods (O6). -/

namespace Sys2Proof.Machine

/-! ### What a command leaves -/

/-- Commands that begin a PWM period, or may begin or end the serving of lines (R149, R151). -/
def setsPeriods : Instr → Prop
  | .pwmPeriodStart | .writeLine _ | .commission _ | .stopImmediate _ | .portalEvaluation _ => True
  | _ => False

/-- The second state has the settings of the first, but for those that the command writes, and its PWM periods where the
command sets none and the conditions follow. -/
structure State.Tended (c : Instr) (s t : State) : Prop where
  schedule : (∀ l, c ≠ .writeSchedule l) → t.schedule = s.schedule
  clock : (∀ l, c ≠ .setClock l) → c ≠ .minuteAdvance → t.clock = s.clock
  lines : (∀ l, c ≠ .writeLine l) → ∀ i, (t.line i).fn = (s.line i).fn ∧ (t.line i).invert = (s.line i).invert
  setups : (∀ l, c ≠ .writePortalSetup l) → ∀ p, (t.portal p).meter = (s.portal p).meter
    ∧ (t.portal p).partner = (s.portal p).partner ∧ (t.portal p).factor = (s.portal p).factor
  plans : (∀ l, c ≠ .writePlan l) → ∀ p, (t.portal p).planA = (s.portal p).planA ∧ (t.portal p).planB = (s.portal p).planB
  modes : (∀ l, c ≠ .directionSet l) → ∀ b, (t.bore b).mode = (s.bore b).mode
  timeouts : (∀ l, c ≠ .writeBoreSetup l) → ∀ b, (t.bore b).staleTimeout = (s.bore b).staleTimeout
  zones : (∀ l, c ≠ .writeZone l) → ∀ z, (s.zone z).SameSetup (t.zone z)
  meters : (∀ m, c ≠ .gateExpiry m) → (∀ x, c ≠ .meterEdge x) → (∀ l, c ≠ .writeLine l) → (∀ l, c ≠ .writeMeterSetup l) →
    t.meters = s.meters
  inputs : (∀ pins, c ≠ .feedbackSample pins) → (∀ i, c ≠ .feedbackChange i) → (∀ l, c ≠ .writeLine l) →
    ∀ i, (t.line i).debounced = (s.line i).debounced ∧ (t.line i).count = (s.line i).count
  edges : (∀ x, c ≠ .meterEdge x) → (∀ l, c ≠ .writeLine l) → ∀ i, (t.line i).edge = (s.line i).edge
  follow : s.ConditionsFollow → t.ConditionsFollow
  periods : ¬ setsPeriods c → s.ConditionsFollow → ∀ i, (t.line i).period = (s.line i).period

namespace State.Tended

variable {c : Instr} {s t u : State}

theorem trans (h : s.Tended c t) (k : t.Tended c u) : s.Tended c u where
  schedule hc := (k.schedule hc).trans (h.schedule hc)
  clock hc hm := (k.clock hc hm).trans (h.clock hc hm)
  lines hc i := ⟨(k.lines hc i).1.trans (h.lines hc i).1, (k.lines hc i).2.trans (h.lines hc i).2⟩
  setups hc p := ⟨(k.setups hc p).1.trans (h.setups hc p).1, (k.setups hc p).2.1.trans (h.setups hc p).2.1,
    (k.setups hc p).2.2.trans (h.setups hc p).2.2⟩
  plans hc p := ⟨(k.plans hc p).1.trans (h.plans hc p).1, (k.plans hc p).2.trans (h.plans hc p).2⟩
  modes hc b := (k.modes hc b).trans (h.modes hc b)
  timeouts hc b := (k.timeouts hc b).trans (h.timeouts hc b)
  zones hc z := (h.zones hc z).trans (k.zones hc z)
  meters h1 h2 h3 h4 := (k.meters h1 h2 h3 h4).trans (h.meters h1 h2 h3 h4)
  inputs h1 h2 h3 i := ⟨(k.inputs h1 h2 h3 i).1.trans (h.inputs h1 h2 h3 i).1,
    (k.inputs h1 h2 h3 i).2.trans (h.inputs h1 h2 h3 i).2⟩
  edges h1 h2 i := (k.edges h1 h2 i).trans (h.edges h1 h2 i)
  follow hc := k.follow (h.follow hc)
  periods hc hs i := (k.periods hc (h.follow hs) i).trans (h.periods hc hs i)

/-- Shared work leaves every setting, and the periods where it moves no supervision. -/
theorem of_works (h : s.Works t) (hf : s.ConditionsFollow → t.ConditionsFollow)
    (hp : ¬ setsPeriods c → s.ConditionsFollow → ∀ i, (t.line i).period = (s.line i).period) : s.Tended c t where
  schedule _ := h.acts.schedule
  clock _ _ := h.acts.clock
  lines _ i := by rw [h.lines i]; exact ⟨rfl, rfl⟩
  setups _ p := ⟨(h.portals p).meter, (h.portals p).partner, (h.portals p).factor⟩
  plans _ p := ⟨(h.portals p).planA, (h.portals p).planB⟩
  modes _ b := (h.bores b).mode
  timeouts _ b := (h.bores b).staleTimeout
  zones _ := h.zones
  meters _ _ _ _ := h.acts.meters
  inputs _ _ _ i := by rw [h.lines i]; exact ⟨rfl, rfl⟩
  edges _ _ i := by rw [h.lines i]
  follow := hf
  periods := hp

theorem of_moves (h : s.Moves t) (hf : s.ConditionsFollow → t.ConditionsFollow) : s.Tended c t :=
  .of_works h.works hf fun _ _ => h.periods

theorem refl (s : State) : s.Tended c s :=
  .of_moves (.refl s) id

/-- What the links hold, what actions owe and the draws have no part in the settings. -/
theorem of_records (h : s.SameRecords t) (hclock : t.clock = s.clock) : s.Tended c t := by
  have hline : ∀ i, t.line i = s.line i := fun i => by rw [State.line, h.lines]; rfl
  have hbore : ∀ b, t.bore b = s.bore b := fun b => by rw [State.bore, h.bores]; rfl
  have hzone : ∀ z, t.zone z = s.zone z := fun z => by rw [State.zone, h.zones]; rfl
  exact
    { schedule := fun _ => h.schedule
      clock := fun _ _ => hclock
      lines := fun _ i => by rw [hline]; exact ⟨rfl, rfl⟩
      setups := fun _ p => by rw [h.portals p]; exact ⟨rfl, rfl, rfl⟩
      plans := fun _ p => by rw [h.portals p]; exact ⟨rfl, rfl⟩
      modes := fun _ b => by rw [hbore]
      timeouts := fun _ b => by rw [hbore]
      zones := fun _ z => by rw [hzone]; exact .refl _
      meters := fun _ _ _ _ => h.meters
      inputs := fun _ _ _ i => by rw [hline]; exact ⟨rfl, rfl⟩
      edges := fun _ _ i => by rw [hline]
      follow := conditionsFollow_kept.keptByWork.same s t h
      periods := fun _ _ i => by rw [hline] }

theorem arbitrate (s : State) : s.Tended c s.arbitrate :=
  .of_records (.of_eq rfl rfl rfl rfl rfl rfl) rfl

theorem setLink (s : State) (l : Link) (x : LinkRec) : s.Tended c (s.setLink l x) :=
  .of_records (.of_eq rfl rfl rfl rfl rfl rfl) rfl

theorem retimed (s : State) (u : Uptime) (bd sd pd : Uptime) (pins : BitVec 192) :
    s.Tended c (s.retimed u s.clock bd sd pd pins) :=
  .of_records (.of_eq rfl rfl rfl rfl rfl rfl) rfl

theorem respond (s : State) (l : Link) (r : Request) (x : Option Reply) : s.Tended c (s.respond l r x) := by
  unfold State.respond
  split
  · exact .refl s
  · split
    · exact .of_records (.of_eq rfl rfl rfl rfl rfl rfl) rfl
    · exact .refl s

/-! ### Takes and units -/

theorem event {f : State → State} (hf : ∀ s, State.Tended c s (f s)) (s : State) : s.Tended c (s.event f) :=
  event_keeps (P := fun t => s.Tended c t) (fun t ht => ht.trans (.arbitrate t)) (fun t ht => ht.trans (hf t)) s (.refl s)

theorem take {l : Link} {mine : Request → Bool} {act : Handler} (ha : ∀ r s, State.Tended c s (act r s).1) (s : State) :
    s.Tended c (s.take l mine act) := by
  refine event (fun t => ?_) s
  split
  · exact .refl t
  next r _ =>
    split
    · exact ((setLink t l _).trans (ha r (t.popRequest l))).trans (.respond _ l r _)
    · exact .refl t

theorem checked {l : Link} {code : ReqCode} {act : Handler} {r : Request} (ha : s.Tended c (act r s).1) :
    s.Tended c (Machine.checked l code act r s).1 :=
  checked_keeps (Q := fun u => s.Tended c u) (.refl s) ha

theorem takeFor {l : Link} {code : ReqCode} {act : Handler} (ha : ∀ r s, State.Tended c s (act r s).1) (s : State) :
    s.Tended c (s.takeFor l code act) :=
  take (fun r t => checked (ha r t)) s

theorem onUnit {n : Nat} {act : Fin n → Handler} {r : Request} (ha : ∀ u, s.Tended c (act u r s).1) :
    s.Tended c (Machine.onUnit n act r s).1 :=
  onUnit_keeps (Q := fun u => s.Tended c u) (.refl s) ha

theorem visitAll {n : Nat} {α : Type} {f : Fin n → State → State × Option α} (hf : ∀ u s, State.Tended c s (f u s).1)
    (us : List (Fin n)) (s : State) : s.Tended c (Machine.visitAll f us s).1 :=
  visitAll_keeps_prop (Q := fun u => s.Tended c u) (fun u t ht => ht.trans (hf u t)) us s (.refl s)

theorem overUnits {n : Nat} {d : Option Disposition} {visit : Fin n → State → State × Disposition} {r : Request}
    (h : ∀ u s, State.Tended c s (visit u s).1) (s : State) : s.Tended c (Machine.overUnits n d visit r s).1 :=
  overUnits_keeps (Q := fun u => s.Tended c u) (.refl s) fun u t ht => ht.trans (h u t)

/-- A request that is refused for every unit, or answered without a change. -/
theorem overUnits_same {n : Nat} {d : Option Disposition} {x : Disposition} {r : Request} (s : State) :
    s.Tended c (Machine.overUnits n d (fun _ t => (t, x)) r s).1 :=
  overUnits (fun _ t => .refl t) s

theorem foldl {α : Type} {f : State → α → State} (hf : ∀ s a, State.Tended c s (f s a)) (as : List α) (s : State) :
    s.Tended c (as.foldl f s) := by
  induction as generalizing s with
  | nil => exact .refl s
  | cons a as ih => exact (hf s a).trans (ih _)

theorem deferAll (l : Link) (kind : ActionKind) (r : Request) (s : State) : s.Tended c (Machine.deferAll kind l r s).1 := by
  unfold Machine.deferAll
  split
  · exact .refl s
  · exact visitAll (fun p t => .of_moves (t.moves_deferOne p kind l r) (conditionsFollow_kept.defer t kind l r p)) _ s

end State.Tended

/-! ### The writes of settings -/

section
variable (s : State) (l : Link)

theorem State.tended_writeLine (fn : LineFn) (invert : Bool) (i : Fin 192) :
    s.Tended (.writeLine l) (s.writeLine fn invert i) := by
  have hset : s.Tended (.writeLine l) (s.setLine i (Line.written fn invert)) :=
    { State.Tended.refl s with
      lines := fun h => absurd rfl (h l)
      inputs := fun _ _ h => absurd rfl (h l)
      edges := fun _ h => absurd rfl (h l)
      periods := fun h => absurd trivial h }
  have hrestart : ∀ (t : State) m, t.Tended (.writeLine l) (t.restartMeter m) := fun t m =>
    { State.Tended.refl t with meters := fun _ _ h => absurd rfl (h l) }
  obtain ⟨-, heq⟩ | ⟨-, ⟨heq, -⟩ | ⟨m, -, -, heq⟩⟩ := State.writeLine_cases fn invert s i <;> rw [heq]
  · exact .refl s
  · exact hset
  · exact hset.trans (hrestart _ m)

theorem State.tended_writeMeterSetup (m : Fin 4) (u : MeterSetup) :
    s.Tended (.writeMeterSetup l) ((s.setMeter m ((s.meter m).withSetup u)).restartMeter m) :=
  { State.Tended.refl s with meters := fun _ _ _ h => absurd rfl (h l) }

theorem State.tended_writeSchedule (ws : List Window) : s.Tended (.writeSchedule l) { s with schedule := ws } :=
  { State.Tended.refl s with schedule := fun h => absurd rfl (h l) }

theorem State.tended_setClock (k : Option Clock) : s.Tended (.setClock l) { s with clock := k } :=
  { State.Tended.refl s with clock := fun h => absurd rfl (h l) }

/-- A field of a portal record that a write leaves. -/
theorem State.portal_setPortal_field {α : Type} {f : Portal → α} {p : Fin 4} {x : Portal} (h : f x = f (s.portal p)) (q : Fin 4) :
    f ((s.setPortal p x).portal q) = f (s.portal q) := by
  rw [State.portal_setPortal]
  split
  next hq => rw [hq, h]
  next => rfl

theorem State.tended_writePortalSetup (p : Fin 4) (m : Option (Fin 4)) (q : Option (Fin 4)) (f : Nat) :
    s.Tended (.writePortalSetup l) (s.setPortal p { s.portal p with meter := m, partner := q, factor := f }) :=
  { State.Tended.refl s with
    setups := fun h => absurd rfl (h l)
    plans := fun _ r => ⟨s.portal_setPortal_field (f := Portal.planA) (by rfl) r, s.portal_setPortal_field (f := Portal.planB) (by rfl) r⟩
    follow := fun h => h.setPortal rfl }

theorem State.tended_writePlan (w : PlanSlot × Option Plan) (p : Fin 4) : s.Tended (.writePlan l) (s.writePlan w p).1 := by
  have hstate : ((s.portal p).withPlan w.1 w.2).state = (s.portal p).state := by
    unfold Portal.withPlan
    split <;> rfl
  have hsetup : ∀ {α : Type} (f : Portal → α), (∀ x a, f { x with planA := a } = f x) → (∀ x a, f { x with planB := a } = f x) →
      ∀ r, f ((s.setPortal p ((s.portal p).withPlan w.1 w.2)).portal r) = f (s.portal r) := fun f ha hb r =>
    s.portal_setPortal_field (by
      unfold Portal.withPlan
      split
      · exact ha _ _
      · exact hb _ _) r
  have hset : s.Tended (.writePlan l) (s.setPortal p ((s.portal p).withPlan w.1 w.2)) :=
    { State.Tended.refl s with
      setups := fun _ r => ⟨hsetup Portal.meter (fun _ _ => rfl) (fun _ _ => rfl) r,
        hsetup Portal.partner (fun _ _ => rfl) (fun _ _ => rfl) r, hsetup Portal.factor (fun _ _ => rfl) (fun _ _ => rfl) r⟩
      plans := fun h => absurd rfl (h l)
      follow := fun h => h.setPortal hstate }
  unfold State.writePlan
  split
  case h_4 | h_5 => exact .refl s
  all_goals exact hset

/-- A field of a bore record that a write leaves. -/
theorem State.bore_setBore_field {α : Type} {f : Bore → α} {b : Fin 2} {x : Bore} (h : f x = f (s.bore b)) (d : Fin 2) :
    f ((s.setBore b x).bore d) = f (s.bore d) := by
  rw [State.bore_setBore]
  split
  next hd => rw [hd, h]
  next => rfl

theorem State.tended_writeBoreSetup (b : Fin 2) (n : Nat) :
    s.Tended (.writeBoreSetup l) (s.setBore b { s.bore b with staleTimeout := n }) :=
  { State.Tended.refl s with
    modes := fun _ => s.bore_setBore_field (f := Bore.mode) (by rfl)
    timeouts := fun h => absurd rfl (h l)
    follow := fun h => h.congr (fun d => s.bore_setBore_field (f := Bore.condition) (by rfl) d) fun _ => rfl }

theorem State.tended_directionOne (mode : DirectionMode) (b : Fin 2) :
    s.Tended (.directionSet l) (State.directionOne mode b s).1 := by
  have hset : s.Tended (.directionSet l) ((s.setBore b { s.bore b with mode := mode }).raiseTrafficState b) :=
    { State.Tended.refl s with
      modes := fun h => absurd rfl (h l)
      timeouts := fun _ => s.bore_setBore_field (f := Bore.staleTimeout) (by rfl)
      follow := fun h => h.congr (fun d => s.bore_setBore_field (f := Bore.condition) (by rfl) d) fun _ => rfl }
  unfold State.directionOne
  dsimp only
  split
  · exact .refl s
  · exact hset

theorem State.tended_writeZone (z : Fin 14) (x : Zone) :
    s.Tended (.writeZone l) ((s.setZone z x).raiseFaultChange z (s.zone z)) := by
  have hset : s.Tended (.writeZone l) (s.setZone z x) :=
    { State.Tended.refl s with zones := fun h => absurd rfl (h l) }
  exact hset.trans (.of_moves (State.moves_raiseFaultChange _ z _) fun h => h.congr (fun _ => by simp) fun _ => by simp)

end

/-! ### The inputs -/

section
variable (s : State)

theorem State.tended_endGate (m : Fin 4) (e : Uptime) : s.Tended (.gateExpiry m) (s.endGate m e) := by
  have hset : s.Tended (.gateExpiry m) (s.setMeter m ((s.meter m).gateExpired e)) :=
    { State.Tended.refl s with meters := fun h => absurd rfl (h m) }
  unfold State.endGate
  dsimp only
  split
  · exact hset
  · exact hset.trans (.of_moves (State.moves_raise _ _) fun h => h.congr (fun _ => rfl) fun _ => rfl)

theorem State.tended_readPin (x : PinReading) (d : EdgeDetector) : s.Tended (.meterEdge x) (s.readPin x d) := by
  have hline : ∀ {α : Type} (f : Line → α), (∀ y a, f { y with edge := a } = f y) → ∀ i,
      f (((s.setPin x.line x.level).setLine x.line
        { s.line x.line with edge := some (d.read ((s.line x.line).raw x.level) x.periods) }).line i) = f (s.line i) := by
    intro α f hf i
    rw [State.line_setLine]
    split
    next hi => rw [hi, hf]
    next => rfl
  have hset : s.Tended (.meterEdge x) ((s.setPin x.line x.level).setLine x.line
      { s.line x.line with edge := some (d.read ((s.line x.line).raw x.level) x.periods) }) :=
    { State.Tended.refl s with
      lines := fun _ i => ⟨hline Line.fn (fun _ _ => rfl) i, hline Line.invert (fun _ _ => rfl) i⟩
      inputs := fun _ _ _ i => ⟨hline Line.debounced (fun _ _ => rfl) i, hline Line.count (fun _ _ => rfl) i⟩
      edges := fun h => absurd rfl (h x)
      periods := fun _ _ => hline Line.period fun _ _ => rfl }
  have hmeter : ∀ (t : State) m y, t.Tended (.meterEdge x) (t.setMeter m y) := fun t m y =>
    { State.Tended.refl t with meters := fun _ h => absurd rfl (h x) }
  obtain heq | ⟨-, m, -, heq⟩ := s.readPin_cases x d <;> rw [heq]
  · exact hset
  · exact hset.trans (hmeter _ m _)

/-- A sample is an event of its own two commands: it leaves all but what the lines hold of their pins. -/
theorem State.tended_sampleLines {c : Instr} (hc : (∃ pins, c = .feedbackSample pins) ∨ ∃ i, c = .feedbackChange i)
    (which : Fin 192 → Bool) (pins : BitVec 192) : s.Tended c (s.sampleLines which pins) := by
  have hline : ∀ {α : Type} (f : Line → α), (∀ y a b, f { y with debounced := a, count := b } = f y) → ∀ i,
      f ((s.sampleLines which pins).line i) = f (s.line i) := by
    intro α f hf i
    rw [State.line_sampleLines]
    split
    · obtain ⟨heq, -⟩ | ⟨n, -, -, ⟨-, heq⟩ | ⟨-, -, heq⟩ | ⟨-, -, -, heq⟩⟩ :=
        Line.sampled_cases (pins.getLsbD i.val) (s.line i) <;> rw [heq] <;> exact hf _ _ _
    · rfl
  exact
    { State.Tended.refl s with
      lines := fun _ i => ⟨hline Line.fn (fun _ _ _ => rfl) i, hline Line.invert (fun _ _ _ => rfl) i⟩
      zones := fun _ z => by
        rw [State.zone_sampleLines]
        split
        · refine .slots fun k => ?_
          rw [Tab.get_mapWith, Option.map_map]
          congr 1
          funext x
          exact Circuit.setup_takeSample s which pins _ x
        · exact .refl _
      inputs := fun h1 h2 => by
        obtain ⟨p, rfl⟩ | ⟨i, rfl⟩ := hc
        · exact absurd rfl (h1 p)
        · exact absurd rfl (h2 i)
      edges := fun _ _ => hline Line.edge fun _ _ _ => rfl
      periods := fun _ _ => hline Line.period fun _ _ _ => rfl }

end

end Sys2Proof.Machine
end

