-- ==== Sys2Proof/Proofs/Obligations/Settings2.lean ====
section
/-! SUPPORT. What every command leaves of the settings, the input state and the PWM periods, and the statement about it
(O6). -/

namespace Sys2Proof.Machine

/-! ### One effect of a command -/

section
variable {c : Instr}

theorem State.tended_putCircuit (s : State) (z : Fin 14) (k : Fin 8) {f : Circuit → Circuit} (hf : ∀ x, (f x).setup = x.setup) :
    s.Tended c (s.putCircuit z k f) :=
  .of_moves (s.moves_putCircuit z k hf) fun h => h.congr (fun _ => by simp [State.putCircuit]) fun _ => by simp [State.putCircuit]

theorem State.tended_period (s : State) : s.Tended .pwmPeriodStart { s with lines := s.lines.mapWith fun _ x => x.periodStart } :=
  .of_works s.works_period id fun h => absurd trivial h

theorem State.tended_portalEvaluation (s : State) (p : Fin 4) (e : Uptime) (he : (s.portal p).timer = some e) :
    s.Tended (.portalEvaluation p) ((s.setPortal p { s.portal p with timer := some (msAfter e 1000) }).evaluatePortal p) :=
  .of_works ((s.works_setPortal p (by exact ⟨rfl, rfl, rfl, rfl, rfl⟩)).trans (State.works_evaluatePortal _ p))
    (conditionsFollow_kept.portalEvaluation s p e he) fun h => absurd trivial h

theorem State.tended_commissionOne (s : State) (l : Link) (p : Fin 4) : s.Tended (.commission l) (s.commissionOne p).1 :=
  .of_works (s.works_commissionOne p) (conditionsFollow_kept.commission s p) fun h => absurd trivial h

theorem State.tended_stopOne (s : State) (l : Link) (p : Fin 4) : s.Tended (.stopImmediate l) (State.stopOne p s).1 :=
  .of_works (s.works_stopOne p) (conditionsFollow_kept.stop s p) fun h => absurd trivial h

end

/-! ### One command -/

/-- The command leaves the settings that it does not write. -/
def KeepsOwn (c : Instr) : Prop :=
  ∀ s, ∃ t, exec c s = .next t ∧ s.Tended c t

theorem keepsOwn_rxOctet (l : Link) (o : Octet) (e : Bool) : KeepsOwn (.rxOctet l o e) :=
  fun s => ⟨_, rfl, .event (fun t => .setLink t l _) s⟩

theorem keepsOwn_gapTimerExpiry (l : Link) : KeepsOwn (.gapTimerExpiry l) := fun s => by
  refine ⟨_, rfl, .event (fun t => ?_) s⟩
  split
  · exact .refl t
  next os gap _ => exact (State.Tended.retimed t _ _ _ _ _).trans (.setLink (t.reach gap) l _)
  · exact .refl t

theorem keepsOwn_linkRestart (l : Link) : KeepsOwn (.linkRestart l) := fun s => by
  refine ⟨_, rfl, .event (fun t => ?_) s⟩
  split
  · exact .refl t
  next => exact .of_records (t.sameRecords_restart l _) rfl

theorem keepsOwn_lineReturnsToMark (l : Link) : KeepsOwn (.lineReturnsToMark l) := fun s => by
  refine ⟨_, rfl, .event (fun t => ?_) s⟩
  split
  · exact .setLink t l _
  · exact .refl t

theorem keepsOwn_transmissionEnd (l : Link) : KeepsOwn (.transmissionEnd l) := fun s => by
  refine ⟨_, rfl, .event (fun t => ?_) s⟩
  split
  · exact .refl t
  · exact .setLink t l _
  · exact .refl t

theorem keepsOwn_unknownCode (l : Link) : KeepsOwn (.unknownCode l) := fun s => ⟨_, rfl, .take (fun _ t => .refl t) s⟩

theorem keepsOwn_echo (l : Link) : KeepsOwn (.echo l) := fun s => ⟨_, rfl, .takeFor (fun _ t => .refl t) s⟩

theorem keepsOwn_setNoticeMask (l : Link) : KeepsOwn (.setNoticeMask l) :=
  fun s => ⟨_, rfl, .takeFor (fun _ t => .setLink t l _) s⟩

theorem keepsOwn_readPortal (l : Link) : KeepsOwn (.readPortal l) :=
  fun s => ⟨_, rfl, .takeFor (fun _ t => readUnits_state.symm ▸ .refl t) s⟩

theorem keepsOwn_readBore (l : Link) : KeepsOwn (.readBore l) :=
  fun s => ⟨_, rfl, .takeFor (fun _ t => readUnits_state.symm ▸ .refl t) s⟩

theorem keepsOwn_readZone (l : Link) : KeepsOwn (.readZone l) :=
  fun s => ⟨_, rfl, .takeFor (fun _ t => .onUnit fun _ => .refl t) s⟩

theorem keepsOwn_readMeter (l : Link) : KeepsOwn (.readMeter l) :=
  fun s => ⟨_, rfl, .takeFor (fun _ t => .onUnit fun _ => .refl t) s⟩

theorem keepsOwn_readCircuit (l : Link) : KeepsOwn (.readCircuit l) := fun s => by
  refine ⟨_, rfl, .takeFor (fun _ t => .onUnit fun _ => ?_) s⟩
  split <;> exact .refl t

theorem keepsOwn_readPlan (l : Link) : KeepsOwn (.readPlan l) := fun s => by
  refine ⟨_, rfl, .takeFor (fun _ t => .onUnit fun _ => ?_) s⟩
  split <;> exact .refl t

theorem keepsOwn_readLine (l : Link) : KeepsOwn (.readLine l) := fun s => by
  refine ⟨_, rfl, .takeFor (fun _ t => ?_) s⟩
  dsimp only
  split
  · exact .refl t
  · exact .of_records (.of_eq rfl rfl rfl rfl rfl rfl) rfl

theorem keepsOwn_readSchedule (l : Link) : KeepsOwn (.readSchedule l) :=
  fun s => ⟨_, rfl, .takeFor (fun _ t => .refl t) s⟩

theorem keepsOwn_readClock (l : Link) : KeepsOwn (.readClock l) := fun s => ⟨_, rfl, .takeFor (fun _ t => .refl t) s⟩

theorem keepsOwn_writeLine (l : Link) : KeepsOwn (.writeLine l) := fun s => by
  refine ⟨_, rfl, .takeFor (fun _ t => ?_) s⟩
  split
  · exact .refl t
  next run fn invert _ =>
    split
    · exact .refl t
    · exact .foldl (fun t i => t.tended_writeLine l fn invert i) run t

theorem keepsOwn_writeMeterSetup (l : Link) : KeepsOwn (.writeMeterSetup l) := fun s => by
  refine ⟨_, rfl, .takeFor (fun _ t => .onUnit fun m => ?_) s⟩
  split
  · exact .refl t
  next u _ =>
    split
    · exact .refl t
    · split
      · exact .refl t
      · exact t.tended_writeMeterSetup l m u

theorem keepsOwn_writePortalSetup (l : Link) : KeepsOwn (.writePortalSetup l) := fun s => by
  refine ⟨_, rfl, .takeFor (fun _ t => .onUnit fun p => ?_) s⟩
  split
  · exact .refl t
  · split
    · exact .refl t
    next m q f _ => exact t.tended_writePortalSetup l p m q f

theorem keepsOwn_writeZone (l : Link) : KeepsOwn (.writeZone l) := fun s => by
  refine ⟨_, rfl, .takeFor (fun _ t => .onUnit fun z => ?_) s⟩
  split
  · exact .refl t
  · split
    · exact t.tended_writeZone l z _
    · exact .refl t

theorem keepsOwn_writePlan (l : Link) : KeepsOwn (.writePlan l) := fun s => by
  refine ⟨_, rfl, .takeFor (fun _ t => ?_) s⟩
  split
  · exact .overUnits_same t
  next w _ => exact .overUnits (fun p t => t.tended_writePlan l w p) t

theorem keepsOwn_writeSchedule (l : Link) : KeepsOwn (.writeSchedule l) := fun s => by
  refine ⟨_, rfl, .takeFor (fun _ t => ?_) s⟩
  split
  · exact .refl t
  next ws _ => exact t.tended_writeSchedule l ws

theorem keepsOwn_writeBoreSetup (l : Link) : KeepsOwn (.writeBoreSetup l) :=
  fun s => ⟨_, rfl, .takeFor (fun _ t => .overUnits (fun b t => t.tended_writeBoreSetup l b _) t) s⟩

theorem keepsOwn_setClock (l : Link) : KeepsOwn (.setClock l) := fun s => by
  refine ⟨_, rfl, .takeFor (fun _ t => ?_) s⟩
  dsimp only
  split
  · exact t.tended_setClock l _
  · exact .refl t

theorem keepsOwn_commission (l : Link) : KeepsOwn (.commission l) := fun s => by
  refine ⟨_, rfl, .takeFor (fun _ t => ?_) s⟩
  split
  · exact .refl t
  · exact .visitAll (fun p t => t.tended_commissionOne l p) _ t

theorem keepsOwn_hold (l : Link) : KeepsOwn (.hold l) := fun s => ⟨_, rfl, .takeFor (fun r t => .deferAll l _ r t) s⟩

theorem keepsOwn_release (l : Link) : KeepsOwn (.release l) :=
  fun s => ⟨_, rfl, .takeFor (fun r t => .deferAll l _ r t) s⟩

theorem keepsOwn_stopOrderly (l : Link) : KeepsOwn (.stopOrderly l) := fun s => by
  refine ⟨_, rfl, .take (fun r t => .checked ?_) s⟩
  split
  · exact .deferAll l _ r t
  · exact .overUnits_same t

theorem keepsOwn_stopImmediate (l : Link) : KeepsOwn (.stopImmediate l) :=
  fun s => ⟨_, rfl, .take (fun _ t => .checked (.overUnits (fun p t => t.tended_stopOne l p) t)) s⟩

theorem keepsOwn_overrideSet (l : Link) : KeepsOwn (.overrideSet l) := fun s => by
  refine ⟨_, rfl, .takeFor (fun _ t => ?_) s⟩
  dsimp only
  split
  · exact .overUnits_same t
  next kind f hv =>
    exact .overUnits (fun p t => .of_moves (t.moves_overrideOne p kind f _) (conditionsFollow_kept.keptByWork.control.setOverride t p _ (kind, f) _ hv)) t

theorem keepsOwn_overrideClear (l : Link) : KeepsOwn (.overrideClear l) :=
  fun s => ⟨_, rfl, .takeFor (fun _ t => .overUnits (fun p t => .of_moves (t.moves_unoverrideOne p)
    (conditionsFollow_kept.keptByWork.control.clearOverride t p)) t) s⟩

theorem keepsOwn_dryRunStart (l : Link) : KeepsOwn (.dryRunStart l) := fun s => by
  refine ⟨_, rfl, .takeFor (fun _ t => ?_) s⟩
  split
  · exact .overUnits_same t
  next x _ => exact .overUnits (fun p t => .of_works (t.works_dryRunOne x p) (conditionsFollow_kept.keptByWork.control.dryRun t p x)
      fun _ h => (State.moves_dryRunOne h x).periods) t

theorem keepsOwn_dryRunInput (l : Link) : KeepsOwn (.dryRunInput l) := fun s => by
  refine ⟨_, rfl, .takeFor (fun _ t => ?_) s⟩
  split
  · exact .overUnits_same t
  next x _ => exact .overUnits (fun p t => .of_moves (t.moves_dryInputOne p x) (conditionsFollow_kept.keptByWork.control.dryInput t p x)) t

theorem keepsOwn_dryRunStop (l : Link) : KeepsOwn (.dryRunStop l) :=
  fun s => ⟨_, rfl, .takeFor (fun _ t => .overUnits (fun p t => .of_works (t.works_dryStopOne p) (conditionsFollow_kept.keptByWork.control.dryStop t p)
    fun _ h => (State.moves_dryStopOne h).periods) t) s⟩

theorem keepsOwn_lockoutModify (l : Link) : KeepsOwn (.lockoutModify l) :=
  fun s => ⟨_, rfl, .takeFor (fun _ t => .onUnit fun z => .of_moves (t.moves_lockout z _ _) (conditionsFollow_kept.keptByWork.control.lockout t z _ _)) s⟩

theorem keepsOwn_burnReset (l : Link) : KeepsOwn (.burnReset l) :=
  fun s => ⟨_, rfl, .takeFor (fun _ t => .onUnit fun z => .of_moves (t.moves_burnReset z _) (conditionsFollow_kept.keptByWork.control.burnReset t z _)) s⟩

theorem keepsOwn_speedReport (l : Link) : KeepsOwn (.speedReport l) := fun s => by
  refine ⟨_, rfl, .takeFor (fun _ t => ?_) s⟩
  dsimp only
  split
  · exact .overUnits_same t
  · exact .overUnits (fun b t => .of_moves (t.moves_reportOne _ _ _ b) (conditionsFollow_kept.keptByWork.control.report t b _ _ _)) t

theorem keepsOwn_directionSet (l : Link) : KeepsOwn (.directionSet l) := fun s => by
  refine ⟨_, rfl, .takeFor (fun _ t => ?_) s⟩
  split
  · exact .overUnits_same t
  next mode _ => exact .overUnits (fun b t => t.tended_directionOne l mode b) t

theorem keepsOwn_emergencySet (l : Link) : KeepsOwn (.emergencySet l) :=
  fun s => ⟨_, rfl, .takeFor (fun _ t => .overUnits (fun b t => .of_works (t.works_emergencyOne b) (conditionsFollow_kept.keptByWork.control.emergency t b)
    fun _ h => (State.moves_emergencyOne h b).periods) t) s⟩

theorem keepsOwn_emergencyClear (l : Link) : KeepsOwn (.emergencyClear l) :=
  fun s => ⟨_, rfl, .takeFor (fun _ t => .overUnits (fun b t => .of_works (t.works_clearOne b) (conditionsFollow_kept.keptByWork.control.clear t b)
    fun _ h => (State.moves_clearOne h b).periods) t) s⟩

theorem keepsOwn_portalEvaluation (p : Fin 4) : KeepsOwn (.portalEvaluation p) := fun s => by
  refine ⟨_, rfl, .event (fun t => ?_) s⟩
  split
  · exact .refl t
  next e he => exact (State.Tended.retimed t _ _ _ _ _).trans ((t.reach e).tended_portalEvaluation p e he)

theorem keepsOwn_boreEvaluation (b : Fin 2) : KeepsOwn (.boreEvaluation b) :=
  fun s => ⟨_, rfl, .event (fun t => (State.Tended.retimed t _ _ _ _ _).trans
    (.of_moves ((t.reach _).moves_boreEvaluation b _) (conditionsFollow_kept.keptByWork.boreEvaluation (t.reach _) b _))) s⟩

theorem keepsOwn_gateExpiry (m : Fin 4) : KeepsOwn (.gateExpiry m) := fun s => by
  refine ⟨_, rfl, .event (fun t => ?_) s⟩
  split
  · exact .refl t
  next e _ => exact (State.Tended.retimed t _ _ _ _ _).trans ((t.reach e).tended_endGate m e)

theorem keepsOwn_meterEdge (x : PinReading) : KeepsOwn (.meterEdge x) := fun s => by
  refine ⟨_, rfl, .event (fun t => ?_) s⟩
  split
  next d _ _ =>
    split
    · exact .refl t
    · exact t.tended_readPin x d
  · exact .refl t

theorem keepsOwn_feedbackChange (i : Fin 192) : KeepsOwn (.feedbackChange i) := fun s => by
  refine ⟨_, rfl, .event (fun t => ?_) s⟩
  split
  · exact (State.Tended.retimed t _ t.burnDue t.sampleDue t.periodDue _).trans (State.tended_sampleLines _ (.inr ⟨i, rfl⟩) _ _)
  · exact .refl t

theorem keepsOwn_settleExpiry (z : Fin 14) (k : Fin 8) : KeepsOwn (.settleExpiry z k) := fun s => by
  refine ⟨_, rfl, .event (fun t => ?_) s⟩
  split
  · exact .refl t
  next e _ => exact (State.Tended.retimed t _ _ _ _ _).trans ((t.reach e).tended_putCircuit z k (Circuit.setup_settled _))

theorem keepsOwn_lossExpiry (z : Fin 14) (k : Fin 8) : KeepsOwn (.lossExpiry z k) := fun s => by
  refine ⟨_, rfl, .event (fun t => ?_) s⟩
  split
  · exact .refl t
  next e _ => exact (State.Tended.retimed t _ _ _ _ _).trans ((t.reach e).tended_putCircuit z k Circuit.setup_lost)

theorem keepsOwn_burnTick : KeepsOwn .burnTick :=
  fun s => ⟨_, rfl, .event (fun t => State.Tended.trans (.of_moves t.moves_burn (conditionsFollow_kept.keptByWork.burn t))
    (.retimed _ _ _ t.sampleDue t.periodDue t.pins)) s⟩

theorem keepsOwn_overrideExpiry (p : Fin 4) : KeepsOwn (.overrideExpiry p) := fun s => by
  refine ⟨_, rfl, .event (fun t => ?_) s⟩
  split
  · exact .refl t
  next v hv =>
    split
    · exact .refl t
    next e _ =>
      exact (State.Tended.retimed t _ _ _ _ _).trans
        (.of_moves ((t.reach e).moves_endOverride p v) (conditionsFollow_kept.keptByWork.override (t.reach e) p v hv))

theorem keepsOwn_staleExpiry (b : Fin 2) : KeepsOwn (.staleExpiry b) := fun s => by
  refine ⟨_, rfl, .event (fun t => ?_) s⟩
  split
  · exact .refl t
  next e _ =>
    exact (State.Tended.retimed t _ _ _ _ _).trans
      (.of_moves ((t.reach e).moves_goneStale b) (conditionsFollow_kept.keptByWork.stale (t.reach e) b))

theorem keepsOwn_minuteAdvance : KeepsOwn .minuteAdvance := fun s => by
  refine ⟨_, rfl, .event (fun t => ?_) s⟩
  split
  · exact .refl t
  next k _ => exact { State.Tended.refl t with clock := fun _ h => absurd rfl h }

theorem keepsOwn_feedbackSample (pins : BitVec 192) : KeepsOwn (.feedbackSample pins) :=
  fun s => ⟨_, rfl, .event (fun t => (State.Tended.retimed t _ t.burnDue _ t.periodDue pins).trans
    (State.tended_sampleLines _ (.inl ⟨pins, rfl⟩) _ _)) s⟩

theorem keepsOwn_pwmPeriodStart : KeepsOwn .pwmPeriodStart :=
  fun s => ⟨_, rfl, .event (fun t => t.tended_period.trans (.retimed _ _ t.burnDue t.sampleDue _ t.pins)) s⟩

/-! ### Every command -/

/-- Every command but those of reset leaves the settings that it does not write. -/
theorem keepsOwn_of_event {c : Instr} (hc : ofReset c = false) : KeepsOwn c := by
  cases c
  case powerOn | resetPin | resetPinRelease => cases hc
  case rxOctet l o e => exact keepsOwn_rxOctet l o e
  case gapTimerExpiry l => exact keepsOwn_gapTimerExpiry l
  case linkRestart l => exact keepsOwn_linkRestart l
  case lineReturnsToMark l => exact keepsOwn_lineReturnsToMark l
  case transmissionEnd l => exact keepsOwn_transmissionEnd l
  case unknownCode l => exact keepsOwn_unknownCode l
  case echo l => exact keepsOwn_echo l
  case setNoticeMask l => exact keepsOwn_setNoticeMask l
  case readPortal l => exact keepsOwn_readPortal l
  case readBore l => exact keepsOwn_readBore l
  case readZone l => exact keepsOwn_readZone l
  case readMeter l => exact keepsOwn_readMeter l
  case readCircuit l => exact keepsOwn_readCircuit l
  case readPlan l => exact keepsOwn_readPlan l
  case readLine l => exact keepsOwn_readLine l
  case readSchedule l => exact keepsOwn_readSchedule l
  case readClock l => exact keepsOwn_readClock l
  case writeLine l => exact keepsOwn_writeLine l
  case writeMeterSetup l => exact keepsOwn_writeMeterSetup l
  case writePortalSetup l => exact keepsOwn_writePortalSetup l
  case writeZone l => exact keepsOwn_writeZone l
  case writePlan l => exact keepsOwn_writePlan l
  case writeSchedule l => exact keepsOwn_writeSchedule l
  case writeBoreSetup l => exact keepsOwn_writeBoreSetup l
  case setClock l => exact keepsOwn_setClock l
  case commission l => exact keepsOwn_commission l
  case hold l => exact keepsOwn_hold l
  case release l => exact keepsOwn_release l
  case stopOrderly l => exact keepsOwn_stopOrderly l
  case stopImmediate l => exact keepsOwn_stopImmediate l
  case overrideSet l => exact keepsOwn_overrideSet l
  case overrideClear l => exact keepsOwn_overrideClear l
  case dryRunStart l => exact keepsOwn_dryRunStart l
  case dryRunInput l => exact keepsOwn_dryRunInput l
  case dryRunStop l => exact keepsOwn_dryRunStop l
  case lockoutModify l => exact keepsOwn_lockoutModify l
  case burnReset l => exact keepsOwn_burnReset l
  case speedReport l => exact keepsOwn_speedReport l
  case directionSet l => exact keepsOwn_directionSet l
  case emergencySet l => exact keepsOwn_emergencySet l
  case emergencyClear l => exact keepsOwn_emergencyClear l
  case portalEvaluation p => exact keepsOwn_portalEvaluation p
  case boreEvaluation b => exact keepsOwn_boreEvaluation b
  case gateExpiry m => exact keepsOwn_gateExpiry m
  case meterEdge x => exact keepsOwn_meterEdge x
  case feedbackChange i => exact keepsOwn_feedbackChange i
  case settleExpiry z k => exact keepsOwn_settleExpiry z k
  case lossExpiry z k => exact keepsOwn_lossExpiry z k
  case burnTick => exact keepsOwn_burnTick
  case overrideExpiry p => exact keepsOwn_overrideExpiry p
  case staleExpiry b => exact keepsOwn_staleExpiry b
  case minuteAdvance => exact keepsOwn_minuteAdvance
  case feedbackSample pins => exact keepsOwn_feedbackSample pins
  case pwmPeriodStart => exact keepsOwn_pwmPeriodStart

theorem exec_tended {c : Instr} {s t : State} (hc : ofReset c = false) (h : exec c s = .next t) : s.Tended c t := by
  obtain ⟨u, hu, ht⟩ := keepsOwn_of_event hc s
  rw [h, Host.Outcome.next.injEq] at hu
  exact hu ▸ ht

end Sys2Proof.Machine
end

