-- ==== Sys2Proof/Proofs/Obligations/Settings3.lean ====
section
/-! SUPPORT. The PWM periods over a portal's evaluation, and the statement about settings and their writes (O6). -/

namespace Sys2Proof.Machine

variable {s t : State} {p : Fin 4}

/-! ### The periods over a portal's evaluation (R149, R151) -/

/-- An evaluation that does not take its portal out of service moves no supervision. -/
theorem State.moves_takeAction (hc : s.ConditionsFollow) (hp : (s.portal p).action ≠ none → (s.portal p).state ≠ .offline)
    (hst : ((s.takeAction p).portal p).state = .offline → (s.portal p).state = .offline) : s.Moves (s.takeAction p) := by
  obtain ha | ⟨a, ha⟩ := Option.eq_none_or_eq_some (s.portal p).action
  · rw [State.takeAction, ha]
    exact .refl s
  · have hin : (s.portal p).state ≠ .offline := hp (by rw [ha]; exact Option.some_ne_none a)
    cases hk : a.kind with
    | hold =>
      rw [State.takeAction_hold ha hk]
      exact State.moves_restated hc hin (by decide) a
    | release =>
      have htake : s.takeAction p = s.releaseNow p a := (State.takeAction_release ha hk).trans rfl
      rw [htake]
      exact State.moves_releaseNow hc hin a
    | stopOrderly =>
      cases hflight : s.portalInFlight p with
      | false =>
        refine absurd (hst ?_) hin
        rw [State.takeAction_stop ha hk hflight, State.portal_stoppedOrderly_self]
      | true =>
        have htake : s.takeAction p = s := by
          unfold State.takeAction
          rw [ha]
          dsimp only
          rw [hk]
          exact if_pos hflight
        rw [htake]
        exact .refl s

theorem State.moves_evaluatePortal (hc : s.ConditionsFollow) (hp : (s.portal p).action ≠ none → (s.portal p).state ≠ .offline)
    (hst : ((s.evaluatePortal p).portal p).state = .offline → (s.portal p).state = .offline) : s.Moves (s.evaluatePortal p) := by
  rw [State.evaluatePortal_of_taken rfl] at hst ⊢
  by_cases hoff : ((s.takeAction p).portal p).state = .offline
  · rw [if_pos hoff] at hst ⊢
    exact State.moves_takeAction hc hp hst
  · rw [if_neg hoff]
    exact (State.moves_takeAction hc hp fun h => absurd h hoff).trans (State.moves_evaluateSteps _ p)

/-- A portal with an action to take is in service (R105). -/
theorem State.PortalsFit.inService_of_action (h : s.PortalsFit) (ha : (s.portal p).action ≠ none) :
    (s.portal p).state ≠ .offline :=
  fun hst => ha (State.action_eq_none_of_offline h hst)

theorem State.moves_atPortalEvaluation (e : Uptime) (hfit : s.PortalsFit) (hc : s.ConditionsFollow)
    (hst : (((s.atPortalEvaluation p e).evaluatePortal p).portal p).state = .offline → (s.portal p).state = .offline) (i : Fin 192) :
    (((s.atPortalEvaluation p e).evaluatePortal p).line i).period = (s.line i).period := by
  have hself := State.portal_atPortalEvaluation (s := s) (p := p) e
  have hmoves : (s.atPortalEvaluation p e).Moves ((s.atPortalEvaluation p e).evaluatePortal p) :=
    State.moves_evaluatePortal hc.atPortalEvaluation (fun ha => by
      rw [hself] at ha ⊢
      exact hfit.inService_of_action ha) fun h => by
      rw [hself]
      exact hst h
  exact hmoves.periods i

/-- The effect of PORTAL_EVALUATION on a part that is awake (R106). -/
def State.portalEvaluated (p : Fin 4) (s : State) : State :=
  match (s.portal p).timer with
  | none => s
  | some e => (s.atPortalEvaluation p e).evaluatePortal p

theorem exec_portalEvaluation_eq (s : State) (p : Fin 4) :
    exec (.portalEvaluation p) s = .next (s.event (State.portalEvaluated p)) := rfl

theorem State.periods_portalEvaluated (hfit : s.PortalsFit) (hc : s.ConditionsFollow)
    (hst : ((s.portalEvaluated p).portal p).state = .offline → (s.portal p).state = .offline) (i : Fin 192) :
    ((s.portalEvaluated p).line i).period = (s.line i).period := by
  unfold State.portalEvaluated at hst ⊢
  cases he : (s.portal p).timer with
  | none => rfl
  | some e =>
    rw [he] at hst
    exact State.moves_atPortalEvaluation e hfit hc hst i

theorem State.periods_portalEvaluation (hfit : s.PortalsFit) (hc : s.ConditionsFollow) (h : exec (.portalEvaluation p) s = .next t)
    (hst : (t.portal p).state = .offline → (s.portal p).state = .offline) (i : Fin 192) :
    (t.line i).period = (s.line i).period := by
  rw [exec_portalEvaluation_eq, Host.Outcome.next.injEq] at h
  subst h
  cases hr : s.inReset with
  | true => rw [State.event_held hr]
  | false =>
    rw [State.event_awake hr] at hst ⊢
    exact State.periods_portalEvaluated (s := s.arbitrate) hfit hc hst i

/-- Settles O6. -/
theorem settingsChangeOnlyByTheirWrites : Obligations.SettingsChangeOnlyByTheirWrites := by
  intro c s t h hon hrelease hpin
  have ht : s.Tended c t := exec_tended (ofReset_eq_false.mpr ⟨hon, hrelease, hpin⟩) h
  refine ⟨ht.schedule, ht.clock, ht.lines, ht.setups, ht.plans, ht.modes, ht.timeouts, fun hc z => ?_, ht.meters, ht.inputs,
    ht.edges, fun hfollow hfit hperiod hline hcommission hstop hportal => ?_⟩
  · have hz := ht.zones hc z
    exact ⟨hz.order, hz.settle, hz.hysteresis, hz.minDim, hz.circuits⟩
  · by_cases hp : ∃ p, c = .portalEvaluation p
    · obtain ⟨p, rfl⟩ := hp
      exact State.periods_portalEvaluation hfit hfollow h (hportal p rfl)
    · refine ht.periods (fun hset => ?_) hfollow
      unfold setsPeriods at hset
      split at hset
      next => exact hperiod rfl
      next l => exact hline l rfl
      next l => exact hcommission l rfl
      next l => exact hstop l rfl
      next p => exact hp ⟨p, rfl⟩
      next => exact hset

end Sys2Proof.Machine
end
